-- ==== Sys2Proof/Word.lean ====
section
/-! DEFINITION. The words of huffman_codec: the widths that 00_scope.md rule R7 and 10_state.md give its values. -/

namespace Sys2Proof

/-- One input byte value, `BYTE_W` = 8 (R7). -/
abbrev Byte := BitVec 8

/-- One host-visible register (R19) and one command word (R71). -/
abbrev Word := BitVec 32

/-- A symbol, `SYM_W` = 9: a byte value or `PSEUDO_EOF` (R7, R16). -/
abbrev Sym := BitVec 9

/-- A node index, `NODE_IDX_W` = 10 (R7). -/
abbrev NodeIdx := BitVec 10

/-- A node weight, `WEIGHT_W` = 33 (R7, R8). -/
abbrev Weight := BitVec 33

/-- A size or count result, `SIZE_W` = 64 (R7). -/
abbrev Size := BitVec 64

/-- The code bits of one `CODE` entry, the first code bit at the top (R38). -/
abbrev CodeBits := BitVec 256

end Sys2Proof
end

