-- ==== Sys2Proof/Syntax.lean ====
section
/-! DEFINITION. The commands of huffman_codec: one constructor per row of spec/opcode_table.json (30_encoding.md rule R73). -/

namespace Sys2Proof

/-- A command.  `idx` is the field `IDX` (bits 9:0), `wsel` the field `WSEL` (bits 19:16) and `force`
the field `F` (bit 23) of the command word, unsigned and as they stand (R71, R72). -/
inductive Instr where
  /-- `NOP`, R89. -/
  | nop
  /-- `CLEAR`, R90. -/
  | clear
  /-- `COUNT`, R94. -/
  | count
  /-- `LOAD_FREQ idx`, R95. -/
  | loadFreq (idx : BitVec 10)
  /-- `READ_FREQ idx`, R96. -/
  | readFreq (idx : BitVec 10)
  /-- `BUILD_TREE`, R104. -/
  | buildTree
  /-- `READ_NODE idx, wsel`, R105. -/
  | readNode (wsel : BitVec 4) (idx : BitVec 10)
  /-- `GEN_CODES`, R108. -/
  | genCodes
  /-- `READ_CODE idx, wsel`, R109. -/
  | readCode (wsel : BitVec 4) (idx : BitVec 10)
  /-- `ESTIMATE` and `ESTIMATE.F`, R126. -/
  | estimate (force : Bool)
  /-- `WRITE_HEADER`, R120. -/
  | writeHeader
  /-- `ENCODE`, R127. -/
  | encode
  /-- `FLUSH`, R121. -/
  | flush
  /-- `COMPRESS` and `COMPRESS.F`, R128. -/
  | compress (force : Bool)
  /-- `DECOMPRESS`, R131. -/
  | decompress
  deriving DecidableEq, Repr

end Sys2Proof
end

