-- ==== Sys2Proof/WellFormed.lean ====
section
/-! DEFINITION. Which commands have all their operands in the legal range (30_encoding.md rule R72).
Every command has a word, well-formed or not; one that is not well-formed is rejected with `ERR_RANGE` at dispatch. -/

namespace Sys2Proof

/-- `IDX` names a byte value: 0 to 255 (R72, LOAD_FREQ and READ_FREQ). -/
def byteIndexOk (idx : BitVec 10) : Bool := idx.toNat ≤ 255

/-- `IDX` names a symbol: 0 to 256 (R72, READ_CODE). -/
def symbolIndexOk (idx : BitVec 10) : Bool := idx.toNat ≤ 256

/-- `IDX` names a `NODE` entry: 0 to 512 (R72, READ_NODE). -/
def nodeIndexOk (idx : BitVec 10) : Bool := idx.toNat ≤ 512

/-- `WSEL` names a word of a node: 0 to 2 (R72, READ_NODE). -/
def nodeWordOk (wsel : BitVec 4) : Bool := wsel.toNat ≤ 2

/-- `WSEL` names a word of a code: 0 to 7 (R72, READ_CODE). -/
def codeWordOk (wsel : BitVec 4) : Bool := wsel.toNat ≤ 7

/-- All operands of the command are in their legal ranges (R72). -/
def Instr.wellFormed : Instr → Bool
  | .loadFreq idx | .readFreq idx => byteIndexOk idx
  | .readNode wsel idx => nodeWordOk wsel && nodeIndexOk idx
  | .readCode wsel idx => codeWordOk wsel && symbolIndexOk idx
  | .nop | .clear | .count | .buildTree | .genCodes | .estimate _ | .writeHeader | .encode
  | .flush | .compress _ | .decompress => true

end Sys2Proof
end

