-- ==== Sys2Proof/Decode.lean ====
section
/-! DEFINITION. From command words to commands and back: the opcode map of 30_encoding.md rules R71, R73 and R74. -/

namespace Sys2Proof

/-- A row of the opcode map (R73): a word w selects it when `w & mask = pattern`. -/
structure OpRow where
  pattern : Word
  mask : Word
  /-- The command that the operand fields of a selected word give. -/
  operands : Word → Instr

/-- `w & mask = match` (R73). -/
def OpRow.selects (r : OpRow) (w : Word) : Bool := (w &&& r.mask) == r.pattern

/-- The field `OP`, bits 31:24 (R71). -/
def opField (w : Word) : BitVec 8 := w.extractLsb' 24 8

/-- The field `F`, bit 23 (R71). -/
def forceField (w : Word) : Bool := w.getLsbD 23

/-- The field `WSEL`, bits 19:16 (R71). -/
def wselField (w : Word) : BitVec 4 := w.extractLsb' 16 4

/-- The field `IDX`, bits 9:0 (R71). -/
def idxField (w : Word) : BitVec 10 := w.extractLsb' 0 10

/-- The rows of R73 whose commands belong to control, counter, tree builder and code table. -/
def opRowsLow : List OpRow :=
  [⟨0x00000000#32, 0xFFFFFFFF#32, fun _ => .nop⟩,
   ⟨0x01000000#32, 0xFFFFFFFF#32, fun _ => .clear⟩,
   ⟨0x02000000#32, 0xFFFFFFFF#32, fun _ => .count⟩,
   ⟨0x03000000#32, 0xFFFFFC00#32, fun w => .loadFreq (idxField w)⟩,
   ⟨0x04000000#32, 0xFFFFFC00#32, fun w => .readFreq (idxField w)⟩,
   ⟨0x05000000#32, 0xFFFFFFFF#32, fun _ => .buildTree⟩,
   ⟨0x06000000#32, 0xFFF0FC00#32, fun w => .readNode (wselField w) (idxField w)⟩,
   ⟨0x07000000#32, 0xFFFFFFFF#32, fun _ => .genCodes⟩,
   ⟨0x08000000#32, 0xFFF0FC00#32, fun w => .readCode (wselField w) (idxField w)⟩]

/-- The rows of R73 whose commands belong to compressor, header codec and decompressor. -/
def opRowsHigh : List OpRow :=
  [⟨0x09000000#32, 0xFF7FFFFF#32, fun w => .estimate (forceField w)⟩,
   ⟨0x0A000000#32, 0xFFFFFFFF#32, fun _ => .writeHeader⟩,
   ⟨0x0B000000#32, 0xFFFFFFFF#32, fun _ => .encode⟩,
   ⟨0x0C000000#32, 0xFFFFFFFF#32, fun _ => .flush⟩,
   ⟨0x0D000000#32, 0xFF7FFFFF#32, fun w => .compress (forceField w)⟩,
   ⟨0x0E000000#32, 0xFFFFFFFF#32, fun _ => .decompress⟩]

/-- The opcode map of R73, all fifteen rows. -/
def opRows : List OpRow := opRowsLow ++ opRowsHigh

/-- Why a word is illegal (R74). -/
inductive DecodeError where
  /-- `OP` is in 0x0F..0xFF, reserved for future commands. -/
  | reservedOpcode
  /-- `OP` names a row, and a field that the row fixes at 0 holds a 1. -/
  | fixedFieldSet
  deriving DecidableEq, Repr

/-- The command of a word, or why the word is illegal (R73, R74).  Total on all words. -/
def decode (w : Word) : Except DecodeError Instr :=
  match opRows.find? (fun r => r.selects w) with
  | some r => .ok (r.operands w)
  | none => .error (if (opField w).toNat ≤ 0x0E then .fixedFieldSet else .reservedOpcode)

/-- The opcode of a command, the column OP of R73. -/
def opcodeOf : Instr → BitVec 8
  | .nop => 0x00#8
  | .clear => 0x01#8
  | .count => 0x02#8
  | .loadFreq _ => 0x03#8
  | .readFreq _ => 0x04#8
  | .buildTree => 0x05#8
  | .readNode _ _ => 0x06#8
  | .genCodes => 0x07#8
  | .readCode _ _ => 0x08#8
  | .estimate _ => 0x09#8
  | .writeHeader => 0x0A#8
  | .encode => 0x0B#8
  | .flush => 0x0C#8
  | .compress _ => 0x0D#8
  | .decompress => 0x0E#8

/-- The field `F` of a command's word: 0 in every row but ESTIMATE and COMPRESS (R71). -/
def forceOf : Instr → BitVec 1
  | .estimate f | .compress f => BitVec.ofBool f
  | .nop | .clear | .count | .loadFreq _ | .readFreq _ | .buildTree | .readNode _ _ | .genCodes
  | .readCode _ _ | .writeHeader | .encode | .flush | .decompress => 0#1

/-- The field `WSEL` of a command's word: 0 in every row but READ_NODE and READ_CODE (R71). -/
def wselOf : Instr → BitVec 4
  | .readNode wsel _ | .readCode wsel _ => wsel
  | .nop | .clear | .count | .loadFreq _ | .readFreq _ | .buildTree | .genCodes | .estimate _
  | .writeHeader | .encode | .flush | .compress _ | .decompress => 0#4

/-- The field `IDX` of a command's word: 0 in every row but the four that name an index (R71). -/
def idxOf : Instr → BitVec 10
  | .loadFreq idx | .readFreq idx | .readNode _ idx | .readCode _ idx => idx
  | .nop | .clear | .count | .buildTree | .genCodes | .estimate _ | .writeHeader | .encode
  | .flush | .compress _ | .decompress => 0#10

/-- The word of a command, field by field as R71 lays them out: `OP`, `F`, three reserved bits, `WSEL`,
six reserved bits, `IDX`. -/
def encode (i : Instr) : Word :=
  opcodeOf i ++ forceOf i ++ 0#3 ++ wselOf i ++ 0#6 ++ idxOf i

/-- The command that the decoder reads from the table word w of nbits bits; the bits above nbits are 0.
A command is one 32-bit word (R71), so no longer word decodes. -/
def decodeTableWord (nbits w : Nat) : Option Instr :=
  if nbits ≤ 32 then (decode (BitVec.ofNat 32 (w % 2 ^ nbits))).toOption else none

end Sys2Proof
end

