-- ==== Sys2Proof/Config.lean ====
section
/-! DEFINITION. What this hardware fixes (00_scope.md rule R7), and the values the spec leaves free. -/

namespace Sys2Proof.Config

/-- `PSEUDO_EOF` = 256 (R7, 92_eei_decisions.md D3). -/
def pseudoEof : Sym := 256#9

/-- `MAGIC` = 0xFACE8200, `MAGIC_W` = 32 (R7, R34, 92_eei_decisions.md D4). -/
def magic : Word := 0xFACE8200#32

/-- The greatest value of one frequency and of `TOTAL`, `2^COUNT_W − 1` (R7, R93). -/
def countMax : Nat := 2 ^ 32 - 1

/-- `NODE_CAP` = 513 (R7). -/
def nodeCap : Nat := 513

/-- The number of `HEAP` entries at most (R39). -/
def heapCap : Nat := 257

/-- The number of `STACK` entries at most (R40). -/
def stackCap : Nat := 514

/-- The free values: `freeBits d j w` is the j-th value of width w of the d-th draw.
It has no body, so nothing can be proved of any of its values.
It stands for what the spec leaves open: 93_implementation_defined.md U3, U4, U5 (logs 5 to 8). -/
opaque freeBits (draw slot w : Nat) : BitVec w

/-- A free natural number of a draw: the length of a kept prefix (R151, U6) and the fill of a store
whose contents are unspecified (U3).  It has no body (log 5, log 8). -/
opaque freeNat (draw slot : Nat) : Nat

end Sys2Proof.Config
end

