-- ==== Sys2Proof/Machine/State.lean ====
section
/-! DEFINITION. The state of huffman_codec as plain data (10_state.md), the reasons a step of the model can stop, and the state after reset. -/

namespace Sys2Proof.Machine

/-- One transfer on a stream port: `Byte(b)` or `End` (R75). -/
inductive Beat where
  | byte (b : Byte)
  | endBeat
  deriving DecidableEq, Repr

/-- `STATUS.PHASE` (R22); the reserved values 12 to 15 do not exist here, as they are never shown. -/
inductive Phase where
  | idle | count | build | codes | estimate | hdrWrite | encode | flush | hdrRead | walk | drain | short
  deriving DecidableEq, Repr

/-- The error codes of `ERROR` (R133); the reserved codes 0x0B to 0xFF do not exist here, as they are
never written. -/
inductive ErrCode where
  | none | illegalCmd | range | sequence | magic | hdrTrunc | hdrInvalid | bodyTrunc | invariant
  | countOverflow | aborted
  deriving DecidableEq, Repr

/-- One entry of `NODE` (R37). -/
structure Node where
  valid : Bool
  leaf : Bool
  symbol : Sym
  left : NodeIdx
  right : NodeIdx
  weight : Weight
  deriving DecidableEq, Repr

/-- One entry of `CODE` (R38). -/
structure CodeEntry where
  valid : Bool
  len : BitVec 9
  bits : CodeBits
  deriving DecidableEq, Repr

/-- One entry of `HEAP` (R39). -/
structure HeapEntry where
  weight : Weight
  id : NodeIdx
  deriving DecidableEq, Repr

/-- An open child slot of the header parse (R118): the root's slot `TOP`, or a side of a node. -/
inductive Slot where
  | top
  | left (parent : NodeIdx)
  | right (parent : NodeIdx)
  deriving DecidableEq, Repr

/-- One entry of `STACK` (R40): a node and its path (R106), a node (R116) or an open child slot (R118). -/
inductive StackEntry where
  | path (node : NodeIdx) (bits : List Bool)
  | node (node : NodeIdx)
  | slot (slot : Slot)
  deriving DecidableEq, Repr

/-- Where a suspended procedure stopped, with its locals (R43): each point stands just before an
`InBeat()`, an assignment to `STATUS.PHASE`, a `finish()` or a `raise` (R61). -/
inductive Point where
  /-- The start of the procedure (R83). -/
  | start
  /-- Just before `finish()` (R84). -/
  | finishing
  /-- Just before `raise Error(code, info)` (R136). -/
  | raising (code : ErrCode) (info : Word)
  /-- At the `InBeat()` of `CountPass` (R91). -/
  | countIn
  /-- COMPRESS, just before `PHASE <- BUILD` (R128). -/
  | buildPhase
  /-- COMPRESS, just before `PHASE <- CODES` (R128). -/
  | codesPhase
  /-- COMPRESS, just before `PHASE <- ESTIMATE` (R128). -/
  | estimatePhase
  /-- COMPRESS, just before `PHASE <- HDR_WRITE` (R128). -/
  | headerPhase
  /-- COMPRESS, just before `PHASE <- ENCODE`; `h` is the number of header bits written (R128). -/
  | encodePhase (h : Nat)
  /-- At the `InBeat()` of `EncodePass`; `nb` is its local, `h` the header bits of COMPRESS, 0 in ENCODE (R125). -/
  | encodeIn (h nb : Nat)
  /-- Just before `PHASE <- FLUSH`; `e` is the number of body bits written (R127, R128). -/
  | flushPhase (h e : Nat)
  /-- At the `InBeat()` of `ReadBits(32)` of the magic marker: `got` bits read, of value `v` (R118, R114). -/
  | magicIn (got v : Nat)
  /-- At the `InBeat()` of the tag bit of the child slot `slot`; `made` is `k` of R118. -/
  | tagIn (slot : Slot) (made nb : Nat)
  /-- At the `InBeat()` of `ReadBits(9)` of the symbol of node `id`: `got` bits read, of value `v` (R118). -/
  | symIn (id : NodeIdx) (made nb got v : Nat)
  /-- DECOMPRESS, just before `PHASE <- WALK` (R131). -/
  | walkPhase
  /-- At the `InBeat()` of `Walking(cur)`; `cnt` bytes emitted (R130). -/
  | walkIn (cur : NodeIdx) (cnt : Nat)
  /-- DECOMPRESS, just before `PHASE <- DRAIN` (R131). -/
  | drainPhase (cnt : Nat)
  /-- At the `InBeat()` of the draining loop (R131). -/
  | drainIn (cnt : Nat)
  deriving DecidableEq, Repr

/-- One turn of the schedule: a host action (R48, R52, R54, R55, R150) or a turn of the core (R61). -/
inductive Event where
  | core
  | regWrite (a : BitVec 8) (v : Word)
  | regRead (a : BitVec 8)
  | pushIn (x : Beat)
  | dropIn
  | popOut
  | reset
  deriving DecidableEq, Repr

/-- The state (R17).  Every field but the last four is the spec's; the last four are the model's own. -/
structure State where
  /-- `CTRL.IE` (R20). -/
  ie : Bool
  /-- `STATUS.BUSY`, the same bit as the core's `BUSY` (R21, R43). -/
  busy : Bool
  /-- `STATUS.DONE` (R21). -/
  done : Bool
  /-- `STATUS.ERR` (R21). -/
  err : Bool
  /-- `STATUS.GATED` (R21, R44). -/
  gated : Bool
  /-- `STATUS.TREE_VALID` (R21, R44). -/
  treeValid : Bool
  /-- `STATUS.CODES_VALID` (R21, R44). -/
  codesValid : Bool
  /-- `STATUS.EST_VALID` (R21, R44). -/
  estValid : Bool
  /-- `STATUS.TREE_DECODED` (R21, R44). -/
  treeDecoded : Bool
  /-- `STATUS.CMD_DROPPED` (R21, R85). -/
  cmdDropped : Bool
  /-- `STATUS.PHASE` (R22). -/
  phase : Phase
  /-- `DATA` (R24). -/
  data : Word
  /-- `ERROR` (R25). -/
  error : ErrCode
  /-- `ERR_INFO` (R26). -/
  errInfo : Word
  /-- `TOTAL` (R27). -/
  total : Word
  /-- `HDR_BITS` (R28). -/
  hdrBits : Word
  /-- `EST_ORIG` (R29). -/
  estOrig : Size
  /-- `EST_COMP` (R29). -/
  estComp : Size
  /-- `RESULT` (R30). -/
  result : Size
  /-- `CODE_LEN` (R31). -/
  codeLen : BitVec 9
  /-- `NODE_COUNT` (R32). -/
  nodeCount : BitVec 10
  /-- `ROOT` (R33). -/
  root : NodeIdx
  /-- `FREQ` (R36). -/
  freq : Vector Word 256
  /-- `NODE` (R37). -/
  node : Vector Node 513
  /-- `CODE` (R38). -/
  code : Vector CodeEntry 257
  /-- `HEAP` (R39), least entry first. -/
  heap : List HeapEntry
  /-- `STACK` (R40), top first. -/
  stack : List StackEntry
  /-- `PK_ACC` (R41). -/
  pkAcc : BitVec 8
  /-- `PK_N`, 0 to 7 (R41). -/
  pkN : Fin 8
  /-- `UP_BUF` (R42). -/
  upBuf : BitVec 8
  /-- `UP_N`, 0 to 8 (R42). -/
  upN : Fin 9
  /-- `UP_EOS` (R42). -/
  upEos : Bool
  /-- `UP_BYTES` (R42). -/
  upBytes : BitVec 64
  /-- `CUR_CMD` (R43). -/
  curCmd : Word
  /-- `K`, the suspended procedure (R43). -/
  k : Option Point
  /-- `IN_Q`, the oldest beat first (R52). -/
  inQ : List Beat
  /-- `OUT_Q`, the oldest beat first (R55). -/
  outQ : List Beat
  /-- The model's own: the events still to happen, the next one first (log 2). -/
  agenda : List Event
  /-- The model's own: how many draws of free values there have been (log 5). -/
  draws : Nat
  /-- The model's own: the word the last `RegRead` returned, the pins `reg_rdata` of R50 (log 15). -/
  rdata : Word
  /-- The model's own: the beat the last `PopOut` returned (log 15). -/
  popped : Option Beat
  deriving DecidableEq, Repr

/-- Why the model's machine stops.  No run from reset, from any agenda, meets one of these: they close the
cases of states that no run reaches. -/
inductive Fault where
  /-- Raised by every meaning when `BUSY = 1` and `K` is empty or holds a point of another command's
  procedure, which R43 excludes.  Safe: the model stops (log 11). -/
  | lostPoint
  /-- Raised by the core's turn when `BUSY = 1` and `CUR_CMD` is no legal word, which R83 excludes.
  Safe: the model stops (log 11). -/
  | lostCommand
  /-- Raised by GEN_CODES, WRITE_HEADER and COMPRESS when following the children from `ROOT` visits more
  than `NODE_CAP` nodes, so that the loops of R106 and R116 need not end; R103 and R118 exclude it.
  Safe: the model stops (log 10). -/
  | endlessWalk
  deriving DecidableEq, Repr

/-- Why the model has no meaning for a command. -/
inductive Refusal where
  /-- The command has no meaning yet.  Raised by no arm of exec: all fifteen commands have theirs.  Safe. -/
  | notModelled (mnemonic : String)
  deriving DecidableEq, Repr

/-- What one transition answers. -/
abbrev Result := Host.Outcome State Fault Refusal

/-- A `NODE` entry with every field 0: no node (R37; its value at reset is log 4). -/
def Node.absent : Node := ⟨false, false, 0, 0, 0, 0⟩

/-- A `CODE` entry of a symbol with no code (R38; its value at reset is log 4). -/
def CodeEntry.absent : CodeEntry := ⟨false, 0, 0⟩

/-- The state after reset (R46, R152).  DESIGN CHOICE for `NODE`, `CODE`, `HEAP`, `STACK` and the two queues, whose
values R46 leaves open (log 4), and for the model's own fields (logs 2, 5, 15). -/
def State.reset : State where
  ie := false
  busy := false
  done := false
  err := false
  gated := false
  treeValid := false
  codesValid := false
  estValid := false
  treeDecoded := false
  cmdDropped := false
  phase := .idle
  data := 0
  error := .none
  errInfo := 0
  total := 0
  hdrBits := 0
  estOrig := 0
  estComp := 0
  result := 0
  codeLen := 0
  nodeCount := 0
  root := 0
  freq := Vector.replicate 256 0
  node := Vector.replicate 513 Node.absent
  code := Vector.replicate 257 CodeEntry.absent
  heap := []
  stack := []
  pkAcc := 0
  pkN := 0
  upBuf := 0
  upN := 0
  upEos := false
  upBytes := 0
  curCmd := 0
  k := none
  inQ := []
  outQ := []
  agenda := []
  draws := 0
  rdata := 0
  popped := none

end Sys2Proof.Machine
end

