-- ==== Sys2Proof/Machine/Flags.lean ====
section
/-! DEFINITION. The status fields as words, the validity flags and the interrupt line (10_state.md sections 2 and 6, 60_exceptions.md). -/

namespace Sys2Proof.Machine

/-- The number of a phase (R22). -/
def Phase.number : Phase → BitVec 4
  | .idle => 0#4
  | .count => 1#4
  | .build => 2#4
  | .codes => 3#4
  | .estimate => 4#4
  | .hdrWrite => 5#4
  | .encode => 6#4
  | .flush => 7#4
  | .hdrRead => 8#4
  | .walk => 9#4
  | .drain => 10#4
  | .short => 11#4

/-- The number of an error code (R133). -/
def ErrCode.number : ErrCode → BitVec 8
  | .none => 0x00#8
  | .illegalCmd => 0x01#8
  | .range => 0x02#8
  | .sequence => 0x03#8
  | .magic => 0x04#8
  | .hdrTrunc => 0x05#8
  | .hdrInvalid => 0x06#8
  | .bodyTrunc => 0x07#8
  | .invariant => 0x08#8
  | .countOverflow => 0x09#8
  | .aborted => 0x0A#8

/-- The word of `CTRL`: bit 0 `IE`, every other bit 0 (R20). -/
def State.ctrlWord (s : State) : Word := 0#31 ++ BitVec.ofBool s.ie

/-- The word of `STATUS`, from bit 31 down to bit 0 (R21). -/
def State.statusWord (s : State) : Word :=
  0#12 ++ s.phase.number ++ 0#7 ++ BitVec.ofBool s.cmdDropped ++ BitVec.ofBool s.treeDecoded ++
    BitVec.ofBool s.estValid ++ BitVec.ofBool s.codesValid ++ BitVec.ofBool s.treeValid ++
    BitVec.ofBool s.gated ++ BitVec.ofBool s.err ++ BitVec.ofBool s.done ++ BitVec.ofBool s.busy

/-- A write of v to `STATUS`: a 1 clears `DONE`, `ERR`, `CMD_DROPPED`; every other bit is ignored (R21, R87). -/
def State.statusWrite (v : Word) (s : State) : State :=
  { s with
    done := s.done && !v.getLsbD 1
    err := s.err && !v.getLsbD 2
    cmdDropped := s.cmdDropped && !v.getLsbD 8 }

/-- The interrupt output, `CTRL.IE & (STATUS.DONE | STATUS.ERR)` (R140). -/
def State.irq (s : State) : Bool := s.ie && (s.done || s.err)

/-- All five validity flags cleared (R44, R86). -/
def State.clearValid (s : State) : State :=
  { s with treeValid := false, treeDecoded := false, codesValid := false, estValid := false, gated := false }

/-- The flags that ESTIMATE clears at its start (R44). -/
def State.clearEstimate (s : State) : State := { s with estValid := false, gated := false }

/-- The flags that GEN_CODES clears at its start (R44). -/
def State.clearCodes (s : State) : State := { s with codesValid := false, estValid := false, gated := false }

/-- The size gate: 1 exactly when `EST_COMP ≥ EST_ORIG` and the force flag is 0 (R124). -/
def gateOf (force : Bool) (orig comp : Nat) : Bool := decide (orig ≤ comp) && !force

/-- The start of every command, accepted or rejected: `DONE`, `ERR`, `ERROR` and `ERR_INFO` are cleared (R83). -/
def State.beginDispatch (s : State) : State :=
  { s with done := false, err := false, error := .none, errInfo := 0 }

end Sys2Proof.Machine
end

