-- ==== Sys2Proof/Machine/Ops.lean ====
section
/-! DEFINITION. The operations every command shares: bit strings, the internal memories, the bit packer and unpacker, and how a command ends: its normal exit, the error exit, a rejection, an abort. -/

namespace Sys2Proof.Machine

/-! ## Bit strings (R10, R11) -/

/-- `bits_n(v)`: the n low bits of v, most significant first (R11). -/
def msbBits (n v : Nat) : List Bool := (List.range n).map (fun j => v.testBit (n - 1 - j))

/-- The value of a bit string, the first bit most significant (R57). -/
def bitsValue (p : List Bool) : Nat := p.foldl (fun v b => 2 * v + b.toNat) 0

/-- A 32-bit word of a natural number, its low bits. -/
def wordOf (n : Nat) : Word := BitVec.ofNat 32 n

/-! ## The internal memories (R36 to R38)

Every index a command uses is in range; the accessors are total by reading absent entries outside the memory and
dropping writes there (log 9). -/

/-- `FREQ[i]` (R36). -/
def freqAt (v : Vector Word 256) (i : Nat) : Word := (v[i]?).getD 0

/-- `NODE[i]` (R37). -/
def nodeAt (v : Vector Node 513) (i : NodeIdx) : Node := (v[i.toNat]?).getD Node.absent

/-- `CODE[i]` (R38). -/
def codeAt (v : Vector CodeEntry 257) (i : Nat) : CodeEntry := (v[i]?).getD CodeEntry.absent

/-- `FREQ[i] <- x`. -/
def freqSet (v : Vector Word 256) (i : Nat) (x : Word) : Vector Word 256 := v.setIfInBounds i x

/-- `NODE[i] <- n`. -/
def nodeSet (v : Vector Node 513) (i : NodeIdx) (n : Node) : Vector Node 513 := v.setIfInBounds i.toNat n

/-- `CODE[i] <- c`. -/
def codeSet (v : Vector CodeEntry 257) (i : Nat) (c : CodeEntry) : Vector CodeEntry 257 := v.setIfInBounds i c

/-- Every `FREQ` entry 0. -/
def freqZero : Vector Word 256 := Vector.replicate 256 0

/-- `NODE[i].valid <- 0` for every i; no other field changes (R104, R118). -/
def nodesInvalid (v : Vector Node 513) : Vector Node 513 := v.map (fun n => { n with valid := false })

/-- Every `CODE` entry `{valid 0, len 0, bits 0}` (R106). -/
def codesAbsent : Vector CodeEntry 257 := Vector.replicate 257 CodeEntry.absent

/-! ## Stopping a step (R61) -/

/-- The step stops with the procedure suspended at the point p. -/
def State.suspend (p : Point) (s : State) : State := { s with k := some p }

/-! ## The bit packer (R110 to R112) -/

/-- `OutBeat(x)` (R55). -/
def State.outBeat (x : Beat) (s : State) : State := { s with outQ := s.outQ ++ [x] }

/-- The packer emptied without output (R112). -/
def State.clearPacker (s : State) : State := { s with pkAcc := 0, pkN := 0 }

/-- `{PK_ACC[6:0], b}` (R110). -/
def shiftIn (acc : BitVec 8) (b : Bool) : BitVec 8 := (acc.setWidth 7).concat b

/-- `PushBit(b)` (R110). -/
def State.pushBit (s : State) (b : Bool) : State :=
  let acc := shiftIn s.pkAcc b
  if s.pkN = 7 then (s.outBeat (.byte acc)).clearPacker else { s with pkAcc := acc, pkN := s.pkN + 1 }

/-- `PushBit` of each bit in turn: `WriteBits(n, v)` is this for `bits_n(v)`, `WriteCode(s)` for the bits of a code (R110). -/
def State.pushBits (s : State) (p : List Bool) : State := p.foldl State.pushBit s

/-- The bits of a code, the first code bit first: `bits[255 − j]` for j below `len` (R38, R110). -/
def CodeEntry.path (c : CodeEntry) : List Bool := (List.range c.len.toNat).map (fun j => c.bits.getMsbD j)

/-- `Flush()` (R111). -/
def State.flushPacker (s : State) : State :=
  let s1 := if s.pkN = 0 then s else s.outBeat (.byte (s.pkAcc <<< (8 - s.pkN.val)))
  s1.clearPacker.outBeat .endBeat

/-! ## The bit unpacker (R113, R115) -/

/-- `UnpackerReset()` (R115). -/
def State.resetUnpacker (s : State) : State := { s with upBuf := 0, upN := 0, upEos := false, upBytes := 0 }

/-- The unpacker takes the byte b: `UP_BUF <- b; UP_N <- 8; UP_BYTES <- UP_BYTES + 1` (R113). -/
def State.loadByte (b : Byte) (s : State) : State := { s with upBuf := b, upN := 8, upBytes := s.upBytes + 1 }

/-! ## How a command ends -/

/-- `finish()`, the normal exit (R84). -/
def State.finish (s : State) : State := { s with busy := false, phase := .idle, k := none, done := true }

/-- `raise Error(code, info)`, the error exit of a running command (R136): the code and its context are saved, the
packer and the unpacker are emptied, the core becomes idle, and everything else stays as the procedure left it. -/
def State.raiseError (code : ErrCode) (info : Word) (s : State) : State :=
  { s with
    error := code, errInfo := info
    pkAcc := 0, pkN := 0
    upBuf := 0, upN := 0, upEos := false, upBytes := 0
    busy := false, phase := .idle, k := none, err := true }

/-- `reject(code, w)`, the rejection of a command at dispatch (R135). -/
def State.reject (code : ErrCode) (w : Word) (s : State) : State :=
  { s with error := code, errInfo := w, err := true }

/-! ## Unspecified contents (93_implementation_defined.md U3, U5; logs 5, 6, 8) -/

/-- A `NODE` entry of 64 free bits. -/
def Node.ofBits (b : BitVec 64) : Node where
  valid := b.getLsbD 63
  leaf := b.getLsbD 62
  symbol := b.extractLsb' 53 9
  left := b.extractLsb' 43 10
  right := b.extractLsb' 33 10
  weight := b.extractLsb' 0 33

/-- A `CODE` entry of 266 free bits. -/
def CodeEntry.ofBits (b : BitVec 266) : CodeEntry where
  valid := b.getLsbD 265
  len := b.extractLsb' 256 9
  bits := b.extractLsb' 0 256

/-- A `HEAP` entry of 43 free bits. -/
def HeapEntry.ofBits (b : BitVec 43) : HeapEntry := ⟨b.extractLsb' 10 33, b.extractLsb' 0 10⟩

/-- `NODE` unspecified: every bit of every entry is free. -/
def freeNodes (d : Nat) : Vector Node 513 := Vector.ofFn (fun i => Node.ofBits (Config.freeBits d (1000 + i.val) 64))

/-- `CODE` unspecified: every bit of every entry is free. -/
def freeCodes (d : Nat) : Vector CodeEntry 257 := Vector.ofFn (fun i => CodeEntry.ofBits (Config.freeBits d (2000 + i.val) 266))

/-- `HEAP` unspecified: any number of entries up to its size, every bit of each free (R39). -/
def freeHeap (d : Nat) : List HeapEntry :=
  (List.range (Config.freeNat d 1 % (Config.heapCap + 1))).map (fun j => HeapEntry.ofBits (Config.freeBits d (3000 + j) 43))

/-- `STACK` unspecified: any number of entries up to its size, each naming a free node (R40). -/
def freeStack (d : Nat) : List StackEntry :=
  (List.range (Config.freeNat d 2 % (Config.stackCap + 1))).map (fun j => .node (Config.freeBits d (4000 + j) 10))

/-- `abort()`, a write of 1 to `CTRL.ABORT` while a command runs (R86).  `FREQ`, `TOTAL` and both queues stay; the
result registers and the stores become free values, all of one draw (U3, U5). -/
def State.abort (s : State) : State :=
  { s with
    k := none
    treeValid := false, treeDecoded := false, codesValid := false, estValid := false, gated := false
    pkAcc := 0, pkN := 0
    upBuf := 0, upN := 0, upEos := false, upBytes := 0
    busy := false, phase := .idle
    err := true, error := .aborted, errInfo := s.phase.number.setWidth 32
    hdrBits := Config.freeBits s.draws 0 32
    estOrig := Config.freeBits s.draws 1 64
    estComp := Config.freeBits s.draws 2 64
    result := Config.freeBits s.draws 3 64
    codeLen := Config.freeBits s.draws 4 9
    nodeCount := Config.freeBits s.draws 5 10
    root := Config.freeBits s.draws 6 10
    data := Config.freeBits s.draws 7 32
    node := freeNodes s.draws, code := freeCodes s.draws, heap := freeHeap s.draws, stack := freeStack s.draws
    draws := s.draws + 1 }

end Sys2Proof.Machine
end

