-- ==== Sys2Proof/Machine/Operands.lean ====
section
/-! DEFINITION. The operands and prerequisites of the commands, and dispatch (30_encoding.md rules R72, R73, R79, R80; 40_control.md rule R83). -/

namespace Sys2Proof.Machine

/-- `in_range` (R83): the operands of the command are in the legal ranges of R72. -/
def inRange : Instr → Bool
  | .loadFreq idx => idx.toNat ≤ 255
  | .readFreq idx => idx.toNat ≤ 255
  | .readNode wsel idx => decide (idx.toNat ≤ 512) && decide (wsel.toNat ≤ 2)
  | .readCode wsel idx => decide (idx.toNat ≤ 256) && decide (wsel.toNat ≤ 7)
  | .nop | .clear | .count | .buildTree | .genCodes | .estimate _ | .writeHeader | .encode
  | .flush | .compress _ | .decompress => true

/-- The prerequisite column of R73. -/
def prerequisite (i : Instr) (s : State) : Bool :=
  match i with
  | .readNode _ _ | .writeHeader => s.treeValid
  | .genCodes => s.treeValid && !s.treeDecoded
  | .readCode _ _ | .estimate _ | .encode => s.codesValid
  | .nop | .clear | .count | .loadFreq _ | .readFreq _ | .buildTree | .flush | .compress _ | .decompress => true

/-- `first_phase` (R83). -/
def firstPhase : Instr → Phase
  | .nop | .clear | .loadFreq _ | .readFreq _ | .readNode _ _ | .readCode _ _ => .short
  | .count | .compress _ => .count
  | .buildTree => .build
  | .genCodes => .codes
  | .estimate _ => .estimate
  | .writeHeader => .hdrWrite
  | .encode => .encode
  | .flush => .flush
  | .decompress => .hdrRead

/-- The column "at start" of R44. -/
def atStart (i : Instr) (s : State) : State :=
  match i with
  | .nop | .readFreq _ | .readNode _ _ | .readCode _ _ | .writeHeader | .encode | .flush => s
  | .clear | .count | .loadFreq _ | .buildTree | .compress _ | .decompress => s.clearValid
  | .genCodes => s.clearCodes
  | .estimate _ => s.clearEstimate

/-- Dispatch takes the command i: the core is busy with it, at the start of its procedure (R83). -/
def accept (i : Instr) (s : State) : State :=
  { atStart i s with curCmd := encode i, busy := true, phase := firstPhase i, k := some .start }

/-- Dispatch of a legal word while the core is idle: the range check, then the prerequisite, then acceptance (R83, R139). -/
def dispatchLegal (i : Instr) (s : State) : State :=
  if !inRange i then s.beginDispatch.reject .range (encode i)
  else if !prerequisite i s then s.beginDispatch.reject .sequence (encode i)
  else accept i s.beginDispatch

/-- Dispatch of an illegal word while the core is idle (R74, R83). -/
def dispatchIllegal (w : Word) (s : State) : State := s.beginDispatch.reject .illegalCmd w

/-- The next transition of the command i: its dispatch while the core is idle, otherwise the core's next step in its
procedure `proc`, from the point where it stands (R61, R83; log 13). -/
def command (i : Instr) (proc : Point → State → Result) (s : State) : Result :=
  if s.busy then
    match s.k with
    | some p => proc p s
    | none => .fault .lostPoint
  else .next (dispatchLegal i s)

/-- The points that every procedure ends at: `finish()` (R84) and `raise` (R136). -/
def endPoint (p : Point) (s : State) : Result :=
  match p with
  | .finishing => .next s.finish
  | .raising code info => .next (s.raiseError code info)
  | _ => .fault .lostPoint

/-- The word that READ_NODE gives (R79, R105). -/
def nodeWord (n : Node) (wsel : BitVec 4) : Word :=
  if !n.valid then 0
  else
    match wsel.toNat with
    | 0 => BitVec.ofBool n.valid ++ BitVec.ofBool n.leaf ++ n.left ++ n.right ++ 0#1 ++ n.symbol
    | 1 => n.weight.setWidth 32
    | _ => (n.weight.extractLsb' 32 1).setWidth 32

/-- The length that READ_CODE gives: 0 for a symbol with no code (R80, R109). -/
def codeLength (c : CodeEntry) : BitVec 9 := if c.valid then c.len else 0

/-- The word that READ_CODE gives: `bits[255 − 32k : 224 − 32k]`, 0 for a symbol with no code (R80, R109). -/
def codeWord (c : CodeEntry) (wsel : BitVec 4) : Word :=
  if c.valid then c.bits.extractLsb' (224 - 32 * wsel.toNat) 32 else 0

end Sys2Proof.Machine
end

