-- ==== Sys2Proof/Machine/CodeTable.lean ====
section
/-! DEFINITION. The code table generator: GEN_CODES and READ_CODE (43_code_table.md). -/

namespace Sys2Proof.Machine

/-- The walk of `MakeTable()` (R106), the top of `STACK` first: the symbol and the path of each leaf, in the order the walk
meets them.  Each turn pops one entry; `none` when entries are left after `fuel` turns (log 10). -/
def codeWalk : Nat → Vector Node 513 → List (NodeIdx × List Bool) → Option (List (Sym × List Bool))
  | _, _, [] => some []
  | 0, _, _ :: _ => none
  | fuel + 1, v, (i, p) :: rest =>
    let n := nodeAt v i
    if n.leaf then (codeWalk fuel v rest).map (fun found => (n.symbol, p) :: found)
    else codeWalk fuel v ((n.left, p ++ [false]) :: (n.right, p ++ [true]) :: rest)

/-- The `CODE` entry of a path: `bits[255 − j] = p[j]`, every other bit 0 (R106, R38). -/
def codeOfPath (p : List Bool) : CodeEntry :=
  ⟨true, BitVec.ofNat 9 p.length, BitVec.ofNat 256 (bitsValue p) <<< (256 - p.length)⟩

/-- Codes written to `CODE` in order. -/
def writeCodes (found : List (Sym × List Bool)) (v : Vector CodeEntry 257) : Vector CodeEntry 257 :=
  found.foldl (fun v e => codeSet v e.1.toNat (codeOfPath e.2)) v

/-- `MakeTable()` (R106): one atomic step; `STACK` is empty after its last pop. -/
def State.makeTable (s : State) : Option State :=
  (codeWalk Config.nodeCap s.node [(s.root, [])]).map
    (fun found => { s with code := writeCodes found codesAbsent, stack := [] })

/-- The procedure of GEN_CODES (R108). -/
def genCodesProc (p : Point) (s : State) : Result :=
  match p with
  | .start =>
    match s.makeTable with
    | some s1 => .next (State.suspend .finishing { s1 with codesValid := true })
    | none => .fault .endlessWalk
  | p => endPoint p s

/-- GEN_CODES (R108). -/
def execGenCodes (s : State) : Result := command .genCodes genCodesProc s

/-- The procedure of READ_CODE (R109). -/
def readCodeProc (wsel : BitVec 4) (idx : BitVec 10) (p : Point) (s : State) : Result :=
  match p with
  | .start =>
    let c := codeAt s.code idx.toNat
    .next (State.suspend .finishing { s with codeLen := codeLength c, data := codeWord c wsel })
  | p => endPoint p s

/-- READ_CODE (R109). -/
def execReadCode (wsel : BitVec 4) (idx : BitVec 10) (s : State) : Result :=
  command (.readCode wsel idx) (readCodeProc wsel idx) s

end Sys2Proof.Machine
end

