-- ==== Sys2Proof/Machine/Counter.lean ====
section
/-! DEFINITION. The symbol counter: COUNT, LOAD_FREQ and READ_FREQ (41_counter.md). -/

namespace Sys2Proof.Machine

/-- The start of `CountPass()`: every `FREQ` entry and `TOTAL` become 0 (R91). -/
def State.clearCounts (s : State) : State := { s with freq := freqZero, total := 0 }

/-- One byte counted: `FREQ[b]` and `TOTAL` grow by 1 together (R91, R92). -/
def State.countByte (b : Byte) (s : State) : State :=
  { s with freq := freqSet s.freq b.toNat (freqAt s.freq b.toNat + 1), total := s.total + 1 }

/-- The core at the `InBeat()` of `CountPass()` (R91, R93).  With no beat in `IN_Q` it waits (R52).  A byte that finds
`TOTAL` at its greatest value is taken and not counted; the pass then raises.  At `End` the pass is over and the
procedure goes on with `after`. -/
def countBeat (after : State → State) (s : State) : State :=
  match s.inQ with
  | [] => s
  | .endBeat :: rest => after { s with inQ := rest }
  | .byte b :: rest =>
    if s.total.toNat = Config.countMax then
      State.suspend (.raising .countOverflow (b.setWidth 32)) { s with inQ := rest }
    else (State.countByte b { s with inQ := rest }).suspend .countIn

/-- COUNT after its pass: `RESULT <- TOTAL` (R94). -/
def State.countDone (s : State) : State := State.suspend .finishing { s with result := s.total.setWidth 64 }

/-- The procedure of COUNT (R94). -/
def countProc (p : Point) (s : State) : Result :=
  match p with
  | .start => .next (s.clearCounts.suspend .countIn)
  | .countIn => .next (countBeat State.countDone s)
  | p => endPoint p s

/-- COUNT (R94). -/
def execCount (s : State) : Result := command .count countProc s

/-- The total that LOAD_FREQ would leave, `TOTAL − FREQ[b] + v`, exact (R95). -/
def loadedTotal (idx : BitVec 10) (s : State) : Nat :=
  s.total.toNat - (freqAt s.freq idx.toNat).toNat + s.data.toNat

/-- The procedure of LOAD_FREQ (R95). -/
def loadFreqProc (idx : BitVec 10) (p : Point) (s : State) : Result :=
  match p with
  | .start =>
    .next
      (if Config.countMax < loadedTotal idx s then s.suspend (.raising .countOverflow (idx.setWidth 32))
       else State.suspend .finishing
        { s with freq := freqSet s.freq idx.toNat s.data, total := wordOf (loadedTotal idx s) })
  | p => endPoint p s

/-- LOAD_FREQ (R95). -/
def execLoadFreq (idx : BitVec 10) (s : State) : Result := command (.loadFreq idx) (loadFreqProc idx) s

/-- The procedure of READ_FREQ (R81, R96). -/
def readFreqProc (idx : BitVec 10) (p : Point) (s : State) : Result :=
  match p with
  | .start => .next (State.suspend .finishing { s with data := freqAt s.freq idx.toNat })
  | p => endPoint p s

/-- READ_FREQ (R96). -/
def execReadFreq (idx : BitVec 10) (s : State) : Result := command (.readFreq idx) (readFreqProc idx) s

end Sys2Proof.Machine
end

