-- ==== Sys2Proof/Machine/HeaderCodec.lean ====
section
/-! DEFINITION. The header codec's writing side and the bit packer's command: WRITE_HEADER and FLUSH (44_header_codec.md sections 3, 5, 6). -/

namespace Sys2Proof.Machine

/-- The bits of the tree in preorder (R116), the top of `STACK` first: a leaf is `1` and its 9-bit symbol, an internal node
is `0`, left subtree before right.  `none` when entries are left after `fuel` turns (log 10). -/
def treeBits : Nat → Vector Node 513 → List NodeIdx → Option (List Bool)
  | _, _, [] => some []
  | 0, _, _ :: _ => none
  | fuel + 1, v, i :: rest =>
    let n := nodeAt v i
    if n.leaf then (treeBits fuel v rest).map (fun bits => true :: (msbBits 9 n.symbol.toNat ++ bits))
    else (treeBits fuel v (n.left :: n.right :: rest)).map (fun bits => false :: bits)

/-- The bits that `WriteHeader()` writes: the magic marker, then the tree from `ROOT` (R116). -/
def headerBits (s : State) : Option (List Bool) :=
  (treeBits Config.nodeCap s.node [s.root]).map (fun bits => msbBits 32 Config.magic.toNat ++ bits)

/-- `WriteHeader()` (R116): the state with the header bits pushed, and the number of bits written; `STACK` is empty after
its last pop. -/
def State.writeHeader (s : State) : Option (State × Nat) :=
  (headerBits s).map (fun bits => ({ s.pushBits bits with stack := [] }, bits.length))

/-- The procedure of WRITE_HEADER (R120). -/
def writeHeaderProc (p : Point) (s : State) : Result :=
  match p with
  | .start =>
    match s.writeHeader with
    | some (s1, nb) => .next (State.suspend .finishing { s1 with hdrBits := wordOf nb, result := BitVec.ofNat 64 nb })
    | none => .fault .endlessWalk
  | p => endPoint p s

/-- WRITE_HEADER (R120). -/
def execWriteHeader (s : State) : Result := command .writeHeader writeHeaderProc s

/-- The procedure of FLUSH (R121). -/
def flushProc (p : Point) (s : State) : Result :=
  match p with
  | .start => .next (s.flushPacker.suspend .finishing)
  | p => endPoint p s

/-- FLUSH (R121). -/
def execFlush (s : State) : Result := command .flush flushProc s

end Sys2Proof.Machine
end

