-- ==== Sys2Proof/Machine/TreeBuilder.lean ====
section
/-! DEFINITION. The tree builder: BUILD_TREE and READ_NODE (42_tree_builder.md). -/

namespace Sys2Proof.Machine

/-- The priority order `(w1, id1) < (w2, id2)`: by weight, and among equal weights by id (R98). -/
def HeapEntry.before (a b : HeapEntry) : Bool :=
  decide (a.weight.toNat < b.weight.toNat) || (a.weight == b.weight && decide (a.id.toNat < b.id.toNat))

/-- `HeapInsert` into a heap held least entry first, so that `HeapExtractMin` takes the head (R39, R98; log 12). -/
def heapInsert (e : HeapEntry) : List HeapEntry → List HeapEntry
  | [] => [e]
  | h :: rest => if e.before h then e :: h :: rest else h :: heapInsert e rest

/-- The pairs of the bytes with a nonzero count, in ascending order (R99). -/
def byteLeaves (freq : Vector Word 256) : List HeapEntry :=
  ((List.range 256).filter (fun b => freqAt freq b != 0)).map
    (fun b => ⟨(freqAt freq b).setWidth 33, BitVec.ofNat 10 b⟩)

/-- The pair of the `PSEUDO_EOF` leaf (R99). -/
def eofLeaf : HeapEntry := ⟨1, Config.pseudoEof.setWidth 10⟩

/-- The pair of the phantom leaf of byte 0 (R100). -/
def phantomLeaf : HeapEntry := ⟨0, 0⟩

/-- The pairs of all leaves in the order of their insertion (R99, R100): the phantom when `PSEUDO_EOF` would be alone. -/
def leafEntries (freq : Vector Word 256) : List HeapEntry :=
  let leaves := byteLeaves freq ++ [eofLeaf]
  if leaves.length = 1 then leaves ++ [phantomLeaf] else leaves

/-- The `NODE` entry of a leaf, whose index is its symbol (R97, R99). -/
def leafNode (e : HeapEntry) : Node := ⟨true, true, e.id.setWidth 9, 0, 0, e.weight⟩

/-- The `NODE` entry of the merge of the pairs a and b, in the order of their extraction (R101). -/
def mergeNode (a b : HeapEntry) : Node := ⟨true, false, 0, a.id, b.id, a.weight + b.weight⟩

/-- The merge loop of R101 over a heap of at most `fuel + 1` pairs, the next internal node being `next`: the entries it
writes, in order, and the root. -/
def mergeLoop : Nat → List HeapEntry → NodeIdx → List (NodeIdx × Node) × NodeIdx
  | fuel + 1, a :: b :: rest, next =>
    let (writes, root) := mergeLoop fuel (heapInsert ⟨a.weight + b.weight, next⟩ rest) (next + 1)
    ((next, mergeNode a b) :: writes, root)
  | _, a :: _, _ => ([], a.id)
  | _, [], _ => ([], 0)

/-- The heap once every leaf is inserted (R99, R100). -/
def leafHeap (freq : Vector Word 256) : List HeapEntry :=
  (leafEntries freq).foldl (fun h e => heapInsert e h) []

/-- What BUILD_TREE writes for the table `freq`, leaves first, then merges (R99 to R101): the entries of `NODE` in order,
and the root. -/
def treePlan (freq : Vector Word 256) : List (NodeIdx × Node) × NodeIdx :=
  let leaves := leafEntries freq
  let (merges, root) := mergeLoop (leaves.length - 1) (leafHeap freq) 257
  (leaves.map (fun e => (e.id, leafNode e)) ++ merges, root)

/-- Entries written to `NODE` in order. -/
def writeNodes (writes : List (NodeIdx × Node)) (v : Vector Node 513) : Vector Node 513 :=
  writes.foldl (fun v e => nodeSet v e.1 e.2) v

/-- `BuildTree()` (R104): one atomic step; `HEAP` is empty after its last extraction. -/
def State.buildTree (s : State) : State :=
  let plan := treePlan s.freq
  { s with
    node := writeNodes plan.1 (nodesInvalid s.node)
    heap := []
    root := plan.2
    nodeCount := BitVec.ofNat 10 (2 * (leafEntries s.freq).length - 1) }

/-- The procedure of BUILD_TREE (R104). -/
def buildTreeProc (p : Point) (s : State) : Result :=
  match p with
  | .start => .next (State.suspend .finishing { s.buildTree with treeValid := true })
  | p => endPoint p s

/-- BUILD_TREE (R104). -/
def execBuildTree (s : State) : Result := command .buildTree buildTreeProc s

/-- The procedure of READ_NODE (R105). -/
def readNodeProc (wsel : BitVec 4) (idx : BitVec 10) (p : Point) (s : State) : Result :=
  match p with
  | .start => .next (State.suspend .finishing { s with data := nodeWord (nodeAt s.node idx) wsel })
  | p => endPoint p s

/-- READ_NODE (R105). -/
def execReadNode (wsel : BitVec 4) (idx : BitVec 10) (s : State) : Result :=
  command (.readNode wsel idx) (readNodeProc wsel idx) s

end Sys2Proof.Machine
end

