-- ==== Sys2Proof/Machine/Compressor.lean ====
section
/-! DEFINITION. The compressor: ESTIMATE, ENCODE and COMPRESS (45_compressor.md). -/

namespace Sys2Proof.Machine

/-- The number of symbols that have a code (R122). -/
def codeCount (v : Vector CodeEntry 257) : Nat := (v.toList.filter (fun c => c.valid)).length

/-- `headerSize()` = `31 + 11 × L` (R122). -/
def headerSize (v : Vector CodeEntry 257) : Nat := 31 + 11 * codeCount v

/-- The body size of R123: the code length of each byte times its count, and the code length of `PSEUDO_EOF`. -/
def bodySize (code : Vector CodeEntry 257) (freq : Vector Word 256) : Nat :=
  ((List.range 256).map (fun b => (codeAt code b).len.toNat * (freqAt freq b).toNat)).sum +
    (codeAt code 256).len.toNat

/-- The estimated size of the compressed stream (R123). -/
def compressedSize (s : State) : Nat := headerSize s.code + bodySize s.code s.freq

/-- `Estimate(F)` (R123, R124): one atomic step. -/
def State.estimate (force : Bool) (s : State) : State :=
  { s with
    hdrBits := wordOf (headerSize s.code)
    estOrig := BitVec.ofNat 64 (8 * s.total.toNat)
    estComp := BitVec.ofNat 64 (compressedSize s)
    gated := gateOf force (8 * s.total.toNat) (compressedSize s)
    estValid := true }

/-- The procedure of ESTIMATE (R126). -/
def estimateProc (force : Bool) (p : Point) (s : State) : Result :=
  match p with
  | .start => .next ((s.estimate force).suspend .finishing)
  | p => endPoint p s

/-- ESTIMATE and ESTIMATE.F (R126). -/
def execEstimate (force : Bool) (s : State) : Result := command (.estimate force) (estimateProc force) s

/-- The core at the `InBeat()` of `EncodePass()` (R125); `h` is the number of header bits of COMPRESS, 0 in ENCODE.  With
no beat in `IN_Q` it waits (R52).  At `End` the code of `PSEUDO_EOF` is written and the pass is over. -/
def encodeBeat (h nb : Nat) (s : State) : State :=
  match s.inQ with
  | [] => s
  | .endBeat :: rest =>
    let c := codeAt s.code Config.pseudoEof.toNat
    (State.pushBits { s with inQ := rest } c.path).suspend (.flushPhase h (nb + c.len.toNat))
  | .byte b :: rest =>
    let c := codeAt s.code b.toNat
    if c.valid then (State.pushBits { s with inQ := rest } c.path).suspend (.encodeIn h (nb + c.len.toNat))
    else State.suspend (.raising .invariant (b.setWidth 32)) { s with inQ := rest }

/-- `PHASE <- FLUSH; Flush(); RESULT <- h + e` (R127, R128). -/
def State.flushBody (h e : Nat) (s : State) : State :=
  State.suspend .finishing { State.flushPacker { s with phase := .flush } with result := BitVec.ofNat 64 (h + e) }

/-- The procedure of ENCODE (R127). -/
def encodeProc (p : Point) (s : State) : Result :=
  match p with
  | .start => .next (s.suspend (.encodeIn 0 0))
  | .encodeIn h nb => .next (encodeBeat h nb s)
  | .flushPhase h e => .next (s.flushBody h e)
  | p => endPoint p s

/-- ENCODE (R127). -/
def execEncode (s : State) : Result := command .encode encodeProc s

/-- COMPRESS after pass 1: `RESULT <- 0`, and the step stops before `PHASE <- BUILD` (R128). -/
def State.passDone (s : State) : State := State.suspend .buildPhase { s with result := 0 }

/-- `PHASE <- BUILD; BuildTree(); TREE_VALID <- 1` (R128). -/
def State.compressBuild (s : State) : State :=
  State.suspend .codesPhase { State.buildTree { s with phase := .build } with treeValid := true }

/-- `PHASE <- CODES; MakeTable(); CODES_VALID <- 1` (R128). -/
def State.compressCodes (s : State) : Result :=
  match State.makeTable { s with phase := .codes } with
  | some s1 => .next (State.suspend .estimatePhase { s1 with codesValid := true })
  | none => .fault .endlessWalk

/-- `PHASE <- ESTIMATE; Estimate(F)`; when gated, `RESULT <- EST_COMP` and the command ends (R128). -/
def State.compressEstimate (force : Bool) (s : State) : State :=
  let s1 := State.estimate force { s with phase := .estimate }
  if s1.gated then State.suspend .finishing { s1 with result := s1.estComp }
  else s1.suspend .headerPhase

/-- `PHASE <- HDR_WRITE; h <- WriteHeader(); HDR_BITS <- h` (R128). -/
def State.compressHeader (s : State) : Result :=
  match State.writeHeader { s with phase := .hdrWrite } with
  | some (s1, h) => .next (State.suspend (.encodePhase h) { s1 with hdrBits := wordOf h })
  | none => .fault .endlessWalk

/-- The procedure of COMPRESS (R128). -/
def compressProc (force : Bool) (p : Point) (s : State) : Result :=
  match p with
  | .start => .next (s.clearPacker.clearCounts.suspend .countIn)
  | .countIn => .next (countBeat State.passDone s)
  | .buildPhase => .next s.compressBuild
  | .codesPhase => s.compressCodes
  | .estimatePhase => .next (s.compressEstimate force)
  | .headerPhase => s.compressHeader
  | .encodePhase h => .next (State.suspend (.encodeIn h 0) { s with phase := .encode })
  | .encodeIn h nb => .next (encodeBeat h nb s)
  | .flushPhase h e => .next (s.flushBody h e)
  | p => endPoint p s

/-- COMPRESS and COMPRESS.F (R128). -/
def execCompress (force : Bool) (s : State) : Result := command (.compress force) (compressProc force) s

end Sys2Proof.Machine
end

