-- ==== Sys2Proof/Machine/Control.lean ====
section
/-! DEFINITION. NOP and CLEAR (40_control.md rules R89 and R90). -/

namespace Sys2Proof.Machine

/-- The procedure of NOP: `finish()` (R89). -/
def nopProc (p : Point) (s : State) : Result :=
  match p with
  | .start => .next s.finish
  | p => endPoint p s

/-- NOP (R89). -/
def execNop (s : State) : Result := command .nop nopProc s

/-- The registers, memories and stores that CLEAR sets to 0 (R90). -/
def State.clearAll (s : State) : State :=
  { s with
    freq := freqZero, total := 0, hdrBits := 0, estOrig := 0, estComp := 0, result := 0
    codeLen := 0, nodeCount := 0, root := 0
    pkAcc := 0, pkN := 0
    upBuf := 0, upN := 0, upEos := false, upBytes := 0 }

/-- The procedure of CLEAR (R90). -/
def clearProc (p : Point) (s : State) : Result :=
  match p with
  | .start => .next (s.clearAll.suspend .finishing)
  | p => endPoint p s

/-- CLEAR (R90). -/
def execClear (s : State) : Result := command .clear clearProc s

end Sys2Proof.Machine
end

