-- ==== Sys2Proof/Machine/Decompressor.lean ====
section
/-! DEFINITION. The decompressor: DECOMPRESS, with the header parse and the walk (44_header_codec.md section 4, 46_decompressor.md). -/

namespace Sys2Proof.Machine

/-- What the procedure of DECOMPRESS does with a bit: it asks for the next bit at the point p, or it stops at the point p
just before a `PHASE` assignment or a `raise` (R61). -/
inductive BitStep where
  | wants (p : Point) (s : State)
  | stops (p : Point) (s : State)
  deriving DecidableEq, Repr

/-- `(8 × UP_BYTES)[31:0]`, the context of `ERR_HDR_TRUNC` (R118, R133). -/
def State.bitsHeld (s : State) : Word := wordOf (8 * s.upBytes.toNat)

/-- The header is read: `ROOT`, `NODE_COUNT`, `HDR_BITS` and the two flags are set, and a tree that is one leaf is told
from a tree to walk (R118, R131). -/
def headerDone (made nb : Nat) (s : State) : BitStep :=
  let s1 := { s with
    root := 0, nodeCount := BitVec.ofNat 10 made, hdrBits := wordOf nb, treeValid := true, treeDecoded := true }
  let n := nodeAt s1.node 0
  if n.leaf then
    if n.symbol = Config.pseudoEof then .stops (.drainPhase 0) s1 else .stops (.raising .hdrInvalid 3) s1
  else .stops .walkPhase s1

/-- The head of the parse loop: the next open slot is popped and its tag bit is asked for; with none left the header is
read (R118). -/
def nextSlot (made nb : Nat) (s : State) : BitStep :=
  match s.stack with
  | .slot slot :: rest => .wants (.tagIn slot made nb) { s with stack := rest }
  | _ => headerDone made nb s

/-- The node `id` becomes the child that `slot` stands for (R118). -/
def linkChild (slot : Slot) (id : NodeIdx) (v : Vector Node 513) : Vector Node 513 :=
  match slot with
  | .top => v
  | .left p => nodeSet v p { nodeAt v p with left := id }
  | .right p => nodeSet v p { nodeAt v p with right := id }

/-- The node just made is internal; its two slots are opened, the left one read first (R118). -/
def makeInternal (id : NodeIdx) (made nb : Nat) (s : State) : BitStep :=
  nextSlot made nb
    { s with
      node := nodeSet s.node id ⟨true, false, 0, 0, 0, 0⟩
      stack := .slot (.left id) :: .slot (.right id) :: s.stack }

/-- A bit of the magic marker (R114, R118): the 32nd completes it, and the parse of the tree begins. -/
def magicBit (got v : Nat) (b : Bool) (s : State) : BitStep :=
  let v := 2 * v + b.toNat
  if got + 1 < 32 then .wants (.magicIn (got + 1) v) s
  else if wordOf v = Config.magic then
    nextSlot 0 32 { s with node := nodesInvalid s.node, stack := [.slot .top] }
  else .stops (.raising .magic (wordOf v)) s

/-- A tag bit (R118): the capacity check, the link from the parent, and the kind of node. -/
def tagBit (slot : Slot) (made nb : Nat) (b : Bool) (s : State) : BitStep :=
  if made = Config.nodeCap then .stops (.raising .hdrInvalid 2) s
  else
    let id : NodeIdx := BitVec.ofNat 10 made
    let s1 := { s with node := linkChild slot id s.node }
    if b then .wants (.symIn id (made + 1) (nb + 1) 0 0) s1 else makeInternal id (made + 1) (nb + 1) s1

/-- A bit of a leaf's symbol field (R114, R118): the 9th completes it. -/
def symBit (id : NodeIdx) (made nb got v : Nat) (b : Bool) (s : State) : BitStep :=
  let v := 2 * v + b.toNat
  if got + 1 < 9 then .wants (.symIn id made nb (got + 1) v) s
  else if 256 < v then .stops (.raising .hdrInvalid (wordOf (1 ||| (v <<< 8)))) s
  else nextSlot made (nb + 9) { s with node := nodeSet s.node id ⟨true, true, BitVec.ofNat 9 v, 0, 0, 0⟩ }

/-- One transition of `Walking(cur)` (R130). -/
def walkBit (cur : NodeIdx) (cnt : Nat) (b : Bool) (s : State) : BitStep :=
  let next := if b then (nodeAt s.node cur).right else (nodeAt s.node cur).left
  let n := nodeAt s.node next
  if n.leaf then
    if n.symbol = Config.pseudoEof then .stops (.drainPhase cnt) s
    else .wants (.walkIn s.root (cnt + 1)) (s.outBeat (.byte (n.symbol.setWidth 8)))
  else .wants (.walkIn next cnt) s

/-- What the bit b does at a point that asks for a bit; no other point is ever given one. -/
def onBit (p : Point) (b : Bool) (s : State) : BitStep :=
  match p with
  | .magicIn got v => magicBit got v b s
  | .tagIn slot made nb => tagBit slot made nb b s
  | .symIn id made nb got v => symBit id made nb got v b s
  | .walkIn cur cnt => walkBit cur cnt b s
  | p => .stops p s

/-- What `EOS` does at a point that asks for a bit: a truncated header or a truncated body (R118, R130). -/
def onEos (p : Point) (s : State) : Point :=
  match p with
  | .walkIn _ cnt => .raising .bodyTrunc (wordOf cnt)
  | .magicIn _ _ | .tagIn _ _ _ | .symIn _ _ _ _ _ => .raising .hdrTrunc s.bitsHeld
  | p => p

/-- The step goes on from a point that asks for a bit while the unpacker still holds n bits, and then stops at the
`InBeat()` of `ReadBit()`, or, once the `End` beat has been taken, with `EOS` (R61, R113). -/
def runBits : Nat → Point → State → State
  | 0, p, s => if s.upEos then s.suspend (onEos p s) else s.suspend p
  | n + 1, p, s =>
    match onBit p (s.upBuf.getLsbD n) { s with upN := Fin.ofNat 9 n } with
    | .wants p' s' => runBits n p' s'
    | .stops p' s' => s'.suspend p'

/-- The core at the `InBeat()` of `ReadBit()` (R113).  With no beat in `IN_Q` it waits (R52). -/
def bitBeat (p : Point) (s : State) : State :=
  match s.inQ with
  | [] => s
  | .endBeat :: rest =>
    let s1 := { s with inQ := rest, upEos := true }
    s1.suspend (onEos p s1)
  | .byte b :: rest => runBits 8 p (State.loadByte b { s with inQ := rest })

/-- `PHASE <- WALK; cur <- 0`, and the walk goes on with the bits the unpacker still holds (R131). -/
def State.startWalk (s : State) : State := runBits s.upN.val (.walkIn 0 0) { s with phase := .walk }

/-- After the draining loop: `OutBeat(End); RESULT <- cnt` (R131). -/
def State.drained (cnt : Nat) (s : State) : State :=
  State.suspend .finishing { s.outBeat .endBeat with result := BitVec.ofNat 64 cnt }

/-- `PHASE <- DRAIN`, and the draining loop up to its first `InBeat()` (R131). -/
def State.startDrain (cnt : Nat) (s : State) : State :=
  let s1 := { s with phase := .drain }
  if s1.upEos then s1.drained cnt else s1.suspend (.drainIn cnt)

/-- The core at the `InBeat()` of the draining loop (R131).  With no beat in `IN_Q` it waits (R52). -/
def drainBeat (cnt : Nat) (s : State) : State :=
  match s.inQ with
  | [] => s
  | .endBeat :: rest => State.drained cnt { s with inQ := rest, upEos := true }
  | .byte _ :: rest => State.suspend (.drainIn cnt) { s with inQ := rest }

/-- The procedure of DECOMPRESS (R131). -/
def decompressProc (p : Point) (s : State) : Result :=
  match p with
  | .start => .next (s.resetUnpacker.suspend (.magicIn 0 0))
  | .magicIn got v => .next (bitBeat (.magicIn got v) s)
  | .tagIn slot made nb => .next (bitBeat (.tagIn slot made nb) s)
  | .symIn id made nb got v => .next (bitBeat (.symIn id made nb got v) s)
  | .walkPhase => .next s.startWalk
  | .walkIn cur cnt => .next (bitBeat (.walkIn cur cnt) s)
  | .drainPhase cnt => .next (s.startDrain cnt)
  | .drainIn cnt => .next (drainBeat cnt s)
  | p => endPoint p s

/-- DECOMPRESS (R131). -/
def execDecompress (s : State) : Result := command .decompress decompressProc s

end Sys2Proof.Machine
end

