-- ==== Sys2Proof/Machine/Dispatch.lean ====
section
/-! DEFINITION. One arm per command (spec/opcode_table.json). -/

namespace Sys2Proof.Machine

/-- The next transition of the command i: its dispatch while the core is idle, its next core step while it runs (log 13). -/
def exec (i : Instr) (s : State) : Host.Outcome State Fault Refusal :=
  match i with
  | .nop => Sys2Proof.Machine.execNop s
  | .clear => Sys2Proof.Machine.execClear s
  | .count => Sys2Proof.Machine.execCount s
  | .loadFreq idx => Sys2Proof.Machine.execLoadFreq idx s
  | .readFreq idx => Sys2Proof.Machine.execReadFreq idx s
  | .buildTree => Sys2Proof.Machine.execBuildTree s
  | .readNode wsel idx => Sys2Proof.Machine.execReadNode wsel idx s
  | .genCodes => Sys2Proof.Machine.execGenCodes s
  | .readCode wsel idx => Sys2Proof.Machine.execReadCode wsel idx s
  | .estimate force => Sys2Proof.Machine.execEstimate force s
  | .writeHeader => Sys2Proof.Machine.execWriteHeader s
  | .encode => Sys2Proof.Machine.execEncode s
  | .flush => Sys2Proof.Machine.execFlush s
  | .compress force => Sys2Proof.Machine.execCompress force s
  | .decompress => Sys2Proof.Machine.execDecompress s

end Sys2Proof.Machine
end

