-- ==== Sys2Proof/Machine/Agents.lean ====
section
/-! DEFINITION. The two agents: the core's turn, and the host's actions (20_memory.md rules R48 to R56, 40_control.md rules R83 to R88, 70_reset_and_hazards.md rule R150). -/

namespace Sys2Proof.Machine

/-- The core's turn (R61, R149): its next step while a command runs, nothing while it is idle. -/
def coreTurn (s : State) : Result :=
  if s.busy then
    match decode s.curCmd with
    | .ok i => exec i s
    | .error _ => .fault .lostCommand
  else .next s

/-- `RegWrite(CMD, w)`: dispatch (R83).  While a command runs the write is dropped and only sets `CMD_DROPPED` (R85). -/
def cmdWrite (w : Word) (s : State) : Result :=
  if s.busy then .next { s with cmdDropped := true }
  else
    match decode w with
    | .ok i => exec i s
    | .error _ => .next (dispatchIllegal w s)

/-- `RegWrite(CTRL, v)`: `IE <- v[0]`, and bit 1 aborts a running command (R86, R87). -/
def State.ctrlWrite (v : Word) (s : State) : State :=
  let s1 := { s with ie := v.getLsbD 0 }
  if v.getLsbD 1 && s.busy then s1.abort else s1

/-- `RegWrite(a, v)` (R48, R87); read-only, constant, misaligned and unmapped offsets change nothing (R35, R49). -/
def regWrite (a : BitVec 8) (v : Word) (s : State) : Result :=
  match a.toNat with
  | 0x00 => .next (s.ctrlWrite v)
  | 0x04 => .next (s.statusWrite v)
  | 0x08 => cmdWrite v s
  | 0x0C => .next { s with data := v }
  | _ => .next s

/-- The register at offset a (R19): `CMD` reads 0 (R23), misaligned and unmapped offsets read 0 (R35). -/
def regValue (a : BitVec 8) (s : State) : Word :=
  match a.toNat with
  | 0x00 => s.ctrlWord
  | 0x04 => s.statusWord
  | 0x0C => s.data
  | 0x10 => s.error.number.setWidth 32
  | 0x14 => s.errInfo
  | 0x18 => s.total
  | 0x1C => s.hdrBits
  | 0x20 => s.estOrig.extractLsb' 0 32
  | 0x24 => s.estOrig.extractLsb' 32 32
  | 0x28 => s.estComp.extractLsb' 0 32
  | 0x2C => s.estComp.extractLsb' 32 32
  | 0x30 => s.result.extractLsb' 0 32
  | 0x34 => s.result.extractLsb' 32 32
  | 0x38 => s.codeLen.setWidth 32
  | 0x3C => s.nodeCount.setWidth 32
  | 0x40 => s.root.setWidth 32
  | 0x44 => Config.magic
  | _ => 0

/-- The registers that may read as any value while a command runs, with the width each uses (R66, R19). -/
def freeReadWidth (a : BitVec 8) : Option Nat :=
  match a.toNat with
  | 0x0C | 0x14 | 0x18 | 0x1C | 0x20 | 0x24 | 0x28 | 0x2C | 0x30 | 0x34 => some 32
  | 0x10 => some 8
  | 0x38 => some 9
  | 0x3C | 0x40 => some 10
  | _ => none

/-- `RegRead(a)` (R48, R88): the value goes to the host, `rdata`; while a command runs a result register gives any value
of its width (R66; log 7). -/
def State.regRead (a : BitVec 8) (s : State) : State :=
  match s.busy, freeReadWidth a with
  | true, some w => { s with rdata := (Config.freeBits s.draws 0 w).setWidth 32, draws := s.draws + 1 }
  | _, _ => { s with rdata := regValue a s }

/-- `PushIn(x)` (R52). -/
def State.pushIn (x : Beat) (s : State) : State := { s with inQ := s.inQ ++ [x] }

/-- `DropIn()` (R54). -/
def State.dropIn (s : State) : State := { s with inQ := [] }

/-- `PopOut()` (R55): the first beat goes to the host, `popped`; with `OUT_Q` empty there is no step, and nothing changes
(log 3). -/
def State.popOut (s : State) : State :=
  match s.outQ with
  | [] => s
  | x :: rest => { s with outQ := rest, popped := some x }

/-- `Reset()` (R150, R151): every register and store takes its value of R46, `NODE`, `CODE`, `HEAP` and `STACK` are
unspecified, `IN_Q` stays, `OUT_Q` becomes a drawn prefix of itself (log 8), and the host keeps what it holds. -/
def State.resetBlock (s : State) : State :=
  { State.reset with
    node := freeNodes s.draws, code := freeCodes s.draws, heap := freeHeap s.draws, stack := freeStack s.draws
    draws := s.draws + 1
    inQ := s.inQ, outQ := s.outQ.take (Config.freeNat s.draws 0)
    agenda := s.agenda, rdata := s.rdata, popped := s.popped }

/-- What an event does. -/
def happen (e : Event) (s : State) : Result :=
  match e with
  | .core => coreTurn s
  | .regWrite a v => regWrite a v s
  | .regRead a => .next (s.regRead a)
  | .pushIn x => .next (s.pushIn x)
  | .dropIn => .next s.dropIn
  | .popOut => .next s.popOut
  | .reset => .next s.resetBlock

/-- The points at an `InBeat()` (R61). -/
def Point.atInBeat : Point → Bool
  | .countIn | .encodeIn _ _ | .magicIn _ _ | .tagIn _ _ _ | .symIn _ _ _ _ _ | .walkIn _ _ | .drainIn _ => true
  | .start | .finishing | .raising _ _ | .buildPhase | .codesPhase | .estimatePhase | .headerPhase
  | .encodePhase _ | .flushPhase _ _ | .walkPhase | .drainPhase _ => false

/-- The pin `in_ready`: 1 while the core waits at an `InBeat()` (R52). -/
def State.inReady (s : State) : Bool := s.busy && (s.k.map Point.atInBeat).getD false

/-- The pin `out_valid`: a beat is there to take (R51, R55). -/
def State.outValid (s : State) : Bool := !s.outQ.isEmpty

/-- The pins `out_end` and `out_data` of a beat (R51): the data pins are 0 with `End`. -/
def Beat.pins : Beat → Bool × BitVec 8
  | .byte b => (false, b)
  | .endBeat => (true, 0)

/-- The host writes w to `CMD` as its next action, and the core is idle to take it (log 14). -/
def State.placeCommand (w : Word) (s : State) : State :=
  { s with busy := false, phase := .idle, k := none, agenda := .regWrite 0x08 w :: s.agenda }

end Sys2Proof.Machine
end

