-- ==== Sys2Proof/Machine/Step.lean ====
section
/-! DEFINITION. One step of the model: the next event of the agenda, and after the last one the core's turns (20_memory.md rules R61, R65). -/

namespace Sys2Proof.Machine

/-- One step (R61, R65): the next event of the agenda happens; with no event left, the core takes its turn (log 2). -/
def step (s : State) : Host.Outcome State Fault Refusal :=
  match s.agenda with
  | [] => coreTurn s
  | e :: rest => happen e { s with agenda := rest }

/-- The state s with the command word w placed where the next step takes it: as the host's next write of `CMD`, the
block's only way in for a command (R69, R83; log 14).  The bits above nbits are 0. -/
def State.withFetchWord (s : State) (nbits w : Nat) : State :=
  s.placeCommand (BitVec.ofNat 32 (w % 2 ^ nbits))

end Sys2Proof.Machine
end

