-- ==== Sys2Proof/Safety.lean ====
section
/-! DEFINITION. What claims about huffman_codec are stated with: the trees that `NODE` holds, the bit streams that the packer and the unpacker carry, the invariant of 10_state.md rule R45, and runs. -/

namespace Sys2Proof.Machine

/-! ## Trees (R37, R76) -/

/-- A tree as the source sees it: `Leaf{symbol}` or `Internal{left, right}`, without weights (R37). -/
inductive HTree where
  | leaf (sym : Sym)
  | node (left right : HTree)
  deriving DecidableEq, Repr

/-- The number of nodes, leaves and internal nodes together (R77). -/
def HTree.size : HTree → Nat
  | .leaf _ => 1
  | .node l r => 1 + l.size + r.size

/-- The symbols of the leaves, from left to right. -/
def HTree.leaves : HTree → List Sym
  | .leaf sym => [sym]
  | .node l r => l.leaves ++ r.leaves

/-- The bits of the tree in the stream: `0` and the two subtrees, or `1` and the symbol on 9 bits (R76). -/
def HTree.bits : HTree → List Bool
  | .leaf sym => true :: msbBits 9 sym.toNat
  | .node l r => false :: (l.bits ++ r.bits)

/-- Each leaf's symbol with its path below the path p, in preorder: `0` for a left descent, `1` for a right one (R106). -/
def HTree.codesFrom (p : List Bool) : HTree → List (Sym × List Bool)
  | .leaf sym => [(sym, p)]
  | .node l r => l.codesFrom (p ++ [false]) ++ r.codesFrom (p ++ [true])

/-- Each leaf's symbol with its code, in preorder (R106). -/
def HTree.codes (t : HTree) : List (Sym × List Bool) := t.codesFrom []

/-- The greatest depth of a leaf. -/
def HTree.depth : HTree → Nat
  | .leaf _ => 0
  | .node l r => 1 + max l.depth r.depth

/-- The tree t is the one that `NODE` holds from the index i (R37). -/
def HTree.sits (v : Vector Node 513) : HTree → NodeIdx → Bool
  | .leaf sym, i => (nodeAt v i).valid && (nodeAt v i).leaf && ((nodeAt v i).symbol == sym)
  | .node l r, i =>
    (nodeAt v i).valid && !(nodeAt v i).leaf && l.sits v (nodeAt v i).left && r.sits v (nodeAt v i).right

/-- The indices of the nodes of the tree that `NODE` holds from the index i, in preorder. -/
def HTree.indices (v : Vector Node 513) : HTree → NodeIdx → List NodeIdx
  | .leaf _, i => [i]
  | .node l r, i => i :: (l.indices v (nodeAt v i).left ++ r.indices v (nodeAt v i).right)

/-- The weight that R99 and R100 give the leaf of a symbol: 1 for `PSEUDO_EOF`, the count of a byte otherwise (the phantom
leaf is byte 0 when its count is 0). -/
def leafWeight (freq : Vector Word 256) (sym : Sym) : Nat :=
  if sym = Config.pseudoEof then 1 else (freqAt freq sym.toNat).toNat

/-- The weight of a tree: the exact sum of its leaves' weights (R102). -/
def HTree.weight (freq : Vector Word 256) : HTree → Nat
  | .leaf sym => leafWeight freq sym
  | .node l r => l.weight freq + r.weight freq

/-- Every node of the tree in `NODE` from the index i carries the weight of its subtree (R102). -/
def HTree.weighs (freq : Vector Word 256) (v : Vector Node 513) : HTree → NodeIdx → Bool
  | .leaf sym, i => (nodeAt v i).weight.toNat == leafWeight freq sym
  | .node l r, i =>
    ((nodeAt v i).weight.toNat == l.weight freq + r.weight freq) &&
      l.weighs freq v (nodeAt v i).left && r.weighs freq v (nodeAt v i).right

/-- The symbol found by walking from the root along the bits, and the bits left over: `0` to the left, `1` to the right,
up to the first leaf (R78). -/
def HTree.lookup : HTree → List Bool → Option (Sym × List Bool)
  | .leaf sym, rest => some (sym, rest)
  | .node _ _, [] => none
  | .node l r, b :: rest => if b then r.lookup rest else l.lookup rest

/-- `ROOT` is the root of the tree t in `NODE`, which is within `NODE_CAP` (R7). -/
def State.holdsTree (s : State) (t : HTree) : Bool := t.sits s.node s.root && decide (t.size ≤ Config.nodeCap)

/-- The loop of R101 as the spec words it, over any order of the pairs in `HEAP`: the least pair under R98 becomes the
left child, the least of the others the right child, and their merge is node `next`.  It relates the pairs and `next` to
the entries written and to the root. -/
inductive MergeSpec : List HeapEntry → NodeIdx → List (NodeIdx × Node) → NodeIdx → Prop where
  | root (a : HeapEntry) (next : NodeIdx) : MergeSpec [a] next [] a.id
  | merge (heap : List HeapEntry) (a b : HeapEntry) (rest : List HeapEntry) (next : NodeIdx)
      (writes : List (NodeIdx × Node)) (r : NodeIdx)
      (hperm : heap.Perm (a :: b :: rest))
      (hfirst : ∀ x ∈ b :: rest, a.weight.toNat < x.weight.toNat ∨ a.weight = x.weight ∧ a.id.toNat < x.id.toNat)
      (hsecond : ∀ x ∈ rest, b.weight.toNat < x.weight.toNat ∨ b.weight = x.weight ∧ b.id.toNat < x.id.toNat)
      (hrest : MergeSpec (⟨a.weight + b.weight, next⟩ :: rest) (next + 1) writes r) :
      MergeSpec heap next ((next, ⟨true, false, 0, a.id, b.id, a.weight + b.weight⟩) :: writes) r

/-! ## The header parse (R118) -/

/-- The tree t is in `NODE` from the index m on, numbered in preorder (R118). -/
def HTree.placed (v : Vector Node 513) : HTree → Nat → Prop
  | .leaf sym, m =>
    (nodeAt v (BitVec.ofNat 10 m)).valid = true ∧ (nodeAt v (BitVec.ofNat 10 m)).leaf = true ∧
      (nodeAt v (BitVec.ofNat 10 m)).symbol = sym
  | .node l r, m =>
    (nodeAt v (BitVec.ofNat 10 m)).valid = true ∧ (nodeAt v (BitVec.ofNat 10 m)).leaf = false ∧
      (nodeAt v (BitVec.ofNat 10 m)).left = BitVec.ofNat 10 (m + 1) ∧
      (nodeAt v (BitVec.ofNat 10 m)).right = BitVec.ofNat 10 (m + 1 + l.size) ∧
      l.placed v (m + 1) ∧ r.placed v (m + 1 + l.size)

/-- The child that `slot` stands for is node m. -/
def Slot.holds (v : Vector Node 513) (m : Nat) : Slot → Prop
  | .top => m = 0
  | .left p => (nodeAt v p).left = BitVec.ofNat 10 m
  | .right p => (nodeAt v p).right = BitVec.ofNat 10 m

/-- The parse so far: m nodes are made, numbered in preorder, and the slots still open are `slot` and then those in
`STACK`; every node made is an open node's or lies in a finished left subtree. -/
inductive ParseChain (v : Vector Node 513) : Slot → List StackEntry → Nat → Prop where
  | top : ParseChain v .top [] 0
  | left (slot : Slot) (stack : List StackEntry) (m : Nat) (up : ParseChain v slot stack m) (link : slot.holds v m)
      (valid : (nodeAt v (BitVec.ofNat 10 m)).valid = true) (inner : (nodeAt v (BitVec.ofNat 10 m)).leaf = false) :
      ParseChain v (.left (BitVec.ofNat 10 m)) (.slot (.right (BitVec.ofNat 10 m)) :: stack) (m + 1)
  | right (slot : Slot) (stack : List StackEntry) (m : Nat) (l : HTree) (up : ParseChain v slot stack m)
      (link : slot.holds v m) (valid : (nodeAt v (BitVec.ofNat 10 m)).valid = true)
      (inner : (nodeAt v (BitVec.ofNat 10 m)).leaf = false)
      (child : (nodeAt v (BitVec.ofNat 10 m)).left = BitVec.ofNat 10 (m + 1)) (done : l.placed v (m + 1)) :
      ParseChain v (.right (BitVec.ofNat 10 m)) stack (m + 1 + l.size)

/-- What DECOMPRESS finds at its suspension points: the `End` beat not yet taken where it may ask for a bit (R113), a field
not yet complete (R114), at a tag bit the parse so far, at a symbol field also the node already linked to its parent
(R118). -/
def State.parseOk (s : State) : Point → Prop
  | .magicIn got _ => s.upEos = false ∧ got < 32
  | .tagIn slot made _ => s.upEos = false ∧ ParseChain s.node slot s.stack made ∧ made ≤ 513
  | .symIn id made _ got _ =>
    s.upEos = false ∧ got < 9 ∧
      ∃ slot m, ParseChain s.node slot s.stack m ∧ slot.holds s.node m ∧ id = BitVec.ofNat 10 m ∧ made = m + 1 ∧ made ≤ 513
  | .walkPhase | .walkIn _ _ => s.upEos = false
  | _ => True

/-- The points of DECOMPRESS that ask for a bit (R113). -/
def Point.asks : Point → Bool
  | .magicIn _ _ | .tagIn _ _ _ | .symIn _ _ _ _ _ | .walkIn _ _ => true
  | .start | .finishing | .raising _ _ | .countIn | .buildPhase | .codesPhase | .estimatePhase | .headerPhase
  | .encodePhase _ | .encodeIn _ _ | .flushPhase _ _ | .walkPhase | .drainPhase _ | .drainIn _ => false

/-- Every entry of `STACK` is an open child slot, as `ReadHeader()` pushes them (R40, R118). -/
def State.stackOfSlots (s : State) : Prop := ∀ e ∈ s.stack, ∃ slot, e = .slot slot

/-- DECOMPRESS asks for a bit at the point p, and can take one: the `End` beat is not yet taken (R113), a field asked for is
not yet complete (R114), and `STACK` holds open slots (R118). -/
def State.readsBits (s : State) : Point → Prop
  | .magicIn got _ => s.upEos = false ∧ got < 32
  | .tagIn _ _ _ => s.upEos = false ∧ s.stackOfSlots
  | .symIn _ _ _ got _ => s.upEos = false ∧ got < 9 ∧ s.stackOfSlots
  | .walkIn _ _ => s.upEos = false
  | _ => False

/-- Where DECOMPRESS goes on once the header is read: to the walk, past a lone `PSEUDO_EOF` leaf to the draining loop, or to
`ERR_HDR_INVALID` with subcause 3 (R131, R134). -/
def pointAfterHeader (v : Vector Node 513) : Point :=
  if (nodeAt v 0).leaf then
    if (nodeAt v 0).symbol = 256 then .drainPhase 0 else .raising .hdrInvalid 3
  else .walkPhase

/-- `NODE[cur].left` for the bit 0 and `NODE[cur].right` for the bit 1 (R130). -/
def walkChild (v : Vector Node 513) (cur : NodeIdx) (b : Bool) : NodeIdx := if b then (nodeAt v cur).right else (nodeAt v cur).left

/-- DECOMPRESS over bits, as R114, R118, R130 and R131 word it: from the point p and the state s, given `bits`, it comes to
the point q and the state t with the bits `left` not taken.  It stops where it asks for the next bit, or just before a
`PHASE` assignment or a `raise` (R61). -/
inductive TakesBits : Point → State → List Bool → Point → State → List Bool → Prop where
  | done (p : Point) (s : State) : TakesBits p s [] p s []
  /-- R114: a bit of the magic marker before its last. -/
  | magicBit (got v : Nat) (s : State) (b : Bool) (bits : List Bool) (q : Point) (t : State) (left : List Bool)
      (more : got < 31) (next : TakesBits (.magicIn (got + 1) (2 * v + b.toNat)) s bits q t left) :
      TakesBits (.magicIn got v) s (b :: bits) q t left
  /-- R118: the marker is `MAGIC`; `NODE` is cleared of its valid bits, and the root's slot is the one to read. -/
  | magicRight (v : Nat) (s : State) (b : Bool) (bits : List Bool) (q : Point) (t : State) (left : List Bool)
      (value : BitVec.ofNat 32 (2 * v + b.toNat) = 0xFACE8200#32)
      (next : TakesBits (.tagIn .top 0 32) { s with node := nodesInvalid s.node, stack := [] } bits q t left) :
      TakesBits (.magicIn 31 v) s (b :: bits) q t left
  /-- R118: the marker is not `MAGIC`. -/
  | magicWrong (v : Nat) (s : State) (b : Bool) (bits : List Bool) (value : BitVec.ofNat 32 (2 * v + b.toNat) ≠ 0xFACE8200#32) :
      TakesBits (.magicIn 31 v) s (b :: bits) (.raising .magic (BitVec.ofNat 32 (2 * v + b.toNat))) s bits
  /-- R118, R134: the tag of a 514th node. -/
  | nodeTooMany (slot : Slot) (nb : Nat) (s : State) (b : Bool) (bits : List Bool) :
      TakesBits (.tagIn slot 513 nb) s (b :: bits) (.raising .hdrInvalid 2) s bits
  /-- R118: the tag 1: node `made` is linked to its parent, and its symbol is asked for. -/
  | leafTag (slot : Slot) (made nb : Nat) (s : State) (bits : List Bool) (q : Point) (t : State) (left : List Bool)
      (room : made ≠ 513)
      (next : TakesBits (.symIn (BitVec.ofNat 10 made) (made + 1) (nb + 1) 0 0)
        { s with node := linkChild slot (BitVec.ofNat 10 made) s.node } bits q t left) :
      TakesBits (.tagIn slot made nb) s (true :: bits) q t left
  /-- R118: the tag 0: node `made` is linked to its parent and made; its left slot is read next, its right one waits. -/
  | innerTag (slot : Slot) (made nb : Nat) (s : State) (bits : List Bool) (q : Point) (t : State) (left : List Bool)
      (room : made ≠ 513)
      (next : TakesBits (.tagIn (.left (BitVec.ofNat 10 made)) (made + 1) (nb + 1))
        { s with
          node := nodeSet (linkChild slot (BitVec.ofNat 10 made) s.node) (BitVec.ofNat 10 made) ⟨true, false, 0, 0, 0, 0⟩
          stack := .slot (.right (BitVec.ofNat 10 made)) :: s.stack } bits q t left) :
      TakesBits (.tagIn slot made nb) s (false :: bits) q t left
  /-- R114: a bit of a symbol field before its last. -/
  | symbolBit (id : NodeIdx) (made nb got v : Nat) (s : State) (b : Bool) (bits : List Bool) (q : Point) (t : State)
      (left : List Bool) (more : got < 8) (next : TakesBits (.symIn id made nb (got + 1) (2 * v + b.toNat)) s bits q t left) :
      TakesBits (.symIn id made nb got v) s (b :: bits) q t left
  /-- R118, R134: a symbol field above 256. -/
  | symbolTooHigh (id : NodeIdx) (made nb v : Nat) (s : State) (b : Bool) (bits : List Bool) (high : 256 < 2 * v + b.toNat) :
      TakesBits (.symIn id made nb 8 v) s (b :: bits)
        (.raising .hdrInvalid (BitVec.ofNat 32 (1 ||| ((2 * v + b.toNat) <<< 8)))) s bits
  /-- R118: the leaf is made, and the next open slot is read. -/
  | leafThenSlot (id : NodeIdx) (made nb v : Nat) (s : State) (b : Bool) (bits : List Bool) (slot : Slot)
      (stack : List StackEntry) (q : Point) (t : State) (left : List Bool) (symbol : 2 * v + b.toNat ≤ 256)
      (waits : s.stack = .slot slot :: stack)
      (next : TakesBits (.tagIn slot made (nb + 9))
        { s with
          node := nodeSet s.node id ⟨true, true, BitVec.ofNat 9 (2 * v + b.toNat), 0, 0, 0⟩
          stack := stack } bits q t left) :
      TakesBits (.symIn id made nb 8 v) s (b :: bits) q t left
  /-- R118, R131: the leaf is made, no slot is open, and the header is read. -/
  | leafLast (id : NodeIdx) (made nb v : Nat) (s : State) (b : Bool) (bits : List Bool) (symbol : 2 * v + b.toNat ≤ 256)
      (noSlot : s.stack = []) :
      TakesBits (.symIn id made nb 8 v) s (b :: bits)
        (pointAfterHeader (nodeSet s.node id ⟨true, true, BitVec.ofNat 9 (2 * v + b.toNat), 0, 0, 0⟩))
        { s with
          node := nodeSet s.node id ⟨true, true, BitVec.ofNat 9 (2 * v + b.toNat), 0, 0, 0⟩
          root := 0, nodeCount := BitVec.ofNat 10 made, hdrBits := BitVec.ofNat 32 (nb + 9)
          treeValid := true, treeDecoded := true } bits
  /-- R130: down to an internal node. -/
  | walkInner (cur : NodeIdx) (cnt : Nat) (s : State) (b : Bool) (bits : List Bool) (q : Point) (t : State) (left : List Bool)
      (inner : (nodeAt s.node (walkChild s.node cur b)).leaf = false)
      (next : TakesBits (.walkIn (walkChild s.node cur b) cnt) s bits q t left) :
      TakesBits (.walkIn cur cnt) s (b :: bits) q t left
  /-- R130: to the leaf of a byte, which is emitted; the walk goes on from `ROOT`. -/
  | walkByte (cur : NodeIdx) (cnt : Nat) (s : State) (b : Bool) (bits : List Bool) (q : Point) (t : State) (left : List Bool)
      (leaf : (nodeAt s.node (walkChild s.node cur b)).leaf = true)
      (symbol : (nodeAt s.node (walkChild s.node cur b)).symbol ≠ 256)
      (next : TakesBits (.walkIn s.root (cnt + 1))
        { s with outQ := s.outQ ++ [.byte ((nodeAt s.node (walkChild s.node cur b)).symbol.setWidth 8)] } bits q t left) :
      TakesBits (.walkIn cur cnt) s (b :: bits) q t left
  /-- R130: to the leaf of `PSEUDO_EOF`, which ends the walk. -/
  | walkDone (cur : NodeIdx) (cnt : Nat) (s : State) (b : Bool) (bits : List Bool)
      (leaf : (nodeAt s.node (walkChild s.node cur b)).leaf = true)
      (symbol : (nodeAt s.node (walkChild s.node cur b)).symbol = 256) :
      TakesBits (.walkIn cur cnt) s (b :: bits) (.drainPhase cnt) s bits

/-- The fields that R37 gives no other value in a tree read from a header: the weight, a leaf's children, and an internal
node's symbol are 0. -/
def Node.zerosOfHeader (n : Node) : Prop :=
  n.weight = 0 ∧ (n.leaf = true → n.left = 0 ∧ n.right = 0) ∧ (n.leaf = false → n.symbol = 0)

/-! ## Bit streams (R57, R76) -/

/-- The bits of a byte, bit 7 first (R57). -/
def byteBits (b : Byte) : List Bool := msbBits 8 b.toNat

/-- The bits of the bytes of a stream, in order (R57). -/
def streamBits (bytes : List Byte) : List Bool := bytes.flatMap byteBits

/-- Byte beats. -/
def byteBeats (bytes : List Byte) : List Beat := bytes.map .byte

/-- The bits pending in the packer, the oldest first (R41). -/
def State.pending (s : State) : List Bool := msbBits s.pkN.val s.pkAcc.toNat

/-- The bits of the unpacker's byte not yet delivered, the next first (R42). -/
def State.undelivered (s : State) : List Bool := msbBits s.upN.val s.upBuf.toNat

/-! ## The invariant of R45 -/

/-- `FREQ[0] + ... + FREQ[255]`, exact (R45). -/
def freqSum (v : Vector Word 256) : Nat := (v.toList.map BitVec.toNat).sum

/-- All five validity flags are 0. -/
def State.flagsClear (s : State) : Bool :=
  !s.treeValid && !s.treeDecoded && !s.codesValid && !s.estValid && !s.gated

/-- The tree in `NODE` and `ROOT` is the one that BUILD_TREE gives for the present `FREQ` (R45 item 4): what its rules
R99 to R101 write over some contents of `NODE` whose valid bits are cleared. -/
def State.holdsBuiltTree (s : State) : Prop :=
  ∃ v, s.node = writeNodes (treePlan s.freq).1 (nodesInvalid v) ∧ s.root = (treePlan s.freq).2

/-- The codes that a running command raises: the column "raised by" of R133. -/
def raises : Instr → ErrCode → Bool
  | .count, .countOverflow | .loadFreq _, .countOverflow | .compress _, .countOverflow => true
  | .encode, .invariant | .compress _, .invariant => true
  | .decompress, .magic | .decompress, .hdrTrunc | .decompress, .hdrInvalid | .decompress, .bodyTrunc => true
  | _, _ => false

/-- The tree and code flags at a point of a procedure: what R44 and the prerequisites of R73 leave while the command i
stands at the point p, and at a `raise` the codes of R133.  `false` at a point that is not one of the command's. -/
def State.flagsAt (s : State) : Instr → Point → Bool
  | .nop, .start => true
  | .clear, .start | .clear, .finishing => s.flagsClear
  | .count, .start | .count, .countIn | .count, .finishing => s.flagsClear
  | .loadFreq _, .start | .loadFreq _, .finishing => s.flagsClear
  | .count, .raising code _ | .loadFreq _, .raising code _ => s.flagsClear && raises .count code
  | .readFreq _, .start | .readFreq _, .finishing => true
  | .buildTree, .start => s.flagsClear
  | .buildTree, .finishing => s.treeValid && !s.treeDecoded
  | .readNode _ _, .start | .readNode _ _, .finishing => s.treeValid
  | .genCodes, .start | .genCodes, .finishing => s.treeValid && !s.treeDecoded
  | .readCode _ _, .start | .readCode _ _, .finishing => s.codesValid
  | .estimate _, .start | .estimate _, .finishing => s.codesValid
  | .writeHeader, .start | .writeHeader, .finishing => s.treeValid
  | .encode, .start | .encode, .encodeIn _ _ | .encode, .flushPhase _ _ | .encode, .finishing => s.codesValid
  | .encode, .raising code _ => s.codesValid && raises .encode code
  | .flush, .start | .flush, .finishing => true
  | .compress _, .start | .compress _, .countIn | .compress _, .buildPhase => s.flagsClear
  | .compress _, .codesPhase => s.treeValid && !s.treeDecoded
  | .compress _, .estimatePhase => s.codesValid
  | .compress _, .headerPhase | .compress _, .encodePhase _ | .compress _, .encodeIn _ _
  | .compress _, .flushPhase _ _ => s.codesValid
  | .compress _, .finishing => true
  | .compress force, .raising code _ => raises (.compress force) code
  | .decompress, .start | .decompress, .magicIn _ _ | .decompress, .tagIn _ _ _
  | .decompress, .symIn _ _ _ _ _ => s.flagsClear
  | .decompress, .walkPhase | .decompress, .walkIn _ _ | .decompress, .drainPhase _ | .decompress, .drainIn _
  | .decompress, .finishing => s.treeValid && s.treeDecoded && !s.codesValid
  | .decompress, .raising code _ => !s.codesValid && raises .decompress code
  | _, _ => false

/-- What holds while a command runs: `CUR_CMD` is a legal word, its operands are in range, and `K` stands at a point of its
procedure (R43, R83), with the flags of that point. -/
def State.runningOk (s : State) : Prop :=
  ∃ i p, decode s.curCmd = .ok i ∧ i.wellFormed = true ∧ s.k = some p ∧ s.flagsAt i p = true

/-- The five items of R45, and what makes every step keep them: the tree and the codes that the flags vouch for, what a
running command finds, and the exclusions that R134 and R140 state. -/
structure State.Inv (s : State) : Prop where
  /-- R45 item 1. -/
  total_eq_sum : s.total.toNat = freqSum s.freq
  /-- R45 item 2. -/
  codes_of_built_tree : s.codesValid = true → s.treeValid = true ∧ s.treeDecoded = false
  /-- R45 item 3, first half. -/
  estimate_has_codes : s.estValid = true → s.codesValid = true
  /-- R45 item 3, second half. -/
  gated_has_estimate : s.gated = true → s.estValid = true
  /-- R45 item 4. -/
  tree_is_built : s.treeValid = true → s.treeDecoded = false → s.holdsBuiltTree
  /-- R118: a decoded tree is a tree, within `NODE_CAP`. -/
  decoded_is_tree : s.treeValid = true → s.treeDecoded = true → ∃ t, s.holdsTree t = true
  /-- R44, R106: while `CODES_VALID = 1`, `CODE` is the table of the tree in `NODE`. -/
  codes_are_of_tree : s.codesValid = true → ∃ t, s.holdsTree t = true ∧ s.code = writeCodes t.codes codesAbsent
  /-- R45 item 5. -/
  idle_is_empty : s.busy = false → s.phase = .idle ∧ s.k = none
  /-- R43, R83: a running command stands at a point of its own. -/
  busy_is_running : s.busy = true → s.runningOk
  /-- R118: a header parse under way has made the nodes it should. -/
  parse_is_chain : s.busy = true → ∀ p, s.k = some p → s.parseOk p
  /-- R140: `DONE` and `ERR` are never 1 together, and both are 0 while a command runs. -/
  ends_exclude : s.done = true → s.err = false ∧ s.busy = false
  /-- R83: no error is reported while a command runs. -/
  busy_no_error : s.busy = true → s.err = false ∧ s.error = .none
  /-- R134: `ERR_INFO` is 0 while `ERROR` is 0. -/
  no_error_no_info : s.error = .none → s.errInfo = 0

/-! ## Runs -/

/-- A command runs and its procedure is suspended at the point p (R43). -/
def State.standsAt (s : State) (p : Point) : Prop := s.busy = true ∧ s.k = some p

/-- The core has a step: a command runs, and it is not waiting at an `InBeat()` for a beat (R52, R61). -/
def State.coreEnabled (s : State) : Bool := s.busy && !(s.inReady && s.inQ.isEmpty)

/-- The machine comes from s to t by steps of the model. -/
def State.reaches (s t : State) : Prop := ∃ n, core.run n s = .next t

/-- How many `End` beats the command i may still take, from the point p (R157): two in COMPRESS until pass 1 has ended and one
until pass 2 has; one in COUNT, ENCODE and DECOMPRESS until it is taken; none in any other command. -/
def endsNeeded : Instr → Point → Nat
  | _, .finishing | _, .raising _ _ => 0
  | .compress _, .start | .compress _, .countIn => 2
  | .compress _, .flushPhase _ _ => 0
  | .compress _, _ => 1
  | .encode, .flushPhase _ _ => 0
  | .count, _ | .encode, _ | .decompress, _ => 1
  | _, _ => 0

/-- No host action is scheduled, and the command i runs, its procedure suspended at the point p. -/
def State.running (s : State) (i : Instr) (p : Point) : Prop :=
  s.agenda = [] ∧ s.busy = true ∧ decode s.curCmd = .ok i ∧ s.k = some p

/-- Dispatch has taken the word w, with the first phase ph, and changed no validity flag (R83). -/
def State.started (w : Word) (ph : Phase) (s : State) : State :=
  { s with
    done := false, err := false, error := .none, errInfo := 0, curCmd := w, busy := true, phase := ph, k := some .start }

/-- Dispatch has refused the word w with the code (R83, R135). -/
def State.refusedWith (code : ErrCode) (w : Word) (s : State) : State :=
  { s with done := false, err := true, error := code, errInfo := w }

/-- The phases in which COMPRESS stands at a point (R22, R128). -/
def compressPhases : Point → List Phase
  | .codesPhase => [.build]
  | .estimatePhase => [.codes]
  | .headerPhase => [.estimate]
  | .encodePhase _ => [.hdrWrite]
  | .encodeIn _ _ | .flushPhase _ _ => [.encode]
  | .finishing => [.estimate, .flush]
  | .raising code _ => if code = .invariant then [.encode] else [.count]
  | _ => [.count]

/-- The phases in which DECOMPRESS stands at a point (R22, R129, R131). -/
def decompressPhases : Point → List Phase
  | .walkIn _ _ => [.walk]
  | .drainPhase _ => [.hdrRead, .walk]
  | .drainIn _ | .finishing => [.drain]
  | .raising code _ => if code = .bodyTrunc then [.walk] else [.hdrRead]
  | _ => [.hdrRead]

/-- The phases in which the command i stands at the point p: a phase stands from its assignment to the next one (R22, R61,
R83). -/
def phasesAt : Instr → Point → List Phase
  | .nop, _ | .clear, _ | .loadFreq _, _ | .readFreq _, _ | .readNode _ _, _ | .readCode _ _, _ => [.short]
  | .count, _ => [.count]
  | .buildTree, _ => [.build]
  | .genCodes, _ => [.codes]
  | .estimate _, _ => [.estimate]
  | .writeHeader, _ => [.hdrWrite]
  | .flush, _ => [.flush]
  | .encode, p => if p = .finishing then [.flush] else [.encode]
  | .compress _, p => compressPhases p
  | .decompress, p => decompressPhases p

/-- `STATUS.PHASE` names the step of the running command, and is `IDLE` while no command runs (R22). -/
def State.phaseOk (s : State) : Prop :=
  (s.busy = false → s.phase = .idle) ∧
    ∀ i p, s.busy = true → decode s.curCmd = .ok i → s.k = some p → s.phase ∈ phasesAt i p

/-- The bits of the codes of the bytes, one after another, and of `PSEUDO_EOF` (R76, `body`). -/
def bodyBits (v : Vector CodeEntry 257) (bytes : List Byte) : List Bool :=
  bytes.flatMap (fun b => (codeAt v b.toNat).path) ++ (codeAt v 256).path

/-- `magic tree body`, the compressed stream before its padding (R76). -/
def packedBits (t : HTree) (v : Vector CodeEntry 257) (bytes : List Byte) : List Bool :=
  msbBits 32 Config.magic.toNat ++ t.bits ++ bodyBits v bytes

/-- `pad`, the zeros up to a whole byte (R76). -/
def padBits (n : Nat) : List Bool := List.replicate ((8 - n % 8) % 8) false

end Sys2Proof.Machine
end

