-- ==== Sys2Proof/Certificates/Slice0/Obligations.lean ====
section
/-! DEFINITION. The statements about the model, for the provers. -/

open Sys2Proof Sys2Proof.Machine

/-! ## Encoding -/

/-- Decoding the word of a command gives the command back, with every operand at every value its field holds (R71, R73). -/
def Obligations.DecodeEncode : Prop := ∀ i : Instr, decode (encode i) = .ok i

/-- A legal word is the word of its command, so the decoder drops no bit (R71, R73). -/
def Obligations.EncodeDecoded : Prop := ∀ (w : Word) (i : Instr), decode w = .ok i → encode i = w

/-- R74: which words are illegal, field by field, and what dispatch does with one. -/
def Obligations.IllegalWordsAreRejected : Prop :=
  ∀ w : Word,
    let op := (w.extractLsb' 24 8).toNat
    let illegal := 0x0F ≤ op ∨ w.extractLsb' 20 3 ≠ 0 ∨ w.extractLsb' 10 6 ≠ 0 ∨
      (w.getLsbD 23 = true ∧ op ≠ 0x09 ∧ op ≠ 0x0D) ∨ (w.extractLsb' 16 4 ≠ 0 ∧ op ≠ 0x06 ∧ op ≠ 0x08) ∨
      (w.extractLsb' 0 10 ≠ 0 ∧ op ≠ 0x03 ∧ op ≠ 0x04 ∧ op ≠ 0x06 ∧ op ≠ 0x08)
    (illegal ↔ ∃ e, decode w = .error e) ∧ (0x0F ≤ op ↔ decode w = .error .reservedOpcode) ∧
      ∀ s : State, s.busy = false → illegal → regWrite 0x08 w s = .next (s.refusedWith .illegalCmd w)

/-- R72: the operand fields are taken as they stand, and a value outside its range is a range error at dispatch. -/
def Obligations.OperandRanges : Prop :=
  ∀ (w : Word) (i : Instr), decode w = .ok i →
    (idxOf i = w.extractLsb' 0 10 ∧ wselOf i = w.extractLsb' 16 4 ∧ forceOf i = w.extractLsb' 23 1) ∧
    ∀ s : State, s.busy = false →
      (match i with
        | .loadFreq idx | .readFreq idx => 255 < idx.toNat
        | .readNode wsel idx => 512 < idx.toNat ∨ 2 < wsel.toNat
        | .readCode wsel idx => 256 < idx.toNat ∨ 7 < wsel.toNat
        | _ => False) →
      regWrite 0x08 w s = .next (s.refusedWith .range w)

/-- Words written out from the tables of 95_test_vectors.md and 30_encoding.md decode to their commands. -/
def Obligations.SampleWords : Prop :=
  decode 0x00000000#32 = .ok .nop ∧ decode 0x01000000#32 = .ok .clear ∧ decode 0x02000000#32 = .ok .count ∧
    decode 0x03000061#32 = .ok (.loadFreq 0x61) ∧ decode 0x04000074#32 = .ok (.readFreq 0x74) ∧
    decode 0x05000000#32 = .ok .buildTree ∧ decode 0x06010107#32 = .ok (.readNode 1 263) ∧
    decode 0x07000000#32 = .ok .genCodes ∧ decode 0x08010100#32 = .ok (.readCode 1 256) ∧
    decode 0x09800000#32 = .ok (.estimate true) ∧ decode 0x0D000000#32 = .ok (.compress false) ∧
    decode 0x0E000000#32 = .ok .decompress

/-! ## A step of the model -/

/-- A step runs the decoded command: a host write of its word to `CMD` while the core is idle dispatches it (R83), and a turn
of the core while it runs takes its next step (R61); the model's agenda only says whose turn it is (log 2, log 13).  The
word that `withFetchWord` places is the next one that a step runs (log 14). -/
def Obligations.StepRunsDecodedCommand : Prop :=
  ∀ (s : State) (w : Word) (i : Instr) (rest : List Event), decode w = .ok i →
    (s.busy = false → s.agenda = .regWrite 0x08 w :: rest → step s = exec i { s with agenda := rest }) ∧
    (s.busy = true → s.curCmd = w → s.agenda = .core :: rest → step s = exec i { s with agenda := rest }) ∧
    (s.busy = true → s.curCmd = w → s.agenda = [] → step s = exec i s) ∧
    ∀ nbits n : Nat, decodeTableWord nbits n = some i →
      step (s.withFetchWord nbits n) = exec i { s with busy := false, phase := .idle, k := none }

/-- R149, R52: an idle core, and a core that waits at an `InBeat()` with `IN_Q` empty, change nothing.  That a turn of such
a core is a step that changes nothing is the model's form of "has no step" (log 3). -/
def Obligations.IdleOrWaitingCoreIsStill : Prop :=
  ∀ s : State, s.agenda = [] →
    (s.busy = false → step s = .next s) ∧
    (s.Inv → s.inReady = true → s.inQ = [] → step s = .next s)

/-! ## Dispatch -/

/-- R83, R44: a command of the first row of R44's table, in range and with its prerequisite met, is accepted by an idle core
and changes no validity flag. -/
def Obligations.AcceptKeepsFlags : Prop :=
  ∀ (s : State) (idx : BitVec 10) (wsel : BitVec 4), s.busy = false →
    exec .nop s = .next (s.started 0x00000000#32 .short) ∧
    (idx.toNat ≤ 255 → exec (.readFreq idx) s = .next (s.started (0x04000000#32 ||| idx.setWidth 32) .short)) ∧
    (idx.toNat ≤ 512 → wsel.toNat ≤ 2 → s.treeValid = true →
      exec (.readNode wsel idx) s =
        .next (s.started (0x06000000#32 ||| (wsel.setWidth 32 <<< 16) ||| idx.setWidth 32) .short)) ∧
    (idx.toNat ≤ 256 → wsel.toNat ≤ 7 → s.codesValid = true →
      exec (.readCode wsel idx) s =
        .next (s.started (0x08000000#32 ||| (wsel.setWidth 32 <<< 16) ||| idx.setWidth 32) .short)) ∧
    (s.treeValid = true → exec .writeHeader s = .next (s.started 0x0A000000#32 .hdrWrite)) ∧
    (s.codesValid = true → exec .encode s = .next (s.started 0x0B000000#32 .encode)) ∧
    exec .flush s = .next (s.started 0x0C000000#32 .flush)

/-- R83, R44: CLEAR, COUNT, LOAD_FREQ, BUILD_TREE, COMPRESS and DECOMPRESS are accepted by an idle core and set all five
validity flags to 0. -/
def Obligations.AcceptClearsFlags : Prop :=
  ∀ (s : State) (idx : BitVec 10) (force : Bool), s.busy = false →
    let cleared : State := { s with
      treeValid := false, treeDecoded := false, codesValid := false, estValid := false, gated := false }
    exec .clear s = .next (cleared.started 0x01000000#32 .short) ∧
    exec .count s = .next (cleared.started 0x02000000#32 .count) ∧
    (idx.toNat ≤ 255 → exec (.loadFreq idx) s = .next (cleared.started (0x03000000#32 ||| idx.setWidth 32) .short)) ∧
    exec .buildTree s = .next (cleared.started 0x05000000#32 .build) ∧
    exec (.compress force) s =
      .next (cleared.started (if force then 0x0D800000#32 else 0x0D000000#32) .count) ∧
    exec .decompress s = .next (cleared.started 0x0E000000#32 .hdrRead)

/-- R83, R44: GEN_CODES and ESTIMATE, with their prerequisites met, are accepted by an idle core and set to 0 the flags of
what they make anew. -/
def Obligations.AcceptClearsStaleFlags : Prop :=
  ∀ (s : State) (force : Bool), s.busy = false →
    (s.treeValid = true → s.treeDecoded = false →
      exec .genCodes s =
        .next (({ s with codesValid := false, estValid := false, gated := false } : State).started 0x07000000#32 .codes)) ∧
    (s.codesValid = true →
      exec (.estimate force) s =
        .next (({ s with estValid := false, gated := false } : State).started
          (if force then 0x09800000#32 else 0x09000000#32) .estimate))

/-- R73, R135: a command in range whose prerequisite is false is rejected with `ERR_SEQUENCE`: only `DONE`, `ERR`, `ERROR`
and `ERR_INFO` change. -/
def Obligations.UnmetPrerequisiteIsRejected : Prop :=
  ∀ (s : State) (idx : BitVec 10) (wsel : BitVec 4) (force : Bool), s.busy = false →
    (s.treeValid = false → idx.toNat ≤ 512 → wsel.toNat ≤ 2 →
      exec (.readNode wsel idx) s = .next (s.refusedWith .sequence (encode (.readNode wsel idx)))) ∧
    (s.treeValid = false ∨ s.treeDecoded = true →
      exec .genCodes s = .next (s.refusedWith .sequence 0x07000000#32)) ∧
    (s.codesValid = false → idx.toNat ≤ 256 → wsel.toNat ≤ 7 →
      exec (.readCode wsel idx) s = .next (s.refusedWith .sequence (encode (.readCode wsel idx)))) ∧
    (s.codesValid = false →
      exec (.estimate force) s = .next (s.refusedWith .sequence (if force then 0x09800000#32 else 0x09000000#32))) ∧
    (s.treeValid = false → exec .writeHeader s = .next (s.refusedWith .sequence 0x0A000000#32)) ∧
    (s.codesValid = false → exec .encode s = .next (s.refusedWith .sequence 0x0B000000#32))

/-- R85: a `CMD` write while a command runs sets `CMD_DROPPED` and changes nothing else, whatever the word; once 1, it stays
1 through every step but a write of 1 to `STATUS` bit 8 and a reset. -/
def Obligations.BusyDropsCommand : Prop :=
  (∀ (s : State) (w : Word), s.busy = true → regWrite 0x08 w s = .next { s with cmdDropped := true }) ∧
    ∀ s t : State, s.cmdDropped = true → step s = .next t →
      t.cmdDropped = true ∨ (∃ v rest, s.agenda = .regWrite 0x04 v :: rest ∧ v.getLsbD 8 = true) ∨
        ∃ rest, s.agenda = .reset :: rest

/-! ## How a command ends -/

/-- R84: `finish()`, of every command; `ERROR` stays 0, in every state that meets the invariant. -/
def Obligations.FinishEndsCommand : Prop :=
  ∀ (i : Instr) (s : State), s.standsAt .finishing →
    exec i s = .next { s with busy := false, phase := .idle, k := none, done := true } ∧
      (s.Inv → s.error = .none)

/-- R136: the error exit, of every command: what it writes, and that everything else stays. -/
def Obligations.RaiseEndsCommand : Prop :=
  ∀ (i : Instr) (s : State) (code : ErrCode) (info : Word), s.standsAt (.raising code info) →
    exec i s = .next { s with
      error := code, errInfo := info, pkAcc := 0, pkN := 0, upBuf := 0, upN := 0, upEos := false, upBytes := 0
      busy := false, phase := .idle, k := none, err := true }

/-- R86: an abort keeps `FREQ`, `TOTAL` and both queues, clears what R86 lists, and leaves the result registers and the
stores at some values, of which nothing is said; while the core is idle it only sets `IE`. -/
def Obligations.AbortEndsCommand : Prop :=
  ∀ (s : State) (v : Word), v.getLsbD 1 = true →
    (s.busy = false → regWrite 0x00 v s = .next { s with ie := v.getLsbD 0 }) ∧
    (s.busy = true → ∃ hdrBits estOrig estComp result codeLen nodeCount root data node code heap stack draws,
      regWrite 0x00 v s = .next { s with
        ie := v.getLsbD 0, k := none, busy := false, phase := .idle
        treeValid := false, treeDecoded := false, codesValid := false, estValid := false, gated := false
        pkAcc := 0, pkN := 0, upBuf := 0, upN := 0, upEos := false, upBytes := 0
        err := true, error := .aborted, errInfo := s.phase.number.setWidth 32
        hdrBits := hdrBits, estOrig := estOrig, estComp := estComp, result := result, codeLen := codeLen
        nodeCount := nodeCount, root := root, data := data, node := node, code := code, heap := heap, stack := stack
        draws := draws })

/-! ## The host's actions -/

/-- R87, R35: every host register write besides dispatch and abort. -/
def Obligations.HostWrites : Prop :=
  ∀ (s : State) (a : BitVec 8) (v : Word),
    (v.getLsbD 1 = false ∨ s.busy = false → regWrite 0x00 v s = .next { s with ie := v.getLsbD 0 }) ∧
    regWrite 0x04 v s = .next { s with
      done := if v.getLsbD 1 then false else s.done
      err := if v.getLsbD 2 then false else s.err
      cmdDropped := if v.getLsbD 8 then false else s.cmdDropped } ∧
    regWrite 0x0C v s = .next { s with data := v } ∧
    (a ≠ 0x00 → a ≠ 0x04 → a ≠ 0x08 → a ≠ 0x0C → regWrite a v s = .next s)

/-- R19, R23, R34, R35, R88: what an idle block's registers read as, at every offset, and the number that `ERROR` reads for
each error (R133).  That the value goes to `rdata` is the model's (log 15). -/
def Obligations.IdleReads : Prop :=
  ∀ s : State, s.busy = false →
    s.regRead 0x00 = { s with rdata := if s.ie then 1 else 0 } ∧
    s.regRead 0x04 = { s with rdata := s.statusWord } ∧
    s.regRead 0x08 = { s with rdata := 0 } ∧
    s.regRead 0x0C = { s with rdata := s.data } ∧
    s.regRead 0x10 = { s with rdata :=
      match s.error with
      | .none => 0x00 | .illegalCmd => 0x01 | .range => 0x02 | .sequence => 0x03 | .magic => 0x04 | .hdrTrunc => 0x05
      | .hdrInvalid => 0x06 | .bodyTrunc => 0x07 | .invariant => 0x08 | .countOverflow => 0x09 | .aborted => 0x0A } ∧
    s.regRead 0x14 = { s with rdata := s.errInfo } ∧
    s.regRead 0x18 = { s with rdata := s.total } ∧
    s.regRead 0x1C = { s with rdata := s.hdrBits } ∧
    s.regRead 0x20 = { s with rdata := s.estOrig.setWidth 32 } ∧
    s.regRead 0x24 = { s with rdata := (s.estOrig >>> 32).setWidth 32 } ∧
    s.regRead 0x28 = { s with rdata := s.estComp.setWidth 32 } ∧
    s.regRead 0x2C = { s with rdata := (s.estComp >>> 32).setWidth 32 } ∧
    s.regRead 0x30 = { s with rdata := s.result.setWidth 32 } ∧
    s.regRead 0x34 = { s with rdata := (s.result >>> 32).setWidth 32 } ∧
    s.regRead 0x38 = { s with rdata := s.codeLen.setWidth 32 } ∧
    s.regRead 0x3C = { s with rdata := s.nodeCount.setWidth 32 } ∧
    s.regRead 0x40 = { s with rdata := s.root.setWidth 32 } ∧
    s.regRead 0x44 = { s with rdata := 0xFACE8200#32 } ∧
    ∀ a : BitVec 8, a.toNat % 4 ≠ 0 ∨ 0x48 ≤ a.toNat → s.regRead a = { s with rdata := 0 }

/-- R66, R48, R88, R35: while a command runs, `CTRL`, `STATUS`, `CMD` and `MAGIC` read exactly, a misaligned or unmapped offset
reads 0, and a read changes no register.  Where a register may read as any value, the value is a free one (log 7): nothing
is said of it but its width. -/
def Obligations.BusyReads : Prop :=
  ∀ s : State, s.busy = true →
    s.regRead 0x00 = { s with rdata := if s.ie then 1 else 0 } ∧
    s.regRead 0x04 = { s with rdata := s.statusWord } ∧
    s.regRead 0x08 = { s with rdata := 0 } ∧
    s.regRead 0x44 = { s with rdata := 0xFACE8200#32 } ∧
    (∀ a : BitVec 8, a.toNat % 4 ≠ 0 ∨ 0x48 ≤ a.toNat → s.regRead a = { s with rdata := 0 }) ∧
    (∀ a : BitVec 8, ∃ r d, s.regRead a = { s with rdata := r, draws := d }) ∧
    (s.regRead 0x10).rdata.toNat < 2 ^ 8 ∧ (s.regRead 0x38).rdata.toNat < 2 ^ 9 ∧
    (s.regRead 0x3C).rdata.toNat < 2 ^ 10 ∧ (s.regRead 0x40).rdata.toNat < 2 ^ 10

/-- R21, R22: each field of `STATUS` at its bits, the numbers of the phases, and 0 in every reserved bit. -/
def Obligations.StatusLayout : Prop :=
  ∀ s : State,
    s.statusWord.getLsbD 0 = s.busy ∧ s.statusWord.getLsbD 1 = s.done ∧ s.statusWord.getLsbD 2 = s.err ∧
    s.statusWord.getLsbD 3 = s.gated ∧ s.statusWord.getLsbD 4 = s.treeValid ∧ s.statusWord.getLsbD 5 = s.codesValid ∧
    s.statusWord.getLsbD 6 = s.estValid ∧ s.statusWord.getLsbD 7 = s.treeDecoded ∧
    s.statusWord.getLsbD 8 = s.cmdDropped ∧ s.statusWord.extractLsb' 9 7 = 0 ∧ s.statusWord.extractLsb' 20 12 = 0 ∧
    (s.statusWord.extractLsb' 16 4).toNat =
      (match s.phase with
        | .idle => 0 | .count => 1 | .build => 2 | .codes => 3 | .estimate => 4 | .hdrWrite => 5 | .encode => 6
        | .flush => 7 | .hdrRead => 8 | .walk => 9 | .drain => 10 | .short => 11)

/-- R52, R54, R55: the host's stream actions.  That `PopOut` of an empty `OUT_Q` is a step that changes nothing is the
model's form of "has no step" (log 3), and that the beat goes to `popped` is the model's too (log 15). -/
def Obligations.StreamActions : Prop :=
  ∀ (s : State) (x : Beat),
    happen (.pushIn x) s = .next { s with inQ := s.inQ ++ [x] } ∧
    happen .dropIn s = .next { s with inQ := [] } ∧
    (∀ rest, s.outQ = x :: rest → happen .popOut s = .next { s with outQ := rest, popped := some x }) ∧
    (s.outQ = [] → happen .popOut s = .next s)

/-- R46, R152: the values that the spec gives the state after reset. -/
def Obligations.StateAfterReset : Prop :=
  let s := State.reset
  s.ctrlWord = 0 ∧ s.statusWord = 0 ∧ s.data = 0 ∧ s.error = .none ∧ s.errInfo = 0 ∧ s.total = 0 ∧ s.hdrBits = 0 ∧
    s.estOrig = 0 ∧ s.estComp = 0 ∧ s.result = 0 ∧ s.codeLen = 0 ∧ s.nodeCount = 0 ∧ s.root = 0 ∧
    regValue 0x44 s = 0xFACE8200#32 ∧ (∀ b : Nat, b < 256 → freqAt s.freq b = 0) ∧ s.pkAcc = 0 ∧ s.pkN = 0 ∧ s.upBuf = 0 ∧
    s.upN = 0 ∧ s.upEos = false ∧ s.upBytes = 0 ∧ s.busy = false ∧ s.curCmd = 0 ∧ s.k = none ∧ s.irq = false

/-- R150, R151: `Reset()` from any state: the registers, `FREQ`, the packer, the unpacker and the core take their values of
R46, `IN_Q` stays, and `OUT_Q` becomes some prefix of itself; nothing is said of `NODE`, `CODE`, `HEAP` and `STACK`. -/
def Obligations.ResetAction : Prop :=
  ∀ s : State, ∃ n node code heap stack draws,
    happen .reset s = .next { State.reset with
      node := node, code := code, heap := heap, stack := stack, inQ := s.inQ, outQ := s.outQ.take n
      agenda := s.agenda, draws := draws, rdata := s.rdata, popped := s.popped }

/-- R140: the interrupt line, and that its two sources are never 1 together. -/
def Obligations.InterruptLine : Prop :=
  ∀ s : State, (s.irq = true ↔ s.ie = true ∧ (s.done = true ∨ s.err = true)) ∧
    (s.Inv → ¬ (s.done = true ∧ s.err = true))

/-! ## NOP, CLEAR and the symbol counter -/

/-- R89, R90: NOP ends in its one step and changes nothing else; CLEAR sets to 0 what R90's pseudocode lists and leaves the
rest.  That `RESULT` is in that list although R30 says that the commands it does not name leave `RESULT` unchanged, and so
`HDR_BITS`, `EST_*`, `CODE_LEN`, `NODE_COUNT` and `ROOT`, is the model's reading (log 18). -/
def Obligations.ControlCommandsRun : Prop :=
  ∀ s : State, s.standsAt .start →
    exec .nop s = .next { s with busy := false, phase := .idle, k := none, done := true } ∧
    exec .clear s = .next { s with
      freq := Vector.replicate 256 0, total := 0, hdrBits := 0, estOrig := 0, estComp := 0, result := 0, codeLen := 0
      nodeCount := 0, root := 0, pkAcc := 0, pkN := 0, upBuf := 0, upN := 0, upEos := false, upBytes := 0
      k := some .finishing }

/-- R91, R93, R94: COUNT step by step: its start, a byte counted, a byte that finds `TOTAL` full, and `End`. -/
def Obligations.CountSteps : Prop :=
  ∀ (s : State) (b : Byte) (rest : List Beat),
    (s.standsAt .start →
      exec .count s = .next { s with freq := Vector.replicate 256 0, total := 0, k := some .countIn }) ∧
    (s.standsAt .countIn → s.inQ = .byte b :: rest → s.total.toNat ≠ 2 ^ 32 - 1 →
      exec .count s = .next { s with
        inQ := rest, freq := freqSet s.freq b.toNat (freqAt s.freq b.toNat + 1), total := s.total + 1
        k := some .countIn }) ∧
    (s.standsAt .countIn → s.inQ = .byte b :: rest → s.total.toNat = 2 ^ 32 - 1 →
      exec .count s = .next { s with inQ := rest, k := some (.raising .countOverflow (b.setWidth 32)) }) ∧
    (s.standsAt .countIn → s.inQ = .endBeat :: rest →
      exec .count s = .next { s with inQ := rest, result := s.total.setWidth 64, k := some .finishing })

/-- R94: a whole COUNT, from the write of its word to an idle core: over a queue that holds the bytes and `End`, every
`FREQ` entry is the number of times its byte occurs, `TOTAL` and `RESULT` are the number of bytes, `IN_Q` holds what came
after `End`, and nothing else changes but the flags, `CUR_CMD` and the error registers that dispatch clears. -/
def Obligations.CountTallies : Prop :=
  ∀ (s : State) (bytes : List Byte) (rest : List Beat), s.busy = false → bytes.length < 2 ^ 32 →
    s.agenda = [.regWrite 0x08 0x02000000#32] → s.inQ = byteBeats bytes ++ .endBeat :: rest →
    ∃ freq, core.run (bytes.length + 4) s = .next { s with
        agenda := [], inQ := rest, freq := freq, total := BitVec.ofNat 32 bytes.length
        result := BitVec.ofNat 64 bytes.length, curCmd := 0x02000000#32, phase := .idle, k := none
        treeValid := false, treeDecoded := false, codesValid := false, estValid := false, gated := false
        done := true, err := false, error := .none, errInfo := 0 } ∧
      ∀ b : Byte, (freqAt freq b.toNat).toNat = bytes.count b

/-- R95: LOAD_FREQ puts `DATA` in `FREQ[b]` and corrects `TOTAL`, or raises when the new total does not fit, with `FREQ` and
`TOTAL` unchanged.  `TOTAL − FREQ[b] + DATA` is exact where `FREQ[b] ≤ TOTAL`, as R45 item 1 has it. -/
def Obligations.LoadFreqRuns : Prop :=
  ∀ (s : State) (idx : BitVec 10), s.standsAt .start → idx.toNat ≤ 255 →
    (freqAt s.freq idx.toNat).toNat ≤ s.total.toNat →
    let t : Nat := s.total.toNat - (freqAt s.freq idx.toNat).toNat + s.data.toNat
    (t ≤ 2 ^ 32 - 1 →
      exec (.loadFreq idx) s = .next { s with
        freq := freqSet s.freq idx.toNat s.data, total := BitVec.ofNat 32 t, k := some .finishing }) ∧
    (2 ^ 32 - 1 < t →
      exec (.loadFreq idx) s = .next { s with k := some (.raising .countOverflow (idx.setWidth 32)) })

/-- R81, R96: READ_FREQ writes the count to `DATA` and nothing else. -/
def Obligations.ReadFreqRuns : Prop :=
  ∀ (s : State) (idx : BitVec 10), s.standsAt .start → idx.toNat ≤ 255 →
    exec (.readFreq idx) s = .next { s with data := freqAt s.freq idx.toNat, k := some .finishing }

/-! ## The tree builder -/

/-- R98 to R101, R104: BUILD_TREE writes the leaves of R99 and R100 and the merges of R101 into a `NODE` whose valid bits
are cleared, and changes nothing but the tree, its registers, `HEAP` and `TREE_VALID`. -/
def Obligations.BuildFollowsMergeRule : Prop :=
  ∀ s : State, s.standsAt .start →
    ∃ (pairs : List HeapEntry) (merges : List (NodeIdx × Node)) (root : NodeIdx),
      exec .buildTree s = .next { s with
        node := writeNodes
          (pairs.map (fun e => (e.id, (⟨true, true, e.id.setWidth 9, 0, 0, e.weight⟩ : Node))) ++ merges)
          (nodesInvalid s.node)
        heap := [], root := root, nodeCount := BitVec.ofNat 10 (2 * pairs.length - 1), treeValid := true
        k := some .finishing } ∧
      pairs.Nodup ∧
      (∀ e : HeapEntry, e ∈ pairs ↔
        (e.id.toNat < 256 ∧ freqAt s.freq e.id.toNat ≠ 0 ∧ e.weight = (freqAt s.freq e.id.toNat).setWidth 33) ∨
        e = ⟨1, 256⟩ ∨ ((∀ b : Nat, b < 256 → freqAt s.freq b = 0) ∧ e = ⟨0, 0⟩)) ∧
      MergeSpec pairs 257 merges root

/-- R103, R107 item 1: the shape of a built tree: a tree of L leaves in `NODE` from `ROOT`, with 2 ≤ L ≤ 257, 2L − 1 nodes,
`ROOT = 255 + L`, every leaf at depth 1 to L − 1, each symbol on at most one leaf, each valid entry at exactly one place of
the tree, and a leaf exactly for the bytes with a nonzero count, for `PSEUDO_EOF`, and for byte 0 when every count is 0. -/
def Obligations.BuiltTreeShape : Prop :=
  ∀ s : State, s.standsAt .start →
    ∃ (t : State) (tree : HTree), exec .buildTree s = .next t ∧ tree.sits t.node t.root = true ∧
      2 ≤ tree.leaves.length ∧ tree.leaves.length ≤ 257 ∧ tree.size = 2 * tree.leaves.length - 1 ∧
      t.nodeCount.toNat = tree.size ∧ t.root.toNat = 255 + tree.leaves.length ∧
      (∀ e ∈ tree.codes, 1 ≤ e.2.length ∧ e.2.length ≤ tree.leaves.length - 1) ∧ tree.leaves.Nodup ∧
      (tree.indices t.node t.root).Nodup ∧
      (∀ i : NodeIdx, (nodeAt t.node i).valid = true ↔ i ∈ tree.indices t.node t.root) ∧
      ∀ sym : Sym, sym ∈ tree.leaves ↔
        sym = 256 ∨ (sym.toNat < 256 ∧ freqAt s.freq sym.toNat ≠ 0) ∨
          (sym = 0 ∧ ∀ b : Nat, b < 256 → freqAt s.freq b = 0)

/-- R102: in a built tree every node's weight is the exact sum of its leaves' counts, and the root's is `TOTAL + 1`, where
`TOTAL` is the sum of `FREQ` (R45 item 1): no weight is above 2^32, so no sum overflows 33 bits. -/
def Obligations.BuiltTreeWeights : Prop :=
  ∀ s : State, s.standsAt .start → s.total.toNat = freqSum s.freq →
    ∃ (t : State) (tree : HTree), exec .buildTree s = .next t ∧ tree.sits t.node t.root = true ∧
      tree.weighs s.freq t.node t.root = true ∧ (nodeAt t.node t.root).weight.toNat = s.total.toNat + 1 ∧
      ∀ i : NodeIdx, (nodeAt t.node i).valid = true → (nodeAt t.node i).weight.toNat ≤ 2 ^ 32

/-- R97: the indices of a built tree: a leaf stands at its symbol, and the internal nodes from 257 up to `ROOT`, each
made after its children. -/
def Obligations.BuiltTreeNumbering : Prop :=
  ∀ s : State, s.standsAt .start →
    ∃ t : State, exec .buildTree s = .next t ∧
      ∀ i : NodeIdx, (nodeAt t.node i).valid = true →
        ((nodeAt t.node i).leaf = true → i.toNat ≤ 256 ∧ (nodeAt t.node i).symbol.toNat = i.toNat) ∧
        ((nodeAt t.node i).leaf = false → 257 ≤ i.toNat ∧ i.toNat ≤ t.root.toNat ∧
          (nodeAt t.node i).left.toNat < i.toNat ∧ (nodeAt t.node i).right.toNat < i.toNat)

/-- R79, R105: READ_NODE writes the word that `WSEL` selects to `DATA`, and nothing else: 0 for an entry that is no node. -/
def Obligations.ReadNodeRuns : Prop :=
  ∀ (s : State) (wsel : BitVec 4) (idx : BitVec 10), s.standsAt .start → idx.toNat ≤ 512 → wsel.toNat ≤ 2 →
    ∃ d : Word, exec (.readNode wsel idx) s = .next { s with data := d, k := some .finishing } ∧
      let n := nodeAt s.node idx
      (n.valid = false → d = 0) ∧
      (n.valid = true → wsel.toNat = 0 →
        d.getLsbD 31 = true ∧ d.getLsbD 30 = n.leaf ∧ d.extractLsb' 20 10 = n.left ∧ d.extractLsb' 10 10 = n.right ∧
          d.getLsbD 9 = false ∧ d.extractLsb' 0 9 = n.symbol) ∧
      (n.valid = true → wsel.toNat = 1 → d = n.weight.setWidth 32) ∧
      (n.valid = true → wsel.toNat = 2 → d = if n.weight.getLsbD 32 then 1 else 0)

/-! ## The code table -/

/-- R106, R108: GEN_CODES on a tree in `NODE` writes to `CODE` the path of each leaf, sets `CODES_VALID`, and changes nothing
else but `STACK`.  Where each symbol labels one leaf, the entry of a leaf's symbol has `len` the length of the leaf's path p
and `bits[255 − j] = p[j]`, and the entry of every other symbol is absent. -/
def Obligations.GenCodesRuns : Prop :=
  ∀ (s : State) (tree : HTree), s.standsAt .start → s.holdsTree tree = true →
    let code := writeCodes tree.codes (Vector.replicate 257 ⟨false, 0, 0⟩)
    exec .genCodes s = .next { s with code := code, stack := [], codesValid := true, k := some .finishing } ∧
    (tree.leaves.Nodup → (∀ sym ∈ tree.leaves, sym.toNat ≤ 256) →
      (∀ (sym : Sym) (p : List Bool), (sym, p) ∈ tree.codes →
        (codeAt code sym.toNat).valid = true ∧ (codeAt code sym.toNat).len.toNat = p.length ∧
          (∀ j : Nat, j < 256 → (codeAt code sym.toNat).bits.getLsbD (255 - j) = (p[j]?).getD false) ∧
          (codeAt code sym.toNat).path = p) ∧
      ∀ sym : Sym, sym ∉ tree.leaves → codeAt code sym.toNat = ⟨false, 0, 0⟩)

/-- R107, R38: the laws of the table while `CODES_VALID = 1`, from every state that meets the invariant: which symbols have
a code, the bounds of its length, that no code is a prefix of another, Kraft's equality (times 2^256), that an entry's
bits past its length, and every field of an entry with no code, are 0, and that the order of the walk changes no entry. -/
def Obligations.CodeTableLaws : Prop :=
  ∀ s : State, s.Inv → s.codesValid = true →
    (∀ sym : Nat, sym ≤ 256 → ((codeAt s.code sym).valid = true ↔
      sym = 256 ∨ (sym < 256 ∧ freqAt s.freq sym ≠ 0) ∨ (sym = 0 ∧ ∀ b : Nat, b < 256 → freqAt s.freq b = 0))) ∧
    (∀ sym : Nat, sym ≤ 256 → (codeAt s.code sym).valid = true →
      1 ≤ (codeAt s.code sym).len.toNat ∧ (codeAt s.code sym).len.toNat ≤ 256) ∧
    (∀ a b : Nat, a ≤ 256 → b ≤ 256 → a ≠ b → (codeAt s.code a).valid = true → (codeAt s.code b).valid = true →
      ¬ (codeAt s.code a).path <+: (codeAt s.code b).path) ∧
    ((List.range 257).map (fun sym =>
      if (codeAt s.code sym).valid then 2 ^ (256 - (codeAt s.code sym).len.toNat) else 0)).sum = 2 ^ 256 ∧
    (∀ sym j : Nat, sym ≤ 256 → (codeAt s.code sym).len.toNat ≤ j → (codeAt s.code sym).bits.getMsbD j = false) ∧
    (∀ sym : Nat, sym ≤ 256 → (codeAt s.code sym).valid = false → codeAt s.code sym = ⟨false, 0, 0⟩) ∧
    ∃ tree : HTree, s.holdsTree tree = true ∧
      ∀ order, order.Perm tree.codes → s.code = writeCodes order (Vector.replicate 257 ⟨false, 0, 0⟩)

/-- R80, R109: READ_CODE writes the length to `CODE_LEN` and the 32 code bits that `WSEL` selects to `DATA`, the first at
bit 31, and nothing else; for a symbol with no code both are 0, and so are the bits past the length of a code of the table
that `CODES_VALID` vouches for. -/
def Obligations.ReadCodeRuns : Prop :=
  ∀ (s : State) (wsel : BitVec 4) (idx : BitVec 10), s.standsAt .start → idx.toNat ≤ 256 → wsel.toNat ≤ 7 →
    ∃ (d : Word) (n : BitVec 9),
      exec (.readCode wsel idx) s = .next { s with data := d, codeLen := n, k := some .finishing } ∧
      let c := codeAt s.code idx.toNat
      (c.valid = false → d = 0 ∧ n = 0) ∧
      (c.valid = true → n = c.len ∧
        ∀ j : Nat, j < 32 → d.getLsbD (31 - j) = c.bits.getLsbD (255 - (32 * wsel.toNat + j))) ∧
      (s.Inv → s.codesValid = true → ∀ j : Nat, j < 32 → c.len.toNat ≤ 32 * wsel.toNat + j →
        d.getLsbD (31 - j) = false)

/-! ## The header codec and the bit packer -/

/-- R116, R117, R120: WRITE_HEADER on a tree in `NODE` adds the magic marker and the tree's bits to the output stream, leaves
the bits short of a byte pending, writes the number of bits to `HDR_BITS` and `RESULT`, which is 31 + 11 L for a tree that
BUILD_TREE made, and changes nothing else but `STACK`. -/
def Obligations.WriteHeaderRuns : Prop :=
  ∀ (s : State) (tree : HTree), s.standsAt .start → s.holdsTree tree = true →
    ∃ (bytes : List Byte) (acc : BitVec 8) (n : Fin 8) (t : State),
      let nb := 32 + tree.size + 9 * tree.leaves.length
      exec .writeHeader s = .next t ∧
      t = { s with
        outQ := s.outQ ++ byteBeats bytes, pkAcc := acc, pkN := n, stack := [], hdrBits := BitVec.ofNat 32 nb
        result := BitVec.ofNat 64 nb, k := some .finishing } ∧
      streamBits bytes ++ t.pending = s.pending ++ msbBits 32 0xFACE8200 ++ tree.bits ∧
      (msbBits 32 0xFACE8200 ++ tree.bits).length = nb ∧
      (s.Inv → s.treeValid = true → s.treeDecoded = false → nb = 31 + 11 * tree.leaves.length)

/-- R59, R111, R121: FLUSH sends the pending bits, filled with zeros to a whole byte, and then `End`; it leaves the packer
empty and changes nothing else. -/
def Obligations.FlushRuns : Prop :=
  ∀ s : State, s.standsAt .start →
    ∃ bytes : List Byte,
      exec .flush s = .next { s with
        outQ := s.outQ ++ byteBeats bytes ++ [.endBeat], pkAcc := 0, pkN := 0, k := some .finishing } ∧
      streamBits bytes = s.pending ++ padBits s.pkN.val

/-! ## The compressor -/

/-- R122 to R124, R126: ESTIMATE writes the sizes and the gate, and nothing else.  `L` is the number of symbols with a
code. -/
def Obligations.EstimateRuns : Prop :=
  ∀ (s : State) (force : Bool), s.standsAt .start →
    let L := ((List.range 257).filter (fun sym => (codeAt s.code sym).valid)).length
    let hs := 31 + 11 * L
    let comp := hs + ((List.range 256).map (fun b => (codeAt s.code b).len.toNat * (freqAt s.freq b).toNat)).sum +
      (codeAt s.code 256).len.toNat
    exec (.estimate force) s = .next { s with
      hdrBits := BitVec.ofNat 32 hs, estOrig := BitVec.ofNat 64 (8 * s.total.toNat), estComp := BitVec.ofNat 64 comp
      gated := !force && decide (8 * s.total.toNat ≤ comp), estValid := true, k := some .finishing }

/-- R123, R117: with the codes of a built tree no size overflows, and the header size of the formula is the number of bits
that WRITE_HEADER writes for the same tree. -/
def Obligations.EstimateIsExact : Prop :=
  ∀ s : State, s.Inv → s.codesValid = true →
    8 * s.total.toNat < 2 ^ 35 ∧ headerSize s.code ≤ 2858 ∧ compressedSize s < 2 ^ 41 ∧
    ∃ tree : HTree, s.holdsTree tree = true ∧
      headerSize s.code = (msbBits 32 0xFACE8200 ++ tree.bits).length

/-- R125, R127: ENCODE step by step: its start, a byte with a code, a byte with none, `End`, and the flush.  The bits that a
step adds to the output stream are those of the code. -/
def Obligations.EncodeSteps : Prop :=
  ∀ (s : State) (b : Byte) (rest : List Beat) (h nb e : Nat),
    (s.standsAt .start → exec .encode s = .next { s with k := some (.encodeIn 0 0) }) ∧
    (s.standsAt (.encodeIn h nb) → s.inQ = .byte b :: rest → (codeAt s.code b.toNat).valid = true →
      ∃ (bytes : List Byte) (acc : BitVec 8) (n : Fin 8) (t : State), exec .encode s = .next t ∧
        t = { s with
          inQ := rest, outQ := s.outQ ++ byteBeats bytes, pkAcc := acc, pkN := n
          k := some (.encodeIn h (nb + (codeAt s.code b.toNat).len.toNat)) } ∧
        streamBits bytes ++ t.pending = s.pending ++ (codeAt s.code b.toNat).path) ∧
    (s.standsAt (.encodeIn h nb) → s.inQ = .byte b :: rest → (codeAt s.code b.toNat).valid = false →
      exec .encode s = .next { s with inQ := rest, k := some (.raising .invariant (b.setWidth 32)) }) ∧
    (s.standsAt (.encodeIn h nb) → s.inQ = .endBeat :: rest →
      ∃ (bytes : List Byte) (acc : BitVec 8) (n : Fin 8) (t : State), exec .encode s = .next t ∧
        t = { s with
          inQ := rest, outQ := s.outQ ++ byteBeats bytes, pkAcc := acc, pkN := n
          k := some (.flushPhase h (nb + (codeAt s.code 256).len.toNat)) } ∧
        streamBits bytes ++ t.pending = s.pending ++ (codeAt s.code 256).path) ∧
    (s.standsAt (.flushPhase h e) →
      ∃ bytes : List Byte, exec .encode s = .next { s with
          phase := .flush, outQ := s.outQ ++ byteBeats bytes ++ [.endBeat], pkAcc := 0, pkN := 0
          result := BitVec.ofNat 64 (h + e), k := some .finishing } ∧
        streamBits bytes = s.pending ++ padBits s.pkN.val)

/-- R76, R125, R127: a whole ENCODE, from the write of its word to an idle core: over a queue that holds bytes with codes and
`End`, the output stream grows by the codes in the order of the bytes, the code of `PSEUDO_EOF`, zeros to a whole byte, and
`End`; `RESULT` is the number of body bits; nothing else changes but what dispatch clears.  In this run the host takes no
output beat, a host that R162 leaves out: that the core does not wait for it is the model's (log 16). -/
def Obligations.EncodeWritesBody : Prop :=
  ∀ (s : State) (bytes : List Byte) (rest : List Beat), s.busy = false → s.codesValid = true →
    s.agenda = [.regWrite 0x08 0x0B000000#32] → s.inQ = byteBeats bytes ++ .endBeat :: rest →
    (∀ b ∈ bytes, (codeAt s.code b.toNat).valid = true) →
    ∃ out : List Byte, core.run (bytes.length + 5) s = .next { s with
        agenda := [], inQ := rest, outQ := s.outQ ++ byteBeats out ++ [.endBeat], pkAcc := 0, pkN := 0
        result := BitVec.ofNat 64 (bodyBits s.code bytes).length, curCmd := 0x0B000000#32, phase := .idle, k := none
        done := true, err := false, error := .none, errInfo := 0 } ∧
      streamBits out = s.pending ++ bodyBits s.code bytes ++ padBits (s.pending ++ bodyBits s.code bytes).length

/-- R128: COMPRESS step by step up to its codes: its start, pass 1, `RESULT <- 0`, the tree of R99 to R101, and the codes.
That `BuildTree()` writes `NODE_COUNT` and `ROOT` here too, although R32 and R33 name BUILD_TREE and DECOMPRESS only, is the
model's reading of R104 and R128 (log 18). -/
def Obligations.CompressFirstSteps : Prop :=
  ∀ (s : State) (force : Bool) (b : Byte) (rest : List Beat) (tree : HTree),
    (s.standsAt .start →
      exec (.compress force) s = .next { s with
        pkAcc := 0, pkN := 0, freq := Vector.replicate 256 0, total := 0, k := some .countIn }) ∧
    (s.standsAt .countIn → s.inQ = .byte b :: rest → s.total.toNat ≠ 2 ^ 32 - 1 →
      exec (.compress force) s = .next { s with
        inQ := rest, freq := freqSet s.freq b.toNat (freqAt s.freq b.toNat + 1), total := s.total + 1
        k := some .countIn }) ∧
    (s.standsAt .countIn → s.inQ = .byte b :: rest → s.total.toNat = 2 ^ 32 - 1 →
      exec (.compress force) s = .next { s with inQ := rest, k := some (.raising .countOverflow (b.setWidth 32)) }) ∧
    (s.standsAt .countIn → s.inQ = .endBeat :: rest →
      exec (.compress force) s = .next { s with inQ := rest, result := 0, k := some .buildPhase }) ∧
    (s.standsAt .buildPhase →
      ∃ (pairs : List HeapEntry) (merges : List (NodeIdx × Node)) (root : NodeIdx),
        exec (.compress force) s = .next { s with
          phase := .build
          node := writeNodes
            (pairs.map (fun e => (e.id, (⟨true, true, e.id.setWidth 9, 0, 0, e.weight⟩ : Node))) ++ merges)
            (nodesInvalid s.node)
          heap := [], root := root, nodeCount := BitVec.ofNat 10 (2 * pairs.length - 1), treeValid := true
          k := some .codesPhase } ∧
        pairs.Nodup ∧
        (∀ e : HeapEntry, e ∈ pairs ↔
          (e.id.toNat < 256 ∧ freqAt s.freq e.id.toNat ≠ 0 ∧ e.weight = (freqAt s.freq e.id.toNat).setWidth 33) ∨
          e = ⟨1, 256⟩ ∨ ((∀ b : Nat, b < 256 → freqAt s.freq b = 0) ∧ e = ⟨0, 0⟩)) ∧
        MergeSpec pairs 257 merges root) ∧
    (s.standsAt .codesPhase → s.holdsTree tree = true →
      exec (.compress force) s = .next { s with
        phase := .codes, code := writeCodes tree.codes (Vector.replicate 257 ⟨false, 0, 0⟩), stack := []
        codesValid := true, k := some .estimatePhase })

/-- R124, R128: the size gate of COMPRESS: gated, it ends with `RESULT = EST_COMP` and no beat written or taken; otherwise it
goes on to the header. -/
def Obligations.CompressGate : Prop :=
  ∀ (s : State) (force : Bool), s.standsAt .estimatePhase →
    let estimated : State := { s with
      phase := .estimate, hdrBits := BitVec.ofNat 32 (headerSize s.code)
      estOrig := BitVec.ofNat 64 (8 * s.total.toNat), estComp := BitVec.ofNat 64 (compressedSize s), estValid := true }
    (force = false → 8 * s.total.toNat ≤ compressedSize s →
      exec (.compress force) s = .next { estimated with
        gated := true, result := BitVec.ofNat 64 (compressedSize s), k := some .finishing }) ∧
    (force = true ∨ compressedSize s < 8 * s.total.toNat →
      exec (.compress force) s = .next { estimated with gated := false, k := some .headerPhase })

/-- R128: COMPRESS step by step from its header to its end: the header, pass 2, and the flush. -/
def Obligations.CompressLastSteps : Prop :=
  ∀ (s : State) (force : Bool) (b : Byte) (rest : List Beat) (tree : HTree) (h nb e : Nat),
    (s.standsAt .headerPhase → s.holdsTree tree = true →
      ∃ (bytes : List Byte) (acc : BitVec 8) (n : Fin 8) (t : State), exec (.compress force) s = .next t ∧
        t = { s with
          phase := .hdrWrite, outQ := s.outQ ++ byteBeats bytes, pkAcc := acc, pkN := n, stack := []
          hdrBits := BitVec.ofNat 32 (32 + tree.size + 9 * tree.leaves.length)
          k := some (.encodePhase (32 + tree.size + 9 * tree.leaves.length)) } ∧
        streamBits bytes ++ t.pending = s.pending ++ msbBits 32 0xFACE8200 ++ tree.bits) ∧
    (s.standsAt (.encodePhase h) →
      exec (.compress force) s = .next { s with phase := .encode, k := some (.encodeIn h 0) }) ∧
    (s.standsAt (.encodeIn h nb) → s.inQ = .byte b :: rest → (codeAt s.code b.toNat).valid = true →
      ∃ (bytes : List Byte) (acc : BitVec 8) (n : Fin 8) (t : State), exec (.compress force) s = .next t ∧
        t = { s with
          inQ := rest, outQ := s.outQ ++ byteBeats bytes, pkAcc := acc, pkN := n
          k := some (.encodeIn h (nb + (codeAt s.code b.toNat).len.toNat)) } ∧
        streamBits bytes ++ t.pending = s.pending ++ (codeAt s.code b.toNat).path) ∧
    (s.standsAt (.encodeIn h nb) → s.inQ = .byte b :: rest → (codeAt s.code b.toNat).valid = false →
      exec (.compress force) s = .next { s with inQ := rest, k := some (.raising .invariant (b.setWidth 32)) }) ∧
    (s.standsAt (.encodeIn h nb) → s.inQ = .endBeat :: rest →
      ∃ (bytes : List Byte) (acc : BitVec 8) (n : Fin 8) (t : State), exec (.compress force) s = .next t ∧
        t = { s with
          inQ := rest, outQ := s.outQ ++ byteBeats bytes, pkAcc := acc, pkN := n
          k := some (.flushPhase h (nb + (codeAt s.code 256).len.toNat)) } ∧
        streamBits bytes ++ t.pending = s.pending ++ (codeAt s.code 256).path) ∧
    (s.standsAt (.flushPhase h e) →
      ∃ bytes : List Byte, exec (.compress force) s = .next { s with
          phase := .flush, outQ := s.outQ ++ byteBeats bytes ++ [.endBeat], pkAcc := 0, pkN := 0
          result := BitVec.ofNat 64 (h + e), k := some .finishing } ∧
        streamBits bytes = s.pending ++ padBits s.pkN.val)

/-! ## The decompressor -/

/-- R113, R115, R118, R130, R131: DECOMPRESS step by step, and that it completes each step: its start, `End` at each point
that asks for a bit, a byte there, the entry of the walk with the bits still in the unpacker, and the draining loop with its
end.  A byte is its eight bits, bit 7 first (R57, R113), and what each bit does is spelt out in the rules of `TakesBits`: in
the header, once the marker has cleared the valid bits, `NODE` changes only at the node made and at its parent's link, and
in the walk nothing changes but `OUT_Q`.
Every state of the invariant that asks for a bit can take one (`readsBits`).  That `TREE_VALID` and `TREE_DECODED` are 1 at
the `raise` of `ERR_HDR_INVALID` 3, the lone leaf of a byte, is the model's reading of R131 against the note under vector
V4.3 (log 17). -/
def Obligations.DecompressSteps : Prop :=
  ∀ (s : State) (b : Byte) (rest : List Beat) (p : Point) (cur : NodeIdx) (cnt : Nat),
    let asksInHeader : Prop := match p with
      | .magicIn _ _ | .tagIn _ _ _ | .symIn _ _ _ _ _ => True
      | _ => False
    (s.standsAt .start →
      exec .decompress s = .next { s with
        upBuf := 0, upN := 0, upEos := false, upBytes := 0, k := some (.magicIn 0 0) }) ∧
    (asksInHeader → s.standsAt p → s.inQ = .endBeat :: rest →
      exec .decompress s = .next { s with
        inQ := rest, upEos := true, k := some (.raising .hdrTrunc (BitVec.ofNat 32 (8 * s.upBytes.toNat))) }) ∧
    (s.standsAt (.walkIn cur cnt) → s.inQ = .endBeat :: rest →
      exec .decompress s = .next { s with
        inQ := rest, upEos := true, k := some (.raising .bodyTrunc (BitVec.ofNat 32 cnt)) }) ∧
    (s.standsAt p → s.readsBits p → s.inQ = .byte b :: rest →
      ∃ (q : Point) (t : State) (left : List Bool), TakesBits p s (byteBits b) q t left ∧
        exec .decompress s = .next { t with
          inQ := rest, upBuf := b, upN := Fin.ofNat 9 left.length, upBytes := s.upBytes + 1, k := some q } ∧
        (p = .walkIn cur cnt → ∃ out, t = { s with outQ := s.outQ ++ byteBeats out })) ∧
    (s.Inv → asksInHeader ∨ p = .walkIn cur cnt → s.standsAt p → s.readsBits p) ∧
    (s.standsAt .walkPhase → s.upEos = false →
      ∃ (q : Point) (t : State) (left : List Bool),
        TakesBits (.walkIn 0 0) { s with phase := .walk } s.undelivered q t left ∧
        exec .decompress s = .next { t with upN := Fin.ofNat 9 left.length, k := some q } ∧
        ∃ out, t = { s with phase := .walk, outQ := s.outQ ++ byteBeats out }) ∧
    (s.Inv → s.standsAt .walkPhase → s.upEos = false) ∧
    (s.standsAt (.drainPhase cnt) → s.upEos = false →
      exec .decompress s = .next { s with phase := .drain, k := some (.drainIn cnt) }) ∧
    (s.standsAt (.drainPhase cnt) → s.upEos = true →
      exec .decompress s = .next { s with
        phase := .drain, outQ := s.outQ ++ [.endBeat], result := BitVec.ofNat 64 cnt, k := some .finishing }) ∧
    (s.standsAt (.drainIn cnt) → s.inQ = .byte b :: rest → exec .decompress s = .next { s with inQ := rest }) ∧
    (s.standsAt (.drainIn cnt) → s.inQ = .endBeat :: rest →
      exec .decompress s = .next { s with
        inQ := rest, upEos := true, outQ := s.outQ ++ [.endBeat], result := BitVec.ofNat 64 cnt, k := some .finishing })

/-- R118, R133, R134: the checks of the header parse.  A wrong magic marker, found with its fourth byte; the 514th node and a
symbol above 256, at whichever bit of a byte decides it: the bits before bit j of the byte are taken as the rules of
`TakesBits` say, and bit j itself writes nothing to `NODE` and nothing to the output. -/
def Obligations.HeaderChecks : Prop :=
  ∀ (s t : State) (b : Byte) (rest : List Beat) (p : Point) (slot : Slot) (id : NodeIdx) (made nb v j : Nat),
    s.inQ = .byte b :: rest →
    (s.standsAt (.magicIn 24 v) → v < 2 ^ 24 → 256 * v + b.toNat ≠ 0xFACE8200 →
      exec .decompress s = .next { s with
        inQ := rest, upBuf := b, upN := 0, upBytes := s.upBytes + 1
        k := some (.raising .magic (BitVec.ofNat 32 (256 * v + b.toNat))) }) ∧
    (s.standsAt p → s.readsBits p → j < 8 → TakesBits p s ((byteBits b).take j) (.tagIn slot 513 nb) t [] →
      exec .decompress s = .next { t with
        inQ := rest, upBuf := b, upN := Fin.ofNat 9 (7 - j), upBytes := s.upBytes + 1
        k := some (.raising .hdrInvalid 2) }) ∧
    (s.standsAt p → s.readsBits p → j < 8 → TakesBits p s ((byteBits b).take j) (.symIn id made nb 8 v) t [] →
      let symbol := 2 * v + (b.getLsbD (7 - j)).toNat
      256 < symbol → symbol < 512 →
      exec .decompress s = .next { t with
        inQ := rest, upBuf := b, upN := Fin.ofNat 9 (7 - j), upBytes := s.upBytes + 1
        k := some (.raising .hdrInvalid (1#32 ||| (BitVec.ofNat 32 symbol <<< 8))) })

/-- R118, R131: the whole header parse.  Over a stream that begins with the magic marker and the bits of a tree of at most
513 nodes with symbols up to 256, it rebuilds that tree in `NODE`, numbered in preorder from 0, with weights 0, no children
in a leaf, no symbol in an internal node, and no other valid entry; it sets `ROOT`, `NODE_COUNT`, `HDR_BITS` and the two flags, delivers no bit past the tree, and goes on as R131
says for a tree that is one leaf, or to the walk.  For the lone leaf of a byte it leaves `TREE_VALID` and `TREE_DECODED` at 1
at the `raise`, as R131 has it: the model's reading against the note under vector V4.3 (log 17). -/
def Obligations.HeaderParse : Prop :=
  ∀ (s : State) (tree : HTree) (stream : List Byte) (extra : List Bool) (rest : List Beat),
    s.running .decompress (.magicIn 0 0) → s.upN = 0 → s.upEos = false → s.inQ = byteBeats stream ++ rest →
    tree.size ≤ 513 → (∀ sym ∈ tree.leaves, sym.toNat ≤ 256) →
    streamBits stream = msbBits 32 0xFACE8200 ++ tree.bits ++ extra → extra.length < 8 →
    ∃ (node : Vector Node 513) (upBuf : BitVec 8) (upN : Fin 9) (t : State), core.run stream.length s = .next t ∧
      t = { s with
        inQ := rest, upBuf := upBuf, upN := upN, upBytes := s.upBytes + BitVec.ofNat 64 stream.length
        node := node, stack := [], root := 0, nodeCount := BitVec.ofNat 10 tree.size
        hdrBits := BitVec.ofNat 32 (32 + tree.size + 9 * tree.leaves.length), treeValid := true, treeDecoded := true
        k := some (match tree with
          | .leaf sym => if sym = 256 then .drainPhase 0 else .raising .hdrInvalid 3
          | .node _ _ => .walkPhase) } ∧
      t.undelivered = extra ∧ tree.placed node 0 ∧
      ∀ i : NodeIdx, (nodeAt node i).valid = true → i.toNat < tree.size ∧ (nodeAt node i).weight = 0 ∧
        ((nodeAt node i).leaf = true → (nodeAt node i).left = 0 ∧ (nodeAt node i).right = 0) ∧
        ((nodeAt node i).leaf = false → (nodeAt node i).symbol = 0)

/-- R119: the header round trip: a DECOMPRESS whose input begins with the bits that WRITE_HEADER writes for a tree of symbols
up to 256, with the packer empty before, rebuilds the same tree, numbered in preorder, with weights 0.  R119 speaks of the
trees of BUILD_TREE; this holds of any tree in `NODE`, and for the lone leaf of a byte, which BUILD_TREE never makes, the two
flags are the model's reading (log 17). -/
def Obligations.HeaderRoundTrip : Prop :=
  ∀ (s t u : State) (tree : HTree) (bytes stream : List Byte) (extra : List Bool) (rest : List Beat),
    s.standsAt .start → s.holdsTree tree = true → (∀ sym ∈ tree.leaves, sym.toNat ≤ 256) → s.pkN = 0 →
    exec .writeHeader s = .next t → t.outQ = s.outQ ++ byteBeats bytes →
    u.running .decompress (.magicIn 0 0) → u.upN = 0 → u.upEos = false → u.inQ = byteBeats stream ++ rest →
    streamBits stream = streamBits bytes ++ t.pending ++ extra → extra.length < 8 →
    ∃ v : State, core.run stream.length u = .next v ∧ v.holdsTree tree = true ∧ v.root = 0 ∧ v.treeValid = true ∧
      v.treeDecoded = true ∧ v.hdrBits = t.hdrBits ∧ tree.placed v.node 0 ∧
      ∀ i : NodeIdx, (nodeAt v.node i).valid = true → i.toNat < tree.size ∧ (nodeAt v.node i).weight = 0 ∧
        ((nodeAt v.node i).leaf = true → (nodeAt v.node i).left = 0 ∧ (nodeAt v.node i).right = 0) ∧
        ((nodeAt v.node i).leaf = false → (nodeAt v.node i).symbol = 0)

/-- R78, R130: the walk.  Over the codes of bytes, one after another, and the code of `PSEUDO_EOF`, whatever tree the header
gave, it emits the bytes in order and stops at the `PSEUDO_EOF` leaf; it changes nothing else but the unpacker and
`PHASE`.  In this run the host takes no output beat, a host that R162 leaves out: that the core does not wait for it is the
model's (log 16). -/
def Obligations.WalkDecodes : Prop :=
  ∀ (s : State) (left right : HTree) (codes : List (Sym × List Bool)) (eof : List Bool) (stream : List Byte)
    (extra : List Bool) (rest : List Beat),
    s.running .decompress .walkPhase → s.upEos = false → s.root = 0 →
    (HTree.node left right).sits s.node 0 = true →
    (∀ e ∈ codes, e ∈ (HTree.node left right).codes ∧ e.1.toNat < 256) → (256, eof) ∈ (HTree.node left right).codes →
    s.inQ = byteBeats stream ++ rest →
    s.undelivered ++ streamBits stream = codes.flatMap Prod.snd ++ eof ++ extra → extra.length < 8 →
    ∃ (upBuf : BitVec 8) (upN : Fin 9) (t : State), core.run (stream.length + 1) s = .next t ∧
      t = { s with
        inQ := rest, upBuf := upBuf, upN := upN, upBytes := s.upBytes + BitVec.ofNat 64 stream.length, phase := .walk
        outQ := s.outQ ++ byteBeats (codes.map (fun e => e.1.setWidth 8)), k := some (.drainPhase codes.length) } ∧
      t.undelivered = extra

/-! ## Whole operations -/

/-- R76, R124, R128: a whole COMPRESS over the same bytes twice.  The estimate is the length of the stream of R76.  Gated, it
writes nothing and leaves pass 2; otherwise the output is that stream, filled with zeros to a whole byte, and `End`.
`RESULT` is the length of the stream either way.  In this run the host takes no output beat, a host that R162 leaves out:
that the core does not wait for it is the model's (log 16). -/
def Obligations.CompressWritesStream : Prop :=
  ∀ (s : State) (bytes : List Byte) (force : Bool) (rest : List Beat), s.busy = false → bytes.length < 2 ^ 32 →
    s.agenda = [.regWrite 0x08 (encode (.compress force))] →
    s.inQ = byteBeats bytes ++ .endBeat :: (byteBeats bytes ++ .endBeat :: rest) →
    ∃ (t : State) (tree : HTree), s.reaches t ∧
      t.agenda = [] ∧ t.busy = false ∧ t.done = true ∧ t.err = false ∧ t.error = .none ∧
      t.total.toNat = bytes.length ∧ (∀ b : Byte, (freqAt t.freq b.toNat).toNat = bytes.count b) ∧
      t.holdsTree tree = true ∧ t.code = writeCodes tree.codes (Vector.replicate 257 ⟨false, 0, 0⟩) ∧
      t.treeValid = true ∧ t.treeDecoded = false ∧ t.codesValid = true ∧ t.estValid = true ∧
      let stream := packedBits tree t.code bytes
      t.result.toNat = stream.length ∧ t.estComp = t.result ∧ t.estOrig.toNat = 8 * bytes.length ∧
      (force = false ∧ 8 * bytes.length ≤ stream.length →
        t.gated = true ∧ t.outQ = s.outQ ∧ t.inQ = byteBeats bytes ++ .endBeat :: rest) ∧
      (¬ (force = false ∧ 8 * bytes.length ≤ stream.length) →
        t.gated = false ∧ t.inQ = rest ∧
          ∃ out : List Byte, t.outQ = s.outQ ++ byteBeats out ++ [.endBeat] ∧
            streamBits out = stream ++ padBits stream.length)

/-- R132: the round trip: DECOMPRESS of the output of COMPRESS.F over any bytes, fewer than 2^32, gives the bytes back, then
`End`, and `RESULT` is how many they are.  In both runs the host takes no output beat before the command has ended, a host
that R162 leaves out: that the core does not wait for it is the model's (log 16). -/
def Obligations.RoundTrip : Prop :=
  ∀ (s : State) (bytes : List Byte), s.busy = false → bytes.length < 2 ^ 32 → s.outQ = [] →
    s.agenda = [.regWrite 0x08 0x0D800000#32] →
    s.inQ = byteBeats bytes ++ .endBeat :: (byteBeats bytes ++ [.endBeat]) →
    ∃ (t u : State) (out : List Byte), s.reaches t ∧ t.busy = false ∧ t.done = true ∧ t.outQ = byteBeats out ++ [.endBeat] ∧
      ({ t with
          agenda := [.regWrite 0x08 0x0E000000#32], inQ := byteBeats out ++ [.endBeat], outQ := [] } : State).reaches u ∧
      u.busy = false ∧ u.done = true ∧ u.err = false ∧ u.inQ = [] ∧ u.outQ = byteBeats bytes ++ [.endBeat] ∧
      u.result = BitVec.ofNat 64 bytes.length

/-! ## The machine as a whole -/

/-- The state after reset meets the invariant of R45; the values of the state that the spec leaves open at reset (log 4)
play no part in it. -/
def Obligations.ResetMeetsInvariant : Prop := State.reset.Inv

/-- R45: from every state that meets the invariant, whatever the host does next, a step of the model is a next state, never
a stop, and that state meets the invariant again. -/
def Obligations.StepKeepsInvariant : Prop := ∀ s : State, s.Inv → ∃ t, step s = .next t ∧ t.Inv

/-- R22: `STATUS.PHASE` names the step of the running command and is 0 while none runs: every step keeps it so, and it is so
after reset. -/
def Obligations.PhaseNamesTheStep : Prop :=
  State.reset.phaseOk ∧ ∀ s t : State, s.phaseOk → step s = .next t → t.phaseOk

/-- R166: from its start a command takes at most B + 9 core steps, where B is the number of beats it takes: as long as the
core has had a step at every turn, n turns are at most 9 more than the beats taken.  That the core has a step whether or not
the host takes the output is the model's (log 16). -/
def Obligations.CommandStepBound : Prop :=
  ∀ (n : Nat) (s t : State), s.Inv → s.agenda = [] → s.standsAt .start →
    (∀ m < n, ∀ u, core.run m s = .next u → u.coreEnabled = true) → core.run n s = .next t →
    n + t.inQ.length ≤ s.inQ.length + 9

/-- R157: a running command ends, whichever it is and wherever it stands, when `IN_Q` holds the `End` beats that it may
still take: two in COMPRESS until pass 1 has ended and one until pass 2 has, one in COUNT, ENCODE and DECOMPRESS, none in a
command that takes no beat.  In this run the host takes no output beat, a host that R162 leaves out: that the core does not
wait for it is the model's (log 16). -/
def Obligations.CommandEnds : Prop :=
  ∀ (s : State) (i : Instr) (p : Point), s.Inv → s.running i p → endsNeeded i p ≤ s.inQ.count .endBeat →
    ∃ t : State, s.reaches t ∧ t.busy = false ∧ (t.done = true ∨ t.err = true)

/-- R53, R55, R61, R67: a turn of the core only appends to `OUT_Q`, takes at most the first beat of `IN_Q`, and that only
where it waits at an `InBeat()`, and touches neither the interrupt enable nor `CMD_DROPPED`. -/
def Obligations.CoreTurnFrame : Prop :=
  ∀ s t : State, coreTurn s = .next t →
    (∃ out, t.outQ = s.outQ ++ out) ∧ (t.inQ = s.inQ ∨ s.inReady = true ∧ ∃ x, s.inQ = x :: t.inQ) ∧
    t.ie = s.ie ∧ t.cmdDropped = s.cmdDropped ∧ t.agenda = s.agenda ∧ t.draws = s.draws ∧ t.rdata = s.rdata ∧
    t.popped = s.popped

/-- R24: only LOAD_FREQ reads `DATA`, and only READ_FREQ, READ_NODE and READ_CODE write it: a transition of any other command
is the same whatever `DATA` holds, and leaves it. -/
def Obligations.DataIsLeftAlone : Prop :=
  ∀ (i : Instr) (s t : State) (d : Word), exec i s = .next t →
    (match i with
      | .loadFreq _ | .readFreq _ | .readNode _ _ | .readCode _ _ => False
      | _ => True) →
    t.data = s.data ∧ exec i { s with data := d } = .next { t with data := d }

/-- Which commands write which state, CLEAR among them (R90): the result registers (R27 to R33), the memories, the five
validity flags (R44), and the packer, which keeps its bits across commands (R112) but for the error exit (R136).  That CLEAR
is among those that write `RESULT`, and COMPRESS among those that write `NODE_COUNT` and `ROOT`, is the model's reading
(log 18). -/
def Obligations.OnlyTheseWrite : Prop :=
  ∀ (i : Instr) (s t : State), exec i s = .next t →
    (i ∉ [.clear, .count, .compress true, .compress false] → (∀ b, i ≠ .loadFreq b) →
      t.freq = s.freq ∧ t.total = s.total) ∧
    (i ∉ [.clear, .buildTree, .compress true, .compress false, .decompress] →
      t.nodeCount = s.nodeCount ∧ t.root = s.root) ∧
    (i ∉ [.buildTree, .compress true, .compress false, .decompress] → t.node = s.node) ∧
    (i ∉ [.genCodes, .compress true, .compress false] → t.code = s.code) ∧
    (i ∉ [.clear, .estimate true, .estimate false, .compress true, .compress false] →
      t.estOrig = s.estOrig ∧ t.estComp = s.estComp) ∧
    (i ∉ [.clear, .estimate true, .estimate false, .writeHeader, .compress true, .compress false, .decompress] →
      t.hdrBits = s.hdrBits) ∧
    (i ∉ [.clear, .count, .writeHeader, .encode, .compress true, .compress false, .decompress] → t.result = s.result) ∧
    (i ≠ .clear → (∀ wsel idx, i ≠ .readCode wsel idx) → t.codeLen = s.codeLen) ∧
    (i ∉ [.clear, .writeHeader, .encode, .flush, .compress true, .compress false] →
      (∀ code info, s.k ≠ some (.raising code info)) → t.pkAcc = s.pkAcc ∧ t.pkN = s.pkN) ∧
    (i ∉ [.clear, .count, .buildTree, .compress true, .compress false, .decompress] → (∀ b, i ≠ .loadFreq b) →
      t.treeValid = s.treeValid ∧ t.treeDecoded = s.treeDecoded) ∧
    (i ∉ [.clear, .count, .buildTree, .genCodes, .compress true, .compress false, .decompress] → (∀ b, i ≠ .loadFreq b) →
      t.codesValid = s.codesValid) ∧
    (i ∉ [.clear, .count, .buildTree, .genCodes, .estimate true, .estimate false, .compress true, .compress false,
        .decompress] → (∀ b, i ≠ .loadFreq b) →
      t.estValid = s.estValid ∧ t.gated = s.gated)
end

