-- ==== Sys2Proof/Laws/Bits.lean ====
section
/-! SUPPORT. Bit strings and numbers, most significant bit first (00_scope.md rule R11, 20_memory.md rule R57). -/

namespace Sys2Proof.Machine

@[simp] theorem msbBits_length (n v : Nat) : (msbBits n v).length = n := by simp [msbBits]

@[simp] theorem msbBits_zero (v : Nat) : msbBits 0 v = [] := rfl

/-- The first bit of a field is its top bit. -/
theorem msbBits_succ (n v : Nat) : msbBits (n + 1) v = v.testBit n :: msbBits n v := by
  unfold msbBits
  rw [List.range_succ_eq_map]
  simp only [List.map_cons, List.map_map, List.cons.injEq]
  refine ⟨by simp, List.map_congr_left fun j hj => ?_⟩
  simp only [List.mem_range] at hj
  simp only [Function.comp]
  congr 1; omega

/-- The last bit of a field is its bit 0. -/
theorem msbBits_snoc (n v : Nat) : msbBits (n + 1) v = msbBits n (v / 2) ++ [v.testBit 0] := by
  unfold msbBits
  rw [List.range_succ, List.map_append]
  congr 1
  · refine List.map_congr_left fun j hj => ?_
    simp only [List.mem_range] at hj
    rw [show n + 1 - 1 - j = (n - 1 - j) + 1 by omega, Nat.testBit_succ]
  · simp

theorem msbBits_congr {n v w : Nat} (h : v % 2 ^ n = w % 2 ^ n) : msbBits n v = msbBits n w := by
  unfold msbBits
  refine List.map_congr_left fun j hj => ?_
  simp only [List.mem_range] at hj
  have hv := Nat.testBit_mod_two_pow v n (n - 1 - j)
  have hw := Nat.testBit_mod_two_pow w n (n - 1 - j)
  rw [h, hw] at hv
  simpa [show n - 1 - j < n by omega] using hv.symm

/-- A field of n + m bits is its high n bits, then its low m bits. -/
theorem msbBits_add (n m v : Nat) : msbBits (n + m) v = msbBits n (v / 2 ^ m) ++ msbBits m v := by
  induction m generalizing v with
  | zero => simp
  | succ m ih =>
    rw [← Nat.add_assoc, msbBits_snoc, msbBits_snoc m, ih, Nat.div_div_eq_div_mul, List.append_assoc]
    congr 2
    rw [Nat.pow_succ, Nat.mul_comm]

theorem bitsValue_append (p q : List Bool) : bitsValue (p ++ q) = bitsValue p * 2 ^ q.length + bitsValue q := by
  unfold bitsValue
  induction q using List.reverseRecOn with
  | nil => simp
  | append_singleton q b ih =>
    rw [← List.append_assoc, List.foldl_append, ih, List.foldl_append]
    simp only [List.foldl_cons, List.foldl_nil, List.length_append, List.length_cons, List.length_nil]
    rw [Nat.pow_succ]; ring

@[simp] theorem bitsValue_nil : bitsValue [] = 0 := rfl

theorem bitsValue_singleton (b : Bool) : bitsValue [b] = b.toNat := by simp [bitsValue]

theorem bitsValue_snoc (p : List Bool) (b : Bool) : bitsValue (p ++ [b]) = 2 * bitsValue p + b.toNat := by
  rw [bitsValue_append, bitsValue_singleton]; simp; ring

theorem bitsValue_lt (p : List Bool) : bitsValue p < 2 ^ p.length := by
  induction p using List.reverseRecOn with
  | nil => simp
  | append_singleton p b ih =>
    rw [bitsValue_snoc, List.length_append, List.length_singleton, Nat.pow_succ]
    cases b <;> (simp; omega)

theorem testBit_zero_toNat (v : Nat) : (v.testBit 0).toNat = v % 2 := by
  rw [Nat.testBit_zero]
  rcases Nat.mod_two_eq_zero_or_one v with h | h <;> simp [h]

/-- Reading back the bits of a number gives its low bits (R57). -/
theorem bitsValue_msbBits (n v : Nat) : bitsValue (msbBits n v) = v % 2 ^ n := by
  induction n generalizing v with
  | zero => simp [Nat.mod_one]
  | succ n ih =>
    rw [msbBits_snoc, bitsValue_snoc, ih, testBit_zero_toNat, Nat.pow_succ, Nat.mul_comm (2 ^ n) 2, Nat.mod_mul]
    omega

/-- Writing the value of a bit string gives the bit string (R57). -/
theorem msbBits_bitsValue (p : List Bool) : msbBits p.length (bitsValue p) = p := by
  induction p using List.reverseRecOn with
  | nil => rfl
  | append_singleton p b ih =>
    rw [List.length_append, List.length_singleton, msbBits_snoc, bitsValue_snoc]
    have h1 : (2 * bitsValue p + b.toNat) / 2 = bitsValue p := by have := Bool.toNat_lt b; omega
    have h2 : (2 * bitsValue p + b.toNat).testBit 0 = b := by
      rw [Nat.testBit_zero]; cases b <;> simp
    rw [h1, h2, ih]

theorem byteBits_length (b : Byte) : (byteBits b).length = 8 := by simp [byteBits]

@[simp] theorem streamBits_nil : streamBits [] = [] := rfl

@[simp] theorem streamBits_cons (b : Byte) (bytes : List Byte) : streamBits (b :: bytes) = byteBits b ++ streamBits bytes := rfl

theorem streamBits_append (xs ys : List Byte) : streamBits (xs ++ ys) = streamBits xs ++ streamBits ys := by
  simp [streamBits]

@[simp] theorem byteBeats_nil : byteBeats [] = [] := rfl

@[simp] theorem byteBeats_cons (b : Byte) (bytes : List Byte) : byteBeats (b :: bytes) = .byte b :: byteBeats bytes := rfl

theorem byteBeats_append (xs ys : List Byte) : byteBeats (xs ++ ys) = byteBeats xs ++ byteBeats ys := by
  simp [byteBeats]

/-- A code entry gives back the path it was made of (R38, R106). -/
theorem codeOfPath_path (p : List Bool) (h : p.length ≤ 256) : (codeOfPath p).path = p := by
  have hlen : (codeOfPath p).len.toNat = p.length := by
    simp only [codeOfPath, BitVec.toNat_ofNat]; omega
  unfold CodeEntry.path
  rw [hlen]
  conv_rhs => rw [← msbBits_bitsValue p]
  unfold msbBits
  refine List.map_congr_left fun j hj => ?_
  simp only [List.mem_range] at hj
  simp only [codeOfPath, BitVec.getMsbD, BitVec.getLsbD_shiftLeft, BitVec.getLsbD_ofNat]
  have e : 256 - 1 - j - (256 - p.length) = p.length - 1 - j := by omega
  simp only [e]
  simp [show j < 256 by omega, show ¬ (256 - 1 - j < 256 - p.length) by omega, show p.length - 1 - j < 256 by omega,
    show 255 - j < 256 by omega]

/-- The bits of a code, one by one: those of its path, the first at bit 255, and zeros below them (R38, R106). -/
theorem codeOfPath_bits (p : List Bool) (h : p.length ≤ 256) (j : Nat) (hj : j < 256) :
    (codeOfPath p).bits.getLsbD (255 - j) = (p[j]?).getD false := by
  have e := codeOfPath_path p h
  have hlen : (codeOfPath p).len.toNat = p.length := by
    simp only [codeOfPath, BitVec.toNat_ofNat]; omega
  by_cases hp : j < p.length
  · have hj' := congrArg (fun l => l[j]?) e
    simp only [CodeEntry.path, hlen, List.getElem?_map, List.getElem?_range hp, Option.map_some] at hj'
    rw [← hj', Option.getD_some, BitVec.getMsbD]
    simp [hj]
  · rw [List.getElem?_eq_none (by omega)]
    simp only [codeOfPath, BitVec.getLsbD_shiftLeft]
    simp [show 255 - j < 256 - p.length by omega]

theorem codeOfPath_len (p : List Bool) (h : p.length ≤ 256) : (codeOfPath p).len.toNat = p.length := by
  simp only [codeOfPath, BitVec.toNat_ofNat]; omega

@[simp] theorem codeOfPath_valid (p : List Bool) : (codeOfPath p).valid = true := rfl

end Sys2Proof.Machine
end

