-- ==== Sys2Proof/Laws/Memory.lean ====
section
/-! SUPPORT. Read after write for the three internal memories, and the sum of `FREQ`. -/

namespace Sys2Proof.Machine

theorem freqAt_freqSet (v : Vector Word 256) (i j : Nat) (x : Word) (hi : i < 256) :
    freqAt (freqSet v i x) j = if j = i then x else freqAt v j := by
  unfold freqAt freqSet
  rw [Vector.getElem?_setIfInBounds]
  by_cases h : i = j
  · subst h; simp [hi]
  · simp [h, Ne.symm h]

@[simp] theorem freqAt_freqZero (i : Nat) : freqAt freqZero i = 0 := by
  unfold freqAt freqZero
  rw [Vector.getElem?_replicate]
  split <;> rfl

theorem nodeAt_nodeSet (v : Vector Node 513) (i j : NodeIdx) (n : Node) (hi : i.toNat < 513) :
    nodeAt (nodeSet v i n) j = if j = i then n else nodeAt v j := by
  unfold nodeAt nodeSet
  rw [Vector.getElem?_setIfInBounds]
  by_cases h : i = j
  · subst h; simp [hi]
  · have h' : i.toNat ≠ j.toNat := fun e => h (BitVec.eq_of_toNat_eq e)
    simp [h', Ne.symm h]

theorem nodeAt_nodeSet_self (v : Vector Node 513) (i : NodeIdx) (n : Node) (hi : i.toNat < 513) :
    nodeAt (nodeSet v i n) i = n := by simp [nodeAt_nodeSet, hi]

theorem nodeAt_nodeSet_ne (v : Vector Node 513) (i j : NodeIdx) (n : Node) (h : j ≠ i) :
    nodeAt (nodeSet v i n) j = nodeAt v j := by
  unfold nodeAt nodeSet
  rw [Vector.getElem?_setIfInBounds]
  have h' : i.toNat ≠ j.toNat := fun e => h (BitVec.eq_of_toNat_eq e.symm)
  simp [h']

theorem nodeAt_nodesInvalid (v : Vector Node 513) (i : NodeIdx) :
    (nodeAt (nodesInvalid v) i).valid = false := by
  unfold nodeAt nodesInvalid
  rw [Vector.getElem?_map]
  cases v[i.toNat]? <;> rfl

/-- A node read as valid is an entry of the memory. -/
theorem nodeAt_valid_lt (v : Vector Node 513) (i : NodeIdx) (h : (nodeAt v i).valid = true) : i.toNat < 513 := by
  by_contra hn
  have : nodeAt v i = Node.absent := by
    unfold nodeAt
    rw [Vector.getElem?_eq_none (by omega)]; rfl
  rw [this] at h
  cases h

theorem codeAt_codeSet (v : Vector CodeEntry 257) (i j : Nat) (c : CodeEntry) (hi : i < 257) :
    codeAt (codeSet v i c) j = if j = i then c else codeAt v j := by
  unfold codeAt codeSet
  rw [Vector.getElem?_setIfInBounds]
  by_cases h : i = j
  · subst h; simp [hi]
  · simp [h, Ne.symm h]

@[simp] theorem codeAt_codesAbsent (i : Nat) : codeAt codesAbsent i = CodeEntry.absent := by
  unfold codeAt codesAbsent
  rw [Vector.getElem?_replicate]
  split <;> rfl

/-! ## The sum of `FREQ` (R45 item 1) -/

theorem sum_set_toNat (l : List Word) (i : Nat) (x : Word) (hi : i < l.length) :
    ((l.set i x).map BitVec.toNat).sum + (l[i]).toNat = (l.map BitVec.toNat).sum + x.toNat := by
  induction l generalizing i with
  | nil => simp at hi
  | cons a l ih =>
    cases i with
    | zero => simp; omega
    | succ i =>
      have := ih i (by simpa using hi)
      simp only [List.set_cons_succ, List.map_cons, List.sum_cons, List.getElem_cons_succ]
      omega

theorem freqSum_freqSet (v : Vector Word 256) (i : Nat) (x : Word) (hi : i < 256) :
    freqSum (freqSet v i x) + (freqAt v i).toNat = freqSum v + x.toNat := by
  have h := sum_set_toNat v.toList i x (by simpa using hi)
  have e1 : (freqSet v i x).toList = v.toList.set i x := by
    unfold freqSet; simp [Vector.toList, Vector.setIfInBounds]
  have e2 : freqAt v i = v.toList[i]'(by simpa using hi) := by
    unfold freqAt; simp [hi, Vector.getElem_toList]
  unfold freqSum
  rw [e1, e2]; exact h

@[simp] theorem freqSum_freqZero : freqSum freqZero = 0 := by
  unfold freqSum freqZero
  rw [Vector.toList_replicate, List.map_replicate, List.sum_replicate]; rfl

/-- No count passes the total (R93). -/
theorem freqAt_le_freqSum (v : Vector Word 256) (i : Nat) : (freqAt v i).toNat ≤ freqSum v := by
  by_cases hi : i < 256
  · have h := freqSum_freqSet v i 0 hi
    rw [show (0 : Word).toNat = 0 from rfl] at h
    omega
  · unfold freqAt
    rw [Vector.getElem?_eq_none (by omega)]; exact Nat.zero_le _

end Sys2Proof.Machine
end

