-- ==== Sys2Proof/Laws/Trees.lean ====
section
/-! SUPPORT. The walks of GEN_CODES and WRITE_HEADER against the tree that `NODE` holds: one lemma for each walk, and the laws of a tree's codes. -/

namespace Sys2Proof.Machine

theorem HTree.size_pos (t : HTree) : 0 < t.size := by cases t <;> simp [HTree.size]

/-- A tree in which every internal node has two children: `2L − 1` nodes (R77). -/
theorem HTree.size_eq (t : HTree) : t.size + 1 = 2 * t.leaves.length := by
  induction t with
  | leaf => rfl
  | node l r hl hr => simp only [HTree.size, HTree.leaves, List.length_append]; omega

theorem HTree.leaves_pos (t : HTree) : 0 < t.leaves.length := by have := t.size_eq; have := t.size_pos; omega

theorem HTree.depth_lt_leaves (t : HTree) : t.depth < t.leaves.length := by
  induction t with
  | leaf => simp [HTree.depth, HTree.leaves]
  | node l r hl hr =>
    simp only [HTree.depth, HTree.leaves, List.length_append]
    have := l.leaves_pos; have := r.leaves_pos
    omega

/-- One bit per node and nine per leaf (R77, R117). -/
theorem HTree.bits_length (t : HTree) : t.bits.length = t.size + 9 * t.leaves.length := by
  induction t with
  | leaf => simp [HTree.bits, HTree.size, HTree.leaves]
  | node l r hl hr =>
    simp only [HTree.bits, HTree.size, HTree.leaves, List.length_append, List.length_cons, hl, hr]; omega

/-! ## The walks -/

/-- The walk of R106 on a tree in `NODE`: its leaves with their paths, in preorder. -/
theorem codeWalk_tree (t : HTree) (v : Vector Node 513) (i : NodeIdx) (p : List Bool)
    (rest : List (NodeIdx × List Bool)) (fuel : Nat) (h : t.sits v i = true) :
    codeWalk (t.size + fuel) v ((i, p) :: rest) = (codeWalk fuel v rest).map (t.codesFrom p ++ ·) := by
  induction t generalizing i p rest fuel with
  | leaf sym =>
    simp only [HTree.sits, Bool.and_eq_true, beq_iff_eq] at h
    rw [HTree.size, Nat.add_comm]
    simp only [codeWalk, h.1.2, if_true, h.2, HTree.codesFrom]
    rfl
  | node l r hl hr =>
    simp only [HTree.sits, Bool.and_eq_true, Bool.not_eq_true'] at h
    obtain ⟨⟨⟨-, hleaf⟩, h1⟩, h2⟩ := h
    have e : (HTree.node l r).size + fuel = (l.size + (r.size + fuel)) + 1 := by simp only [HTree.size]; omega
    rw [e]
    simp only [codeWalk, hleaf, Bool.false_eq_true, if_false]
    rw [hl _ _ _ _ h1, hr _ _ _ _ h2, Option.map_map]
    simp only [HTree.codesFrom, Function.comp_def, List.append_assoc]

/-- The walk of R116 on a tree in `NODE`: the tree's bits. -/
theorem treeBits_tree (t : HTree) (v : Vector Node 513) (i : NodeIdx) (rest : List NodeIdx) (fuel : Nat)
    (h : t.sits v i = true) :
    treeBits (t.size + fuel) v (i :: rest) = (treeBits fuel v rest).map (t.bits ++ ·) := by
  induction t generalizing i rest fuel with
  | leaf sym =>
    simp only [HTree.sits, Bool.and_eq_true, beq_iff_eq] at h
    rw [HTree.size, Nat.add_comm]
    simp only [treeBits, h.1.2, if_true, h.2, HTree.bits, List.cons_append]
  | node l r hl hr =>
    simp only [HTree.sits, Bool.and_eq_true, Bool.not_eq_true'] at h
    obtain ⟨⟨⟨-, hleaf⟩, h1⟩, h2⟩ := h
    have e : (HTree.node l r).size + fuel = (l.size + (r.size + fuel)) + 1 := by simp only [HTree.size]; omega
    rw [e]
    simp only [treeBits, hleaf, Bool.false_eq_true, if_false]
    rw [hl _ _ _ h1, hr _ _ _ h2, Option.map_map, Option.map_map]
    simp only [HTree.bits, Function.comp_def, List.append_assoc, List.cons_append]

theorem holdsTree_iff (s : State) (t : HTree) :
    s.holdsTree t = true ↔ t.sits s.node s.root = true ∧ t.size ≤ 513 := by
  unfold State.holdsTree
  rw [Bool.and_eq_true, decide_eq_true_iff]
  exact Iff.rfl

/-- `MakeTable()` on a tree in `NODE` (R106). -/
theorem makeTable_tree (s : State) (t : HTree) (h : s.holdsTree t = true) :
    s.makeTable = some { s with code := writeCodes t.codes codesAbsent, stack := [] } := by
  obtain ⟨h1, h2⟩ := (holdsTree_iff s t).1 h
  have hw := codeWalk_tree t s.node s.root [] [] (513 - t.size) h1
  rw [Nat.add_sub_cancel' h2] at hw
  have h0 : codeWalk (513 - t.size) s.node [] = some [] := by cases 513 - t.size <;> rfl
  unfold State.makeTable
  rw [Config.nodeCap, hw, h0]
  simp [HTree.codes]

/-- The header's bits on a tree in `NODE` (R116). -/
theorem headerBits_tree (s : State) (t : HTree) (h : s.holdsTree t = true) :
    headerBits s = some (msbBits 32 Config.magic.toNat ++ t.bits) := by
  obtain ⟨h1, h2⟩ := (holdsTree_iff s t).1 h
  have hw := treeBits_tree t s.node s.root [] (513 - t.size) h1
  rw [Nat.add_sub_cancel' h2] at hw
  have h0 : treeBits (513 - t.size) s.node [] = some [] := by cases 513 - t.size <;> rfl
  unfold headerBits
  rw [Config.nodeCap, hw, h0]
  simp

/-! ## The codes of a tree (R106, R107) -/

theorem codesFrom_symbols (t : HTree) (p : List Bool) : (t.codesFrom p).map Prod.fst = t.leaves := by
  induction t generalizing p with
  | leaf => rfl
  | node l r hl hr => simp [HTree.codesFrom, HTree.leaves, hl, hr]

/-- Every path starts with the path to the subtree, and goes no deeper than the tree. -/
theorem codesFrom_prefix (t : HTree) (p : List Bool) (e : Sym × List Bool) (h : e ∈ t.codesFrom p) :
    ∃ q, e.2 = p ++ q ∧ q.length ≤ t.depth := by
  induction t generalizing p with
  | leaf sym =>
    simp only [HTree.codesFrom, List.mem_singleton] at h
    exact ⟨[], by simp [h], Nat.zero_le _⟩
  | node l r hl hr =>
    simp only [HTree.codesFrom, List.mem_append] at h
    rcases h with h | h
    · obtain ⟨q, hq, hd⟩ := hl _ h
      exact ⟨false :: q, by simp [hq], by simp only [HTree.depth, List.length_cons]; omega⟩
    · obtain ⟨q, hq, hd⟩ := hr _ h
      exact ⟨true :: q, by simp [hq], by simp only [HTree.depth, List.length_cons]; omega⟩

theorem codes_length_le (t : HTree) (e : Sym × List Bool) (h : e ∈ t.codes) : e.2.length ≤ t.depth := by
  obtain ⟨q, hq, hd⟩ := codesFrom_prefix t [] e h
  simpa [hq] using hd

/-- Walking along a leaf's path finds the leaf (R78). -/
theorem lookup_codesFrom (t : HTree) (p q : List Bool) (sym : Sym) (rest : List Bool)
    (h : (sym, p ++ q) ∈ t.codesFrom p) : t.lookup (q ++ rest) = some (sym, rest) := by
  induction t generalizing p q with
  | leaf s =>
    simp only [HTree.codesFrom, List.mem_singleton, Prod.mk.injEq] at h
    have : q = [] := by simpa using h.2
    simp [this, HTree.lookup, h.1]
  | node l r hl hr =>
    simp only [HTree.codesFrom, List.mem_append] at h
    rcases h with h | h
    · obtain ⟨q', hq', -⟩ := codesFrom_prefix l _ _ h
      have hq : q = false :: q' := by simpa using hq'
      subst hq
      have := hl (p ++ [false]) q' (by simpa using h)
      simpa [HTree.lookup] using this
    · obtain ⟨q', hq', -⟩ := codesFrom_prefix r _ _ h
      have hq : q = true :: q' := by simpa using hq'
      subst hq
      have := hr (p ++ [true]) q' (by simpa using h)
      simpa [HTree.lookup] using this

theorem lookup_codes (t : HTree) (sym : Sym) (p rest : List Bool) (h : (sym, p) ∈ t.codes) :
    t.lookup (p ++ rest) = some (sym, rest) :=
  lookup_codesFrom t [] p sym rest (by simpa [HTree.codes] using h)

/-- A symbol that labels one leaf has one code. -/
theorem codes_unique (t : HTree) (hn : t.leaves.Nodup) (sym : Sym) (p q : List Bool)
    (hp : (sym, p) ∈ t.codes) (hq : (sym, q) ∈ t.codes) : p = q := by
  have hs : (t.codes.map Prod.fst).Nodup := by rw [HTree.codes, codesFrom_symbols]; exact hn
  have := List.inj_on_of_nodup_map hs hp hq rfl
  exact (Prod.mk.inj this).2

/-! ## The table that `MakeTable()` writes -/

theorem writeCodes_cons (e : Sym × List Bool) (found : List (Sym × List Bool)) (v : Vector CodeEntry 257) :
    writeCodes (e :: found) v = writeCodes found (codeSet v e.1.toNat (codeOfPath e.2)) := rfl

/-- A symbol with no leaf keeps its entry. -/
theorem codeAt_writeCodes_of_notMem (found : List (Sym × List Bool)) (v : Vector CodeEntry 257) (j : Nat)
    (hb : ∀ e ∈ found, e.1.toNat < 257) (hj : ∀ e ∈ found, e.1.toNat ≠ j) :
    codeAt (writeCodes found v) j = codeAt v j := by
  induction found generalizing v with
  | nil => rfl
  | cons e found ih =>
    rw [writeCodes_cons, ih _ (fun e he => hb e (List.mem_cons_of_mem _ he)) (fun e he => hj e (List.mem_cons_of_mem _ he)),
      codeAt_codeSet _ _ _ _ (hb e List.mem_cons_self), if_neg (Ne.symm (hj e List.mem_cons_self))]

/-- A symbol with one leaf gets the code of its path. -/
theorem codeAt_writeCodes_of_mem (found : List (Sym × List Bool)) (v : Vector CodeEntry 257) (sym : Sym) (p : List Bool)
    (hb : ∀ e ∈ found, e.1.toNat < 257) (hn : (found.map Prod.fst).Nodup) (h : (sym, p) ∈ found) :
    codeAt (writeCodes found v) sym.toNat = codeOfPath p := by
  induction found generalizing v with
  | nil => cases h
  | cons e found ih =>
    rw [List.map_cons, List.nodup_cons] at hn
    have hb' : ∀ e ∈ found, e.1.toNat < 257 := fun e he => hb e (List.mem_cons_of_mem _ he)
    rw [writeCodes_cons]
    rcases List.mem_cons.1 h with rfl | h
    · rw [codeAt_writeCodes_of_notMem _ _ _ hb', codeAt_codeSet _ _ _ _ (hb _ List.mem_cons_self), if_pos rfl]
      intro e he heq
      exact hn.1 (List.mem_map.2 ⟨e, he, BitVec.eq_of_toNat_eq heq⟩)
    · exact ih _ hb' hn.2 h

end Sys2Proof.Machine
end

