-- ==== Sys2Proof/Laws/Build.lean ====
section
/-! SUPPORT. The tree builder: what `BuildTree()` leaves in `NODE` is a tree with the leaves of rules R99 and R100 (42_tree_builder.md rules R99 to R103). -/

namespace Sys2Proof.Machine

/-! ## The heap -/

theorem heapInsert_perm (e : HeapEntry) (h : List HeapEntry) : (heapInsert e h).Perm (e :: h) := by
  induction h with
  | nil => exact List.Perm.refl _
  | cons a h ih =>
    unfold heapInsert
    split
    · exact List.Perm.refl _
    · exact (List.Perm.cons a ih).trans (List.Perm.swap e a h)

theorem foldl_heapInsert_perm (es h : List HeapEntry) :
    (es.foldl (fun h e => heapInsert e h) h).Perm (es ++ h) := by
  induction es generalizing h with
  | nil => exact List.Perm.refl _
  | cons e es ih =>
    rw [List.foldl_cons]
    refine (ih _).trans (((heapInsert_perm e h).append_left es).trans ?_)
    exact List.perm_middle

/-- The heap that the merge loop starts from holds the leaves (R99, R100). -/
theorem leafHeap_perm (freq : Vector Word 256) : (leafHeap freq).Perm (leafEntries freq) := by
  have h := foldl_heapInsert_perm (leafEntries freq) []
  rw [List.append_nil] at h
  exact h

theorem before_trans (a b c : HeapEntry) (h1 : a.before b = true) (h2 : b.before c = true) : a.before c = true := by
  simp only [HeapEntry.before, Bool.or_eq_true, decide_eq_true_eq, Bool.and_eq_true, beq_iff_eq] at *
  have e : ∀ x y : Weight, x = y ↔ x.toNat = y.toNat := fun x y => BitVec.toNat_inj.symm
  rw [e] at *
  omega

theorem before_total (a b : HeapEntry) (h : a ≠ b) : a.before b = true ∨ b.before a = true := by
  simp only [HeapEntry.before, Bool.or_eq_true, decide_eq_true_eq, Bool.and_eq_true, beq_iff_eq]
  have e : ∀ x y : Weight, x = y ↔ x.toNat = y.toNat := fun x y => BitVec.toNat_inj.symm
  rw [e, e]
  have : a.weight.toNat ≠ b.weight.toNat ∨ a.id.toNat ≠ b.id.toNat := by
    by_contra hc
    simp only [not_or, not_not] at hc
    apply h
    cases a; cases b
    simp only [HeapEntry.mk.injEq]
    exact ⟨BitVec.eq_of_toNat_eq hc.1, BitVec.eq_of_toNat_eq hc.2⟩
  omega

/-- Insertion keeps the order of R98, for an entry that is not there yet. -/
theorem heapInsert_sorted (e : HeapEntry) (h : List HeapEntry) (hs : h.Pairwise (fun a b => a.before b = true))
    (hn : e ∉ h) : (heapInsert e h).Pairwise (fun a b => a.before b = true) := by
  induction h with
  | nil => simp [heapInsert]
  | cons a h ih =>
    rw [List.pairwise_cons] at hs
    unfold heapInsert
    split
    · rename_i hb
      rw [List.pairwise_cons, List.pairwise_cons]
      refine ⟨fun b hmem => ?_, hs⟩
      rcases List.mem_cons.1 hmem with rfl | hmem
      · exact hb
      · exact before_trans _ _ _ hb (hs.1 _ hmem)
    · rename_i hb
      rw [List.mem_cons, not_or] at hn
      rw [List.pairwise_cons]
      refine ⟨fun b hmem => ?_, ih hs.2 hn.2⟩
      rcases List.mem_cons.1 ((heapInsert_perm e h).mem_iff.1 hmem) with rfl | hmem
      · rcases before_total _ _ hn.1 with h' | h'
        · exact absurd h' hb
        · exact h'
      · exact hs.1 _ hmem

/-! ## Writing to `NODE` -/

theorem nodeAt_writeNodes_of_notMem (ws : List (NodeIdx × Node)) (v : Vector Node 513) (j : NodeIdx)
    (hj : ∀ e ∈ ws, e.1 ≠ j) : nodeAt (writeNodes ws v) j = nodeAt v j := by
  induction ws generalizing v with
  | nil => rfl
  | cons e ws ih =>
    have : writeNodes (e :: ws) v = writeNodes ws (nodeSet v e.1 e.2) := rfl
    rw [this, ih _ (fun e he => hj e (List.mem_cons_of_mem _ he)),
      nodeAt_nodeSet_ne _ _ _ _ (Ne.symm (hj e List.mem_cons_self))]

theorem nodeAt_writeNodes_of_mem (ws : List (NodeIdx × Node)) (v : Vector Node 513) (i : NodeIdx) (n : Node)
    (hn : (ws.map Prod.fst).Nodup) (hb : i.toNat < 513) (h : (i, n) ∈ ws) : nodeAt (writeNodes ws v) i = n := by
  induction ws generalizing v with
  | nil => cases h
  | cons e ws ih =>
    rw [List.map_cons, List.nodup_cons] at hn
    have : writeNodes (e :: ws) v = writeNodes ws (nodeSet v e.1 e.2) := rfl
    rw [this]
    rcases List.mem_cons.1 h with rfl | h
    · rw [nodeAt_writeNodes_of_notMem, nodeAt_nodeSet_self _ _ _ hb]
      intro e he heq
      exact hn.1 (List.mem_map.2 ⟨e, he, heq⟩)
    · exact ih _ hn.2 h

theorem writeNodes_append (ws ws' : List (NodeIdx × Node)) (v : Vector Node 513) :
    writeNodes (ws ++ ws') v = writeNodes ws' (writeNodes ws v) := by simp [writeNodes]

/-! ## The forest of the merge loop -/

/-- The tree t sits at i, uses no index from n on, and carries the weights of R102 modulo the width of a weight. -/
def HTree.fits (freq : Vector Word 256) (v : Vector Node 513) (n : Nat) : HTree → NodeIdx → Prop
  | .leaf sym, i =>
    i.toNat < n ∧ (nodeAt v i).valid = true ∧ (nodeAt v i).leaf = true ∧ (nodeAt v i).symbol = sym ∧
      (nodeAt v i).weight = BitVec.ofNat 33 (leafWeight freq sym)
  | .node l r, i =>
    i.toNat < n ∧ (nodeAt v i).valid = true ∧ (nodeAt v i).leaf = false ∧
      (nodeAt v i).weight = BitVec.ofNat 33 (l.weight freq + r.weight freq) ∧
      l.fits freq v n (nodeAt v i).left ∧ r.fits freq v n (nodeAt v i).right

theorem HTree.fits_lt {freq : Vector Word 256} {v : Vector Node 513} {n : Nat} {t : HTree} {i : NodeIdx}
    (h : t.fits freq v n i) : i.toNat < n := by cases t <;> exact h.1

theorem HTree.fits_weight {freq : Vector Word 256} {v : Vector Node 513} {n : Nat} {t : HTree} {i : NodeIdx}
    (h : t.fits freq v n i) : (nodeAt v i).weight = BitVec.ofNat 33 (t.weight freq) := by
  cases t with
  | leaf => exact h.2.2.2.2
  | node => exact h.2.2.2.1

theorem HTree.fits_sits {freq : Vector Word 256} {v : Vector Node 513} {n : Nat} (t : HTree) (i : NodeIdx)
    (h : t.fits freq v n i) : t.sits v i = true := by
  induction t generalizing i with
  | leaf sym => simp [HTree.sits, h.2.1, h.2.2.1, h.2.2.2.1]
  | node l r hl hr =>
    obtain ⟨-, h1, h2, -, h3, h4⟩ := h
    simp [HTree.sits, h1, h2, hl _ h3, hr _ h4]

/-- A tree below n does not see what is written from n on. -/
theorem HTree.fits_congr {freq : Vector Word 256} {v w : Vector Node 513} {n m : Nat} (hm : n ≤ m)
    (hw : ∀ j : NodeIdx, j.toNat < n → nodeAt w j = nodeAt v j) (t : HTree) (i : NodeIdx)
    (h : t.fits freq v n i) : t.fits freq w m i := by
  induction t generalizing i with
  | leaf sym =>
    obtain ⟨h0, h⟩ := h
    unfold HTree.fits
    rw [hw i h0]
    exact ⟨by omega, h⟩
  | node l r hl hr =>
    obtain ⟨h0, h1, h2, h3, h4, h5⟩ := h
    unfold HTree.fits
    rw [hw i h0]
    exact ⟨by omega, h1, h2, h3, hl _ h4, hr _ h5⟩

/-- The merge loop turns a forest into one tree with the same leaves (R101). -/
theorem mergeLoop_tree (freq : Vector Word 256) (fuel : Nat) (heap : List HeapEntry) (next : NodeIdx)
    (v : Vector Node 513) (g : NodeIdx → HTree) (hlen : heap.length = fuel + 1) (hnext : next.toNat + fuel ≤ 513)
    (hf : ∀ e ∈ heap, (g e.id).fits freq v next.toNat e.id ∧ e.weight = BitVec.ofNat 33 ((g e.id).weight freq)) :
    ∃ t, HTree.fits freq (writeNodes (mergeLoop fuel heap next).1 v) (next.toNat + fuel) t (mergeLoop fuel heap next).2 ∧
      t.leaves.Perm (heap.flatMap (fun e => (g e.id).leaves)) := by
  induction fuel generalizing heap next v g with
  | zero =>
    obtain ⟨a, rfl⟩ := List.length_eq_one_iff.1 hlen
    exact ⟨g a.id, by simpa [mergeLoop, writeNodes] using (hf a (by simp)).1, by simp⟩
  | succ fuel ih =>
    match heap, hlen with
    | a :: b :: rest, hlen =>
      have hn1 : (next + 1).toNat = next.toNat + 1 := by
        rw [BitVec.toNat_add]; simp; omega
      have ha := hf a (by simp)
      have hb := hf b (by simp)
      have hlt : ∀ e ∈ a :: b :: rest, e.id ≠ next := by
        intro e he heq
        have := HTree.fits_lt (hf e he).1
        rw [heq] at this; omega
      let g' : NodeIdx → HTree := fun i => if i = next then .node (g a.id) (g b.id) else g i
      let v' := nodeSet v next (mergeNode a b)
      let e' : HeapEntry := ⟨a.weight + b.weight, next⟩
      have hv : ∀ j : NodeIdx, j.toNat < next.toNat → nodeAt v' j = nodeAt v j := by
        intro j hj
        exact nodeAt_nodeSet_ne _ _ _ _ (fun e => by rw [e] at hj; omega)
      have hself : nodeAt v' next = mergeNode a b := nodeAt_nodeSet_self _ _ _ (by omega)
      have hw : a.weight + b.weight = BitVec.ofNat 33 ((g a.id).weight freq + (g b.id).weight freq) := by
        rw [ha.2, hb.2, BitVec.ofNat_add]
      have hf' : ∀ e ∈ heapInsert e' rest,
          (g' e.id).fits freq v' (next + 1).toNat e.id ∧ e.weight = BitVec.ofNat 33 ((g' e.id).weight freq) := by
        intro e he
        rcases List.mem_cons.1 ((heapInsert_perm e' rest).mem_iff.1 he) with rfl | he
        · have hg : g' next = .node (g a.id) (g b.id) := by simp [g']
          simp only [e', hg]
          refine ⟨?_, hw⟩
          unfold HTree.fits
          rw [hself, hn1]
          refine ⟨by omega, rfl, rfl, hw, ?_, ?_⟩
          · exact HTree.fits_congr (by omega) hv _ _ ha.1
          · exact HTree.fits_congr (by omega) hv _ _ hb.1
        · have hmem : e ∈ a :: b :: rest := by simp [he]
          have hg : g' e.id = g e.id := by simp [g', hlt e hmem]
          rw [hg, hn1]
          exact ⟨HTree.fits_congr (by omega) hv _ _ (hf e hmem).1, (hf e hmem).2⟩
      have hlen' : (heapInsert e' rest).length = fuel + 1 := by
        rw [(heapInsert_perm e' rest).length_eq]; simpa using hlen
      obtain ⟨t, ht, hp⟩ := ih (heapInsert e' rest) (next + 1) v' g' hlen' (by omega) hf'
      refine ⟨t, ?_, ?_⟩
      · rw [hn1, show next.toNat + 1 + fuel = next.toNat + (fuel + 1) by omega] at ht
        exact ht
      · refine hp.trans (((heapInsert_perm e' rest).flatMap_right _).trans ?_)
        have hrest : rest.flatMap (fun e => (g' e.id).leaves) = rest.flatMap (fun e => (g e.id).leaves) :=
          List.flatMap_congr fun e he => by simp only [g']; rw [if_neg (hlt e (by simp [he]))]
        simp only [List.flatMap_cons, hrest, e', g', if_true, HTree.leaves, List.append_assoc]
        exact List.Perm.refl _

/-- The root is the last node made (R103). -/
theorem mergeLoop_root (fuel : Nat) (heap : List HeapEntry) (next : NodeIdx) (hlen : heap.length = fuel + 2) :
    (mergeLoop (fuel + 1) heap next).2 = next + BitVec.ofNat 10 fuel := by
  induction fuel generalizing heap next with
  | zero =>
    match heap, hlen with
    | [a, b], _ => simp [mergeLoop, heapInsert]
  | succ fuel ih =>
    match heap, hlen with
    | a :: b :: rest, hlen =>
      have h := ih (heapInsert ⟨a.weight + b.weight, next⟩ rest) (next + 1)
        (by rw [(heapInsert_perm _ _).length_eq]; simpa using hlen)
      have hs : (mergeLoop (fuel + 1 + 1) (a :: b :: rest) next).2 =
          (mergeLoop (fuel + 1) (heapInsert ⟨a.weight + b.weight, next⟩ rest) (next + 1)).2 := rfl
      rw [hs, h, BitVec.add_assoc]
      congr 1
      rw [Nat.add_comm fuel 1, BitVec.ofNat_add]
      rfl

/-! ## The leaves (R99, R100) -/

theorem byteLeaves_mem (freq : Vector Word 256) (e : HeapEntry) :
    e ∈ byteLeaves freq ↔ ∃ b, b < 256 ∧ freqAt freq b ≠ 0 ∧ e = ⟨(freqAt freq b).setWidth 33, BitVec.ofNat 10 b⟩ := by
  simp only [byteLeaves, List.mem_map, List.mem_filter, List.mem_range, bne_iff_ne]
  constructor
  · rintro ⟨b, ⟨h1, h2⟩, h3⟩; exact ⟨b, h1, h2, h3.symm⟩
  · rintro ⟨b, h1, h2, h3⟩; exact ⟨b, ⟨h1, h2⟩, h3.symm⟩

theorem byteLeaves_length (freq : Vector Word 256) : (byteLeaves freq).length ≤ 256 := by
  rw [byteLeaves, List.length_map]
  exact (List.length_filter_le _ _).trans (by simp)

theorem byteLeaves_ids_nodup (freq : Vector Word 256) : ((byteLeaves freq).map HeapEntry.id).Nodup := by
  rw [byteLeaves, List.map_map]
  refine List.Nodup.map_on ?_ (List.nodup_range.filter _)
  intro x hx y hy hxy
  simp only [List.mem_filter, List.mem_range] at hx hy
  have := congrArg BitVec.toNat hxy
  simp only [Function.comp, BitVec.toNat_ofNat] at this
  omega

theorem leafEntries_cases (freq : Vector Word 256) :
    (byteLeaves freq ≠ [] ∧ leafEntries freq = byteLeaves freq ++ [eofLeaf]) ∨
      (byteLeaves freq = [] ∧ leafEntries freq = [eofLeaf, phantomLeaf]) := by
  by_cases h : byteLeaves freq = []
  · right; exact ⟨h, by simp [leafEntries, h]⟩
  · left
    refine ⟨h, ?_⟩
    have : 0 < (byteLeaves freq).length := List.length_pos_iff.2 h
    unfold leafEntries
    rw [if_neg]
    simp only [List.length_append, List.length_singleton]
    omega

/-- `2 ≤ L ≤ 257` (R103). -/
theorem leafEntries_length (freq : Vector Word 256) :
    2 ≤ (leafEntries freq).length ∧ (leafEntries freq).length ≤ 257 := by
  have := byteLeaves_length freq
  rcases leafEntries_cases freq with ⟨h, e⟩ | ⟨-, e⟩
  · have : 0 < (byteLeaves freq).length := List.length_pos_iff.2 h
    rw [e, List.length_append, List.length_singleton]; omega
  · rw [e]; simp

theorem byteLeaves_id_lt (freq : Vector Word 256) (e : HeapEntry) (h : e ∈ byteLeaves freq) : e.id.toNat < 256 := by
  obtain ⟨b, hb, -, rfl⟩ := (byteLeaves_mem freq e).1 h
  simp only [BitVec.toNat_ofNat]; omega

theorem leafEntries_id_le (freq : Vector Word 256) (e : HeapEntry) (h : e ∈ leafEntries freq) : e.id.toNat ≤ 256 := by
  have he : eofLeaf.id.toNat = 256 := rfl
  have hp : phantomLeaf.id.toNat = 0 := rfl
  rcases leafEntries_cases freq with ⟨-, e'⟩ | ⟨-, e'⟩ <;> rw [e'] at h
  · rcases List.mem_append.1 h with h | h
    · have := byteLeaves_id_lt freq e h; omega
    · rw [List.mem_singleton] at h; rw [h]; omega
  · simp only [List.mem_cons, List.not_mem_nil, or_false] at h
    rcases h with rfl | rfl <;> omega

/-- No two leaves have one index (R97). -/
theorem leafEntries_ids_nodup (freq : Vector Word 256) : ((leafEntries freq).map HeapEntry.id).Nodup := by
  rcases leafEntries_cases freq with ⟨-, e⟩ | ⟨-, e⟩ <;> rw [e]
  · rw [List.map_append, List.nodup_append]
    refine ⟨byteLeaves_ids_nodup freq, by simp, ?_⟩
    intro a ha b hb
    obtain ⟨x, hx, rfl⟩ := List.mem_map.1 ha
    simp only [List.map_cons, List.map_nil, List.mem_singleton] at hb
    subst hb
    intro heq
    have := byteLeaves_id_lt freq x hx
    rw [heq] at this
    exact absurd this (by decide)
  · decide

/-- Each leaf carries the weight that R99 and R100 give its symbol. -/
theorem leafEntries_weight (freq : Vector Word 256) (e : HeapEntry) (h : e ∈ leafEntries freq) :
    e.weight = BitVec.ofNat 33 (leafWeight freq (e.id.setWidth 9)) := by
  rcases leafEntries_cases freq with ⟨-, e'⟩ | ⟨h0, e'⟩ <;> rw [e'] at h
  · rcases List.mem_append.1 h with h | h
    · obtain ⟨b, hb, -, rfl⟩ := (byteLeaves_mem freq e).1 h
      have hne : (BitVec.ofNat 10 b).setWidth 9 ≠ Config.pseudoEof := by
        intro hc
        have := congrArg BitVec.toNat hc
        simp only [BitVec.toNat_setWidth, BitVec.toNat_ofNat, Config.pseudoEof] at this
        omega
      have hb' : ((BitVec.ofNat 10 b).setWidth 9).toNat = b := by
        simp only [BitVec.toNat_setWidth, BitVec.toNat_ofNat]; omega
      simp only [leafWeight, hne, if_false, hb']
      apply BitVec.eq_of_toNat_eq
      simp only [BitVec.toNat_setWidth, BitVec.toNat_ofNat]
    · rw [List.mem_singleton] at h; subst h
      simp [leafWeight, eofLeaf, Config.pseudoEof]
  · have hz : freqAt freq 0 = 0 := by
      by_contra hc
      have : (⟨(freqAt freq 0).setWidth 33, BitVec.ofNat 10 0⟩ : HeapEntry) ∈ byteLeaves freq :=
        (byteLeaves_mem freq _).2 ⟨0, by omega, hc, rfl⟩
      rw [h0] at this; cases this
    simp only [List.mem_cons, List.not_mem_nil, or_false] at h
    rcases h with rfl | rfl
    · simp [leafWeight, eofLeaf, Config.pseudoEof]
    · simp [leafWeight, phantomLeaf, Config.pseudoEof, hz]

/-- The symbols that have a leaf, in the order of insertion (R99, R100). -/
def leafSymbols (freq : Vector Word 256) : List Sym := (leafEntries freq).map (fun e => e.id.setWidth 9)

theorem leafSymbols_nodup (freq : Vector Word 256) : (leafSymbols freq).Nodup := by
  have h := leafEntries_ids_nodup freq
  have hle := leafEntries_id_le freq
  unfold leafSymbols
  have hinj := List.inj_on_of_nodup_map h
  refine List.Nodup.map_on ?_ (List.Nodup.of_map _ h)
  intro x hx y hy hxy
  apply hinj hx hy
  have h1 := congrArg BitVec.toNat hxy
  have := hle x hx
  have := hle y hy
  simp only [BitVec.toNat_setWidth] at h1
  exact BitVec.eq_of_toNat_eq (by omega)

/-- Exactly the bytes with a nonzero count, `PSEUDO_EOF`, and byte 0 when every count is 0 (R99, R100, R107 item 1). -/
theorem leafSymbols_mem (freq : Vector Word 256) (sym : Sym) :
    sym ∈ leafSymbols freq ↔
      (sym.toNat < 256 ∧ freqAt freq sym.toNat ≠ 0) ∨ sym = Config.pseudoEof ∨
        (sym = 0 ∧ ∀ b, b < 256 → freqAt freq b = 0) := by
  have hbyte : (∃ e ∈ byteLeaves freq, e.id.setWidth 9 = sym) ↔ sym.toNat < 256 ∧ freqAt freq sym.toNat ≠ 0 := by
    constructor
    · rintro ⟨e, he, rfl⟩
      obtain ⟨b, hb, h0, rfl⟩ := (byteLeaves_mem freq e).1 he
      have hb' : ((BitVec.ofNat 10 b).setWidth 9).toNat = b := by
        simp only [BitVec.toNat_setWidth, BitVec.toNat_ofNat]; omega
      simp only [hb']; exact ⟨hb, h0⟩
    · rintro ⟨hb, h0⟩
      refine ⟨_, (byteLeaves_mem freq _).2 ⟨sym.toNat, hb, h0, rfl⟩, ?_⟩
      apply BitVec.eq_of_toNat_eq
      simp only [BitVec.toNat_setWidth, BitVec.toNat_ofNat]; omega
  have hzero : byteLeaves freq = [] ↔ ∀ b, b < 256 → freqAt freq b = 0 := by
    constructor
    · intro h b hb
      by_contra hc
      have := (byteLeaves_mem freq _).2 ⟨b, hb, hc, rfl⟩
      rw [h] at this; cases this
    · intro h
      rw [List.eq_nil_iff_forall_not_mem]
      intro e he
      obtain ⟨b, hb, h0, -⟩ := (byteLeaves_mem freq e).1 he
      exact h0 (h b hb)
  have heof : eofLeaf.id.setWidth 9 = Config.pseudoEof := by decide
  have hph : (phantomLeaf.id.setWidth 9 : Sym) = 0 := by decide
  unfold leafSymbols
  rw [List.mem_map]
  rcases leafEntries_cases freq with ⟨h, e⟩ | ⟨h, e⟩ <;> rw [e]
  · have hz : ¬ ∀ b, b < 256 → freqAt freq b = 0 := fun hc => h (hzero.2 hc)
    rw [← hbyte]
    simp only [List.mem_append, List.mem_singleton, hz, and_false, or_false]
    constructor
    · rintro ⟨x, hx | rfl, hs⟩
      · exact .inl ⟨x, hx, hs⟩
      · exact .inr (by rw [← hs, heof])
    · rintro (⟨x, hx, hs⟩ | rfl)
      · exact ⟨x, .inl hx, hs⟩
      · exact ⟨_, .inr rfl, heof⟩
  · have hz := hzero.1 h
    have hno : ¬ (sym.toNat < 256 ∧ freqAt freq sym.toNat ≠ 0) := fun hc => hc.2 (hz _ hc.1)
    simp only [hno, false_or, List.mem_cons, List.not_mem_nil, or_false]
    constructor
    · rintro ⟨x, rfl | rfl, hs⟩
      · exact .inl (by rw [← hs, heof])
      · exact .inr ⟨by rw [← hs, hph], hz⟩
    · rintro (rfl | ⟨rfl, -⟩)
      · exact ⟨_, .inl rfl, heof⟩
      · exact ⟨_, .inr rfl, hph⟩

/-! ## The built tree -/

/-- `BuildTree()` leaves a tree whose leaves are those of R99 and R100, each once, over any earlier contents of `NODE`
(R99 to R103). -/
theorem treePlan_tree (freq : Vector Word 256) (v : Vector Node 513) :
    ∃ t, HTree.fits freq (writeNodes (treePlan freq).1 v) 513 t (treePlan freq).2 ∧ t.leaves.Perm (leafSymbols freq) := by
  have hlen := leafEntries_length freq
  let leafWrites := (leafEntries freq).map (fun e => (e.id, leafNode e))
  have hids : leafWrites.map Prod.fst = (leafEntries freq).map HeapEntry.id := by simp [leafWrites]
  have hnd : (leafWrites.map Prod.fst).Nodup := by rw [hids]; exact leafEntries_ids_nodup freq
  have hheap : (leafHeap freq).length = (leafEntries freq).length - 1 + 1 := by
    rw [(leafHeap_perm freq).length_eq]; omega
  have h257 : (257 : NodeIdx).toNat = 257 := rfl
  obtain ⟨t, ht, hp⟩ := mergeLoop_tree freq ((leafEntries freq).length - 1) (leafHeap freq) 257
    (writeNodes leafWrites v) (fun i => .leaf (i.setWidth 9)) hheap (by omega) (by
      intro e he
      have he := (leafHeap_perm freq).mem_iff.1 he
      have hle := leafEntries_id_le freq e he
      have hat : nodeAt (writeNodes leafWrites v) e.id = leafNode e :=
        nodeAt_writeNodes_of_mem _ _ _ _ hnd (by omega) (List.mem_map.2 ⟨e, he, rfl⟩)
      refine ⟨?_, leafEntries_weight freq e he⟩
      unfold HTree.fits
      rw [hat]
      exact ⟨by omega, rfl, rfl, rfl, leafEntries_weight freq e he⟩)
  refine ⟨t, ?_, ?_⟩
  · refine HTree.fits_congr (show 257 + ((leafEntries freq).length - 1) ≤ 513 by omega) (fun j _ => rfl) t _ ?_
    have e : (treePlan freq).1 = leafWrites ++ (mergeLoop ((leafEntries freq).length - 1) (leafHeap freq) 257).1 := rfl
    rw [e, writeNodes_append]
    exact ht
  · refine hp.trans (((leafHeap_perm freq).flatMap_right _).trans ?_)
    have hs : ∀ l : List HeapEntry,
        l.flatMap (fun e => (HTree.leaf (e.id.setWidth 9)).leaves) = l.map (fun e => e.id.setWidth 9) := by
      intro l
      induction l with
      | nil => rfl
      | cons a l ih => rw [List.flatMap_cons, ih]; rfl
    exact List.Perm.of_eq (hs _)

theorem treePlan_leaves_length (freq : Vector Word 256) (t : HTree) (h : t.leaves.Perm (leafSymbols freq)) :
    t.leaves.length = (leafEntries freq).length := by
  rw [h.length_eq, leafSymbols, List.length_map]

/-- `ROOT = 255 + L` (R103). -/
theorem treePlan_root (freq : Vector Word 256) :
    (treePlan freq).2 = BitVec.ofNat 10 (255 + (leafEntries freq).length) := by
  have hlen := leafEntries_length freq
  obtain ⟨k, hk⟩ : ∃ k, (leafEntries freq).length = k + 2 := ⟨(leafEntries freq).length - 2, by omega⟩
  have h := mergeLoop_root k (leafHeap freq) 257 (by rw [(leafHeap_perm freq).length_eq, hk])
  have e : (treePlan freq).2 = (mergeLoop ((leafEntries freq).length - 1) (leafHeap freq) 257).2 := rfl
  rw [e, hk, show k + 2 - 1 = k + 1 by omega, h]
  apply BitVec.eq_of_toNat_eq
  have h257 : (257 : NodeIdx).toNat = 257 := rfl
  rw [BitVec.toNat_add, BitVec.toNat_ofNat, BitVec.toNat_ofNat, h257]
  omega

/-- A tree that BUILD_TREE gave is a tree within `NODE_CAP` (R103, R7). -/
theorem holdsBuiltTree_tree (s : State) (h : s.holdsBuiltTree) :
    ∃ t, s.holdsTree t = true ∧ t.leaves.Perm (leafSymbols s.freq) := by
  obtain ⟨v, h1, h2⟩ := h
  obtain ⟨t, ht, hp⟩ := treePlan_tree s.freq (nodesInvalid v)
  refine ⟨t, (holdsTree_iff s t).2 ⟨?_, ?_⟩, hp⟩
  · rw [h1, h2]; exact HTree.fits_sits t _ ht
  · have := t.size_eq
    have := treePlan_leaves_length _ _ hp
    have := leafEntries_length s.freq
    omega

end Sys2Proof.Machine
end

