-- ==== Sys2Proof/Laws/Codes.lean ====
section
/-! SUPPORT. The codes of a tree: Kraft's equality, no code a prefix of another, and the sums of lengths that ESTIMATE forms (43_codegen.md rule R107, 45_compressor.md rules R122, R123). -/

namespace Sys2Proof.Machine

/-! ## Trees -/

/-- `NODE` holds one tree from an index. -/
theorem HTree.sits_unique (v : Vector Node 513) (t u : HTree) (i : NodeIdx) (ht : t.sits v i = true) (hu : u.sits v i = true) :
    t = u := by
  induction t generalizing u i with
  | leaf sym =>
    cases u with
    | leaf sym' =>
      simp only [HTree.sits, Bool.and_eq_true, beq_iff_eq] at ht hu
      rw [← ht.2, ← hu.2]
    | node l r =>
      simp only [HTree.sits, Bool.and_eq_true, Bool.not_eq_true'] at ht hu
      rw [ht.1.2] at hu
      exact absurd hu.1.1.2 (by decide)
  | node l r hl hr =>
    cases u with
    | leaf sym' =>
      simp only [HTree.sits, Bool.and_eq_true, Bool.not_eq_true'] at ht hu
      rw [hu.1.2] at ht
      exact absurd ht.1.1.2 (by decide)
    | node l' r' =>
      simp only [HTree.sits, Bool.and_eq_true, Bool.not_eq_true'] at ht hu
      rw [hl l' _ ht.1.2 hu.1.2, hr r' _ ht.2 hu.2]

/-- The codes below a path are the paths from it. -/
theorem codesFrom_eq (t : HTree) (p : List Bool) : t.codesFrom p = t.codes.map (fun e => (e.1, p ++ e.2)) := by
  suffices H : ∀ (t : HTree) (p q : List Bool), t.codesFrom (p ++ q) = (t.codesFrom q).map (fun e => (e.1, p ++ e.2)) by
    have := H t p []
    rwa [List.append_nil] at this
  intro t
  induction t with
  | leaf sym => intro p q; rfl
  | node l r hl hr =>
    intro p q
    simp only [HTree.codesFrom, List.map_append, List.append_assoc]
    rw [hl, hr]

theorem codes_node (l r : HTree) :
    (HTree.node l r).codes =
      l.codes.map (fun e => (e.1, false :: e.2)) ++ r.codes.map (fun e => (e.1, true :: e.2)) := by
  show l.codesFrom [false] ++ r.codesFrom [true] = _
  rw [codesFrom_eq l, codesFrom_eq r]
  rfl

/-- No code is a prefix of another (R107). -/
theorem codes_prefix (t : HTree) (a b : Sym × List Bool) (ha : a ∈ t.codes) (hb : b ∈ t.codes) (h : a.2 <+: b.2) :
    a = b := by
  induction t generalizing a b with
  | leaf sym =>
    have ha : a = (sym, []) := by simpa [HTree.codes, HTree.codesFrom] using ha
    have hb : b = (sym, []) := by simpa [HTree.codes, HTree.codesFrom] using hb
    rw [ha, hb]
  | node l r hl hr =>
    rw [codes_node, List.mem_append, List.mem_map, List.mem_map] at ha hb
    rcases ha with ⟨x, hx, rfl⟩ | ⟨x, hx, rfl⟩ <;> rcases hb with ⟨y, hy, rfl⟩ | ⟨y, hy, rfl⟩
    · rw [hl x y hx hy (by simpa using h)]
    · simp at h
    · simp at h
    · rw [hr x y hx hy (by simpa using h)]

/-- Kraft's equality, times 2^n (R107). -/
theorem codes_kraft (t : HTree) (n : Nat) (h : t.depth ≤ n) : (t.codes.map (fun e => 2 ^ (n - e.2.length))).sum = 2 ^ n := by
  induction t generalizing n with
  | leaf sym => simp [HTree.codes, HTree.codesFrom]
  | node l r hl hr =>
    simp only [HTree.depth] at h
    obtain ⟨m, rfl⟩ : ∃ m, n = m + 1 := ⟨n - 1, by omega⟩
    rw [codes_node, List.map_append, List.sum_append, List.map_map, List.map_map]
    have e : ∀ (b : Bool) (u : HTree), (u.codes.map ((fun e : Sym × List Bool => 2 ^ (m + 1 - e.2.length)) ∘ fun e => (e.1, b :: e.2))) =
        u.codes.map (fun e => 2 ^ (m - e.2.length)) := by
      intro b u
      refine List.map_congr_left fun e _ => ?_
      simp only [Function.comp, List.length_cons]
      congr 1; omega
    rw [e, e, hl m (by omega), hr m (by omega), Nat.pow_succ]
    omega

/-- Below the root every code has a bit. -/
theorem codes_length_pos (l r : HTree) (e : Sym × List Bool) (h : e ∈ (HTree.node l r).codes) : 1 ≤ e.2.length := by
  rw [codes_node, List.mem_append, List.mem_map, List.mem_map] at h
  rcases h with ⟨x, -, rfl⟩ | ⟨x, -, rfl⟩ <;> simp

/-! ## Sums over the table -/

theorem sum_map_filter (l : List Nat) (p : Nat → Bool) (f : Nat → Nat) :
    (l.map (fun j => if p j then f j else 0)).sum = ((l.filter p).map f).sum := by
  induction l with
  | nil => rfl
  | cons a l ih =>
    by_cases h : p a
    · simp [h, ih]
    · simp [h, ih]

theorem toList_codeAt (v : Vector CodeEntry 257) : v.toList = (List.range 257).map (codeAt v) := by
  refine List.ext_getElem (by simp) fun i h1 h2 => ?_
  have hi : i < 257 := by simpa using h1
  simp [codeAt, hi]

/-- `L` of R122, counted over the symbols. -/
theorem codeCount_eq (v : Vector CodeEntry 257) :
    codeCount v = ((List.range 257).filter (fun j => (codeAt v j).valid)).length := by
  unfold codeCount
  rw [toList_codeAt, List.filter_map, List.length_map]
  rfl

theorem codes_symbols (t : HTree) : t.codes.map Prod.fst = t.leaves := codesFrom_symbols t []

/-- The symbols with a code in the table of a tree are those of its leaves. -/
theorem valid_symbols_perm (t : HTree) (hn : t.leaves.Nodup) (hb : ∀ sym ∈ t.leaves, sym.toNat < 257) :
    ((List.range 257).filter (fun j => (codeAt (writeCodes t.codes codesAbsent) j).valid)).Perm (t.leaves.map BitVec.toNat) := by
  have hb' : ∀ e ∈ t.codes, e.1.toNat < 257 := fun e he => hb e.1 (by rw [← codes_symbols]; exact List.mem_map.2 ⟨e, he, rfl⟩)
  have hn' : (t.codes.map Prod.fst).Nodup := by rw [codes_symbols]; exact hn
  refine (List.perm_ext_iff_of_nodup (List.nodup_range.filter _)
    (hn.map fun a b h => BitVec.eq_of_toNat_eq h)).2 fun j => ?_
  rw [List.mem_filter, List.mem_range, List.mem_map]
  constructor
  · rintro ⟨hj, hv⟩
    by_contra hno
    rw [codeAt_writeCodes_of_notMem t.codes codesAbsent j hb'
      (fun e he h => hno ⟨e.1, by rw [← codes_symbols]; exact List.mem_map.2 ⟨e, he, rfl⟩, h⟩), codeAt_codesAbsent] at hv
    cases hv
  · rintro ⟨sym, hs, rfl⟩
    refine ⟨hb sym hs, ?_⟩
    rw [← codes_symbols, List.mem_map] at hs
    obtain ⟨e, he, rfl⟩ := hs
    rw [codeAt_writeCodes_of_mem t.codes codesAbsent e.1 e.2 hb' hn' he]
    rfl

/-- `L` of R122 is the number of leaves. -/
theorem codeCount_writeCodes (t : HTree) (hn : t.leaves.Nodup) (hb : ∀ sym ∈ t.leaves, sym.toNat < 257) :
    codeCount (writeCodes t.codes codesAbsent) = t.leaves.length := by
  rw [codeCount_eq, (valid_symbols_perm t hn hb).length_eq, List.length_map]

/-- A sum over the symbols with a code is a sum over the codes of the tree. -/
theorem sum_valid_symbols (t : HTree) (hn : t.leaves.Nodup) (hb : ∀ sym ∈ t.leaves, sym.toNat < 257) (f : CodeEntry → Nat) :
    ((List.range 257).map (fun j =>
      if (codeAt (writeCodes t.codes codesAbsent) j).valid then f (codeAt (writeCodes t.codes codesAbsent) j) else 0)).sum =
      (t.codes.map (fun e => f (codeOfPath e.2))).sum := by
  have hb' : ∀ e ∈ t.codes, e.1.toNat < 257 := fun e he => hb e.1 (by rw [← codes_symbols]; exact List.mem_map.2 ⟨e, he, rfl⟩)
  have hn' : (t.codes.map Prod.fst).Nodup := by rw [codes_symbols]; exact hn
  rw [sum_map_filter (List.range 257) (fun j => (codeAt (writeCodes t.codes codesAbsent) j).valid)
    (fun j => f (codeAt (writeCodes t.codes codesAbsent) j)), ((valid_symbols_perm t hn hb).map _).sum_eq, ← codes_symbols, List.map_map,
    List.map_map]
  congr 1
  refine List.map_congr_left fun e he => ?_
  show f (codeAt _ e.1.toNat) = _
  rw [codeAt_writeCodes_of_mem t.codes codesAbsent e.1 e.2 hb' hn' he]

/-! ## The body size (R123) -/

theorem sum_range_indicator (n a : Nat) (f : Nat → Nat) (h : a < n) :
    ((List.range n).map (fun j => if j = a then f j else 0)).sum = f a := by
  induction n with
  | zero => omega
  | succ n ih =>
    rw [List.range_succ, List.map_append, List.sum_append]
    by_cases e : a = n
    · subst e
      have h0 : ((List.range a).map (fun j => if j = a then f j else 0)).sum = 0 := by
        rw [List.sum_eq_zero_iff]
        intro x hx
        obtain ⟨j, hj, rfl⟩ := List.mem_map.1 hx
        rw [if_neg (by have := List.mem_range.1 hj; omega)]
      rw [h0]; simp
    · rw [ih (by omega)]
      simp [Ne.symm e]

/-- The lengths of the codes of bytes, one after another, are each byte's length times its count. -/
theorem sum_len_count (code : Vector CodeEntry 257) (bytes : List Byte) (n : Nat) (hn : n = 256) :
    ((List.range n).map (fun b => (codeAt code b).len.toNat * bytes.count (BitVec.ofNat 8 b))).sum =
      (bytes.map (fun b => (codeAt code b.toNat).len.toNat)).sum := by
  induction bytes with
  | nil => simp
  | cons a bytes ih =>
    have hsum := sum_range_indicator n a.toNat (fun j => (codeAt code j).len.toNat) (by rw [hn]; exact a.isLt)
    rw [List.map_cons, List.sum_cons, ← ih, ← hsum, ← List.sum_map_add]
    congr 1
    refine List.map_congr_left fun j hj => ?_
    have hj : j < n := List.mem_range.1 hj
    by_cases e : j = a.toNat
    · subst e
      rw [if_pos rfl, BitVec.ofNat_toNat, BitVec.setWidth_eq, List.count_cons_self]
      ring
    · rw [if_neg e, List.count_cons_of_ne, Nat.zero_add]
      intro h
      apply e
      rw [h, BitVec.toNat_ofNat]; omega

/-- With `FREQ` the counts of the bytes, the body size of R123 is the number of bits that the encode pass writes. -/
theorem bodySize_eq (code : Vector CodeEntry 257) (freq : Vector Word 256) (bytes : List Byte)
    (h : ∀ b : Byte, (freqAt freq b.toNat).toNat = bytes.count b) : bodySize code freq = (bodyBits code bytes).length := by
  have hpath : ∀ c : CodeEntry, c.path.length = c.len.toNat := fun c => by simp [CodeEntry.path]
  have e : (List.range 256).map (fun b => (codeAt code b).len.toNat * (freqAt freq b).toNat) =
      (List.range 256).map (fun b => (codeAt code b).len.toNat * bytes.count (BitVec.ofNat 8 b)) := by
    refine List.map_congr_left fun j hj => ?_
    have hj : j < 256 := List.mem_range.1 hj
    have := h (BitVec.ofNat 8 j)
    rw [BitVec.toNat_ofNat, Nat.mod_eq_of_lt hj] at this
    rw [this]
  unfold bodySize bodyBits
  rw [e, sum_len_count code bytes 256 rfl, List.length_append, List.length_flatMap, hpath]
  congr 2
  exact List.map_congr_left fun b _ => (hpath _).symm

end Sys2Proof.Machine
end

