-- ==== Sys2Proof/Laws/State.lean ====
section
/-! SUPPORT. What each update of the state does to each field: one lemma per field per update. -/

namespace Sys2Proof.Machine

variable (s : State)


/-! `suspend`: only `K` changes (R61) -/

@[simp] theorem suspend_ie (p : Point) : (s.suspend p).ie = s.ie := rfl
@[simp] theorem suspend_busy (p : Point) : (s.suspend p).busy = s.busy := rfl
@[simp] theorem suspend_done (p : Point) : (s.suspend p).done = s.done := rfl
@[simp] theorem suspend_err (p : Point) : (s.suspend p).err = s.err := rfl
@[simp] theorem suspend_gated (p : Point) : (s.suspend p).gated = s.gated := rfl
@[simp] theorem suspend_treeValid (p : Point) : (s.suspend p).treeValid = s.treeValid := rfl
@[simp] theorem suspend_codesValid (p : Point) : (s.suspend p).codesValid = s.codesValid := rfl
@[simp] theorem suspend_estValid (p : Point) : (s.suspend p).estValid = s.estValid := rfl
@[simp] theorem suspend_treeDecoded (p : Point) : (s.suspend p).treeDecoded = s.treeDecoded := rfl
@[simp] theorem suspend_cmdDropped (p : Point) : (s.suspend p).cmdDropped = s.cmdDropped := rfl
@[simp] theorem suspend_phase (p : Point) : (s.suspend p).phase = s.phase := rfl
@[simp] theorem suspend_data (p : Point) : (s.suspend p).data = s.data := rfl
@[simp] theorem suspend_error (p : Point) : (s.suspend p).error = s.error := rfl
@[simp] theorem suspend_errInfo (p : Point) : (s.suspend p).errInfo = s.errInfo := rfl
@[simp] theorem suspend_total (p : Point) : (s.suspend p).total = s.total := rfl
@[simp] theorem suspend_hdrBits (p : Point) : (s.suspend p).hdrBits = s.hdrBits := rfl
@[simp] theorem suspend_estOrig (p : Point) : (s.suspend p).estOrig = s.estOrig := rfl
@[simp] theorem suspend_estComp (p : Point) : (s.suspend p).estComp = s.estComp := rfl
@[simp] theorem suspend_result (p : Point) : (s.suspend p).result = s.result := rfl
@[simp] theorem suspend_codeLen (p : Point) : (s.suspend p).codeLen = s.codeLen := rfl
@[simp] theorem suspend_nodeCount (p : Point) : (s.suspend p).nodeCount = s.nodeCount := rfl
@[simp] theorem suspend_root (p : Point) : (s.suspend p).root = s.root := rfl
@[simp] theorem suspend_freq (p : Point) : (s.suspend p).freq = s.freq := rfl
@[simp] theorem suspend_node (p : Point) : (s.suspend p).node = s.node := rfl
@[simp] theorem suspend_code (p : Point) : (s.suspend p).code = s.code := rfl
@[simp] theorem suspend_heap (p : Point) : (s.suspend p).heap = s.heap := rfl
@[simp] theorem suspend_stack (p : Point) : (s.suspend p).stack = s.stack := rfl
@[simp] theorem suspend_pkAcc (p : Point) : (s.suspend p).pkAcc = s.pkAcc := rfl
@[simp] theorem suspend_pkN (p : Point) : (s.suspend p).pkN = s.pkN := rfl
@[simp] theorem suspend_upBuf (p : Point) : (s.suspend p).upBuf = s.upBuf := rfl
@[simp] theorem suspend_upN (p : Point) : (s.suspend p).upN = s.upN := rfl
@[simp] theorem suspend_upEos (p : Point) : (s.suspend p).upEos = s.upEos := rfl
@[simp] theorem suspend_upBytes (p : Point) : (s.suspend p).upBytes = s.upBytes := rfl
@[simp] theorem suspend_curCmd (p : Point) : (s.suspend p).curCmd = s.curCmd := rfl
@[simp] theorem suspend_k (p : Point) : (s.suspend p).k = some p := rfl
@[simp] theorem suspend_inQ (p : Point) : (s.suspend p).inQ = s.inQ := rfl
@[simp] theorem suspend_outQ (p : Point) : (s.suspend p).outQ = s.outQ := rfl
@[simp] theorem suspend_agenda (p : Point) : (s.suspend p).agenda = s.agenda := rfl
@[simp] theorem suspend_draws (p : Point) : (s.suspend p).draws = s.draws := rfl
@[simp] theorem suspend_rdata (p : Point) : (s.suspend p).rdata = s.rdata := rfl
@[simp] theorem suspend_popped (p : Point) : (s.suspend p).popped = s.popped := rfl

/-! `OutBeat`: only `OUT_Q` changes (R55) -/

@[simp] theorem outBeat_ie (x : Beat) : (s.outBeat x).ie = s.ie := rfl
@[simp] theorem outBeat_busy (x : Beat) : (s.outBeat x).busy = s.busy := rfl
@[simp] theorem outBeat_done (x : Beat) : (s.outBeat x).done = s.done := rfl
@[simp] theorem outBeat_err (x : Beat) : (s.outBeat x).err = s.err := rfl
@[simp] theorem outBeat_gated (x : Beat) : (s.outBeat x).gated = s.gated := rfl
@[simp] theorem outBeat_treeValid (x : Beat) : (s.outBeat x).treeValid = s.treeValid := rfl
@[simp] theorem outBeat_codesValid (x : Beat) : (s.outBeat x).codesValid = s.codesValid := rfl
@[simp] theorem outBeat_estValid (x : Beat) : (s.outBeat x).estValid = s.estValid := rfl
@[simp] theorem outBeat_treeDecoded (x : Beat) : (s.outBeat x).treeDecoded = s.treeDecoded := rfl
@[simp] theorem outBeat_cmdDropped (x : Beat) : (s.outBeat x).cmdDropped = s.cmdDropped := rfl
@[simp] theorem outBeat_phase (x : Beat) : (s.outBeat x).phase = s.phase := rfl
@[simp] theorem outBeat_data (x : Beat) : (s.outBeat x).data = s.data := rfl
@[simp] theorem outBeat_error (x : Beat) : (s.outBeat x).error = s.error := rfl
@[simp] theorem outBeat_errInfo (x : Beat) : (s.outBeat x).errInfo = s.errInfo := rfl
@[simp] theorem outBeat_total (x : Beat) : (s.outBeat x).total = s.total := rfl
@[simp] theorem outBeat_hdrBits (x : Beat) : (s.outBeat x).hdrBits = s.hdrBits := rfl
@[simp] theorem outBeat_estOrig (x : Beat) : (s.outBeat x).estOrig = s.estOrig := rfl
@[simp] theorem outBeat_estComp (x : Beat) : (s.outBeat x).estComp = s.estComp := rfl
@[simp] theorem outBeat_result (x : Beat) : (s.outBeat x).result = s.result := rfl
@[simp] theorem outBeat_codeLen (x : Beat) : (s.outBeat x).codeLen = s.codeLen := rfl
@[simp] theorem outBeat_nodeCount (x : Beat) : (s.outBeat x).nodeCount = s.nodeCount := rfl
@[simp] theorem outBeat_root (x : Beat) : (s.outBeat x).root = s.root := rfl
@[simp] theorem outBeat_freq (x : Beat) : (s.outBeat x).freq = s.freq := rfl
@[simp] theorem outBeat_node (x : Beat) : (s.outBeat x).node = s.node := rfl
@[simp] theorem outBeat_code (x : Beat) : (s.outBeat x).code = s.code := rfl
@[simp] theorem outBeat_heap (x : Beat) : (s.outBeat x).heap = s.heap := rfl
@[simp] theorem outBeat_stack (x : Beat) : (s.outBeat x).stack = s.stack := rfl
@[simp] theorem outBeat_pkAcc (x : Beat) : (s.outBeat x).pkAcc = s.pkAcc := rfl
@[simp] theorem outBeat_pkN (x : Beat) : (s.outBeat x).pkN = s.pkN := rfl
@[simp] theorem outBeat_upBuf (x : Beat) : (s.outBeat x).upBuf = s.upBuf := rfl
@[simp] theorem outBeat_upN (x : Beat) : (s.outBeat x).upN = s.upN := rfl
@[simp] theorem outBeat_upEos (x : Beat) : (s.outBeat x).upEos = s.upEos := rfl
@[simp] theorem outBeat_upBytes (x : Beat) : (s.outBeat x).upBytes = s.upBytes := rfl
@[simp] theorem outBeat_curCmd (x : Beat) : (s.outBeat x).curCmd = s.curCmd := rfl
@[simp] theorem outBeat_k (x : Beat) : (s.outBeat x).k = s.k := rfl
@[simp] theorem outBeat_inQ (x : Beat) : (s.outBeat x).inQ = s.inQ := rfl
@[simp] theorem outBeat_outQ (x : Beat) : (s.outBeat x).outQ = s.outQ ++ [x] := rfl
@[simp] theorem outBeat_agenda (x : Beat) : (s.outBeat x).agenda = s.agenda := rfl
@[simp] theorem outBeat_draws (x : Beat) : (s.outBeat x).draws = s.draws := rfl
@[simp] theorem outBeat_rdata (x : Beat) : (s.outBeat x).rdata = s.rdata := rfl
@[simp] theorem outBeat_popped (x : Beat) : (s.outBeat x).popped = s.popped := rfl

/-! `clearPacker`: only the packer changes (R112) -/

@[simp] theorem clearPacker_ie : s.clearPacker.ie = s.ie := rfl
@[simp] theorem clearPacker_busy : s.clearPacker.busy = s.busy := rfl
@[simp] theorem clearPacker_done : s.clearPacker.done = s.done := rfl
@[simp] theorem clearPacker_err : s.clearPacker.err = s.err := rfl
@[simp] theorem clearPacker_gated : s.clearPacker.gated = s.gated := rfl
@[simp] theorem clearPacker_treeValid : s.clearPacker.treeValid = s.treeValid := rfl
@[simp] theorem clearPacker_codesValid : s.clearPacker.codesValid = s.codesValid := rfl
@[simp] theorem clearPacker_estValid : s.clearPacker.estValid = s.estValid := rfl
@[simp] theorem clearPacker_treeDecoded : s.clearPacker.treeDecoded = s.treeDecoded := rfl
@[simp] theorem clearPacker_cmdDropped : s.clearPacker.cmdDropped = s.cmdDropped := rfl
@[simp] theorem clearPacker_phase : s.clearPacker.phase = s.phase := rfl
@[simp] theorem clearPacker_data : s.clearPacker.data = s.data := rfl
@[simp] theorem clearPacker_error : s.clearPacker.error = s.error := rfl
@[simp] theorem clearPacker_errInfo : s.clearPacker.errInfo = s.errInfo := rfl
@[simp] theorem clearPacker_total : s.clearPacker.total = s.total := rfl
@[simp] theorem clearPacker_hdrBits : s.clearPacker.hdrBits = s.hdrBits := rfl
@[simp] theorem clearPacker_estOrig : s.clearPacker.estOrig = s.estOrig := rfl
@[simp] theorem clearPacker_estComp : s.clearPacker.estComp = s.estComp := rfl
@[simp] theorem clearPacker_result : s.clearPacker.result = s.result := rfl
@[simp] theorem clearPacker_codeLen : s.clearPacker.codeLen = s.codeLen := rfl
@[simp] theorem clearPacker_nodeCount : s.clearPacker.nodeCount = s.nodeCount := rfl
@[simp] theorem clearPacker_root : s.clearPacker.root = s.root := rfl
@[simp] theorem clearPacker_freq : s.clearPacker.freq = s.freq := rfl
@[simp] theorem clearPacker_node : s.clearPacker.node = s.node := rfl
@[simp] theorem clearPacker_code : s.clearPacker.code = s.code := rfl
@[simp] theorem clearPacker_heap : s.clearPacker.heap = s.heap := rfl
@[simp] theorem clearPacker_stack : s.clearPacker.stack = s.stack := rfl
@[simp] theorem clearPacker_pkAcc : s.clearPacker.pkAcc = 0 := rfl
@[simp] theorem clearPacker_pkN : s.clearPacker.pkN = 0 := rfl
@[simp] theorem clearPacker_upBuf : s.clearPacker.upBuf = s.upBuf := rfl
@[simp] theorem clearPacker_upN : s.clearPacker.upN = s.upN := rfl
@[simp] theorem clearPacker_upEos : s.clearPacker.upEos = s.upEos := rfl
@[simp] theorem clearPacker_upBytes : s.clearPacker.upBytes = s.upBytes := rfl
@[simp] theorem clearPacker_curCmd : s.clearPacker.curCmd = s.curCmd := rfl
@[simp] theorem clearPacker_k : s.clearPacker.k = s.k := rfl
@[simp] theorem clearPacker_inQ : s.clearPacker.inQ = s.inQ := rfl
@[simp] theorem clearPacker_outQ : s.clearPacker.outQ = s.outQ := rfl
@[simp] theorem clearPacker_agenda : s.clearPacker.agenda = s.agenda := rfl
@[simp] theorem clearPacker_draws : s.clearPacker.draws = s.draws := rfl
@[simp] theorem clearPacker_rdata : s.clearPacker.rdata = s.rdata := rfl
@[simp] theorem clearPacker_popped : s.clearPacker.popped = s.popped := rfl

/-! `UnpackerReset`: only the unpacker changes (R115) -/

@[simp] theorem resetUnpacker_ie : s.resetUnpacker.ie = s.ie := rfl
@[simp] theorem resetUnpacker_busy : s.resetUnpacker.busy = s.busy := rfl
@[simp] theorem resetUnpacker_done : s.resetUnpacker.done = s.done := rfl
@[simp] theorem resetUnpacker_err : s.resetUnpacker.err = s.err := rfl
@[simp] theorem resetUnpacker_gated : s.resetUnpacker.gated = s.gated := rfl
@[simp] theorem resetUnpacker_treeValid : s.resetUnpacker.treeValid = s.treeValid := rfl
@[simp] theorem resetUnpacker_codesValid : s.resetUnpacker.codesValid = s.codesValid := rfl
@[simp] theorem resetUnpacker_estValid : s.resetUnpacker.estValid = s.estValid := rfl
@[simp] theorem resetUnpacker_treeDecoded : s.resetUnpacker.treeDecoded = s.treeDecoded := rfl
@[simp] theorem resetUnpacker_cmdDropped : s.resetUnpacker.cmdDropped = s.cmdDropped := rfl
@[simp] theorem resetUnpacker_phase : s.resetUnpacker.phase = s.phase := rfl
@[simp] theorem resetUnpacker_data : s.resetUnpacker.data = s.data := rfl
@[simp] theorem resetUnpacker_error : s.resetUnpacker.error = s.error := rfl
@[simp] theorem resetUnpacker_errInfo : s.resetUnpacker.errInfo = s.errInfo := rfl
@[simp] theorem resetUnpacker_total : s.resetUnpacker.total = s.total := rfl
@[simp] theorem resetUnpacker_hdrBits : s.resetUnpacker.hdrBits = s.hdrBits := rfl
@[simp] theorem resetUnpacker_estOrig : s.resetUnpacker.estOrig = s.estOrig := rfl
@[simp] theorem resetUnpacker_estComp : s.resetUnpacker.estComp = s.estComp := rfl
@[simp] theorem resetUnpacker_result : s.resetUnpacker.result = s.result := rfl
@[simp] theorem resetUnpacker_codeLen : s.resetUnpacker.codeLen = s.codeLen := rfl
@[simp] theorem resetUnpacker_nodeCount : s.resetUnpacker.nodeCount = s.nodeCount := rfl
@[simp] theorem resetUnpacker_root : s.resetUnpacker.root = s.root := rfl
@[simp] theorem resetUnpacker_freq : s.resetUnpacker.freq = s.freq := rfl
@[simp] theorem resetUnpacker_node : s.resetUnpacker.node = s.node := rfl
@[simp] theorem resetUnpacker_code : s.resetUnpacker.code = s.code := rfl
@[simp] theorem resetUnpacker_heap : s.resetUnpacker.heap = s.heap := rfl
@[simp] theorem resetUnpacker_stack : s.resetUnpacker.stack = s.stack := rfl
@[simp] theorem resetUnpacker_pkAcc : s.resetUnpacker.pkAcc = s.pkAcc := rfl
@[simp] theorem resetUnpacker_pkN : s.resetUnpacker.pkN = s.pkN := rfl
@[simp] theorem resetUnpacker_upBuf : s.resetUnpacker.upBuf = 0 := rfl
@[simp] theorem resetUnpacker_upN : s.resetUnpacker.upN = 0 := rfl
@[simp] theorem resetUnpacker_upEos : s.resetUnpacker.upEos = false := rfl
@[simp] theorem resetUnpacker_upBytes : s.resetUnpacker.upBytes = 0 := rfl
@[simp] theorem resetUnpacker_curCmd : s.resetUnpacker.curCmd = s.curCmd := rfl
@[simp] theorem resetUnpacker_k : s.resetUnpacker.k = s.k := rfl
@[simp] theorem resetUnpacker_inQ : s.resetUnpacker.inQ = s.inQ := rfl
@[simp] theorem resetUnpacker_outQ : s.resetUnpacker.outQ = s.outQ := rfl
@[simp] theorem resetUnpacker_agenda : s.resetUnpacker.agenda = s.agenda := rfl
@[simp] theorem resetUnpacker_draws : s.resetUnpacker.draws = s.draws := rfl
@[simp] theorem resetUnpacker_rdata : s.resetUnpacker.rdata = s.rdata := rfl
@[simp] theorem resetUnpacker_popped : s.resetUnpacker.popped = s.popped := rfl

/-! `loadByte`: the unpacker takes a byte (R113) -/

@[simp] theorem loadByte_ie (b : Byte) : (s.loadByte b).ie = s.ie := rfl
@[simp] theorem loadByte_busy (b : Byte) : (s.loadByte b).busy = s.busy := rfl
@[simp] theorem loadByte_done (b : Byte) : (s.loadByte b).done = s.done := rfl
@[simp] theorem loadByte_err (b : Byte) : (s.loadByte b).err = s.err := rfl
@[simp] theorem loadByte_gated (b : Byte) : (s.loadByte b).gated = s.gated := rfl
@[simp] theorem loadByte_treeValid (b : Byte) : (s.loadByte b).treeValid = s.treeValid := rfl
@[simp] theorem loadByte_codesValid (b : Byte) : (s.loadByte b).codesValid = s.codesValid := rfl
@[simp] theorem loadByte_estValid (b : Byte) : (s.loadByte b).estValid = s.estValid := rfl
@[simp] theorem loadByte_treeDecoded (b : Byte) : (s.loadByte b).treeDecoded = s.treeDecoded := rfl
@[simp] theorem loadByte_cmdDropped (b : Byte) : (s.loadByte b).cmdDropped = s.cmdDropped := rfl
@[simp] theorem loadByte_phase (b : Byte) : (s.loadByte b).phase = s.phase := rfl
@[simp] theorem loadByte_data (b : Byte) : (s.loadByte b).data = s.data := rfl
@[simp] theorem loadByte_error (b : Byte) : (s.loadByte b).error = s.error := rfl
@[simp] theorem loadByte_errInfo (b : Byte) : (s.loadByte b).errInfo = s.errInfo := rfl
@[simp] theorem loadByte_total (b : Byte) : (s.loadByte b).total = s.total := rfl
@[simp] theorem loadByte_hdrBits (b : Byte) : (s.loadByte b).hdrBits = s.hdrBits := rfl
@[simp] theorem loadByte_estOrig (b : Byte) : (s.loadByte b).estOrig = s.estOrig := rfl
@[simp] theorem loadByte_estComp (b : Byte) : (s.loadByte b).estComp = s.estComp := rfl
@[simp] theorem loadByte_result (b : Byte) : (s.loadByte b).result = s.result := rfl
@[simp] theorem loadByte_codeLen (b : Byte) : (s.loadByte b).codeLen = s.codeLen := rfl
@[simp] theorem loadByte_nodeCount (b : Byte) : (s.loadByte b).nodeCount = s.nodeCount := rfl
@[simp] theorem loadByte_root (b : Byte) : (s.loadByte b).root = s.root := rfl
@[simp] theorem loadByte_freq (b : Byte) : (s.loadByte b).freq = s.freq := rfl
@[simp] theorem loadByte_node (b : Byte) : (s.loadByte b).node = s.node := rfl
@[simp] theorem loadByte_code (b : Byte) : (s.loadByte b).code = s.code := rfl
@[simp] theorem loadByte_heap (b : Byte) : (s.loadByte b).heap = s.heap := rfl
@[simp] theorem loadByte_stack (b : Byte) : (s.loadByte b).stack = s.stack := rfl
@[simp] theorem loadByte_pkAcc (b : Byte) : (s.loadByte b).pkAcc = s.pkAcc := rfl
@[simp] theorem loadByte_pkN (b : Byte) : (s.loadByte b).pkN = s.pkN := rfl
@[simp] theorem loadByte_upBuf (b : Byte) : (s.loadByte b).upBuf = b := rfl
@[simp] theorem loadByte_upN (b : Byte) : (s.loadByte b).upN = 8 := rfl
@[simp] theorem loadByte_upEos (b : Byte) : (s.loadByte b).upEos = s.upEos := rfl
@[simp] theorem loadByte_upBytes (b : Byte) : (s.loadByte b).upBytes = s.upBytes + 1 := rfl
@[simp] theorem loadByte_curCmd (b : Byte) : (s.loadByte b).curCmd = s.curCmd := rfl
@[simp] theorem loadByte_k (b : Byte) : (s.loadByte b).k = s.k := rfl
@[simp] theorem loadByte_inQ (b : Byte) : (s.loadByte b).inQ = s.inQ := rfl
@[simp] theorem loadByte_outQ (b : Byte) : (s.loadByte b).outQ = s.outQ := rfl
@[simp] theorem loadByte_agenda (b : Byte) : (s.loadByte b).agenda = s.agenda := rfl
@[simp] theorem loadByte_draws (b : Byte) : (s.loadByte b).draws = s.draws := rfl
@[simp] theorem loadByte_rdata (b : Byte) : (s.loadByte b).rdata = s.rdata := rfl
@[simp] theorem loadByte_popped (b : Byte) : (s.loadByte b).popped = s.popped := rfl

/-! `finish()`, the normal exit (R84) -/

@[simp] theorem finish_ie : s.finish.ie = s.ie := rfl
@[simp] theorem finish_busy : s.finish.busy = false := rfl
@[simp] theorem finish_done : s.finish.done = true := rfl
@[simp] theorem finish_err : s.finish.err = s.err := rfl
@[simp] theorem finish_gated : s.finish.gated = s.gated := rfl
@[simp] theorem finish_treeValid : s.finish.treeValid = s.treeValid := rfl
@[simp] theorem finish_codesValid : s.finish.codesValid = s.codesValid := rfl
@[simp] theorem finish_estValid : s.finish.estValid = s.estValid := rfl
@[simp] theorem finish_treeDecoded : s.finish.treeDecoded = s.treeDecoded := rfl
@[simp] theorem finish_cmdDropped : s.finish.cmdDropped = s.cmdDropped := rfl
@[simp] theorem finish_phase : s.finish.phase = .idle := rfl
@[simp] theorem finish_data : s.finish.data = s.data := rfl
@[simp] theorem finish_error : s.finish.error = s.error := rfl
@[simp] theorem finish_errInfo : s.finish.errInfo = s.errInfo := rfl
@[simp] theorem finish_total : s.finish.total = s.total := rfl
@[simp] theorem finish_hdrBits : s.finish.hdrBits = s.hdrBits := rfl
@[simp] theorem finish_estOrig : s.finish.estOrig = s.estOrig := rfl
@[simp] theorem finish_estComp : s.finish.estComp = s.estComp := rfl
@[simp] theorem finish_result : s.finish.result = s.result := rfl
@[simp] theorem finish_codeLen : s.finish.codeLen = s.codeLen := rfl
@[simp] theorem finish_nodeCount : s.finish.nodeCount = s.nodeCount := rfl
@[simp] theorem finish_root : s.finish.root = s.root := rfl
@[simp] theorem finish_freq : s.finish.freq = s.freq := rfl
@[simp] theorem finish_node : s.finish.node = s.node := rfl
@[simp] theorem finish_code : s.finish.code = s.code := rfl
@[simp] theorem finish_heap : s.finish.heap = s.heap := rfl
@[simp] theorem finish_stack : s.finish.stack = s.stack := rfl
@[simp] theorem finish_pkAcc : s.finish.pkAcc = s.pkAcc := rfl
@[simp] theorem finish_pkN : s.finish.pkN = s.pkN := rfl
@[simp] theorem finish_upBuf : s.finish.upBuf = s.upBuf := rfl
@[simp] theorem finish_upN : s.finish.upN = s.upN := rfl
@[simp] theorem finish_upEos : s.finish.upEos = s.upEos := rfl
@[simp] theorem finish_upBytes : s.finish.upBytes = s.upBytes := rfl
@[simp] theorem finish_curCmd : s.finish.curCmd = s.curCmd := rfl
@[simp] theorem finish_k : s.finish.k = none := rfl
@[simp] theorem finish_inQ : s.finish.inQ = s.inQ := rfl
@[simp] theorem finish_outQ : s.finish.outQ = s.outQ := rfl
@[simp] theorem finish_agenda : s.finish.agenda = s.agenda := rfl
@[simp] theorem finish_draws : s.finish.draws = s.draws := rfl
@[simp] theorem finish_rdata : s.finish.rdata = s.rdata := rfl
@[simp] theorem finish_popped : s.finish.popped = s.popped := rfl

/-! `raise`, the error exit (R136) -/

@[simp] theorem raiseError_ie (c : ErrCode) (info : Word) : (s.raiseError c info).ie = s.ie := rfl
@[simp] theorem raiseError_busy (c : ErrCode) (info : Word) : (s.raiseError c info).busy = false := rfl
@[simp] theorem raiseError_done (c : ErrCode) (info : Word) : (s.raiseError c info).done = s.done := rfl
@[simp] theorem raiseError_err (c : ErrCode) (info : Word) : (s.raiseError c info).err = true := rfl
@[simp] theorem raiseError_gated (c : ErrCode) (info : Word) : (s.raiseError c info).gated = s.gated := rfl
@[simp] theorem raiseError_treeValid (c : ErrCode) (info : Word) : (s.raiseError c info).treeValid = s.treeValid := rfl
@[simp] theorem raiseError_codesValid (c : ErrCode) (info : Word) : (s.raiseError c info).codesValid = s.codesValid := rfl
@[simp] theorem raiseError_estValid (c : ErrCode) (info : Word) : (s.raiseError c info).estValid = s.estValid := rfl
@[simp] theorem raiseError_treeDecoded (c : ErrCode) (info : Word) : (s.raiseError c info).treeDecoded = s.treeDecoded := rfl
@[simp] theorem raiseError_cmdDropped (c : ErrCode) (info : Word) : (s.raiseError c info).cmdDropped = s.cmdDropped := rfl
@[simp] theorem raiseError_phase (c : ErrCode) (info : Word) : (s.raiseError c info).phase = .idle := rfl
@[simp] theorem raiseError_data (c : ErrCode) (info : Word) : (s.raiseError c info).data = s.data := rfl
@[simp] theorem raiseError_error (c : ErrCode) (info : Word) : (s.raiseError c info).error = c := rfl
@[simp] theorem raiseError_errInfo (c : ErrCode) (info : Word) : (s.raiseError c info).errInfo = info := rfl
@[simp] theorem raiseError_total (c : ErrCode) (info : Word) : (s.raiseError c info).total = s.total := rfl
@[simp] theorem raiseError_hdrBits (c : ErrCode) (info : Word) : (s.raiseError c info).hdrBits = s.hdrBits := rfl
@[simp] theorem raiseError_estOrig (c : ErrCode) (info : Word) : (s.raiseError c info).estOrig = s.estOrig := rfl
@[simp] theorem raiseError_estComp (c : ErrCode) (info : Word) : (s.raiseError c info).estComp = s.estComp := rfl
@[simp] theorem raiseError_result (c : ErrCode) (info : Word) : (s.raiseError c info).result = s.result := rfl
@[simp] theorem raiseError_codeLen (c : ErrCode) (info : Word) : (s.raiseError c info).codeLen = s.codeLen := rfl
@[simp] theorem raiseError_nodeCount (c : ErrCode) (info : Word) : (s.raiseError c info).nodeCount = s.nodeCount := rfl
@[simp] theorem raiseError_root (c : ErrCode) (info : Word) : (s.raiseError c info).root = s.root := rfl
@[simp] theorem raiseError_freq (c : ErrCode) (info : Word) : (s.raiseError c info).freq = s.freq := rfl
@[simp] theorem raiseError_node (c : ErrCode) (info : Word) : (s.raiseError c info).node = s.node := rfl
@[simp] theorem raiseError_code (c : ErrCode) (info : Word) : (s.raiseError c info).code = s.code := rfl
@[simp] theorem raiseError_heap (c : ErrCode) (info : Word) : (s.raiseError c info).heap = s.heap := rfl
@[simp] theorem raiseError_stack (c : ErrCode) (info : Word) : (s.raiseError c info).stack = s.stack := rfl
@[simp] theorem raiseError_pkAcc (c : ErrCode) (info : Word) : (s.raiseError c info).pkAcc = 0 := rfl
@[simp] theorem raiseError_pkN (c : ErrCode) (info : Word) : (s.raiseError c info).pkN = 0 := rfl
@[simp] theorem raiseError_upBuf (c : ErrCode) (info : Word) : (s.raiseError c info).upBuf = 0 := rfl
@[simp] theorem raiseError_upN (c : ErrCode) (info : Word) : (s.raiseError c info).upN = 0 := rfl
@[simp] theorem raiseError_upEos (c : ErrCode) (info : Word) : (s.raiseError c info).upEos = false := rfl
@[simp] theorem raiseError_upBytes (c : ErrCode) (info : Word) : (s.raiseError c info).upBytes = 0 := rfl
@[simp] theorem raiseError_curCmd (c : ErrCode) (info : Word) : (s.raiseError c info).curCmd = s.curCmd := rfl
@[simp] theorem raiseError_k (c : ErrCode) (info : Word) : (s.raiseError c info).k = none := rfl
@[simp] theorem raiseError_inQ (c : ErrCode) (info : Word) : (s.raiseError c info).inQ = s.inQ := rfl
@[simp] theorem raiseError_outQ (c : ErrCode) (info : Word) : (s.raiseError c info).outQ = s.outQ := rfl
@[simp] theorem raiseError_agenda (c : ErrCode) (info : Word) : (s.raiseError c info).agenda = s.agenda := rfl
@[simp] theorem raiseError_draws (c : ErrCode) (info : Word) : (s.raiseError c info).draws = s.draws := rfl
@[simp] theorem raiseError_rdata (c : ErrCode) (info : Word) : (s.raiseError c info).rdata = s.rdata := rfl
@[simp] theorem raiseError_popped (c : ErrCode) (info : Word) : (s.raiseError c info).popped = s.popped := rfl

/-! `reject`, the rejection at dispatch (R135) -/

@[simp] theorem reject_ie (c : ErrCode) (w : Word) : (s.reject c w).ie = s.ie := rfl
@[simp] theorem reject_busy (c : ErrCode) (w : Word) : (s.reject c w).busy = s.busy := rfl
@[simp] theorem reject_done (c : ErrCode) (w : Word) : (s.reject c w).done = s.done := rfl
@[simp] theorem reject_err (c : ErrCode) (w : Word) : (s.reject c w).err = true := rfl
@[simp] theorem reject_gated (c : ErrCode) (w : Word) : (s.reject c w).gated = s.gated := rfl
@[simp] theorem reject_treeValid (c : ErrCode) (w : Word) : (s.reject c w).treeValid = s.treeValid := rfl
@[simp] theorem reject_codesValid (c : ErrCode) (w : Word) : (s.reject c w).codesValid = s.codesValid := rfl
@[simp] theorem reject_estValid (c : ErrCode) (w : Word) : (s.reject c w).estValid = s.estValid := rfl
@[simp] theorem reject_treeDecoded (c : ErrCode) (w : Word) : (s.reject c w).treeDecoded = s.treeDecoded := rfl
@[simp] theorem reject_cmdDropped (c : ErrCode) (w : Word) : (s.reject c w).cmdDropped = s.cmdDropped := rfl
@[simp] theorem reject_phase (c : ErrCode) (w : Word) : (s.reject c w).phase = s.phase := rfl
@[simp] theorem reject_data (c : ErrCode) (w : Word) : (s.reject c w).data = s.data := rfl
@[simp] theorem reject_error (c : ErrCode) (w : Word) : (s.reject c w).error = c := rfl
@[simp] theorem reject_errInfo (c : ErrCode) (w : Word) : (s.reject c w).errInfo = w := rfl
@[simp] theorem reject_total (c : ErrCode) (w : Word) : (s.reject c w).total = s.total := rfl
@[simp] theorem reject_hdrBits (c : ErrCode) (w : Word) : (s.reject c w).hdrBits = s.hdrBits := rfl
@[simp] theorem reject_estOrig (c : ErrCode) (w : Word) : (s.reject c w).estOrig = s.estOrig := rfl
@[simp] theorem reject_estComp (c : ErrCode) (w : Word) : (s.reject c w).estComp = s.estComp := rfl
@[simp] theorem reject_result (c : ErrCode) (w : Word) : (s.reject c w).result = s.result := rfl
@[simp] theorem reject_codeLen (c : ErrCode) (w : Word) : (s.reject c w).codeLen = s.codeLen := rfl
@[simp] theorem reject_nodeCount (c : ErrCode) (w : Word) : (s.reject c w).nodeCount = s.nodeCount := rfl
@[simp] theorem reject_root (c : ErrCode) (w : Word) : (s.reject c w).root = s.root := rfl
@[simp] theorem reject_freq (c : ErrCode) (w : Word) : (s.reject c w).freq = s.freq := rfl
@[simp] theorem reject_node (c : ErrCode) (w : Word) : (s.reject c w).node = s.node := rfl
@[simp] theorem reject_code (c : ErrCode) (w : Word) : (s.reject c w).code = s.code := rfl
@[simp] theorem reject_heap (c : ErrCode) (w : Word) : (s.reject c w).heap = s.heap := rfl
@[simp] theorem reject_stack (c : ErrCode) (w : Word) : (s.reject c w).stack = s.stack := rfl
@[simp] theorem reject_pkAcc (c : ErrCode) (w : Word) : (s.reject c w).pkAcc = s.pkAcc := rfl
@[simp] theorem reject_pkN (c : ErrCode) (w : Word) : (s.reject c w).pkN = s.pkN := rfl
@[simp] theorem reject_upBuf (c : ErrCode) (w : Word) : (s.reject c w).upBuf = s.upBuf := rfl
@[simp] theorem reject_upN (c : ErrCode) (w : Word) : (s.reject c w).upN = s.upN := rfl
@[simp] theorem reject_upEos (c : ErrCode) (w : Word) : (s.reject c w).upEos = s.upEos := rfl
@[simp] theorem reject_upBytes (c : ErrCode) (w : Word) : (s.reject c w).upBytes = s.upBytes := rfl
@[simp] theorem reject_curCmd (c : ErrCode) (w : Word) : (s.reject c w).curCmd = s.curCmd := rfl
@[simp] theorem reject_k (c : ErrCode) (w : Word) : (s.reject c w).k = s.k := rfl
@[simp] theorem reject_inQ (c : ErrCode) (w : Word) : (s.reject c w).inQ = s.inQ := rfl
@[simp] theorem reject_outQ (c : ErrCode) (w : Word) : (s.reject c w).outQ = s.outQ := rfl
@[simp] theorem reject_agenda (c : ErrCode) (w : Word) : (s.reject c w).agenda = s.agenda := rfl
@[simp] theorem reject_draws (c : ErrCode) (w : Word) : (s.reject c w).draws = s.draws := rfl
@[simp] theorem reject_rdata (c : ErrCode) (w : Word) : (s.reject c w).rdata = s.rdata := rfl
@[simp] theorem reject_popped (c : ErrCode) (w : Word) : (s.reject c w).popped = s.popped := rfl

/-! The start of every command (R83) -/

@[simp] theorem beginDispatch_ie : s.beginDispatch.ie = s.ie := rfl
@[simp] theorem beginDispatch_busy : s.beginDispatch.busy = s.busy := rfl
@[simp] theorem beginDispatch_done : s.beginDispatch.done = false := rfl
@[simp] theorem beginDispatch_err : s.beginDispatch.err = false := rfl
@[simp] theorem beginDispatch_gated : s.beginDispatch.gated = s.gated := rfl
@[simp] theorem beginDispatch_treeValid : s.beginDispatch.treeValid = s.treeValid := rfl
@[simp] theorem beginDispatch_codesValid : s.beginDispatch.codesValid = s.codesValid := rfl
@[simp] theorem beginDispatch_estValid : s.beginDispatch.estValid = s.estValid := rfl
@[simp] theorem beginDispatch_treeDecoded : s.beginDispatch.treeDecoded = s.treeDecoded := rfl
@[simp] theorem beginDispatch_cmdDropped : s.beginDispatch.cmdDropped = s.cmdDropped := rfl
@[simp] theorem beginDispatch_phase : s.beginDispatch.phase = s.phase := rfl
@[simp] theorem beginDispatch_data : s.beginDispatch.data = s.data := rfl
@[simp] theorem beginDispatch_error : s.beginDispatch.error = .none := rfl
@[simp] theorem beginDispatch_errInfo : s.beginDispatch.errInfo = 0 := rfl
@[simp] theorem beginDispatch_total : s.beginDispatch.total = s.total := rfl
@[simp] theorem beginDispatch_hdrBits : s.beginDispatch.hdrBits = s.hdrBits := rfl
@[simp] theorem beginDispatch_estOrig : s.beginDispatch.estOrig = s.estOrig := rfl
@[simp] theorem beginDispatch_estComp : s.beginDispatch.estComp = s.estComp := rfl
@[simp] theorem beginDispatch_result : s.beginDispatch.result = s.result := rfl
@[simp] theorem beginDispatch_codeLen : s.beginDispatch.codeLen = s.codeLen := rfl
@[simp] theorem beginDispatch_nodeCount : s.beginDispatch.nodeCount = s.nodeCount := rfl
@[simp] theorem beginDispatch_root : s.beginDispatch.root = s.root := rfl
@[simp] theorem beginDispatch_freq : s.beginDispatch.freq = s.freq := rfl
@[simp] theorem beginDispatch_node : s.beginDispatch.node = s.node := rfl
@[simp] theorem beginDispatch_code : s.beginDispatch.code = s.code := rfl
@[simp] theorem beginDispatch_heap : s.beginDispatch.heap = s.heap := rfl
@[simp] theorem beginDispatch_stack : s.beginDispatch.stack = s.stack := rfl
@[simp] theorem beginDispatch_pkAcc : s.beginDispatch.pkAcc = s.pkAcc := rfl
@[simp] theorem beginDispatch_pkN : s.beginDispatch.pkN = s.pkN := rfl
@[simp] theorem beginDispatch_upBuf : s.beginDispatch.upBuf = s.upBuf := rfl
@[simp] theorem beginDispatch_upN : s.beginDispatch.upN = s.upN := rfl
@[simp] theorem beginDispatch_upEos : s.beginDispatch.upEos = s.upEos := rfl
@[simp] theorem beginDispatch_upBytes : s.beginDispatch.upBytes = s.upBytes := rfl
@[simp] theorem beginDispatch_curCmd : s.beginDispatch.curCmd = s.curCmd := rfl
@[simp] theorem beginDispatch_k : s.beginDispatch.k = s.k := rfl
@[simp] theorem beginDispatch_inQ : s.beginDispatch.inQ = s.inQ := rfl
@[simp] theorem beginDispatch_outQ : s.beginDispatch.outQ = s.outQ := rfl
@[simp] theorem beginDispatch_agenda : s.beginDispatch.agenda = s.agenda := rfl
@[simp] theorem beginDispatch_draws : s.beginDispatch.draws = s.draws := rfl
@[simp] theorem beginDispatch_rdata : s.beginDispatch.rdata = s.rdata := rfl
@[simp] theorem beginDispatch_popped : s.beginDispatch.popped = s.popped := rfl

/-! All five validity flags cleared (R44) -/

@[simp] theorem clearValid_ie : s.clearValid.ie = s.ie := rfl
@[simp] theorem clearValid_busy : s.clearValid.busy = s.busy := rfl
@[simp] theorem clearValid_done : s.clearValid.done = s.done := rfl
@[simp] theorem clearValid_err : s.clearValid.err = s.err := rfl
@[simp] theorem clearValid_gated : s.clearValid.gated = false := rfl
@[simp] theorem clearValid_treeValid : s.clearValid.treeValid = false := rfl
@[simp] theorem clearValid_codesValid : s.clearValid.codesValid = false := rfl
@[simp] theorem clearValid_estValid : s.clearValid.estValid = false := rfl
@[simp] theorem clearValid_treeDecoded : s.clearValid.treeDecoded = false := rfl
@[simp] theorem clearValid_cmdDropped : s.clearValid.cmdDropped = s.cmdDropped := rfl
@[simp] theorem clearValid_phase : s.clearValid.phase = s.phase := rfl
@[simp] theorem clearValid_data : s.clearValid.data = s.data := rfl
@[simp] theorem clearValid_error : s.clearValid.error = s.error := rfl
@[simp] theorem clearValid_errInfo : s.clearValid.errInfo = s.errInfo := rfl
@[simp] theorem clearValid_total : s.clearValid.total = s.total := rfl
@[simp] theorem clearValid_hdrBits : s.clearValid.hdrBits = s.hdrBits := rfl
@[simp] theorem clearValid_estOrig : s.clearValid.estOrig = s.estOrig := rfl
@[simp] theorem clearValid_estComp : s.clearValid.estComp = s.estComp := rfl
@[simp] theorem clearValid_result : s.clearValid.result = s.result := rfl
@[simp] theorem clearValid_codeLen : s.clearValid.codeLen = s.codeLen := rfl
@[simp] theorem clearValid_nodeCount : s.clearValid.nodeCount = s.nodeCount := rfl
@[simp] theorem clearValid_root : s.clearValid.root = s.root := rfl
@[simp] theorem clearValid_freq : s.clearValid.freq = s.freq := rfl
@[simp] theorem clearValid_node : s.clearValid.node = s.node := rfl
@[simp] theorem clearValid_code : s.clearValid.code = s.code := rfl
@[simp] theorem clearValid_heap : s.clearValid.heap = s.heap := rfl
@[simp] theorem clearValid_stack : s.clearValid.stack = s.stack := rfl
@[simp] theorem clearValid_pkAcc : s.clearValid.pkAcc = s.pkAcc := rfl
@[simp] theorem clearValid_pkN : s.clearValid.pkN = s.pkN := rfl
@[simp] theorem clearValid_upBuf : s.clearValid.upBuf = s.upBuf := rfl
@[simp] theorem clearValid_upN : s.clearValid.upN = s.upN := rfl
@[simp] theorem clearValid_upEos : s.clearValid.upEos = s.upEos := rfl
@[simp] theorem clearValid_upBytes : s.clearValid.upBytes = s.upBytes := rfl
@[simp] theorem clearValid_curCmd : s.clearValid.curCmd = s.curCmd := rfl
@[simp] theorem clearValid_k : s.clearValid.k = s.k := rfl
@[simp] theorem clearValid_inQ : s.clearValid.inQ = s.inQ := rfl
@[simp] theorem clearValid_outQ : s.clearValid.outQ = s.outQ := rfl
@[simp] theorem clearValid_agenda : s.clearValid.agenda = s.agenda := rfl
@[simp] theorem clearValid_draws : s.clearValid.draws = s.draws := rfl
@[simp] theorem clearValid_rdata : s.clearValid.rdata = s.rdata := rfl
@[simp] theorem clearValid_popped : s.clearValid.popped = s.popped := rfl

/-! The flags GEN_CODES clears (R44) -/

@[simp] theorem clearCodes_ie : s.clearCodes.ie = s.ie := rfl
@[simp] theorem clearCodes_busy : s.clearCodes.busy = s.busy := rfl
@[simp] theorem clearCodes_done : s.clearCodes.done = s.done := rfl
@[simp] theorem clearCodes_err : s.clearCodes.err = s.err := rfl
@[simp] theorem clearCodes_gated : s.clearCodes.gated = false := rfl
@[simp] theorem clearCodes_treeValid : s.clearCodes.treeValid = s.treeValid := rfl
@[simp] theorem clearCodes_codesValid : s.clearCodes.codesValid = false := rfl
@[simp] theorem clearCodes_estValid : s.clearCodes.estValid = false := rfl
@[simp] theorem clearCodes_treeDecoded : s.clearCodes.treeDecoded = s.treeDecoded := rfl
@[simp] theorem clearCodes_cmdDropped : s.clearCodes.cmdDropped = s.cmdDropped := rfl
@[simp] theorem clearCodes_phase : s.clearCodes.phase = s.phase := rfl
@[simp] theorem clearCodes_data : s.clearCodes.data = s.data := rfl
@[simp] theorem clearCodes_error : s.clearCodes.error = s.error := rfl
@[simp] theorem clearCodes_errInfo : s.clearCodes.errInfo = s.errInfo := rfl
@[simp] theorem clearCodes_total : s.clearCodes.total = s.total := rfl
@[simp] theorem clearCodes_hdrBits : s.clearCodes.hdrBits = s.hdrBits := rfl
@[simp] theorem clearCodes_estOrig : s.clearCodes.estOrig = s.estOrig := rfl
@[simp] theorem clearCodes_estComp : s.clearCodes.estComp = s.estComp := rfl
@[simp] theorem clearCodes_result : s.clearCodes.result = s.result := rfl
@[simp] theorem clearCodes_codeLen : s.clearCodes.codeLen = s.codeLen := rfl
@[simp] theorem clearCodes_nodeCount : s.clearCodes.nodeCount = s.nodeCount := rfl
@[simp] theorem clearCodes_root : s.clearCodes.root = s.root := rfl
@[simp] theorem clearCodes_freq : s.clearCodes.freq = s.freq := rfl
@[simp] theorem clearCodes_node : s.clearCodes.node = s.node := rfl
@[simp] theorem clearCodes_code : s.clearCodes.code = s.code := rfl
@[simp] theorem clearCodes_heap : s.clearCodes.heap = s.heap := rfl
@[simp] theorem clearCodes_stack : s.clearCodes.stack = s.stack := rfl
@[simp] theorem clearCodes_pkAcc : s.clearCodes.pkAcc = s.pkAcc := rfl
@[simp] theorem clearCodes_pkN : s.clearCodes.pkN = s.pkN := rfl
@[simp] theorem clearCodes_upBuf : s.clearCodes.upBuf = s.upBuf := rfl
@[simp] theorem clearCodes_upN : s.clearCodes.upN = s.upN := rfl
@[simp] theorem clearCodes_upEos : s.clearCodes.upEos = s.upEos := rfl
@[simp] theorem clearCodes_upBytes : s.clearCodes.upBytes = s.upBytes := rfl
@[simp] theorem clearCodes_curCmd : s.clearCodes.curCmd = s.curCmd := rfl
@[simp] theorem clearCodes_k : s.clearCodes.k = s.k := rfl
@[simp] theorem clearCodes_inQ : s.clearCodes.inQ = s.inQ := rfl
@[simp] theorem clearCodes_outQ : s.clearCodes.outQ = s.outQ := rfl
@[simp] theorem clearCodes_agenda : s.clearCodes.agenda = s.agenda := rfl
@[simp] theorem clearCodes_draws : s.clearCodes.draws = s.draws := rfl
@[simp] theorem clearCodes_rdata : s.clearCodes.rdata = s.rdata := rfl
@[simp] theorem clearCodes_popped : s.clearCodes.popped = s.popped := rfl

/-! The flags ESTIMATE clears (R44) -/

@[simp] theorem clearEstimate_ie : s.clearEstimate.ie = s.ie := rfl
@[simp] theorem clearEstimate_busy : s.clearEstimate.busy = s.busy := rfl
@[simp] theorem clearEstimate_done : s.clearEstimate.done = s.done := rfl
@[simp] theorem clearEstimate_err : s.clearEstimate.err = s.err := rfl
@[simp] theorem clearEstimate_gated : s.clearEstimate.gated = false := rfl
@[simp] theorem clearEstimate_treeValid : s.clearEstimate.treeValid = s.treeValid := rfl
@[simp] theorem clearEstimate_codesValid : s.clearEstimate.codesValid = s.codesValid := rfl
@[simp] theorem clearEstimate_estValid : s.clearEstimate.estValid = false := rfl
@[simp] theorem clearEstimate_treeDecoded : s.clearEstimate.treeDecoded = s.treeDecoded := rfl
@[simp] theorem clearEstimate_cmdDropped : s.clearEstimate.cmdDropped = s.cmdDropped := rfl
@[simp] theorem clearEstimate_phase : s.clearEstimate.phase = s.phase := rfl
@[simp] theorem clearEstimate_data : s.clearEstimate.data = s.data := rfl
@[simp] theorem clearEstimate_error : s.clearEstimate.error = s.error := rfl
@[simp] theorem clearEstimate_errInfo : s.clearEstimate.errInfo = s.errInfo := rfl
@[simp] theorem clearEstimate_total : s.clearEstimate.total = s.total := rfl
@[simp] theorem clearEstimate_hdrBits : s.clearEstimate.hdrBits = s.hdrBits := rfl
@[simp] theorem clearEstimate_estOrig : s.clearEstimate.estOrig = s.estOrig := rfl
@[simp] theorem clearEstimate_estComp : s.clearEstimate.estComp = s.estComp := rfl
@[simp] theorem clearEstimate_result : s.clearEstimate.result = s.result := rfl
@[simp] theorem clearEstimate_codeLen : s.clearEstimate.codeLen = s.codeLen := rfl
@[simp] theorem clearEstimate_nodeCount : s.clearEstimate.nodeCount = s.nodeCount := rfl
@[simp] theorem clearEstimate_root : s.clearEstimate.root = s.root := rfl
@[simp] theorem clearEstimate_freq : s.clearEstimate.freq = s.freq := rfl
@[simp] theorem clearEstimate_node : s.clearEstimate.node = s.node := rfl
@[simp] theorem clearEstimate_code : s.clearEstimate.code = s.code := rfl
@[simp] theorem clearEstimate_heap : s.clearEstimate.heap = s.heap := rfl
@[simp] theorem clearEstimate_stack : s.clearEstimate.stack = s.stack := rfl
@[simp] theorem clearEstimate_pkAcc : s.clearEstimate.pkAcc = s.pkAcc := rfl
@[simp] theorem clearEstimate_pkN : s.clearEstimate.pkN = s.pkN := rfl
@[simp] theorem clearEstimate_upBuf : s.clearEstimate.upBuf = s.upBuf := rfl
@[simp] theorem clearEstimate_upN : s.clearEstimate.upN = s.upN := rfl
@[simp] theorem clearEstimate_upEos : s.clearEstimate.upEos = s.upEos := rfl
@[simp] theorem clearEstimate_upBytes : s.clearEstimate.upBytes = s.upBytes := rfl
@[simp] theorem clearEstimate_curCmd : s.clearEstimate.curCmd = s.curCmd := rfl
@[simp] theorem clearEstimate_k : s.clearEstimate.k = s.k := rfl
@[simp] theorem clearEstimate_inQ : s.clearEstimate.inQ = s.inQ := rfl
@[simp] theorem clearEstimate_outQ : s.clearEstimate.outQ = s.outQ := rfl
@[simp] theorem clearEstimate_agenda : s.clearEstimate.agenda = s.agenda := rfl
@[simp] theorem clearEstimate_draws : s.clearEstimate.draws = s.draws := rfl
@[simp] theorem clearEstimate_rdata : s.clearEstimate.rdata = s.rdata := rfl
@[simp] theorem clearEstimate_popped : s.clearEstimate.popped = s.popped := rfl

/-! The start of `CountPass()` (R91) -/

@[simp] theorem clearCounts_ie : s.clearCounts.ie = s.ie := rfl
@[simp] theorem clearCounts_busy : s.clearCounts.busy = s.busy := rfl
@[simp] theorem clearCounts_done : s.clearCounts.done = s.done := rfl
@[simp] theorem clearCounts_err : s.clearCounts.err = s.err := rfl
@[simp] theorem clearCounts_gated : s.clearCounts.gated = s.gated := rfl
@[simp] theorem clearCounts_treeValid : s.clearCounts.treeValid = s.treeValid := rfl
@[simp] theorem clearCounts_codesValid : s.clearCounts.codesValid = s.codesValid := rfl
@[simp] theorem clearCounts_estValid : s.clearCounts.estValid = s.estValid := rfl
@[simp] theorem clearCounts_treeDecoded : s.clearCounts.treeDecoded = s.treeDecoded := rfl
@[simp] theorem clearCounts_cmdDropped : s.clearCounts.cmdDropped = s.cmdDropped := rfl
@[simp] theorem clearCounts_phase : s.clearCounts.phase = s.phase := rfl
@[simp] theorem clearCounts_data : s.clearCounts.data = s.data := rfl
@[simp] theorem clearCounts_error : s.clearCounts.error = s.error := rfl
@[simp] theorem clearCounts_errInfo : s.clearCounts.errInfo = s.errInfo := rfl
@[simp] theorem clearCounts_total : s.clearCounts.total = 0 := rfl
@[simp] theorem clearCounts_hdrBits : s.clearCounts.hdrBits = s.hdrBits := rfl
@[simp] theorem clearCounts_estOrig : s.clearCounts.estOrig = s.estOrig := rfl
@[simp] theorem clearCounts_estComp : s.clearCounts.estComp = s.estComp := rfl
@[simp] theorem clearCounts_result : s.clearCounts.result = s.result := rfl
@[simp] theorem clearCounts_codeLen : s.clearCounts.codeLen = s.codeLen := rfl
@[simp] theorem clearCounts_nodeCount : s.clearCounts.nodeCount = s.nodeCount := rfl
@[simp] theorem clearCounts_root : s.clearCounts.root = s.root := rfl
@[simp] theorem clearCounts_freq : s.clearCounts.freq = freqZero := rfl
@[simp] theorem clearCounts_node : s.clearCounts.node = s.node := rfl
@[simp] theorem clearCounts_code : s.clearCounts.code = s.code := rfl
@[simp] theorem clearCounts_heap : s.clearCounts.heap = s.heap := rfl
@[simp] theorem clearCounts_stack : s.clearCounts.stack = s.stack := rfl
@[simp] theorem clearCounts_pkAcc : s.clearCounts.pkAcc = s.pkAcc := rfl
@[simp] theorem clearCounts_pkN : s.clearCounts.pkN = s.pkN := rfl
@[simp] theorem clearCounts_upBuf : s.clearCounts.upBuf = s.upBuf := rfl
@[simp] theorem clearCounts_upN : s.clearCounts.upN = s.upN := rfl
@[simp] theorem clearCounts_upEos : s.clearCounts.upEos = s.upEos := rfl
@[simp] theorem clearCounts_upBytes : s.clearCounts.upBytes = s.upBytes := rfl
@[simp] theorem clearCounts_curCmd : s.clearCounts.curCmd = s.curCmd := rfl
@[simp] theorem clearCounts_k : s.clearCounts.k = s.k := rfl
@[simp] theorem clearCounts_inQ : s.clearCounts.inQ = s.inQ := rfl
@[simp] theorem clearCounts_outQ : s.clearCounts.outQ = s.outQ := rfl
@[simp] theorem clearCounts_agenda : s.clearCounts.agenda = s.agenda := rfl
@[simp] theorem clearCounts_draws : s.clearCounts.draws = s.draws := rfl
@[simp] theorem clearCounts_rdata : s.clearCounts.rdata = s.rdata := rfl
@[simp] theorem clearCounts_popped : s.clearCounts.popped = s.popped := rfl

/-! One byte counted (R91, R92) -/

@[simp] theorem countByte_ie (b : Byte) : (s.countByte b).ie = s.ie := rfl
@[simp] theorem countByte_busy (b : Byte) : (s.countByte b).busy = s.busy := rfl
@[simp] theorem countByte_done (b : Byte) : (s.countByte b).done = s.done := rfl
@[simp] theorem countByte_err (b : Byte) : (s.countByte b).err = s.err := rfl
@[simp] theorem countByte_gated (b : Byte) : (s.countByte b).gated = s.gated := rfl
@[simp] theorem countByte_treeValid (b : Byte) : (s.countByte b).treeValid = s.treeValid := rfl
@[simp] theorem countByte_codesValid (b : Byte) : (s.countByte b).codesValid = s.codesValid := rfl
@[simp] theorem countByte_estValid (b : Byte) : (s.countByte b).estValid = s.estValid := rfl
@[simp] theorem countByte_treeDecoded (b : Byte) : (s.countByte b).treeDecoded = s.treeDecoded := rfl
@[simp] theorem countByte_cmdDropped (b : Byte) : (s.countByte b).cmdDropped = s.cmdDropped := rfl
@[simp] theorem countByte_phase (b : Byte) : (s.countByte b).phase = s.phase := rfl
@[simp] theorem countByte_data (b : Byte) : (s.countByte b).data = s.data := rfl
@[simp] theorem countByte_error (b : Byte) : (s.countByte b).error = s.error := rfl
@[simp] theorem countByte_errInfo (b : Byte) : (s.countByte b).errInfo = s.errInfo := rfl
@[simp] theorem countByte_total (b : Byte) : (s.countByte b).total = s.total + 1 := rfl
@[simp] theorem countByte_hdrBits (b : Byte) : (s.countByte b).hdrBits = s.hdrBits := rfl
@[simp] theorem countByte_estOrig (b : Byte) : (s.countByte b).estOrig = s.estOrig := rfl
@[simp] theorem countByte_estComp (b : Byte) : (s.countByte b).estComp = s.estComp := rfl
@[simp] theorem countByte_result (b : Byte) : (s.countByte b).result = s.result := rfl
@[simp] theorem countByte_codeLen (b : Byte) : (s.countByte b).codeLen = s.codeLen := rfl
@[simp] theorem countByte_nodeCount (b : Byte) : (s.countByte b).nodeCount = s.nodeCount := rfl
@[simp] theorem countByte_root (b : Byte) : (s.countByte b).root = s.root := rfl
@[simp] theorem countByte_freq (b : Byte) : (s.countByte b).freq = freqSet s.freq b.toNat (freqAt s.freq b.toNat + 1) := rfl
@[simp] theorem countByte_node (b : Byte) : (s.countByte b).node = s.node := rfl
@[simp] theorem countByte_code (b : Byte) : (s.countByte b).code = s.code := rfl
@[simp] theorem countByte_heap (b : Byte) : (s.countByte b).heap = s.heap := rfl
@[simp] theorem countByte_stack (b : Byte) : (s.countByte b).stack = s.stack := rfl
@[simp] theorem countByte_pkAcc (b : Byte) : (s.countByte b).pkAcc = s.pkAcc := rfl
@[simp] theorem countByte_pkN (b : Byte) : (s.countByte b).pkN = s.pkN := rfl
@[simp] theorem countByte_upBuf (b : Byte) : (s.countByte b).upBuf = s.upBuf := rfl
@[simp] theorem countByte_upN (b : Byte) : (s.countByte b).upN = s.upN := rfl
@[simp] theorem countByte_upEos (b : Byte) : (s.countByte b).upEos = s.upEos := rfl
@[simp] theorem countByte_upBytes (b : Byte) : (s.countByte b).upBytes = s.upBytes := rfl
@[simp] theorem countByte_curCmd (b : Byte) : (s.countByte b).curCmd = s.curCmd := rfl
@[simp] theorem countByte_k (b : Byte) : (s.countByte b).k = s.k := rfl
@[simp] theorem countByte_inQ (b : Byte) : (s.countByte b).inQ = s.inQ := rfl
@[simp] theorem countByte_outQ (b : Byte) : (s.countByte b).outQ = s.outQ := rfl
@[simp] theorem countByte_agenda (b : Byte) : (s.countByte b).agenda = s.agenda := rfl
@[simp] theorem countByte_draws (b : Byte) : (s.countByte b).draws = s.draws := rfl
@[simp] theorem countByte_rdata (b : Byte) : (s.countByte b).rdata = s.rdata := rfl
@[simp] theorem countByte_popped (b : Byte) : (s.countByte b).popped = s.popped := rfl

/-! The work of CLEAR (R90) -/

@[simp] theorem clearAll_ie : s.clearAll.ie = s.ie := rfl
@[simp] theorem clearAll_busy : s.clearAll.busy = s.busy := rfl
@[simp] theorem clearAll_done : s.clearAll.done = s.done := rfl
@[simp] theorem clearAll_err : s.clearAll.err = s.err := rfl
@[simp] theorem clearAll_gated : s.clearAll.gated = s.gated := rfl
@[simp] theorem clearAll_treeValid : s.clearAll.treeValid = s.treeValid := rfl
@[simp] theorem clearAll_codesValid : s.clearAll.codesValid = s.codesValid := rfl
@[simp] theorem clearAll_estValid : s.clearAll.estValid = s.estValid := rfl
@[simp] theorem clearAll_treeDecoded : s.clearAll.treeDecoded = s.treeDecoded := rfl
@[simp] theorem clearAll_cmdDropped : s.clearAll.cmdDropped = s.cmdDropped := rfl
@[simp] theorem clearAll_phase : s.clearAll.phase = s.phase := rfl
@[simp] theorem clearAll_data : s.clearAll.data = s.data := rfl
@[simp] theorem clearAll_error : s.clearAll.error = s.error := rfl
@[simp] theorem clearAll_errInfo : s.clearAll.errInfo = s.errInfo := rfl
@[simp] theorem clearAll_total : s.clearAll.total = 0 := rfl
@[simp] theorem clearAll_hdrBits : s.clearAll.hdrBits = 0 := rfl
@[simp] theorem clearAll_estOrig : s.clearAll.estOrig = 0 := rfl
@[simp] theorem clearAll_estComp : s.clearAll.estComp = 0 := rfl
@[simp] theorem clearAll_result : s.clearAll.result = 0 := rfl
@[simp] theorem clearAll_codeLen : s.clearAll.codeLen = 0 := rfl
@[simp] theorem clearAll_nodeCount : s.clearAll.nodeCount = 0 := rfl
@[simp] theorem clearAll_root : s.clearAll.root = 0 := rfl
@[simp] theorem clearAll_freq : s.clearAll.freq = freqZero := rfl
@[simp] theorem clearAll_node : s.clearAll.node = s.node := rfl
@[simp] theorem clearAll_code : s.clearAll.code = s.code := rfl
@[simp] theorem clearAll_heap : s.clearAll.heap = s.heap := rfl
@[simp] theorem clearAll_stack : s.clearAll.stack = s.stack := rfl
@[simp] theorem clearAll_pkAcc : s.clearAll.pkAcc = 0 := rfl
@[simp] theorem clearAll_pkN : s.clearAll.pkN = 0 := rfl
@[simp] theorem clearAll_upBuf : s.clearAll.upBuf = 0 := rfl
@[simp] theorem clearAll_upN : s.clearAll.upN = 0 := rfl
@[simp] theorem clearAll_upEos : s.clearAll.upEos = false := rfl
@[simp] theorem clearAll_upBytes : s.clearAll.upBytes = 0 := rfl
@[simp] theorem clearAll_curCmd : s.clearAll.curCmd = s.curCmd := rfl
@[simp] theorem clearAll_k : s.clearAll.k = s.k := rfl
@[simp] theorem clearAll_inQ : s.clearAll.inQ = s.inQ := rfl
@[simp] theorem clearAll_outQ : s.clearAll.outQ = s.outQ := rfl
@[simp] theorem clearAll_agenda : s.clearAll.agenda = s.agenda := rfl
@[simp] theorem clearAll_draws : s.clearAll.draws = s.draws := rfl
@[simp] theorem clearAll_rdata : s.clearAll.rdata = s.rdata := rfl
@[simp] theorem clearAll_popped : s.clearAll.popped = s.popped := rfl

/-! `BuildTree()` (R104) -/

@[simp] theorem buildTree_ie : s.buildTree.ie = s.ie := rfl
@[simp] theorem buildTree_busy : s.buildTree.busy = s.busy := rfl
@[simp] theorem buildTree_done : s.buildTree.done = s.done := rfl
@[simp] theorem buildTree_err : s.buildTree.err = s.err := rfl
@[simp] theorem buildTree_gated : s.buildTree.gated = s.gated := rfl
@[simp] theorem buildTree_treeValid : s.buildTree.treeValid = s.treeValid := rfl
@[simp] theorem buildTree_codesValid : s.buildTree.codesValid = s.codesValid := rfl
@[simp] theorem buildTree_estValid : s.buildTree.estValid = s.estValid := rfl
@[simp] theorem buildTree_treeDecoded : s.buildTree.treeDecoded = s.treeDecoded := rfl
@[simp] theorem buildTree_cmdDropped : s.buildTree.cmdDropped = s.cmdDropped := rfl
@[simp] theorem buildTree_phase : s.buildTree.phase = s.phase := rfl
@[simp] theorem buildTree_data : s.buildTree.data = s.data := rfl
@[simp] theorem buildTree_error : s.buildTree.error = s.error := rfl
@[simp] theorem buildTree_errInfo : s.buildTree.errInfo = s.errInfo := rfl
@[simp] theorem buildTree_total : s.buildTree.total = s.total := rfl
@[simp] theorem buildTree_hdrBits : s.buildTree.hdrBits = s.hdrBits := rfl
@[simp] theorem buildTree_estOrig : s.buildTree.estOrig = s.estOrig := rfl
@[simp] theorem buildTree_estComp : s.buildTree.estComp = s.estComp := rfl
@[simp] theorem buildTree_result : s.buildTree.result = s.result := rfl
@[simp] theorem buildTree_codeLen : s.buildTree.codeLen = s.codeLen := rfl
@[simp] theorem buildTree_nodeCount : s.buildTree.nodeCount = BitVec.ofNat 10 (2 * (leafEntries s.freq).length - 1) := rfl
@[simp] theorem buildTree_root : s.buildTree.root = (treePlan s.freq).2 := rfl
@[simp] theorem buildTree_freq : s.buildTree.freq = s.freq := rfl
@[simp] theorem buildTree_node : s.buildTree.node = writeNodes (treePlan s.freq).1 (nodesInvalid s.node) := rfl
@[simp] theorem buildTree_code : s.buildTree.code = s.code := rfl
@[simp] theorem buildTree_heap : s.buildTree.heap = [] := rfl
@[simp] theorem buildTree_stack : s.buildTree.stack = s.stack := rfl
@[simp] theorem buildTree_pkAcc : s.buildTree.pkAcc = s.pkAcc := rfl
@[simp] theorem buildTree_pkN : s.buildTree.pkN = s.pkN := rfl
@[simp] theorem buildTree_upBuf : s.buildTree.upBuf = s.upBuf := rfl
@[simp] theorem buildTree_upN : s.buildTree.upN = s.upN := rfl
@[simp] theorem buildTree_upEos : s.buildTree.upEos = s.upEos := rfl
@[simp] theorem buildTree_upBytes : s.buildTree.upBytes = s.upBytes := rfl
@[simp] theorem buildTree_curCmd : s.buildTree.curCmd = s.curCmd := rfl
@[simp] theorem buildTree_k : s.buildTree.k = s.k := rfl
@[simp] theorem buildTree_inQ : s.buildTree.inQ = s.inQ := rfl
@[simp] theorem buildTree_outQ : s.buildTree.outQ = s.outQ := rfl
@[simp] theorem buildTree_agenda : s.buildTree.agenda = s.agenda := rfl
@[simp] theorem buildTree_draws : s.buildTree.draws = s.draws := rfl
@[simp] theorem buildTree_rdata : s.buildTree.rdata = s.rdata := rfl
@[simp] theorem buildTree_popped : s.buildTree.popped = s.popped := rfl

/-! `Estimate(F)` (R123) -/

@[simp] theorem estimate_ie (force : Bool) : (s.estimate force).ie = s.ie := rfl
@[simp] theorem estimate_busy (force : Bool) : (s.estimate force).busy = s.busy := rfl
@[simp] theorem estimate_done (force : Bool) : (s.estimate force).done = s.done := rfl
@[simp] theorem estimate_err (force : Bool) : (s.estimate force).err = s.err := rfl
@[simp] theorem estimate_gated (force : Bool) : (s.estimate force).gated = gateOf force (8 * s.total.toNat) (compressedSize s) := rfl
@[simp] theorem estimate_treeValid (force : Bool) : (s.estimate force).treeValid = s.treeValid := rfl
@[simp] theorem estimate_codesValid (force : Bool) : (s.estimate force).codesValid = s.codesValid := rfl
@[simp] theorem estimate_estValid (force : Bool) : (s.estimate force).estValid = true := rfl
@[simp] theorem estimate_treeDecoded (force : Bool) : (s.estimate force).treeDecoded = s.treeDecoded := rfl
@[simp] theorem estimate_cmdDropped (force : Bool) : (s.estimate force).cmdDropped = s.cmdDropped := rfl
@[simp] theorem estimate_phase (force : Bool) : (s.estimate force).phase = s.phase := rfl
@[simp] theorem estimate_data (force : Bool) : (s.estimate force).data = s.data := rfl
@[simp] theorem estimate_error (force : Bool) : (s.estimate force).error = s.error := rfl
@[simp] theorem estimate_errInfo (force : Bool) : (s.estimate force).errInfo = s.errInfo := rfl
@[simp] theorem estimate_total (force : Bool) : (s.estimate force).total = s.total := rfl
@[simp] theorem estimate_hdrBits (force : Bool) : (s.estimate force).hdrBits = wordOf (headerSize s.code) := rfl
@[simp] theorem estimate_estOrig (force : Bool) : (s.estimate force).estOrig = BitVec.ofNat 64 (8 * s.total.toNat) := rfl
@[simp] theorem estimate_estComp (force : Bool) : (s.estimate force).estComp = BitVec.ofNat 64 (compressedSize s) := rfl
@[simp] theorem estimate_result (force : Bool) : (s.estimate force).result = s.result := rfl
@[simp] theorem estimate_codeLen (force : Bool) : (s.estimate force).codeLen = s.codeLen := rfl
@[simp] theorem estimate_nodeCount (force : Bool) : (s.estimate force).nodeCount = s.nodeCount := rfl
@[simp] theorem estimate_root (force : Bool) : (s.estimate force).root = s.root := rfl
@[simp] theorem estimate_freq (force : Bool) : (s.estimate force).freq = s.freq := rfl
@[simp] theorem estimate_node (force : Bool) : (s.estimate force).node = s.node := rfl
@[simp] theorem estimate_code (force : Bool) : (s.estimate force).code = s.code := rfl
@[simp] theorem estimate_heap (force : Bool) : (s.estimate force).heap = s.heap := rfl
@[simp] theorem estimate_stack (force : Bool) : (s.estimate force).stack = s.stack := rfl
@[simp] theorem estimate_pkAcc (force : Bool) : (s.estimate force).pkAcc = s.pkAcc := rfl
@[simp] theorem estimate_pkN (force : Bool) : (s.estimate force).pkN = s.pkN := rfl
@[simp] theorem estimate_upBuf (force : Bool) : (s.estimate force).upBuf = s.upBuf := rfl
@[simp] theorem estimate_upN (force : Bool) : (s.estimate force).upN = s.upN := rfl
@[simp] theorem estimate_upEos (force : Bool) : (s.estimate force).upEos = s.upEos := rfl
@[simp] theorem estimate_upBytes (force : Bool) : (s.estimate force).upBytes = s.upBytes := rfl
@[simp] theorem estimate_curCmd (force : Bool) : (s.estimate force).curCmd = s.curCmd := rfl
@[simp] theorem estimate_k (force : Bool) : (s.estimate force).k = s.k := rfl
@[simp] theorem estimate_inQ (force : Bool) : (s.estimate force).inQ = s.inQ := rfl
@[simp] theorem estimate_outQ (force : Bool) : (s.estimate force).outQ = s.outQ := rfl
@[simp] theorem estimate_agenda (force : Bool) : (s.estimate force).agenda = s.agenda := rfl
@[simp] theorem estimate_draws (force : Bool) : (s.estimate force).draws = s.draws := rfl
@[simp] theorem estimate_rdata (force : Bool) : (s.estimate force).rdata = s.rdata := rfl
@[simp] theorem estimate_popped (force : Bool) : (s.estimate force).popped = s.popped := rfl

/-! A write of `STATUS` (R21, R87) -/

@[simp] theorem statusWrite_ie (v : Word) : (State.statusWrite v s).ie = s.ie := rfl
@[simp] theorem statusWrite_busy (v : Word) : (State.statusWrite v s).busy = s.busy := rfl
@[simp] theorem statusWrite_done (v : Word) : (State.statusWrite v s).done = (s.done && !v.getLsbD 1) := rfl
@[simp] theorem statusWrite_err (v : Word) : (State.statusWrite v s).err = (s.err && !v.getLsbD 2) := rfl
@[simp] theorem statusWrite_gated (v : Word) : (State.statusWrite v s).gated = s.gated := rfl
@[simp] theorem statusWrite_treeValid (v : Word) : (State.statusWrite v s).treeValid = s.treeValid := rfl
@[simp] theorem statusWrite_codesValid (v : Word) : (State.statusWrite v s).codesValid = s.codesValid := rfl
@[simp] theorem statusWrite_estValid (v : Word) : (State.statusWrite v s).estValid = s.estValid := rfl
@[simp] theorem statusWrite_treeDecoded (v : Word) : (State.statusWrite v s).treeDecoded = s.treeDecoded := rfl
@[simp] theorem statusWrite_cmdDropped (v : Word) : (State.statusWrite v s).cmdDropped = (s.cmdDropped && !v.getLsbD 8) := rfl
@[simp] theorem statusWrite_phase (v : Word) : (State.statusWrite v s).phase = s.phase := rfl
@[simp] theorem statusWrite_data (v : Word) : (State.statusWrite v s).data = s.data := rfl
@[simp] theorem statusWrite_error (v : Word) : (State.statusWrite v s).error = s.error := rfl
@[simp] theorem statusWrite_errInfo (v : Word) : (State.statusWrite v s).errInfo = s.errInfo := rfl
@[simp] theorem statusWrite_total (v : Word) : (State.statusWrite v s).total = s.total := rfl
@[simp] theorem statusWrite_hdrBits (v : Word) : (State.statusWrite v s).hdrBits = s.hdrBits := rfl
@[simp] theorem statusWrite_estOrig (v : Word) : (State.statusWrite v s).estOrig = s.estOrig := rfl
@[simp] theorem statusWrite_estComp (v : Word) : (State.statusWrite v s).estComp = s.estComp := rfl
@[simp] theorem statusWrite_result (v : Word) : (State.statusWrite v s).result = s.result := rfl
@[simp] theorem statusWrite_codeLen (v : Word) : (State.statusWrite v s).codeLen = s.codeLen := rfl
@[simp] theorem statusWrite_nodeCount (v : Word) : (State.statusWrite v s).nodeCount = s.nodeCount := rfl
@[simp] theorem statusWrite_root (v : Word) : (State.statusWrite v s).root = s.root := rfl
@[simp] theorem statusWrite_freq (v : Word) : (State.statusWrite v s).freq = s.freq := rfl
@[simp] theorem statusWrite_node (v : Word) : (State.statusWrite v s).node = s.node := rfl
@[simp] theorem statusWrite_code (v : Word) : (State.statusWrite v s).code = s.code := rfl
@[simp] theorem statusWrite_heap (v : Word) : (State.statusWrite v s).heap = s.heap := rfl
@[simp] theorem statusWrite_stack (v : Word) : (State.statusWrite v s).stack = s.stack := rfl
@[simp] theorem statusWrite_pkAcc (v : Word) : (State.statusWrite v s).pkAcc = s.pkAcc := rfl
@[simp] theorem statusWrite_pkN (v : Word) : (State.statusWrite v s).pkN = s.pkN := rfl
@[simp] theorem statusWrite_upBuf (v : Word) : (State.statusWrite v s).upBuf = s.upBuf := rfl
@[simp] theorem statusWrite_upN (v : Word) : (State.statusWrite v s).upN = s.upN := rfl
@[simp] theorem statusWrite_upEos (v : Word) : (State.statusWrite v s).upEos = s.upEos := rfl
@[simp] theorem statusWrite_upBytes (v : Word) : (State.statusWrite v s).upBytes = s.upBytes := rfl
@[simp] theorem statusWrite_curCmd (v : Word) : (State.statusWrite v s).curCmd = s.curCmd := rfl
@[simp] theorem statusWrite_k (v : Word) : (State.statusWrite v s).k = s.k := rfl
@[simp] theorem statusWrite_inQ (v : Word) : (State.statusWrite v s).inQ = s.inQ := rfl
@[simp] theorem statusWrite_outQ (v : Word) : (State.statusWrite v s).outQ = s.outQ := rfl
@[simp] theorem statusWrite_agenda (v : Word) : (State.statusWrite v s).agenda = s.agenda := rfl
@[simp] theorem statusWrite_draws (v : Word) : (State.statusWrite v s).draws = s.draws := rfl
@[simp] theorem statusWrite_rdata (v : Word) : (State.statusWrite v s).rdata = s.rdata := rfl
@[simp] theorem statusWrite_popped (v : Word) : (State.statusWrite v s).popped = s.popped := rfl

end Sys2Proof.Machine
end

