-- ==== Sys2Proof/Laws/Packer.lean ====
section
/-! SUPPORT. The bit packer: what pushing bits and flushing do, once and for all (44_header_codec.md rules R110, R111). -/

namespace Sys2Proof.Machine

theorem shiftIn_toNat (acc : BitVec 8) (b : Bool) : (shiftIn acc b).toNat = (2 * acc.toNat + b.toNat) % 256 := by
  unfold shiftIn
  rw [BitVec.toNat_concat, BitVec.toNat_setWidth]
  have := acc.isLt
  have := Bool.toNat_lt b
  omega

/-- The bits pending after one more: the old ones and the new one, read in order. -/
theorem msbBits_shiftIn (n : Nat) (hn : n < 8) (acc : BitVec 8) (b : Bool) :
    msbBits (n + 1) (shiftIn acc b).toNat = msbBits n acc.toNat ++ [b] := by
  rw [shiftIn_toNat]
  have h8 : msbBits (n + 1) ((2 * acc.toNat + b.toNat) % 256) = msbBits (n + 1) (2 * acc.toNat + b.toNat) := by
    apply msbBits_congr
    rw [show (256 : Nat) = 2 ^ (n + 1) * 2 ^ (7 - n) by rw [← Nat.pow_add, show n + 1 + (7 - n) = 8 by omega]]
    exact Nat.mod_mul_right_mod _ _ _
  rw [h8, msbBits_snoc]
  have hb := Bool.toNat_lt b
  have h1 : (2 * acc.toNat + b.toNat) / 2 = acc.toNat := by omega
  have h2 : (2 * acc.toNat + b.toNat).testBit 0 = b := by
    rw [Nat.testBit_zero]; cases b <;> simp
  rw [h1, h2]

/-- What `PushBit` does: at most one byte leaves, and the stream grows by the bit (R110). -/
theorem pushBit_spec (s : State) (b : Bool) :
    ∃ bytes acc n, s.pushBit b = { s with outQ := s.outQ ++ byteBeats bytes, pkAcc := acc, pkN := n } ∧
      s.pending ++ [b] = streamBits bytes ++ msbBits n.val acc.toNat := by
  unfold State.pushBit
  by_cases h : s.pkN = 7
  · refine ⟨[shiftIn s.pkAcc b], 0, 0, by simp [h, State.outBeat, State.clearPacker], ?_⟩
    have := msbBits_shiftIn 7 (by omega) s.pkAcc b
    simp only [State.pending, h, streamBits_cons, streamBits_nil, byteBits, List.append_nil]
    simpa using this.symm
  · refine ⟨[], shiftIn s.pkAcc b, s.pkN + 1, by simp [h], ?_⟩
    have hn : (s.pkN + 1 : Fin 8).val = s.pkN.val + 1 := by
      have h7 : s.pkN.val ≠ 7 := fun e => h (Fin.ext e)
      have := s.pkN.isLt
      rw [Fin.val_add]; simp; omega
    rw [hn, msbBits_shiftIn _ s.pkN.isLt]
    simp [State.pending]

/-- What pushing bits does (R110): whole bytes leave in order, only `OUT_Q` and the packer change, and the stream grows by
exactly the bits pushed. -/
theorem pushBits_spec (s : State) (p : List Bool) :
    ∃ bytes acc n, s.pushBits p = { s with outQ := s.outQ ++ byteBeats bytes, pkAcc := acc, pkN := n } ∧
      s.pending ++ p = streamBits bytes ++ msbBits n.val acc.toNat := by
  induction p generalizing s with
  | nil => exact ⟨[], s.pkAcc, s.pkN, by simp [State.pushBits], by simp [State.pending]⟩
  | cons b p ih =>
    obtain ⟨b1, a1, n1, h1, e1⟩ := pushBit_spec s b
    obtain ⟨b2, a2, n2, h2, e2⟩ := ih (s.pushBit b)
    refine ⟨b1 ++ b2, a2, n2, ?_, ?_⟩
    · have : s.pushBits (b :: p) = (s.pushBit b).pushBits p := rfl
      rw [this, h2, h1, byteBeats_append, List.append_assoc]
    · have hp : (s.pushBit b).pending = msbBits n1.val a1.toNat := by rw [h1]; rfl
      rw [hp] at e2
      rw [streamBits_append, List.append_assoc, ← e2, ← List.append_assoc, ← e1]
      simp

/-- Pushing bits changes only `OUT_Q` and the packer. -/
theorem pushBits_frame (s : State) (p : List Bool) :
    s.pushBits p =
      { s with outQ := (s.pushBits p).outQ, pkAcc := (s.pushBits p).pkAcc, pkN := (s.pushBits p).pkN } := by
  obtain ⟨bytes, acc, n, h, -⟩ := pushBits_spec s p
  rw [h]

theorem pushBits_append (s : State) (p q : List Bool) : s.pushBits (p ++ q) = (s.pushBits p).pushBits q := by
  simp [State.pushBits]

/-- The last byte of a flush: the pending bits, and zeros below them (R59, R111). -/
theorem msbBits_shiftLeft (n : Nat) (hn : n < 8) (acc : BitVec 8) :
    msbBits 8 (acc <<< (8 - n)).toNat = msbBits n acc.toNat ++ List.replicate (8 - n) false := by
  have hz : ∀ k, msbBits k 0 = List.replicate k false := by
    intro k; unfold msbBits
    rw [List.eq_replicate_iff]; simp
  rw [BitVec.toNat_shiftLeft, Nat.shiftLeft_eq]
  rw [msbBits_congr (w := acc.toNat * 2 ^ (8 - n)) (by simp)]
  obtain ⟨m, hm⟩ : ∃ m, 8 - n = m := ⟨_, rfl⟩
  have h8 : msbBits 8 (acc.toNat * 2 ^ (8 - n)) = msbBits (n + m) (acc.toNat * 2 ^ m) := by
    rw [hm, show n + m = 8 by omega]
  rw [h8, msbBits_add, Nat.mul_div_cancel _ (Nat.two_pow_pos _), hm, ← hz]
  congr 1
  exact msbBits_congr (by simp)

/-- What `Flush()` does (R111): the pending bits leave, padded with zeros to a whole byte, then `End`. -/
theorem flushPacker_spec (s : State) :
    ∃ bytes, s.flushPacker =
        { s with outQ := s.outQ ++ byteBeats bytes ++ [.endBeat], pkAcc := 0, pkN := 0 } ∧
      streamBits bytes = s.pending ++ List.replicate ((8 - s.pkN.val) % 8) false := by
  unfold State.flushPacker
  by_cases h : s.pkN = 0
  · exact ⟨[], by simp [h, State.outBeat, State.clearPacker], by simp [State.pending, h]⟩
  · refine ⟨[s.pkAcc <<< (8 - s.pkN.val)], by simp [h, State.outBeat, State.clearPacker], ?_⟩
    have h0 : s.pkN.val ≠ 0 := fun e => h (Fin.ext e)
    have := s.pkN.isLt
    rw [Nat.mod_eq_of_lt (by omega), streamBits_cons, streamBits_nil, List.append_nil]
    exact msbBits_shiftLeft _ s.pkN.isLt _

end Sys2Proof.Machine
end

