-- ==== Sys2Proof/Laws/Steps.lean ====
section
/-! SUPPORT. What a transition can do: the meanings by command and point, dispatch, and the bit loop, each said once. -/

namespace Sys2Proof.Machine

/-! ## The meanings -/

/-- The procedure of each command. -/
def procOf : Instr → Point → State → Result
  | .nop => nopProc
  | .clear => clearProc
  | .count => countProc
  | .loadFreq idx => loadFreqProc idx
  | .readFreq idx => readFreqProc idx
  | .buildTree => buildTreeProc
  | .readNode wsel idx => readNodeProc wsel idx
  | .genCodes => genCodesProc
  | .readCode wsel idx => readCodeProc wsel idx
  | .estimate force => estimateProc force
  | .writeHeader => writeHeaderProc
  | .encode => encodeProc
  | .flush => flushProc
  | .compress force => compressProc force
  | .decompress => decompressProc

theorem exec_eq (i : Instr) (s : State) : exec i s = command i (procOf i) s := by cases i <;> rfl

/-- A running command takes its procedure's next step (R61). -/
theorem exec_running (i : Instr) (s : State) (p : Point) (h : s.standsAt p) : exec i s = procOf i p s := by
  rw [exec_eq]; simp [command, h.1, h.2]

/-- An idle core's command is dispatched (R83). -/
theorem exec_idle (i : Instr) (s : State) (h : s.busy = false) : exec i s = .next (dispatchLegal i s) := by
  rw [exec_eq]; simp [command, h]

/-- Every procedure ends at the same two points (R84, R136). -/
theorem procOf_finishing (i : Instr) (s : State) : procOf i .finishing s = .next s.finish := by cases i <;> rfl

theorem procOf_raising (i : Instr) (code : ErrCode) (info : Word) (s : State) :
    procOf i (.raising code info) s = .next (s.raiseError code info) := by cases i <;> rfl

/-! ## Dispatch (R83) -/

/-- Dispatch of a legal word: rejected for its range, rejected for its prerequisite, or accepted. -/
theorem dispatchLegal_cases (i : Instr) (s : State) :
    (inRange i = false ∧ dispatchLegal i s = s.beginDispatch.reject .range (encode i)) ∨
      (inRange i = true ∧ prerequisite i s = false ∧ dispatchLegal i s = s.beginDispatch.reject .sequence (encode i)) ∨
      (inRange i = true ∧ prerequisite i s = true ∧ dispatchLegal i s = accept i s.beginDispatch) := by
  unfold dispatchLegal
  cases h1 : inRange i <;> cases h2 : prerequisite i s <;> simp

/-- The range check of dispatch is the well-formedness of the command (R72). -/
theorem inRange_eq_wellFormed (i : Instr) : inRange i = i.wellFormed := by
  cases i <;> simp [inRange, Instr.wellFormed, byteIndexOk, symbolIndexOk, nodeIndexOk, nodeWordOk, codeWordOk, Bool.and_comm]

/-- The start of a command changes flags only (R44). -/
theorem atStart_frame (i : Instr) (s : State) :
    atStart i s =
      { s with
        treeValid := (atStart i s).treeValid, treeDecoded := (atStart i s).treeDecoded
        codesValid := (atStart i s).codesValid, estValid := (atStart i s).estValid, gated := (atStart i s).gated } := by
  cases i <;> rfl

/-! ## The bit loop of DECOMPRESS (R113, R118, R130) -/

/-- The point of a bit step. -/
def BitStep.point : BitStep → Point
  | .wants p _ | .stops p _ => p

/-- The state of a bit step. -/
def BitStep.state : BitStep → State
  | .wants _ s | .stops _ s => s

/-- Only these fields may change between s and t while bits are consumed: the tree being read, its registers and flags,
and `OUT_Q`. -/
def BitFrame (s t : State) : Prop :=
  t = { s with
    node := t.node, stack := t.stack, root := t.root, nodeCount := t.nodeCount, hdrBits := t.hdrBits
    treeValid := t.treeValid, treeDecoded := t.treeDecoded, outQ := t.outQ }

theorem BitFrame.refl (s : State) : BitFrame s s := rfl

theorem headerDone_frame (made nb : Nat) (s : State) : BitFrame s (headerDone made nb s).state := by
  unfold headerDone
  dsimp only
  split
  · split <;> exact rfl
  · exact rfl

theorem nextSlot_frame (made nb : Nat) (s : State) : BitFrame s (nextSlot made nb s).state := by
  unfold nextSlot
  split
  · exact rfl
  · exact headerDone_frame made nb s

/-- One bit changes nothing but what `BitFrame` names. -/
theorem onBit_frame (p : Point) (b : Bool) (s : State) : BitFrame s (onBit p b s).state := by
  have trans : ∀ (a c : State), BitFrame s a → BitFrame a c → BitFrame s c := by
    intro a c h1 h2
    unfold BitFrame at *
    rw [h2, h1]
  unfold onBit
  split
  · unfold magicBit
    dsimp only
    split
    · exact rfl
    · split
      · exact trans _ _ (show BitFrame s { s with node := nodesInvalid s.node, stack := [.slot .top] } from rfl)
          (nextSlot_frame _ _ _)
      · exact rfl
  · unfold tagBit
    dsimp only
    split
    · exact rfl
    · split
      · exact rfl
      · unfold makeInternal
        refine trans _ _ ?_ (nextSlot_frame _ _ _)
        exact rfl
  · unfold symBit
    dsimp only
    split
    · exact rfl
    · split
      · exact rfl
      · refine trans _ _ ?_ (nextSlot_frame _ _ _)
        exact rfl
  · unfold walkBit
    dsimp only
    repeat' split
    all_goals exact rfl
  · exact rfl

theorem nextSlot_wants {made nb : Nat} {s s' : State} {p : Point} (h : nextSlot made nb s = .wants p s') : p.asks = true := by
  unfold nextSlot at h
  split at h
  · cases h; rfl
  · unfold headerDone at h
    dsimp only at h
    split at h
    · split at h <;> cases h
    · cases h

/-- A bit leads to another point that asks for a bit, or the loop stops. -/
theorem onBit_wants {p p' : Point} {b : Bool} {s s' : State} (h : onBit p b s = .wants p' s') : p'.asks = true := by
  unfold onBit at h
  split at h
  · unfold magicBit at h
    dsimp only at h
    split at h
    · cases h; rfl
    · split at h
      · exact nextSlot_wants h
      · cases h
  · unfold tagBit at h
    dsimp only at h
    split at h
    · cases h
    · split at h
      · cases h; rfl
      · exact nextSlot_wants h
  · unfold symBit at h
    dsimp only at h
    split at h
    · cases h; rfl
    · split at h
      · cases h
      · exact nextSlot_wants h
  · unfold walkBit at h
    dsimp only at h
    repeat' split at h
    all_goals first
      | (cases h; rfl)
      | cases h
  · cases h

/-- What the bit loop keeps: if `P` holds of the point and state at each bit asked for and `R` of every state the loop stops
in, then `R` holds of what the loop gives. -/
theorem runBits_induct {P : Point → State → Prop} {R : State → Prop}
    (hwants : ∀ p b s m p' s', P p s → onBit p b { s with upN := m } = .wants p' s' → P p' s')
    (hstops : ∀ p b s m p' s', P p s → onBit p b { s with upN := m } = .stops p' s' → R (s'.suspend p'))
    (hwait : ∀ p s, P p s → s.upEos = false → R (s.suspend p))
    (heos : ∀ p s, P p s → s.upEos = true → R (s.suspend (onEos p s)))
    (n : Nat) (p : Point) (s : State) (h : P p s) : R (runBits n p s) := by
  induction n generalizing p s with
  | zero =>
    unfold runBits
    split
    · exact heos p s h (by assumption)
    · exact hwait p s h (by simpa using ‹¬ s.upEos = true›)
  | succ n ih =>
    unfold runBits
    split
    · rename_i p' s' heq
      exact ih p' s' (hwants p _ s _ p' s' h heq)
    · rename_i p' s' heq
      exact hstops p _ s _ p' s' h heq

/-! ## Host actions -/

/-- Only `TREE_VALID`, `TREE_DECODED`, `CODES_VALID`, `EST_VALID` and `GATED` decide `flagsClear`. -/
theorem clearValid_flagsClear (s : State) : s.clearValid.flagsClear = true := rfl

end Sys2Proof.Machine
end

