-- ==== Sys2Proof/Laws/Parse.lean ====
section
/-! SUPPORT. The header parse: preorder placement, and what finishing a subtree does to the open slots (44_header_codec.md rule R118). -/

namespace Sys2Proof.Machine

theorem ofNat_toNat_lt {m : Nat} (h : m < 1024) : (BitVec.ofNat 10 m : NodeIdx).toNat = m := by
  rw [BitVec.toNat_ofNat]; omega

theorem ofNat_ne {m n : Nat} (hm : m < 1024) (hn : n < 1024) (h : m ≠ n) :
    (BitVec.ofNat 10 m : NodeIdx) ≠ BitVec.ofNat 10 n := by
  intro e
  have := congrArg BitVec.toNat e
  rw [ofNat_toNat_lt hm, ofNat_toNat_lt hn] at this
  exact h this

/-- A placed tree is a tree in `NODE`. -/
theorem HTree.placed_sits (v : Vector Node 513) (t : HTree) (m : Nat) (h : t.placed v m) :
    t.sits v (BitVec.ofNat 10 m) = true := by
  induction t generalizing m with
  | leaf sym => simp [HTree.sits, h.1, h.2.1, h.2.2]
  | node l r hl hr =>
    obtain ⟨h1, h2, h3, h4, h5, h6⟩ := h
    simp [HTree.sits, h1, h2, h3, h4, hl _ h5, hr _ h6]

/-- A placed tree sees only its own entries. -/
theorem HTree.placed_congr (v w : Vector Node 513) (t : HTree) (m : Nat)
    (hw : ∀ j, m ≤ j → j < m + t.size → nodeAt w (BitVec.ofNat 10 j) = nodeAt v (BitVec.ofNat 10 j))
    (h : t.placed v m) : t.placed w m := by
  induction t generalizing m with
  | leaf sym =>
    unfold HTree.placed
    rw [hw m (Nat.le_refl _) (by simp [HTree.size])]
    exact h
  | node l r hl hr =>
    obtain ⟨h1, h2, h3, h4, h5, h6⟩ := h
    unfold HTree.placed
    rw [hw m (Nat.le_refl _) (by simp only [HTree.size]; omega)]
    refine ⟨h1, h2, h3, h4, hl _ ?_ h5, hr _ ?_ h6⟩
    · intro j hj1 hj2; exact hw j (by omega) (by simp only [HTree.size]; omega)
    · intro j hj1 hj2; exact hw j (by omega) (by simp only [HTree.size]; omega)

/-- Every open slot's parent is a node made. -/
theorem Slot.holds_congr {v w : Vector Node 513} {slot : Slot} {stack : List StackEntry} {m : Nat} (n : Nat)
    (h : ParseChain v slot stack m)
    (hw : ∀ j, j < m → nodeAt w (BitVec.ofNat 10 j) = nodeAt v (BitVec.ofNat 10 j)) (hs : slot.holds v n) :
    slot.holds w n := by
  cases h with
  | top => exact hs
  | left slot stack m up link valid inner => simp only [Slot.holds] at hs ⊢; rw [hw m (by omega)]; exact hs
  | right slot stack m l up link valid inner child done =>
    simp only [Slot.holds] at hs ⊢; rw [hw m (by omega)]; exact hs

/-- The parse so far sees of the node whose slot is open only its kind (and, once its left subtree is done, the link to
it); of every other node made, its whole entry. -/
theorem ParseChain.congr {v w : Vector Node 513} {slot : Slot} {stack : List StackEntry} {m : Nat}
    (h : ParseChain v slot stack m) (hm : m ≤ 513)
    (hw : ∀ j, j < m → nodeAt w (BitVec.ofNat 10 j) = nodeAt (linkChild slot (BitVec.ofNat 10 m) v) (BitVec.ofNat 10 j)) :
    ParseChain w slot stack m := by
  have aux : ∀ {slot : Slot} {stack : List StackEntry} {m : Nat}, ParseChain v slot stack m → m ≤ 513 →
      (∀ j, j < m → nodeAt w (BitVec.ofNat 10 j) = nodeAt v (BitVec.ofNat 10 j)) → ParseChain w slot stack m := by
    intro slot stack m h
    induction h with
    | top => intro _ _; exact .top
    | left slot stack m up link valid inner ih =>
      intro hm hw
      have e := hw m (by omega)
      refine .left slot stack m (ih (by omega) (fun j hj => hw j (by omega))) (Slot.holds_congr m up (fun j hj => hw j (by omega)) link) (by rw [e]; exact valid) (by rw [e]; exact inner)
    | right slot stack m l up link valid inner child done ih =>
      intro hm hw
      have e := hw m (by omega)
      refine .right slot stack m l (ih (by omega) (fun j hj => hw j (by omega))) (Slot.holds_congr m up (fun j hj => hw j (by omega)) link) (by rw [e]; exact valid)
        (by rw [e]; exact inner) (by rw [e]; exact child) (HTree.placed_congr v w l (m + 1) (fun j _ _ => hw j (by omega)) done)
  cases h with
  | top => exact .top
  | left slot stack m up link valid inner =>
    have hne : ∀ j, j < m → nodeAt w (BitVec.ofNat 10 j) = nodeAt v (BitVec.ofNat 10 j) := by
      intro j hj
      rw [hw j (by omega)]
      exact nodeAt_nodeSet_ne _ _ _ _ (ofNat_ne (by omega) (by omega) (by omega))
    have hself := hw m (by omega)
    unfold linkChild at hself
    rw [nodeAt_nodeSet_self _ _ _ (by rw [ofNat_toNat_lt (by omega)]; omega)] at hself
    have h1 : ParseChain w slot stack m := aux up (by omega) hne
    refine .left slot stack m h1 (Slot.holds_congr m up hne link) (by rw [hself]; exact valid) (by rw [hself]; exact inner)
  | right slot stack m l up link valid inner child done =>
    have hsz := l.size_pos
    have hne : ∀ j, j < m + 1 + l.size → j ≠ m → nodeAt w (BitVec.ofNat 10 j) = nodeAt v (BitVec.ofNat 10 j) := by
      intro j hj hjm
      rw [hw j (by omega)]
      exact nodeAt_nodeSet_ne _ _ _ _ (ofNat_ne (by omega) (by omega) hjm)
    have hself := hw m (by omega)
    unfold linkChild at hself
    rw [nodeAt_nodeSet_self _ _ _ (by rw [ofNat_toNat_lt (by omega)]; omega)] at hself
    have h1 : ParseChain w slot stack m := aux up (by omega) (fun j hj => hne j (by omega) (by omega))
    refine .right slot stack m l h1
      (Slot.holds_congr m up (fun j hj => hne j (by omega) (by omega)) link) (by rw [hself]; exact valid) (by rw [hself]; exact inner) (by rw [hself]; exact child)
      (HTree.placed_congr v w l (m + 1) (fun j h1 h2 => hne j (by omega) (by omega)) done)

/-- A subtree finished in `slot`: either the whole tree is finished, or the next slot of `STACK` is a right one and the
parse so far goes on from it. -/
theorem ParseChain.close {v : Vector Node 513} {slot : Slot} {stack : List StackEntry} {m : Nat}
    (h : ParseChain v slot stack m) (t : HTree) (hlink : slot.holds v m) (ht : t.placed v m) :
    (stack = [] ∧ ∃ T : HTree, T.placed v 0 ∧ T.size = m + t.size) ∨
      ∃ p rest, stack = .slot (.right p) :: rest ∧ ParseChain v (.right p) rest (m + t.size) := by
  induction h generalizing t with
  | top => left; exact ⟨rfl, t, ht, by omega⟩
  | left slot stack m up link valid inner ih =>
    right
    refine ⟨_, _, rfl, ?_⟩
    exact .right slot stack m t up link valid inner hlink ht
  | right slot stack m l up link valid inner child done ih =>
    have hplaced : (HTree.node l t).placed v m := ⟨valid, inner, child, hlink, done, ht⟩
    rcases ih (.node l t) link hplaced with ⟨h1, T, h2, h3⟩ | ⟨p, rest, h1, h2⟩
    · left; refine ⟨h1, T, h2, ?_⟩; rw [h3]; simp only [HTree.size]; omega
    · right
      refine ⟨p, rest, h1, ?_⟩
      rw [show m + 1 + l.size + t.size = m + (HTree.node l t).size by simp only [HTree.size]; omega]
      exact h2

/-- What linking a child leaves: the slot holds it, and no entry but the parent's changes. -/
theorem linkChild_holds {v : Vector Node 513} {slot : Slot} {stack : List StackEntry} {m : Nat}
    (h : ParseChain v slot stack m) (hm : m ≤ 513) : slot.holds (linkChild slot (BitVec.ofNat 10 m) v) m := by
  cases h with
  | top => rfl
  | left slot stack m up link valid inner =>
    simp only [Slot.holds, linkChild]
    rw [nodeAt_nodeSet_self _ _ _ (by rw [ofNat_toNat_lt (by omega)]; omega)]
  | right slot stack m l up link valid inner child done =>
    have := l.size_pos
    simp only [Slot.holds, linkChild]
    rw [nodeAt_nodeSet_self _ _ _ (by rw [ofNat_toNat_lt (by omega)]; omega)]

end Sys2Proof.Machine
end

