-- ==== Sys2Proof/Laws/Invariant.lean ====
section
/-! SUPPORT. Pieces of the invariant of 10_state.md rule R45: what each kind of transition must show to keep it. -/

namespace Sys2Proof.Machine

/-- The part of the invariant that speaks of the tables and their flags. -/
structure State.TablesOk (s : State) : Prop where
  total_eq_sum : s.total.toNat = freqSum s.freq
  codes_of_built_tree : s.codesValid = true → s.treeValid = true ∧ s.treeDecoded = false
  estimate_has_codes : s.estValid = true → s.codesValid = true
  gated_has_estimate : s.gated = true → s.estValid = true
  tree_is_built : s.treeValid = true → s.treeDecoded = false → s.holdsBuiltTree
  decoded_is_tree : s.treeValid = true → s.treeDecoded = true → ∃ t, s.holdsTree t = true
  codes_are_of_tree : s.codesValid = true → ∃ t, s.holdsTree t = true ∧ s.code = writeCodes t.codes codesAbsent

theorem State.Inv.tables {s : State} (h : s.Inv) : s.TablesOk :=
  ⟨h.total_eq_sum, h.codes_of_built_tree, h.estimate_has_codes, h.gated_has_estimate, h.tree_is_built, h.decoded_is_tree,
    h.codes_are_of_tree⟩

/-- With no flag set, only the counts are vouched for. -/
theorem State.TablesOk.of_clear {s : State} (h1 : s.total.toNat = freqSum s.freq) (h2 : s.flagsClear = true) :
    s.TablesOk := by
  simp only [State.flagsClear, Bool.and_eq_true, Bool.not_eq_true'] at h2
  obtain ⟨⟨⟨⟨a, b⟩, c⟩, d⟩, e⟩ := h2
  constructor
  · exact h1
  all_goals intro h
  · rw [c] at h; cases h
  · rw [d] at h; cases h
  · rw [e] at h; cases h
  · rw [a] at h; cases h
  · rw [a] at h; cases h
  · rw [c] at h; cases h

/-- What a state in the middle of a command must show. -/
theorem State.Inv.of_running {s : State} (i : Instr) (p : Point) (ht : s.TablesOk) (hb : s.busy = true)
    (hd : s.done = false) (he : s.err = false) (hc : s.error = .none) (hi : s.errInfo = 0)
    (hcmd : decode s.curCmd = .ok i) (hw : i.wellFormed = true) (hk : s.k = some p) (hf : s.flagsAt i p = true)
    (hp : s.parseOk p) : s.Inv where
  total_eq_sum := ht.total_eq_sum
  codes_of_built_tree := ht.codes_of_built_tree
  estimate_has_codes := ht.estimate_has_codes
  gated_has_estimate := ht.gated_has_estimate
  tree_is_built := ht.tree_is_built
  decoded_is_tree := ht.decoded_is_tree
  codes_are_of_tree := ht.codes_are_of_tree
  idle_is_empty := fun h => by rw [hb] at h; cases h
  busy_is_running := fun _ => ⟨i, p, hcmd, hw, hk, hf⟩
  parse_is_chain := fun _ q hq => by rw [hk] at hq; cases hq; exact hp
  ends_exclude := fun h => by rw [hd] at h; cases h
  busy_no_error := fun _ => ⟨he, hc⟩
  no_error_no_info := fun _ => hi

/-- What a state of an idle core must show. -/
theorem State.Inv.of_idle {s : State} (ht : s.TablesOk) (hb : s.busy = false) (hp : s.phase = .idle) (hk : s.k = none)
    (hd : s.done = true → s.err = false) (hi : s.error = .none → s.errInfo = 0) : s.Inv where
  total_eq_sum := ht.total_eq_sum
  codes_of_built_tree := ht.codes_of_built_tree
  estimate_has_codes := ht.estimate_has_codes
  gated_has_estimate := ht.gated_has_estimate
  tree_is_built := ht.tree_is_built
  decoded_is_tree := ht.decoded_is_tree
  codes_are_of_tree := ht.codes_are_of_tree
  idle_is_empty := fun _ => ⟨hp, hk⟩
  busy_is_running := fun h => by rw [hb] at h; cases h
  parse_is_chain := fun h => by rw [hb] at h; cases h
  ends_exclude := fun h => ⟨hd h, hb⟩
  busy_no_error := fun h => by rw [hb] at h; cases h
  no_error_no_info := hi

/-- What a running command finds: its word, its point, and no end reported yet. -/
theorem State.Inv.running {s : State} (h : s.Inv) (hb : s.busy = true) :
    (∃ i p, decode s.curCmd = .ok i ∧ i.wellFormed = true ∧ s.k = some p ∧ s.flagsAt i p = true ∧ s.parseOk p) ∧
      s.done = false ∧ s.err = false ∧ s.error = .none ∧ s.errInfo = 0 := by
  obtain ⟨i, p, h1, hw, h2, h3⟩ := h.busy_is_running hb
  refine ⟨⟨i, p, h1, hw, h2, h3, h.parse_is_chain hb p h2⟩, ?_, (h.busy_no_error hb).1, (h.busy_no_error hb).2,
    h.no_error_no_info (h.busy_no_error hb).2⟩
  cases hd : s.done
  · rfl
  · have := (h.ends_exclude hd).2; rw [hb] at this; cases this

/-- A tree that the flags vouch for is a tree, within `NODE_CAP`. -/
theorem State.TablesOk.tree {s : State} (h : s.TablesOk) (hv : s.treeValid = true) : ∃ t, s.holdsTree t = true := by
  cases hd : s.treeDecoded
  · obtain ⟨t, ht, -⟩ := holdsBuiltTree_tree s (h.tree_is_built hv hd)
    exact ⟨t, ht⟩
  · exact h.decoded_is_tree hv hd

/-- The header parse at a bit it asks for, with the flags of a DECOMPRESS under way. -/
def State.bitOk (s : State) (p : Point) : Prop :=
  s.TablesOk ∧ s.flagsAt .decompress p = true ∧ s.parseOk p

/-- The parse of a whole tree ends with a tree from index 0 on. -/
theorem headerDone_ok (made nb : Nat) (s : State) (hc : s.total.toNat = freqSum s.freq) (hf : s.flagsClear = true)
    (he : s.upEos = false) (T : HTree) (hT : T.placed s.node 0) (hs : T.size = made) (hm : made ≤ 513) :
    ∃ p s', headerDone made nb s = .stops p s' ∧ s'.bitOk p := by
  have hf' := hf
  simp only [State.flagsClear, Bool.and_eq_true, Bool.not_eq_true'] at hf'
  obtain ⟨⟨⟨⟨h1, h2⟩, h3⟩, h4⟩, h5⟩ := hf'
  let s1 : State := { s with
    root := 0, nodeCount := BitVec.ofNat 10 made, hdrBits := wordOf nb, treeValid := true, treeDecoded := true }
  have htree : s1.holdsTree T = true := by
    rw [holdsTree_iff]
    exact ⟨HTree.placed_sits _ _ 0 hT, by omega⟩
  have hok : s1.TablesOk := by
    constructor
    · exact hc
    · intro h; rw [show s1.codesValid = s.codesValid from rfl, h3] at h; cases h
    · intro h; rw [show s1.estValid = s.estValid from rfl, h4] at h; cases h
    · intro h; rw [show s1.gated = s.gated from rfl, h5] at h; cases h
    · intro _ h; cases h
    · intro _ _; exact ⟨T, htree⟩
    · intro h; rw [show s1.codesValid = s.codesValid from rfl, h3] at h; cases h
  have hflags : ∀ p, s1.flagsAt .decompress p = (s1.treeValid && s1.treeDecoded && !s1.codesValid) ∨
      s1.flagsAt .decompress p = (!s1.codesValid && true) → s1.flagsAt .decompress p = true := by
    have e : s1.codesValid = false := h3
    intro p h
    rcases h with h | h <;> rw [h, e] <;> rfl
  have key : headerDone made nb s = .stops
      (if (nodeAt s1.node 0).leaf then
        if (nodeAt s1.node 0).symbol = Config.pseudoEof then .drainPhase 0 else .raising .hdrInvalid 3
      else .walkPhase) s1 := by
    unfold headerDone
    dsimp only
    split
    · split <;> rfl
    · rfl
  refine ⟨_, s1, key, hok, ?_, ?_⟩
  · split
    · split
      · exact hflags _ (.inl rfl)
      · exact hflags _ (.inr rfl)
    · exact hflags _ (.inl rfl)
  · split
    · split <;> trivial
    · exact he

/-- A header parse under way with a subtree finished in its open slot: the next slot is asked for, or the header is read. -/
theorem nextSlot_ok (made nb m : Nat) (slot : Slot) (t : HTree) (s : State)
    (hc : s.total.toNat = freqSum s.freq) (hf : s.flagsClear = true) (he : s.upEos = false)
    (hch : ParseChain s.node slot s.stack m)
    (hlink : slot.holds s.node m) (ht : t.placed s.node m) (hmade : made = m + t.size) (hm : made ≤ 513) :
    (nextSlot made nb s).state.bitOk (nextSlot made nb s).point := by
  rcases hch.close t hlink ht with ⟨h1, T, h2, h3⟩ | ⟨p, rest, h1, h2⟩
  · have e : nextSlot made nb s = headerDone made nb s := by unfold nextSlot; rw [h1]
    rw [e]
    obtain ⟨p, s', h4, h5⟩ := headerDone_ok made nb s hc hf he T h2 (by omega) hm
    rw [h4]; exact h5
  · have e : nextSlot made nb s = .wants (.tagIn (.right p) made nb) { s with stack := rest } := by
      unfold nextSlot; rw [h1]
    rw [e]
    refine ⟨.of_clear hc hf, hf, ?_⟩
    exact ⟨he, hmade ▸ h2, hm⟩

/-- What `raise` finds in DECOMPRESS: no code table. -/
theorem raising_flags {s : State} {code : ErrCode} {info : Word} (h : s.codesValid = false)
    (hc : raises .decompress code = true := by rfl) : s.flagsAt .decompress (.raising code info) = true := by
  show (!s.codesValid && raises .decompress code) = true
  rw [h, hc]; rfl

theorem magicBit_ok (got v : Nat) (b : Bool) (s : State) (hc : s.total.toNat = freqSum s.freq)
    (hf : s.flagsClear = true) (he : s.upEos = false) : (magicBit got v b s).state.bitOk (magicBit got v b s).point := by
  unfold magicBit
  dsimp only
  have hcv : s.codesValid = false := by
    simp only [State.flagsClear, Bool.and_eq_true, Bool.not_eq_true'] at hf; exact hf.1.1.2
  split
  · exact ⟨.of_clear hc hf, hf, he, by assumption⟩
  · split
    · refine ⟨.of_clear hc hf, hf, he, ?_, by omega⟩
      exact .top
    · exact ⟨.of_clear hc hf, raising_flags hcv, trivial⟩

theorem tagBit_ok (slot : Slot) (made nb : Nat) (b : Bool) (s : State) (hc : s.total.toNat = freqSum s.freq)
    (hf : s.flagsClear = true) (he : s.upEos = false) (hch : ParseChain s.node slot s.stack made) (hm : made ≤ 513) :
    (tagBit slot made nb b s).state.bitOk (tagBit slot made nb b s).point := by
  unfold tagBit
  dsimp only
  have hcv : s.codesValid = false := by
    simp only [State.flagsClear, Bool.and_eq_true, Bool.not_eq_true'] at hf; exact hf.1.1.2
  split
  · exact ⟨.of_clear hc hf, raising_flags hcv, trivial⟩
  · rename_i hcap
    have hlt : made < 513 := by have : made ≠ 513 := hcap; omega
    have hlink : slot.holds (linkChild slot (BitVec.ofNat 10 made) s.node) made := linkChild_holds hch hm
    have hch' : ParseChain (linkChild slot (BitVec.ofNat 10 made) s.node) slot s.stack made :=
      hch.congr hm (fun _ _ => rfl)
    split
    · refine ⟨.of_clear hc hf, hf, ?_⟩
      exact ⟨he, by omega, slot, made, hch', hlink, rfl, rfl, by omega⟩
    · unfold makeInternal nextSlot
      refine ⟨.of_clear hc hf, hf, he, ?_, by omega⟩
      dsimp only [BitStep.state, BitStep.point]
      have hne : ∀ j, j < made → nodeAt (nodeSet (linkChild slot (BitVec.ofNat 10 made) s.node) (BitVec.ofNat 10 made)
          ⟨true, false, 0, 0, 0, 0⟩) (BitVec.ofNat 10 j) =
          nodeAt (linkChild slot (BitVec.ofNat 10 made) s.node) (BitVec.ofNat 10 j) := fun j hj =>
        nodeAt_nodeSet_ne _ _ _ _ (ofNat_ne (by omega) (by omega) (by omega))
      refine .left slot s.stack made ?_ ?_ ?_ ?_
      · exact hch.congr hm hne
      · exact Slot.holds_congr made hch' hne hlink
      · rw [nodeAt_nodeSet_self _ _ _ (by rw [ofNat_toNat_lt (by omega)]; omega)]
      · rw [nodeAt_nodeSet_self _ _ _ (by rw [ofNat_toNat_lt (by omega)]; omega)]

theorem symBit_ok (id : NodeIdx) (made nb got v : Nat) (b : Bool) (s : State) (hc : s.total.toNat = freqSum s.freq)
    (hf : s.flagsClear = true) (hp : s.parseOk (.symIn id made nb got v)) :
    (symBit id made nb got v b s).state.bitOk (symBit id made nb got v b s).point := by
  have hcv : s.codesValid = false := by
    simp only [State.flagsClear, Bool.and_eq_true, Bool.not_eq_true'] at hf; exact hf.1.1.2
  obtain ⟨he, hgot, slot, m, hch, hlink, hid, hmade, hm⟩ := hp
  unfold symBit
  dsimp only
  split
  · exact ⟨.of_clear hc hf, hf, he, by assumption, slot, m, hch, hlink, hid, hmade, hm⟩
  · split
    · exact ⟨.of_clear hc hf, raising_flags hcv, trivial⟩
    · subst hid
      set w := nodeSet s.node (BitVec.ofNat 10 m) ⟨true, true, BitVec.ofNat 9 (2 * v + b.toNat), 0, 0, 0⟩ with hw
      have hne : ∀ j, j < m → nodeAt w (BitVec.ofNat 10 j) = nodeAt s.node (BitVec.ofNat 10 j) := fun j hj =>
        nodeAt_nodeSet_ne _ _ _ _ (ofNat_ne (by omega) (by omega) (by omega))
      have hne' : ∀ j, j < m → nodeAt w (BitVec.ofNat 10 j) = nodeAt (linkChild slot (BitVec.ofNat 10 m) s.node) (BitVec.ofNat 10 j) := by
        intro j hj
        rw [hne j hj]
        cases slot with
        | top => rfl
        | left p =>
          simp only [Slot.holds] at hlink
          simp only [linkChild]
          by_cases e : (BitVec.ofNat 10 j : NodeIdx) = p
          · subst e
            rw [nodeAt_nodeSet_self _ _ _ (by rw [ofNat_toNat_lt (by omega)]; omega), ← hlink]
          · rw [nodeAt_nodeSet_ne _ _ _ _ e]
        | right p =>
          simp only [Slot.holds] at hlink
          simp only [linkChild]
          by_cases e : (BitVec.ofNat 10 j : NodeIdx) = p
          · subst e
            rw [nodeAt_nodeSet_self _ _ _ (by rw [ofNat_toNat_lt (by omega)]; omega), ← hlink]
          · rw [nodeAt_nodeSet_ne _ _ _ _ e]
      have hself := nodeAt_nodeSet_self s.node (BitVec.ofNat 10 m) ⟨true, true, BitVec.ofNat 9 (2 * v + b.toNat), 0, 0, 0⟩
        (by rw [ofNat_toNat_lt (by omega)]; omega)
      refine nextSlot_ok made (nb + 9) m slot (.leaf (BitVec.ofNat 9 (2 * v + b.toNat))) _ hc hf he ?_ ?_ ?_ ?_ hm
      · exact hch.congr (by omega) hne'
      · exact Slot.holds_congr m hch hne hlink
      · unfold HTree.placed
        show (nodeAt w _).valid = true ∧ _
        rw [hself]; simp
      · simpa [HTree.size] using hmade

theorem walkBit_ok (cur : NodeIdx) (cnt : Nat) (b : Bool) (s : State) (h : s.bitOk (.walkIn cur cnt)) :
    (walkBit cur cnt b s).state.bitOk (walkBit cur cnt b s).point := by
  obtain ⟨h1, h2, he⟩ := h
  have key : ∀ next : NodeIdx, ∀ r : BitStep,
      r = (if (nodeAt s.node next).leaf then
        if (nodeAt s.node next).symbol = Config.pseudoEof then .stops (.drainPhase cnt) s
        else .wants (.walkIn s.root (cnt + 1)) (s.outBeat (.byte ((nodeAt s.node next).symbol.setWidth 8)))
      else .wants (.walkIn next cnt) s) → r.state.bitOk r.point := by
    intro next r hr
    subst hr
    split
    · split
      · exact ⟨h1, h2, trivial⟩
      · exact ⟨⟨h1.1, h1.2, h1.3, h1.4, h1.5, h1.6, h1.7⟩, h2, he⟩
    · exact ⟨h1, h2, he⟩
  exact key _ _ rfl

theorem onBit_ok (p : Point) (b : Bool) (s : State) (h : s.bitOk p) :
    (onBit p b s).state.bitOk (onBit p b s).point := by
  unfold onBit
  split
  · exact magicBit_ok _ _ _ _ h.1.total_eq_sum h.2.1 h.2.2.1
  · exact tagBit_ok _ _ _ _ _ h.1.total_eq_sum h.2.1 h.2.2.1 h.2.2.2.1 h.2.2.2.2
  · exact symBit_ok _ _ _ _ _ _ _ h.1.total_eq_sum h.2.1 h.2.2
  · exact walkBit_ok _ _ _ _ h
  · exact h

theorem bitOk_congr (s : State) (n : Fin 9) (p : Point) (h : s.bitOk p) : ({ s with upN := n } : State).bitOk p := by
  obtain ⟨h1, h2, h3⟩ := h
  refine ⟨⟨h1.1, h1.2, h1.3, h1.4, h1.5, h1.6, h1.7⟩, h2, ?_⟩
  cases p <;> exact h3

/-- `EOS` at a point that asks for a bit is a truncation, with the flags of a `raise`. -/
theorem onEos_flags (p : Point) (s : State) (hp : p.asks = true) (hf : s.flagsAt .decompress p = true) :
    s.flagsAt .decompress (onEos p s) = true ∧ ∀ t : State, t.parseOk (onEos p s) := by
  have clear : s.flagsClear = true → s.codesValid = false := by
    intro hf; simp only [State.flagsClear, Bool.and_eq_true, Bool.not_eq_true'] at hf; exact hf.1.1.2
  cases p with
  | walkIn cur cnt =>
    have e : (s.treeValid && s.treeDecoded && !s.codesValid) = true := hf
    simp only [Bool.and_eq_true, Bool.not_eq_true'] at e
    exact ⟨raising_flags e.2, fun _ => trivial⟩
  | magicIn got v => exact ⟨raising_flags (clear hf), fun _ => trivial⟩
  | tagIn slot made nb => exact ⟨raising_flags (clear hf), fun _ => trivial⟩
  | symIn id made nb got v => exact ⟨raising_flags (clear hf), fun _ => trivial⟩
  | _ => cases hp

/-- A point that asks for a bit has not seen the `End` beat. -/
theorem parseOk_upEos {s : State} {p : Point} (hp : p.asks = true) (h : s.parseOk p) : s.upEos = false := by
  cases p <;> first | exact h.1 | exact h | cases hp

/-- What the bit loop leaves suspended is in order again. -/
theorem runBits_ok (n : Nat) (p : Point) (s : State) (h : s.bitOk p) (hp : p.asks = true) :
    ∃ q, (runBits n p s).k = some q ∧ (runBits n p s).bitOk q := by
  refine runBits_induct (P := fun p s => s.bitOk p ∧ p.asks = true) (R := fun s => ∃ q, s.k = some q ∧ s.bitOk q) ?_ ?_ ?_ ?_
    n p s ⟨h, hp⟩
  · intro p b s m p' s' h e
    have := onBit_ok p b _ (bitOk_congr s m p h.1)
    rw [e] at this; exact ⟨this, onBit_wants e⟩
  · intro p b s m p' s' h e
    have := onBit_ok p b _ (bitOk_congr s m p h.1)
    rw [e] at this
    obtain ⟨h1, h2, h3⟩ := this
    refine ⟨p', rfl, ⟨h1.1, h1.2, h1.3, h1.4, h1.5, h1.6, h1.7⟩, h2, ?_⟩
    cases p' <;> exact h3
  · intro p s h _
    obtain ⟨⟨h1, h2, h3⟩, -⟩ := h
    refine ⟨p, rfl, ⟨h1.1, h1.2, h1.3, h1.4, h1.5, h1.6, h1.7⟩, h2, ?_⟩
    cases p <;> exact h3
  · intro p s h he
    rw [parseOk_upEos h.2 h.1.2.2] at he; cases he

end Sys2Proof.Machine
end

