-- ==== Sys2Proof/Laws/Keeps.lean ====
section
/-! SUPPORT. The invariant of 10_state.md rule R45, command by command: what each step of each procedure keeps. -/

namespace Sys2Proof.Machine

/-! ## What each kind of step must show -/

/-- The fields that the tables and their flags are made of. -/
def State.sameTables (s t : State) : Prop :=
  t.total = s.total ∧ t.freq = s.freq ∧ t.node = s.node ∧ t.root = s.root ∧ t.code = s.code ∧
    t.treeValid = s.treeValid ∧ t.treeDecoded = s.treeDecoded ∧ t.codesValid = s.codesValid ∧
    t.estValid = s.estValid ∧ t.gated = s.gated

theorem State.TablesOk.congr {s t : State} (h : s.TablesOk) (e : s.sameTables t) : t.TablesOk := by
  obtain ⟨e1, e2, e3, e4, e5, e6, e7, e8, e9, e10⟩ := e
  obtain ⟨h1, h2, h3, h4, h5, h6, h7⟩ := h
  constructor
  · rw [e1, e2]; exact h1
  · rw [e6, e7, e8]; exact h2
  · rw [e8, e9]; exact h3
  · rw [e9, e10]; exact h4
  · unfold State.holdsBuiltTree at h5 ⊢; rw [e2, e3, e4, e6, e7]; exact h5
  · unfold State.holdsTree at h6 ⊢; rw [e3, e4, e6, e7]; exact h6
  · unfold State.holdsTree at h7 ⊢; rw [e3, e4, e5, e8]; exact h7

/-- The fields that a step of a running command leaves alone (R61). -/
def State.sameRun (s t : State) : Prop :=
  t.busy = s.busy ∧ t.done = s.done ∧ t.err = s.err ∧ t.error = s.error ∧ t.errInfo = s.errInfo ∧ t.curCmd = s.curCmd

/-- A running command goes on. -/
theorem State.Inv.resume {s t : State} {i : Instr} (h : s.Inv) (hb : s.busy = true) (hi : decode s.curCmd = .ok i)
    (hw : i.wellFormed = true) (he : s.sameRun t) (q : Point) (hk : t.k = some q) (ht : t.TablesOk) (hf : t.flagsAt i q = true) (hp : t.parseOk q) :
    t.Inv := by
  obtain ⟨e1, e2, e3, e4, e5, e6⟩ := he
  obtain ⟨-, d1, d2, d3, d4⟩ := h.running hb
  exact .of_running i q ht (e1.trans hb) (e2.trans d1) (e3.trans d2) (e4.trans d3) (e5.trans d4) (by rw [e6]; exact hi) hw hk
    hf hp

/-- `finish()` (R84) keeps the invariant. -/
theorem State.Inv.finish {s : State} (h : s.Inv) (hb : s.busy = true) : s.finish.Inv := by
  obtain ⟨-, d1, d2, d3, d4⟩ := h.running hb
  exact .of_idle (h.tables.congr ⟨rfl, rfl, rfl, rfl, rfl, rfl, rfl, rfl, rfl, rfl⟩) rfl rfl rfl (fun _ => d2)
    (fun _ => d4)

/-- `raise` (R136) keeps the invariant, with a code that names an error. -/
theorem State.Inv.raiseError {s : State} (h : s.Inv) (hb : s.busy = true) (code : ErrCode) (info : Word)
    (hc : code ≠ .none) : (s.raiseError code info).Inv := by
  obtain ⟨-, d1, d2, d3, d4⟩ := h.running hb
  refine .of_idle (h.tables.congr ⟨rfl, rfl, rfl, rfl, rfl, rfl, rfl, rfl, rfl, rfl⟩) rfl rfl rfl ?_ ?_
  · intro hd; rw [show (s.raiseError code info).done = s.done from rfl, d1] at hd; cases hd
  · intro he; exact absurd he hc

/-! ## The tables after each kind of update -/

theorem clearCounts_tables {s : State} (hf : s.flagsClear = true) : s.clearCounts.TablesOk :=
  .of_clear (by show (0 : Word).toNat = freqSum freqZero; rw [freqSum_freqZero]; rfl) hf

/-- One byte counted (R91, R92): `TOTAL` stays the sum of `FREQ`. -/
theorem countByte_total_eq_sum {s : State} (b : Byte) (h : s.total.toNat = freqSum s.freq) (hc : s.total.toNat ≠ Config.countMax) :
    (s.countByte b).total.toNat = freqSum (s.countByte b).freq := by
  have h1 := freqSum_freqSet s.freq b.toNat (freqAt s.freq b.toNat + 1) b.isLt
  have h2 := freqAt_le_freqSum s.freq b.toNat
  have h3 : s.total.toNat < 2 ^ 32 := s.total.isLt
  have h4 : Config.countMax = 2 ^ 32 - 1 := rfl
  show (s.total + 1).toNat = freqSum (freqSet s.freq b.toNat (freqAt s.freq b.toNat + 1))
  have e1 : (s.total + 1).toNat = s.total.toNat + 1 := by
    rw [BitVec.toNat_add]; show (s.total.toNat + 1) % 2 ^ 32 = _; omega
  have e2 : (freqAt s.freq b.toNat + 1).toNat = (freqAt s.freq b.toNat).toNat + 1 := by
    rw [BitVec.toNat_add]; show ((freqAt s.freq b.toNat).toNat + 1) % 2 ^ 32 = _; omega
  omega

/-- A count loaded (R95): `TOTAL` stays the sum of `FREQ`. -/
theorem loadFreq_total_eq_sum {s : State} (idx : BitVec 10) (hi : idx.toNat < 256) (h : s.total.toNat = freqSum s.freq)
    (hc : ¬ Config.countMax < loadedTotal idx s) :
    (wordOf (loadedTotal idx s)).toNat = freqSum (freqSet s.freq idx.toNat s.data) := by
  have h1 := freqSum_freqSet s.freq idx.toNat s.data hi
  have h2 := freqAt_le_freqSum s.freq idx.toNat
  have h4 : Config.countMax = 2 ^ 32 - 1 := rfl
  unfold loadedTotal at *
  unfold wordOf
  rw [BitVec.toNat_ofNat]
  omega

/-- A step of the procedure of i from the point p that keeps the invariant. -/
def keeps (i : Instr) (p : Point) (s : State) : Prop :=
  s.Inv → s.busy = true → decode s.curCmd = .ok i → i.wellFormed = true → s.k = some p → s.flagsAt i p = true →
    s.parseOk p → ∃ t, procOf i p s = .next t ∧ t.Inv

theorem keeps_finishing (i : Instr) (s : State) : keeps i .finishing s := by
  intro h hb _ _ _ _ _
  exact ⟨_, procOf_finishing i s, h.finish hb⟩

theorem and_right {a b : Bool} (h : (a && b) = true) : b = true := by
  cases a <;> simp_all

theorem flagsAt_raising {s : State} {i : Instr} {code : ErrCode} {info : Word}
    (h : s.flagsAt i (.raising code info) = true) : raises i code = true := by
  cases i with
  | count => exact and_right (show (s.flagsClear && raises .count code) = true from h)
  | loadFreq idx =>
    have := and_right (show (s.flagsClear && raises .count code) = true from h)
    cases code <;> exact this
  | encode => exact and_right (show (s.codesValid && raises .encode code) = true from h)
  | compress force => exact h
  | decompress => exact and_right (show (!s.codesValid && raises .decompress code) = true from h)
  | _ => exact absurd (show false = true from h) (by decide)

theorem keeps_raising (i : Instr) (code : ErrCode) (info : Word) (s : State) : keeps i (.raising code info) s := by
  intro h hb _ _ _ hf _
  refine ⟨_, procOf_raising i code info s, h.raiseError hb code info ?_⟩
  intro e
  subst e
  have := flagsAt_raising hf
  cases i <;> exact absurd this (by simp [raises])

theorem clear_of {s : State} (h : s.flagsClear = true) :
    s.treeValid = false ∧ s.treeDecoded = false ∧ s.codesValid = false ∧ s.estValid = false ∧ s.gated = false := by
  simp only [State.flagsClear, Bool.and_eq_true, Bool.not_eq_true'] at h
  tauto

/-- A command of one step: what it must show. -/
theorem keeps_short {i : Instr} {s t : State} (e : procOf i .start s = .next t) (hr : s.sameRun t)
    (hk : ∃ q, t.k = some q ∧ t.flagsAt i q = true ∧ t.parseOk q) (ht : t.TablesOk) : keeps i .start s := by
  intro h hb hi hw _ _ _
  obtain ⟨q, h1, h2, h3⟩ := hk
  exact ⟨t, e, h.resume hb hi hw hr q h1 ht h2 h3⟩

theorem keeps_nop (p : Point) (s : State) : keeps .nop p s := by
  cases p with
  | start => intro h hb _ _ _ _ _; exact ⟨_, rfl, h.finish hb⟩
  | _ => intro _ _ _ _ _ hf _; exact absurd (show false = true from hf) (by decide)

theorem clearAll_flagsClear (s : State) : (s.clearAll.suspend .finishing).flagsClear = s.flagsClear := by
  simp [State.flagsClear]

theorem keeps_clear (p : Point) (s : State) : keeps .clear p s := by
  cases p with
  | start =>
    intro h hb hi hw hk hf hp
    have hf' : s.flagsClear = true := hf
    have ht : (s.clearAll.suspend .finishing).flagsClear = true := by rw [clearAll_flagsClear]; exact hf
    refine ⟨s.clearAll.suspend .finishing, rfl, ?_⟩
    refine h.resume hb hi hw ?_ .finishing rfl (.of_clear ?_ ht) ht trivial
    · simp [State.sameRun]
    · simp
  | finishing => exact keeps_finishing _ _
  | _ => intro _ _ _ _ _ hf _; exact absurd (show false = true from hf) (by decide)

theorem keeps_count (p : Point) (s : State) : keeps .count p s := by
  cases p with
  | start =>
    intro h hb hi hw hk hf hp
    exact keeps_short (t := s.clearCounts.suspend .countIn) rfl ⟨rfl, rfl, rfl, rfl, rfl, rfl⟩ ⟨_, rfl, hf, trivial⟩
      ((clearCounts_tables hf).congr ⟨rfl, rfl, rfl, rfl, rfl, rfl, rfl, rfl, rfl, rfl⟩) h hb hi hw hk hf hp
  | countIn =>
    intro h hb hi hw hk hf hp
    refine ⟨_, rfl, ?_⟩
    unfold countBeat
    split
    · exact h
    · exact h.resume hb hi hw ⟨rfl, rfl, rfl, rfl, rfl, rfl⟩ .finishing rfl (.of_clear h.total_eq_sum hf) hf trivial
    · rename_i b rest hq
      split
      · exact h.resume hb hi hw ⟨rfl, rfl, rfl, rfl, rfl, rfl⟩ (.raising .countOverflow _) rfl (.of_clear h.total_eq_sum hf)
          (show (s.flagsClear && true) = true by rw [show s.flagsClear = true from hf]; rfl) trivial
      · rename_i hc
        exact h.resume hb hi hw ⟨rfl, rfl, rfl, rfl, rfl, rfl⟩ .countIn rfl
          (.of_clear (countByte_total_eq_sum (s := { s with inQ := rest }) b h.total_eq_sum hc) hf) hf trivial
  | finishing => exact keeps_finishing _ _
  | raising code info => exact keeps_raising _ _ _ _
  | _ => intro _ _ _ _ _ hf _; exact absurd (show false = true from hf) (by decide)

theorem keeps_loadFreq (idx : BitVec 10) (p : Point) (s : State) : keeps (.loadFreq idx) p s := by
  cases p with
  | start =>
    intro h hb hi hw hk hf hp
    refine ⟨_, rfl, ?_⟩
    have hidx : idx.toNat < 256 := by
      have : byteIndexOk idx = true := hw
      simp only [byteIndexOk, decide_eq_true_eq] at this; omega
    split
    · exact h.resume hb hi hw ⟨rfl, rfl, rfl, rfl, rfl, rfl⟩ (.raising .countOverflow _) rfl (.of_clear h.total_eq_sum hf)
          (show (s.flagsClear && true) = true by rw [show s.flagsClear = true from hf]; rfl) trivial
    · rename_i hc
      exact h.resume hb hi hw ⟨rfl, rfl, rfl, rfl, rfl, rfl⟩ .finishing rfl
        (.of_clear (loadFreq_total_eq_sum idx hidx h.total_eq_sum hc) hf) hf trivial
  | finishing => exact keeps_finishing _ _
  | raising code info => exact keeps_raising _ _ _ _
  | _ => intro _ _ _ _ _ hf _; exact absurd (show false = true from hf) (by decide)

theorem keeps_readFreq (idx : BitVec 10) (p : Point) (s : State) : keeps (.readFreq idx) p s := by
  cases p with
  | start =>
    intro h hb hi hw hk hf hp
    exact ⟨_, rfl, h.resume hb hi hw ⟨rfl, rfl, rfl, rfl, rfl, rfl⟩ .finishing rfl
      (h.tables.congr ⟨rfl, rfl, rfl, rfl, rfl, rfl, rfl, rfl, rfl, rfl⟩) hf trivial⟩
  | finishing => exact keeps_finishing _ _
  | _ => intro _ _ _ _ _ hf _; exact absurd (show false = true from hf) (by decide)

theorem keeps_readNode (wsel : BitVec 4) (idx : BitVec 10) (p : Point) (s : State) : keeps (.readNode wsel idx) p s := by
  cases p with
  | start =>
    intro h hb hi hw hk hf hp
    exact ⟨_, rfl, h.resume hb hi hw ⟨rfl, rfl, rfl, rfl, rfl, rfl⟩ .finishing rfl
      (h.tables.congr ⟨rfl, rfl, rfl, rfl, rfl, rfl, rfl, rfl, rfl, rfl⟩) hf trivial⟩
  | finishing => exact keeps_finishing _ _
  | _ => intro _ _ _ _ _ hf _; exact absurd (show false = true from hf) (by decide)

theorem keeps_readCode (wsel : BitVec 4) (idx : BitVec 10) (p : Point) (s : State) : keeps (.readCode wsel idx) p s := by
  cases p with
  | start =>
    intro h hb hi hw hk hf hp
    exact ⟨_, rfl, h.resume hb hi hw ⟨rfl, rfl, rfl, rfl, rfl, rfl⟩ .finishing rfl
      (h.tables.congr ⟨rfl, rfl, rfl, rfl, rfl, rfl, rfl, rfl, rfl, rfl⟩) hf trivial⟩
  | finishing => exact keeps_finishing _ _
  | _ => intro _ _ _ _ _ hf _; exact absurd (show false = true from hf) (by decide)

/-- The tables once a tree is built over cleared flags (R45 item 4). -/
theorem buildTree_tables {s t : State} (h : s.total.toNat = freqSum s.freq) (hf : s.flagsClear = true)
    (e1 : t.total = s.total) (e2 : t.freq = s.freq)
    (e3 : t.node = writeNodes (treePlan s.freq).1 (nodesInvalid s.node)) (e4 : t.root = (treePlan s.freq).2)
    (e5 : t.treeDecoded = s.treeDecoded) (e6 : t.codesValid = s.codesValid) (e7 : t.estValid = s.estValid)
    (e8 : t.gated = s.gated) : t.TablesOk := by
  obtain ⟨-, h2, h3, h4, h5⟩ := clear_of hf
  rw [h2] at e5; rw [h3] at e6; rw [h4] at e7; rw [h5] at e8
  constructor
  · rw [e1, e2]; exact h
  · intro hc; rw [e6] at hc; cases hc
  · intro hc; rw [e7] at hc; cases hc
  · intro hc; rw [e8] at hc; cases hc
  · intro _ _; exact ⟨s.node, by rw [e3, e2], by rw [e4, e2]⟩
  · intro _ hc; rw [e5] at hc; cases hc
  · intro hc; rw [e6] at hc; cases hc

/-- What `BuildTree()` (R104) changes: the tree and its registers, with the new contents named. -/
theorem buildTree_parts (s : State) : ∃ n r c, s.buildTree = { s with node := n, heap := [], root := r, nodeCount := c } ∧
    n = writeNodes (treePlan s.freq).1 (nodesInvalid s.node) ∧ r = (treePlan s.freq).2 :=
  ⟨_, _, _, rfl, rfl, rfl⟩

theorem keeps_buildTree (p : Point) (s : State) : keeps .buildTree p s := by
  cases p with
  | start =>
    intro h hb hi hw hk hf hp
    obtain ⟨n, r, c, e, hn, hr⟩ := buildTree_parts s
    have e' : procOf .buildTree .start s = .next (State.suspend .finishing { s.buildTree with treeValid := true }) := rfl
    rw [e', e]
    refine ⟨_, rfl, h.resume hb hi hw ⟨rfl, rfl, rfl, rfl, rfl, rfl⟩ .finishing rfl
      (buildTree_tables h.total_eq_sum hf rfl rfl hn hr rfl rfl rfl rfl) ?_ trivial⟩
    show (true && !s.treeDecoded) = true
    rw [(clear_of hf).2.1]; rfl
  | finishing => exact keeps_finishing _ _
  | _ => intro _ _ _ _ _ hf _; exact absurd (show false = true from hf) (by decide)

theorem makeTable_tables {s t s1 : State} (h : s.TablesOk) (hv : s.treeValid = true) (hd : s.treeDecoded = false)
    (T : HTree) (hT : s.holdsTree T = true)
    (e1 : s1 = { s with code := writeCodes T.codes codesAbsent, stack := [], codesValid := true })
    (e : s1.sameTables t) : t.TablesOk := by
  refine State.TablesOk.congr ?_ e
  subst e1
  obtain ⟨h1, h2, h3, h4, h5, h6, h7⟩ := h
  exact ⟨h1, fun _ => ⟨hv, hd⟩, fun _ => rfl, h4, h5, h6, fun _ => ⟨T, hT, rfl⟩⟩

theorem keeps_genCodes (p : Point) (s : State) : keeps .genCodes p s := by
  cases p with
  | start =>
    intro h hb hi hw hk hf hp
    have hf' : (s.treeValid && !s.treeDecoded) = true := hf
    simp only [Bool.and_eq_true, Bool.not_eq_true'] at hf'
    obtain ⟨T, hT⟩ := h.tables.tree hf'.1
    refine ⟨State.suspend .finishing { s with code := writeCodes T.codes codesAbsent, stack := [], codesValid := true }, ?_, ?_⟩
    · show genCodesProc .start s = _
      unfold genCodesProc
      simp only [makeTable_tree s T hT]
    · exact h.resume hb hi hw ⟨rfl, rfl, rfl, rfl, rfl, rfl⟩ .finishing rfl
        (makeTable_tables h.tables hf'.1 hf'.2 T hT rfl ⟨rfl, rfl, rfl, rfl, rfl, rfl, rfl, rfl, rfl, rfl⟩) hf trivial
  | finishing => exact keeps_finishing _ _
  | _ => intro _ _ _ _ _ hf _; exact absurd (show false = true from hf) (by decide)

theorem estimate_tables {s t : State} (force : Bool) (h : s.TablesOk) (hc : s.codesValid = true)
    (e : (s.estimate force).sameTables t) : t.TablesOk := by
  refine State.TablesOk.congr ?_ e
  obtain ⟨h1, h2, h3, h4, h5, h6, h7⟩ := h
  exact ⟨h1, h2, fun _ => hc, fun _ => rfl, h5, h6, h7⟩

theorem keeps_estimate (force : Bool) (p : Point) (s : State) : keeps (.estimate force) p s := by
  cases p with
  | start =>
    intro h hb hi hw hk hf hp
    exact ⟨_, rfl, h.resume hb hi hw ⟨rfl, rfl, rfl, rfl, rfl, rfl⟩ .finishing rfl
      (estimate_tables force h.tables hf ⟨rfl, rfl, rfl, rfl, rfl, rfl, rfl, rfl, rfl, rfl⟩) hf trivial⟩
  | finishing => exact keeps_finishing _ _
  | _ => intro _ _ _ _ _ hf _; exact absurd (show false = true from hf) (by decide)

/-- The fields that pushing bits leaves alone are all but `OUT_Q` and the packer's. -/
theorem pushBits_sameTables (s : State) (p : List Bool) : s.sameTables (s.pushBits p) := by
  rw [pushBits_frame]; exact ⟨rfl, rfl, rfl, rfl, rfl, rfl, rfl, rfl, rfl, rfl⟩

theorem pushBits_sameRun (s : State) (p : List Bool) : s.sameRun (s.pushBits p) := by
  rw [pushBits_frame]; exact ⟨rfl, rfl, rfl, rfl, rfl, rfl⟩

theorem flushPacker_sameTables (s : State) : s.sameTables s.flushPacker := by
  obtain ⟨bytes, h, -⟩ := flushPacker_spec s
  rw [h]; exact ⟨rfl, rfl, rfl, rfl, rfl, rfl, rfl, rfl, rfl, rfl⟩

theorem flushPacker_sameRun (s : State) : s.sameRun s.flushPacker := by
  obtain ⟨bytes, h, -⟩ := flushPacker_spec s
  rw [h]; exact ⟨rfl, rfl, rfl, rfl, rfl, rfl⟩

theorem sameTables_flag {s t : State} (h : s.sameTables t) : t.codesValid = s.codesValid ∧ t.treeValid = s.treeValid :=
  ⟨h.2.2.2.2.2.2.2.1, h.2.2.2.2.2.1⟩

theorem keeps_flush (p : Point) (s : State) : keeps .flush p s := by
  cases p with
  | start =>
    intro h hb hi hw hk hf hp
    exact ⟨_, rfl, h.resume hb hi hw (flushPacker_sameRun s) .finishing rfl (h.tables.congr (flushPacker_sameTables s)) hf
      trivial⟩
  | finishing => exact keeps_finishing _ _
  | _ => intro _ _ _ _ _ hf _; exact absurd (show false = true from hf) (by decide)

/-- `WriteHeader()` on a tree (R116): the header's bits are pushed, and nothing else changes. -/
theorem writeHeader_tree (s : State) (T : HTree) (hT : s.holdsTree T = true) :
    s.writeHeader = some ({ s.pushBits (msbBits 32 Config.magic.toNat ++ T.bits) with stack := [] },
      32 + T.size + 9 * T.leaves.length) := by
  unfold State.writeHeader
  rw [headerBits_tree s T hT]
  simp only [Option.map_some, List.length_append, msbBits_length, T.bits_length, Nat.add_assoc]

theorem keeps_writeHeader (p : Point) (s : State) : keeps .writeHeader p s := by
  cases p with
  | start =>
    intro h hb hi hw hk hf hp
    obtain ⟨T, hT⟩ := h.tables.tree hf
    have e1 := pushBits_sameTables s (msbBits 32 Config.magic.toNat ++ T.bits)
    have e2 := pushBits_sameRun s (msbBits 32 Config.magic.toNat ++ T.bits)
    have e := writeHeader_tree s T hT
    generalize s.pushBits (msbBits 32 Config.magic.toNat ++ T.bits) = s' at e e1 e2
    refine ⟨State.suspend .finishing
      { s' with
        stack := [], hdrBits := wordOf (32 + T.size + 9 * T.leaves.length)
        result := BitVec.ofNat 64 (32 + T.size + 9 * T.leaves.length) }, ?_, ?_⟩
    · show writeHeaderProc .start s = _
      unfold writeHeaderProc
      simp only [e]
    · exact h.resume hb hi hw e2 .finishing rfl (h.tables.congr e1) ((sameTables_flag e1).2.trans hf) trivial
  | finishing => exact keeps_finishing _ _
  | _ => intro _ _ _ _ _ hf _; exact absurd (show false = true from hf) (by decide)

/-- The body pass (R125) keeps the tables and stands at a point of the pass. -/
theorem encodeBeat_cases (h nb : Nat) (s : State) :
    encodeBeat h nb s = s ∨
      (s.sameTables (encodeBeat h nb s) ∧ s.sameRun (encodeBeat h nb s) ∧
        ((∃ e, (encodeBeat h nb s).k = some (.flushPhase h e)) ∨ (∃ n, (encodeBeat h nb s).k = some (.encodeIn h n)) ∨
          ∃ info, (encodeBeat h nb s).k = some (.raising .invariant info))) := by
  unfold encodeBeat
  split
  · exact .inl rfl
  · rename_i rest hq
    exact .inr ⟨pushBits_sameTables { s with inQ := rest } _, pushBits_sameRun { s with inQ := rest } _, .inl ⟨_, rfl⟩⟩
  · rename_i b rest hq
    dsimp only
    split
    · exact .inr ⟨pushBits_sameTables { s with inQ := rest } _, pushBits_sameRun { s with inQ := rest } _,
        .inr (.inl ⟨_, rfl⟩)⟩
    · exact .inr ⟨⟨rfl, rfl, rfl, rfl, rfl, rfl, rfl, rfl, rfl, rfl⟩, ⟨rfl, rfl, rfl, rfl, rfl, rfl⟩,
        .inr (.inr ⟨_, rfl⟩)⟩

theorem keeps_encode (p : Point) (s : State) : keeps .encode p s := by
  cases p with
  | start =>
    intro h hb hi hw hk hf hp
    exact ⟨_, rfl, h.resume hb hi hw ⟨rfl, rfl, rfl, rfl, rfl, rfl⟩ (.encodeIn 0 0) rfl
      (h.tables.congr ⟨rfl, rfl, rfl, rfl, rfl, rfl, rfl, rfl, rfl, rfl⟩) hf trivial⟩
  | encodeIn hd nb =>
    intro h hb hi hw hk hf hp
    refine ⟨_, rfl, ?_⟩
    rcases encodeBeat_cases hd nb s with e | ⟨e1, e2, ⟨e, e3⟩ | ⟨e, e3⟩ | ⟨e, e3⟩⟩
    · rw [e]; exact h
    · exact h.resume hb hi hw e2 _ e3 (h.tables.congr e1) ((sameTables_flag e1).1.trans hf) trivial
    · exact h.resume hb hi hw e2 _ e3 (h.tables.congr e1) ((sameTables_flag e1).1.trans hf) trivial
    · refine h.resume hb hi hw e2 _ e3 (h.tables.congr e1) ?_ trivial
      show ((encodeBeat hd nb s).codesValid && true) = true
      rw [(sameTables_flag e1).1, show s.codesValid = true from hf]; rfl
  | flushPhase hd e =>
    intro h hb hi hw hk hf hp
    have e1 := flushPacker_sameTables { s with phase := .flush }
    exact ⟨_, rfl, h.resume hb hi hw (flushPacker_sameRun { s with phase := .flush }) .finishing rfl
      (h.tables.congr e1) ((sameTables_flag e1).1.trans hf) trivial⟩
  | finishing => exact keeps_finishing _ _
  | raising code info => exact keeps_raising _ _ _ _
  | _ => intro _ _ _ _ _ hf _; exact absurd (show false = true from hf) (by decide)

theorem keeps_compress (force : Bool) (p : Point) (s : State) : keeps (.compress force) p s := by
  cases p with
  | start =>
    intro h hb hi hw hk hf hp
    exact ⟨_, rfl, h.resume hb hi hw ⟨rfl, rfl, rfl, rfl, rfl, rfl⟩ .countIn rfl
      ((clearCounts_tables hf).congr ⟨rfl, rfl, rfl, rfl, rfl, rfl, rfl, rfl, rfl, rfl⟩) hf trivial⟩
  | countIn =>
    intro h hb hi hw hk hf hp
    refine ⟨_, rfl, ?_⟩
    unfold countBeat
    split
    · exact h
    · exact h.resume hb hi hw ⟨rfl, rfl, rfl, rfl, rfl, rfl⟩ .buildPhase rfl (.of_clear h.total_eq_sum hf) hf trivial
    · rename_i b rest hq
      split
      · exact h.resume hb hi hw ⟨rfl, rfl, rfl, rfl, rfl, rfl⟩ (.raising .countOverflow _) rfl (.of_clear h.total_eq_sum hf)
          rfl trivial
      · rename_i hc
        exact h.resume hb hi hw ⟨rfl, rfl, rfl, rfl, rfl, rfl⟩ .countIn rfl
          (.of_clear (countByte_total_eq_sum (s := { s with inQ := rest }) b h.total_eq_sum hc) hf) hf trivial
  | buildPhase =>
    intro h hb hi hw hk hf hp
    obtain ⟨n, r, c, e, hn, hr⟩ := buildTree_parts { s with phase := .build }
    have e' : procOf (.compress force) .buildPhase s =
        .next (State.suspend .codesPhase { State.buildTree { s with phase := .build } with treeValid := true }) := rfl
    rw [e', e]
    refine ⟨_, rfl, h.resume hb hi hw ⟨rfl, rfl, rfl, rfl, rfl, rfl⟩ .codesPhase rfl
      (buildTree_tables h.total_eq_sum hf rfl rfl hn hr rfl rfl rfl rfl) ?_ trivial⟩
    show (true && !s.treeDecoded) = true
    rw [(clear_of hf).2.1]; rfl
  | codesPhase =>
    intro h hb hi hw hk hf hp
    have hf' : (s.treeValid && !s.treeDecoded) = true := hf
    simp only [Bool.and_eq_true, Bool.not_eq_true'] at hf'
    obtain ⟨T, hT⟩ := h.tables.tree hf'.1
    refine ⟨State.suspend .estimatePhase
      { s with phase := .codes, code := writeCodes T.codes codesAbsent, stack := [], codesValid := true }, ?_, ?_⟩
    · show s.compressCodes = _
      unfold State.compressCodes
      simp only [makeTable_tree { s with phase := .codes } T hT]
    · exact h.resume hb hi hw ⟨rfl, rfl, rfl, rfl, rfl, rfl⟩ .estimatePhase rfl
        (makeTable_tables h.tables hf'.1 hf'.2 T hT rfl ⟨rfl, rfl, rfl, rfl, rfl, rfl, rfl, rfl, rfl, rfl⟩) rfl trivial
  | estimatePhase =>
    intro h hb hi hw hk hf hp
    refine ⟨_, rfl, ?_⟩
    unfold State.compressEstimate
    dsimp only
    split
    · exact h.resume hb hi hw ⟨rfl, rfl, rfl, rfl, rfl, rfl⟩ .finishing rfl
        (estimate_tables force h.tables hf ⟨rfl, rfl, rfl, rfl, rfl, rfl, rfl, rfl, rfl, rfl⟩) rfl trivial
    · exact h.resume hb hi hw ⟨rfl, rfl, rfl, rfl, rfl, rfl⟩ .headerPhase rfl
        (estimate_tables force h.tables hf ⟨rfl, rfl, rfl, rfl, rfl, rfl, rfl, rfl, rfl, rfl⟩) hf trivial
  | headerPhase =>
    intro h hb hi hw hk hf hp
    obtain ⟨T, hT⟩ := h.tables.tree (h.codes_of_built_tree hf).1
    have hT' : ({ s with phase := .hdrWrite } : State).holdsTree T = true := hT
    have e1 := pushBits_sameTables { s with phase := .hdrWrite } (msbBits 32 Config.magic.toNat ++ T.bits)
    have e2 := pushBits_sameRun { s with phase := .hdrWrite } (msbBits 32 Config.magic.toNat ++ T.bits)
    have e := writeHeader_tree _ T hT'
    generalize State.pushBits { s with phase := .hdrWrite } (msbBits 32 Config.magic.toNat ++ T.bits) = s' at e e1 e2
    refine ⟨State.suspend (.encodePhase (32 + T.size + 9 * T.leaves.length))
      { s' with stack := [], hdrBits := wordOf (32 + T.size + 9 * T.leaves.length) }, ?_, ?_⟩
    · show s.compressHeader = _
      unfold State.compressHeader
      simp only [e]
    · exact h.resume hb hi hw e2 (.encodePhase _) rfl (h.tables.congr e1) ((sameTables_flag e1).1.trans hf) trivial
  | encodePhase hd =>
    intro h hb hi hw hk hf hp
    exact ⟨_, rfl, h.resume hb hi hw ⟨rfl, rfl, rfl, rfl, rfl, rfl⟩ (.encodeIn hd 0) rfl
      (h.tables.congr ⟨rfl, rfl, rfl, rfl, rfl, rfl, rfl, rfl, rfl, rfl⟩) hf trivial⟩
  | encodeIn hd nb =>
    intro h hb hi hw hk hf hp
    refine ⟨_, rfl, ?_⟩
    rcases encodeBeat_cases hd nb s with e | ⟨e1, e2, ⟨e, e3⟩ | ⟨e, e3⟩ | ⟨e, e3⟩⟩
    · rw [e]; exact h
    · exact h.resume hb hi hw e2 _ e3 (h.tables.congr e1) ((sameTables_flag e1).1.trans hf) trivial
    · exact h.resume hb hi hw e2 _ e3 (h.tables.congr e1) ((sameTables_flag e1).1.trans hf) trivial
    · exact h.resume hb hi hw e2 _ e3 (h.tables.congr e1) rfl trivial
  | flushPhase hd e =>
    intro h hb hi hw hk hf hp
    have e1 := flushPacker_sameTables { s with phase := .flush }
    exact ⟨_, rfl, h.resume hb hi hw (flushPacker_sameRun { s with phase := .flush }) .finishing rfl
      (h.tables.congr e1) rfl trivial⟩
  | finishing => exact keeps_finishing _ _
  | raising code info => exact keeps_raising _ _ _ _
  | _ => intro _ _ _ _ _ hf _; exact absurd (show false = true from hf) (by decide)

/-- The bit loop changes nothing that a running command keeps. -/
theorem runBits_sameRun (n : Nat) (p : Point) (s : State) : s.sameRun (runBits n p s) := by
  refine runBits_induct (P := fun _ t => s.sameRun t) (R := fun t => s.sameRun t) ?_ ?_ ?_ ?_ n p s
    ⟨rfl, rfl, rfl, rfl, rfl, rfl⟩
  · intro p b t m p' t' h e
    have hfr := onBit_frame p b { t with upN := m }
    rw [e] at hfr
    have e' : t' = _ := hfr
    rw [e']; exact h
  · intro p b t m p' t' h e
    have hfr := onBit_frame p b { t with upN := m }
    rw [e] at hfr
    have e' : t' = _ := hfr
    rw [e']; exact h
  · intro p t h _; exact h
  · intro p t h _; exact h

/-- A beat taken at a bit (R113): the next point is in order again. -/
theorem bitBeat_keeps (p : Point) (s : State) (h : s.Inv) (hb : s.busy = true) (hi : decode s.curCmd = .ok .decompress)
    (hf : s.flagsAt .decompress p = true) (hp : s.parseOk p) (hp' : p.asks = true) : (bitBeat p s).Inv := by
  have hok : s.bitOk p := ⟨h.tables, hf, hp⟩
  unfold bitBeat
  split
  · exact h
  · rename_i rest hq
    dsimp only
    obtain ⟨h2, h3⟩ := onEos_flags p { s with inQ := rest, upEos := true } hp' hf
    exact h.resume hb hi rfl ⟨rfl, rfl, rfl, rfl, rfl, rfl⟩ (onEos p _) rfl
      (h.tables.congr ⟨rfl, rfl, rfl, rfl, rfl, rfl, rfl, rfl, rfl, rfl⟩) h2 (h3 _)
  · rename_i b rest hq
    have hok' : (State.loadByte b { s with inQ := rest }).bitOk p := by
      refine ⟨h.tables.congr ⟨rfl, rfl, rfl, rfl, rfl, rfl, rfl, rfl, rfl, rfl⟩, hf, ?_⟩
      cases p <;> exact hp
    obtain ⟨q, hq1, h1, h2, h3⟩ := runBits_ok 8 p _ hok' hp'
    have hr := runBits_sameRun 8 p (State.loadByte b { s with inQ := rest })
    exact h.resume hb hi rfl hr q hq1 h1 h2 h3

theorem keeps_decompress (p : Point) (s : State) : keeps .decompress p s := by
  cases p with
  | start =>
    intro h hb hi hw hk hf hp
    exact ⟨_, rfl, h.resume hb hi hw ⟨rfl, rfl, rfl, rfl, rfl, rfl⟩ (.magicIn 0 0) rfl
      (h.tables.congr ⟨rfl, rfl, rfl, rfl, rfl, rfl, rfl, rfl, rfl, rfl⟩) hf ⟨rfl, by decide⟩⟩
  | magicIn got v => intro h hb hi hw hk hf hp; exact ⟨_, rfl, bitBeat_keeps _ s h hb hi hf hp rfl⟩
  | tagIn slot made nb => intro h hb hi hw hk hf hp; exact ⟨_, rfl, bitBeat_keeps _ s h hb hi hf hp rfl⟩
  | symIn id made nb got v => intro h hb hi hw hk hf hp; exact ⟨_, rfl, bitBeat_keeps _ s h hb hi hf hp rfl⟩
  | walkIn cur cnt => intro h hb hi hw hk hf hp; exact ⟨_, rfl, bitBeat_keeps _ s h hb hi hf hp rfl⟩
  | walkPhase =>
    intro h hb hi hw hk hf hp
    refine ⟨_, rfl, ?_⟩
    have hok : ({ s with phase := .walk } : State).bitOk (.walkIn 0 0) :=
      ⟨h.tables.congr ⟨rfl, rfl, rfl, rfl, rfl, rfl, rfl, rfl, rfl, rfl⟩, hf, hp⟩
    obtain ⟨q, hq1, h1, h2, h3⟩ := runBits_ok s.upN.val _ _ hok rfl
    have hr := runBits_sameRun s.upN.val (.walkIn 0 0) { s with phase := .walk }
    exact h.resume hb hi hw hr q hq1 h1 h2 h3
  | drainPhase cnt =>
    intro h hb hi hw hk hf hp
    refine ⟨_, rfl, ?_⟩
    unfold State.startDrain
    dsimp only
    split
    · exact h.resume hb hi hw ⟨rfl, rfl, rfl, rfl, rfl, rfl⟩ .finishing rfl
        (h.tables.congr ⟨rfl, rfl, rfl, rfl, rfl, rfl, rfl, rfl, rfl, rfl⟩) hf trivial
    · exact h.resume hb hi hw ⟨rfl, rfl, rfl, rfl, rfl, rfl⟩ (.drainIn cnt) rfl
        (h.tables.congr ⟨rfl, rfl, rfl, rfl, rfl, rfl, rfl, rfl, rfl, rfl⟩) hf trivial
  | drainIn cnt =>
    intro h hb hi hw hk hf hp
    refine ⟨_, rfl, ?_⟩
    unfold drainBeat
    split
    · exact h
    · exact h.resume hb hi hw ⟨rfl, rfl, rfl, rfl, rfl, rfl⟩ .finishing rfl
        (h.tables.congr ⟨rfl, rfl, rfl, rfl, rfl, rfl, rfl, rfl, rfl, rfl⟩) hf trivial
    · exact h.resume hb hi hw ⟨rfl, rfl, rfl, rfl, rfl, rfl⟩ (.drainIn cnt) rfl
        (h.tables.congr ⟨rfl, rfl, rfl, rfl, rfl, rfl, rfl, rfl, rfl, rfl⟩) hf trivial
  | finishing => exact keeps_finishing _ _
  | raising code info => exact keeps_raising _ _ _ _
  | _ => intro _ _ _ _ _ hf _; exact absurd (show false = true from hf) (by decide)

/-- Every command keeps the invariant at every point of its procedure. -/
theorem procOf_keeps (i : Instr) (p : Point) (s : State) : keeps i p s := by
  cases i with
  | nop => exact keeps_nop p s
  | clear => exact keeps_clear p s
  | count => exact keeps_count p s
  | loadFreq idx => exact keeps_loadFreq idx p s
  | readFreq idx => exact keeps_readFreq idx p s
  | buildTree => exact keeps_buildTree p s
  | readNode wsel idx => exact keeps_readNode wsel idx p s
  | genCodes => exact keeps_genCodes p s
  | readCode wsel idx => exact keeps_readCode wsel idx p s
  | estimate force => exact keeps_estimate force p s
  | writeHeader => exact keeps_writeHeader p s
  | encode => exact keeps_encode p s
  | flush => exact keeps_flush p s
  | compress force => exact keeps_compress force p s
  | decompress => exact keeps_decompress p s

/-- Dispatch of a legal word (R83) keeps the invariant. -/
theorem dispatchLegal_keeps (i : Instr) (s : State) (h : s.Inv) (hb : s.busy = false) (hdec : decode (encode i) = .ok i) :
    (dispatchLegal i s).Inv := by
  obtain ⟨hp, hk⟩ := h.idle_is_empty hb
  have hrej : ∀ code : ErrCode, code ≠ .none → (s.beginDispatch.reject code (encode i)).Inv := by
    intro code hc
    refine .of_idle (h.tables.congr ⟨rfl, rfl, rfl, rfl, rfl, rfl, rfl, rfl, rfl, rfl⟩) hb hp hk ?_ ?_
    · intro hd; cases hd
    · intro he; exact absurd he hc
  rcases dispatchLegal_cases i s with ⟨-, e⟩ | ⟨-, -, e⟩ | ⟨hr, hpre, e⟩
  · rw [e]; exact hrej .range (by decide)
  · rw [e]; exact hrej .sequence (by decide)
  · rw [e]
    have ht : s.beginDispatch.TablesOk := h.tables.congr ⟨rfl, rfl, rfl, rfl, rfl, rfl, rfl, rfl, rfl, rfl⟩
    have hw : i.wellFormed = true := by rw [← inRange_eq_wellFormed]; exact hr
    have hclear : ∀ t : State, t.flagsClear = true → t.total = s.total → t.freq = s.freq → t.TablesOk :=
      fun t h1 h2 h3 => .of_clear (by rw [h2, h3]; exact h.total_eq_sum) h1
    have key : ∀ t : State, t.TablesOk → t.flagsAt i .start = true →
        t = accept i s.beginDispatch → (accept i s.beginDispatch).Inv := by
      intro t h1 h2 h3
      subst h3
      have hfr := atStart_frame i s.beginDispatch
      refine .of_running i .start h1 rfl ?_ ?_ ?_ ?_ hdec hw rfl h2 trivial
      · show (atStart i s.beginDispatch).done = false; rw [hfr]; rfl
      · show (atStart i s.beginDispatch).err = false; rw [hfr]; rfl
      · show (atStart i s.beginDispatch).error = .none; rw [hfr]; rfl
      · show (atStart i s.beginDispatch).errInfo = 0; rw [hfr]; rfl
    refine key _ ?_ ?_ rfl
    · cases i with
      | clear => exact hclear _ rfl rfl rfl
      | count => exact hclear _ rfl rfl rfl
      | loadFreq idx => exact hclear _ rfl rfl rfl
      | buildTree => exact hclear _ rfl rfl rfl
      | compress force => exact hclear _ rfl rfl rfl
      | decompress => exact hclear _ rfl rfl rfl
      | genCodes =>
        obtain ⟨h1, h2, h3, h4, h5, h6, h7⟩ := ht
        exact ⟨h1, (nomatch ·), (nomatch ·), (nomatch ·), h5, h6, (nomatch ·)⟩
      | estimate force =>
        obtain ⟨h1, h2, h3, h4, h5, h6, h7⟩ := ht
        exact ⟨h1, h2, (nomatch ·), (nomatch ·), h5, h6, h7⟩
      | _ => exact ht.congr ⟨rfl, rfl, rfl, rfl, rfl, rfl, rfl, rfl, rfl, rfl⟩
    · cases i <;> first | rfl | exact hpre

theorem illegal_keeps (w : Word) (s : State) (h : s.Inv) (hb : s.busy = false) : (dispatchIllegal w s).Inv := by
  obtain ⟨hp, hk⟩ := h.idle_is_empty hb
  refine .of_idle (h.tables.congr ⟨rfl, rfl, rfl, rfl, rfl, rfl, rfl, rfl, rfl, rfl⟩) hb hp hk ?_ ?_
  · intro hd; cases hd
  · intro he; cases he

/-- What changes neither the tables, the run nor the place in the procedure keeps the invariant. -/
theorem State.Inv.same {s t : State} (h : s.Inv) (h1 : s.sameTables t) (h2 : s.sameRun t) (h3 : t.phase = s.phase) (h4 : t.k = s.k) (h5 : t.stack = s.stack) (h6 : t.upEos = s.upEos) : t.Inv := by
  obtain ⟨e1, e2, e3, e4, e5, e6⟩ := h2
  cases hb : s.busy
  · obtain ⟨a, b⟩ := h.idle_is_empty hb
    refine .of_idle (h.tables.congr h1) (e1.trans hb) (h3.trans a) (h4.trans b) ?_ ?_
    · rw [e2, e3]; intro hd; exact (h.ends_exclude hd).1
    · rw [e4, e5]; exact h.no_error_no_info
  · obtain ⟨⟨i, p, g1, hw, g2, g3, g4⟩, -⟩ := h.running hb
    refine h.resume hb g1 hw ⟨e1, e2, e3, e4, e5, e6⟩ p (h4.trans g2) (h.tables.congr h1) ?_ ?_
    · obtain ⟨f1,f2,f3,f4,f5,f6,f7,f8,f9,f10⟩ := h1
      have : t.flagsAt i p = s.flagsAt i p := by
        unfold State.flagsAt State.flagsClear; rw [f6,f7,f8,f9,f10]
      rw [this]; exact g3
    · obtain ⟨f1,f2,f3,f4,f5,f6,f7,f8,f9,f10⟩ := h1
      unfold State.parseOk at g4 ⊢; rw [f3, h5, h6]; exact g4

end Sys2Proof.Machine
end

