-- ==== Sys2Proof/Laws/Runs.lean ====
section
/-! SUPPORT. Runs: how steps of the model follow one another, and the counting pass. -/

namespace Sys2Proof.Machine

/-! ## Steps in a row -/

theorem run_zero (s : State) : core.run 0 s = .next s := rfl

theorem run_step (M : Host.Core) {s t : M.State} (h : M.step s = .next t) (n : Nat) : M.run (n + 1) s = M.run n t := by
  simp only [Host.Core.run, h]

theorem run_fault (M : Host.Core) {s : M.State} {r : M.Fault} (h : M.step s = .fault r) (n : Nat) :
    M.run (n + 1) s = .fault r := by simp only [Host.Core.run, h]

theorem run_refused (M : Host.Core) {s : M.State} {r : M.Refusal} (h : M.step s = .refused r) (n : Nat) :
    M.run (n + 1) s = .refused r := by simp only [Host.Core.run, h]

theorem run_succ {s t : State} (h : step s = .next t) (n : Nat) : core.run (n + 1) s = core.run n t := run_step core h n

theorem run_one {s t : State} (h : step s = .next t) : core.run 1 s = .next t := run_succ h 0

theorem run_add {s t : State} (m n : Nat) (h : core.run m s = .next t) : core.run (m + n) s = core.run n t := by
  induction m generalizing s with
  | zero => cases h; rw [Nat.zero_add]
  | succ m ih =>
    cases e : step s with
    | next u =>
      rw [run_succ e] at h
      rw [show m + 1 + n = m + n + 1 by omega, run_succ e]
      exact ih h
    | fault r => rw [run_fault core e] at h; cases h
    | refused r => rw [run_refused core e] at h; cases h

theorem run_snoc {s t u : State} {m : Nat} (h : core.run m s = .next t) (h1 : step t = .next u) :
    core.run (m + 1) s = .next u := by rw [run_add m 1 h]; exact run_one h1

theorem State.reaches_refl (s : State) : s.reaches s := ⟨0, rfl⟩

theorem State.reaches_step {s t u : State} (h : step s = .next t) (h1 : t.reaches u) : s.reaches u := by
  obtain ⟨n, hn⟩ := h1
  exact ⟨n + 1, by rw [run_succ h]; exact hn⟩

theorem State.reaches_run {s t u : State} {m : Nat} (h : core.run m s = .next t) (h1 : t.reaches u) : s.reaches u := by
  obtain ⟨n, hn⟩ := h1
  exact ⟨m + n, by rw [run_add m n h]; exact hn⟩

/-- With no host action left, a running command takes its procedure's next step (R61). -/
theorem step_running {s : State} {i : Instr} {p : Point} (h : s.running i p) : step s = procOf i p s := by
  obtain ⟨h1, h2, h3, h4⟩ := h
  have e : step s = coreTurn s := by unfold step; rw [h1]
  rw [e]
  unfold coreTurn
  rw [h2, h3]
  exact exec_running i s p ⟨h2, h4⟩

/-- A `CMD` write of a command's word to an idle core dispatches the command (R83). -/
theorem step_cmdWrite {s : State} {w : Word} {i : Instr} {rest : List Event} (hw : decode w = .ok i)
    (hb : s.busy = false) (ha : s.agenda = .regWrite 0x08 w :: rest) :
    step s = .next (dispatchLegal i { s with agenda := rest }) := by
  have e : step s = cmdWrite w { s with agenda := rest } := by unfold step; rw [ha]; rfl
  rw [e]
  have hb' : ({ s with agenda := rest } : State).busy = false := hb
  generalize ({ s with agenda := rest } : State) = u at hb'
  unfold cmdWrite
  simp only [hb', hw, Bool.false_eq_true, if_false]
  exact exec_idle i u hb'

/-! ## The counting pass (R91) -/

/-- `FREQ` after counting the bytes. -/
def tally (bytes : List Byte) (v : Vector Word 256) : Vector Word 256 :=
  bytes.foldl (fun v b => freqSet v b.toNat (freqAt v b.toNat + 1)) v

theorem tally_cons (b : Byte) (bytes : List Byte) (v : Vector Word 256) :
    tally (b :: bytes) v = tally bytes (freqSet v b.toNat (freqAt v b.toNat + 1)) := rfl

/-- Each entry grows by the number of times its byte occurs. -/
theorem freqAt_tally (bytes : List Byte) (v : Vector Word 256) (b : Byte) :
    freqAt (tally bytes v) b.toNat = freqAt v b.toNat + BitVec.ofNat 32 (bytes.count b) := by
  induction bytes generalizing v with
  | nil => simp [tally]
  | cons a bytes ih =>
    rw [tally_cons, ih, freqAt_freqSet _ _ _ _ a.isLt]
    by_cases h : a = b
    · subst h
      simp only [List.count_cons_self, if_true]
      rw [Nat.add_comm, BitVec.ofNat_add, ← BitVec.add_assoc]; rfl
    · have h1 : b.toNat ≠ a.toNat := fun e => h (BitVec.eq_of_toNat_eq e.symm)
      rw [if_neg h1, List.count_cons_of_ne h]

/-- From a cleared table the entries are the counts, as long as they fit. -/
theorem freqAt_tally_zero (bytes : List Byte) (b : Byte) (h : bytes.length < 2 ^ 32) :
    (freqAt (tally bytes freqZero) b.toNat).toNat = bytes.count b := by
  rw [freqAt_tally, freqAt_freqZero]
  have := List.count_le_length (a := b) (l := bytes)
  simp
  omega

/-- The pass takes one byte at each step and counts it, as long as `TOTAL` does not overflow. -/
theorem run_countPass {i : Instr} {after : State → State}
    (hp : ∀ s, procOf i .countIn s = .next (countBeat after s)) (bytes : List Byte) :
    ∀ (s : State) (rest : List Beat), s.running i .countIn → s.inQ = byteBeats bytes ++ rest →
      s.total.toNat + bytes.length < 2 ^ 32 →
      core.run bytes.length s = .next { s with
        inQ := rest, freq := tally bytes s.freq, total := s.total + BitVec.ofNat 32 bytes.length } := by
  induction bytes with
  | nil =>
    intro s rest h hq hl
    have hq' : s.inQ = rest := hq
    have e0 : s.total + BitVec.ofNat 32 0 = s.total := by simp
    show Host.Outcome.next s = _
    rw [← hq']
    simp only [tally, List.foldl_nil, List.length_nil, e0]
    rfl
  | cons b bytes ih =>
    intro s rest h hq hl
    have hq' : s.inQ = .byte b :: (byteBeats bytes ++ rest) := hq
    have hc : s.total.toNat ≠ Config.countMax := by
      simp only [List.length_cons] at hl
      show s.total.toNat ≠ 2 ^ 32 - 1
      omega
    have e : step s = .next ((State.countByte b { s with inQ := byteBeats bytes ++ rest }).suspend .countIn) := by
      rw [step_running h, hp]
      unfold countBeat
      rw [hq']
      simp only [hc, if_false]
    show core.run (bytes.length + 1) s = _
    rw [run_succ e]
    refine (ih ((State.countByte b { s with inQ := byteBeats bytes ++ rest }).suspend .countIn) rest ⟨h.1, h.2.1, h.2.2.1, rfl⟩ rfl ?_).trans ?_
    rotate_left
    · have h1 : s.total + 1 + BitVec.ofNat 32 bytes.length = s.total + BitVec.ofNat 32 (bytes.length + 1) := by
        rw [Nat.add_comm, BitVec.ofNat_add, ← BitVec.add_assoc]; rfl
      obtain ⟨_, _, _, hk⟩ := h
      simp only [State.countByte, State.suspend, tally_cons, List.length_cons]
      rw [← h1, ← hk]
    · have : (s.total + 1).toNat = s.total.toNat + 1 := by
        simp only [List.length_cons] at hl
        rw [BitVec.toNat_add]
        show (s.total.toNat + 1) % 2 ^ 32 = _
        omega
      simp only [List.length_cons] at hl
      show (s.total + 1).toNat + bytes.length < 2 ^ 32
      omega

end Sys2Proof.Machine
end

