-- ==== Sys2Proof/Laws/Feed.lean ====
section
/-! SUPPORT. The bits of a stream as DECOMPRESS takes them: the bit loop over whole bytes, the header parse over the bits of a tree, and the walk over codes (44_header_codec.md rules R113 to R118, 46_decompressor.md rule R130). -/

namespace Sys2Proof.Machine

/-! ## The bit loop over a bit string -/

/-- The procedure given the bits one after another: where it asks for the next one or stops, and the bits it left. -/
def feed : List Bool → Point → State → BitStep × List Bool
  | [], p, s => (.wants p s, [])
  | b :: bits, p, s =>
    match onBit p b s with
    | .wants p' s' => feed bits p' s'
    | .stops p' s' => (.stops p' s', bits)

theorem feed_wants {b : Bool} {p p' : Point} {s s' : State} (h : onBit p b s = .wants p' s') (bits : List Bool) :
    feed (b :: bits) p s = feed bits p' s' := by
  simp only [feed, h]

theorem feed_stops {b : Bool} {p p' : Point} {s s' : State} (h : onBit p b s = .stops p' s') (bits : List Bool) :
    feed (b :: bits) p s = (.stops p' s', bits) := by
  simp only [feed, h]

/-- The state with another place in the input stream. -/
def State.atInput (q : List Beat) (buf : BitVec 8) (n : Fin 9) (bytes : BitVec 64) (k : Option Point) (s : State) : State :=
  { s with inQ := q, upBuf := buf, upN := n, upBytes := bytes, k := k }

/-- A bit step with another place in the input stream. -/
def BitStep.atInput (q : List Beat) (buf : BitVec 8) (n : Fin 9) (bytes : BitVec 64) (k : Option Point) : BitStep → BitStep
  | .wants p s => .wants p (s.atInput q buf n bytes k)
  | .stops p s => .stops p (s.atInput q buf n bytes k)

theorem headerDone_atInput (q : List Beat) (buf : BitVec 8) (n : Fin 9) (bytes : BitVec 64) (k : Option Point) (made nb : Nat) (s : State) :
    headerDone made nb (s.atInput q buf n bytes k) = (headerDone made nb s).atInput q buf n bytes k := by
  unfold headerDone
  dsimp only [State.atInput]
  split
  · split <;> rfl
  · rfl

theorem nextSlot_atInput (q : List Beat) (buf : BitVec 8) (n : Fin 9) (bytes : BitVec 64) (k : Option Point) (made nb : Nat) (s : State) :
    nextSlot made nb (s.atInput q buf n bytes k) = (nextSlot made nb s).atInput q buf n bytes k := by
  unfold nextSlot
  have e : (s.atInput q buf n bytes k).stack = s.stack := rfl
  rw [e]
  split
  · rfl
  · exact headerDone_atInput q buf n bytes k made nb s

theorem magicBit_atInput (q : List Beat) (buf : BitVec 8) (n : Fin 9) (bytes : BitVec 64) (k : Option Point) (got v : Nat) (b : Bool)
    (s : State) : magicBit got v b (s.atInput q buf n bytes k) = (magicBit got v b s).atInput q buf n bytes k := by
  unfold magicBit
  dsimp only
  split
  · rfl
  · split
    · exact nextSlot_atInput q buf n bytes k 0 32 { s with node := nodesInvalid s.node, stack := [.slot .top] }
    · rfl

theorem tagBit_atInput (q : List Beat) (buf : BitVec 8) (n : Fin 9) (bytes : BitVec 64) (k : Option Point) (slot : Slot) (made nb : Nat)
    (b : Bool) (s : State) :
    tagBit slot made nb b (s.atInput q buf n bytes k) = (tagBit slot made nb b s).atInput q buf n bytes k := by
  unfold tagBit
  dsimp only
  split
  · rfl
  · split
    · rfl
    · exact nextSlot_atInput q buf n bytes k (made + 1) (nb + 1)
        { s with
          node := nodeSet (linkChild slot (BitVec.ofNat 10 made) s.node) (BitVec.ofNat 10 made) ⟨true, false, 0, 0, 0, 0⟩
          stack := .slot (.left (BitVec.ofNat 10 made)) :: .slot (.right (BitVec.ofNat 10 made)) :: s.stack }

theorem symBit_atInput (q : List Beat) (buf : BitVec 8) (n : Fin 9) (bytes : BitVec 64) (k : Option Point) (id : NodeIdx)
    (made nb got v : Nat) (b : Bool) (s : State) :
    symBit id made nb got v b (s.atInput q buf n bytes k) = (symBit id made nb got v b s).atInput q buf n bytes k := by
  unfold symBit
  dsimp only
  split
  · rfl
  · split
    · rfl
    · exact nextSlot_atInput q buf n bytes k made (nb + 9)
        { s with node := nodeSet s.node id ⟨true, true, BitVec.ofNat 9 (2 * v + b.toNat), 0, 0, 0⟩ }

theorem walkBit_atInput (q : List Beat) (buf : BitVec 8) (n : Fin 9) (bytes : BitVec 64) (k : Option Point) (cur : NodeIdx) (cnt : Nat)
    (b : Bool) (s : State) :
    walkBit cur cnt b (s.atInput q buf n bytes k) = (walkBit cur cnt b s).atInput q buf n bytes k := by
  unfold walkBit
  dsimp only [State.atInput]
  repeat' split
  all_goals rfl

/-- What a bit does does not depend on the place in the input stream. -/
theorem onBit_atInput (q : List Beat) (buf : BitVec 8) (n : Fin 9) (bytes : BitVec 64) (k : Option Point) (p : Point) (b : Bool) (s : State) :
    onBit p b (s.atInput q buf n bytes k) = (onBit p b s).atInput q buf n bytes k := by
  unfold onBit
  split
  · exact magicBit_atInput ..
  · exact tagBit_atInput ..
  · exact symBit_atInput ..
  · exact walkBit_atInput ..
  · rfl

theorem procOf_asks {p : Point} (h : p.asks = true) (s : State) : procOf .decompress p s = .next (bitBeat p s) := by
  cases p <;> first | rfl | cases h

/-- The bits of the unpacker's byte not yet delivered (R42). -/
theorem msbBits_getLsbD (n : Nat) (b : BitVec 8) : msbBits (n + 1) b.toNat = b.getLsbD n :: msbBits n b.toNat := msbBits_succ n b.toNat

/-- The bit loop over the n bits that the unpacker holds is the procedure given those bits, one after another. -/
theorem runBits_feed (n : Nat) (hn : n ≤ 8) (p : Point) (s : State) (q : List Beat) (buf : BitVec 8)
    (m : Fin 9) (bytes : BitVec 64) (k : Option Point) (hm : m.val = n) :
    ∃ m' : Fin 9,
      (s.upEos = false → ∀ p' s', feed (msbBits n buf.toNat) p s = (.wants p' s', []) →
        m'.val = 0 ∧ runBits n p (s.atInput q buf m bytes k) = s'.atInput q buf m' bytes (some p')) ∧
      (∀ p' s' left, feed (msbBits n buf.toNat) p s = (.stops p' s', left) →
        msbBits m'.val buf.toNat = left ∧ runBits n p (s.atInput q buf m bytes k) = s'.atInput q buf m' bytes (some p')) := by
  induction n generalizing p s m with
  | zero =>
    refine ⟨m, ?_, ?_⟩
    · intro he p' s' h
      simp only [msbBits_zero, feed, Prod.mk.injEq, BitStep.wants.injEq, and_true] at h
      obtain ⟨rfl, rfl⟩ := h
      refine ⟨hm, ?_⟩
      unfold runBits
      have : (s.atInput q buf m bytes k).upEos = false := he
      rw [this]; rfl
    · intro p' s' left h
      simp [feed] at h
  | succ n ih =>
    rw [msbBits_getLsbD]
    have hlt : n < 9 := by omega
    have e1 : ({ s.atInput q buf m bytes k with upN := Fin.ofNat 9 n } : State) = s.atInput q buf ⟨n, hlt⟩ bytes k := by
      have : Fin.ofNat 9 n = ⟨n, hlt⟩ := Fin.ext (Nat.mod_eq_of_lt hlt)
      rw [this]; rfl
    have e2 : runBits (n + 1) p (s.atInput q buf m bytes k) =
        match (onBit p (buf.getLsbD n) s).atInput q buf ⟨n, hlt⟩ bytes k with
        | .wants p' s' => runBits n p' s'
        | .stops p' s' => s'.suspend p' := by
      rw [← onBit_atInput, ← e1]; rfl
    cases e : onBit p (buf.getLsbD n) s with
    | wants p1 s1 =>
      obtain ⟨m', h1, h2⟩ := ih (by omega) p1 s1 ⟨n, hlt⟩ rfl
      refine ⟨m', ?_, ?_⟩
      · intro he p' s' h
        rw [feed_wants e] at h
        rw [e2, e]
        have he1 : s1.upEos = false := by
          have := onBit_frame p (buf.getLsbD n) s
          rw [e] at this
          unfold BitFrame at this
          exact (congrArg State.upEos this).trans he
        exact h1 he1 p' s' h
      · intro p' s' left h
        rw [feed_wants e] at h
        rw [e2, e]
        exact h2 p' s' left h
    | stops p1 s1 =>
      refine ⟨⟨n, hlt⟩, ?_, ?_⟩
      · intro _ p' s' h
        rw [feed_stops e] at h
        simp at h
      · intro p' s' left h
        rw [feed_stops e] at h
        simp only [Prod.mk.injEq, BitStep.stops.injEq] at h
        obtain ⟨⟨rfl, rfl⟩, rfl⟩ := h
        refine ⟨rfl, ?_⟩
        rw [e2, e]; rfl

/-! ## Bit strings one after another -/

/-- Where the procedure asks for another bit, it has taken them all. -/
theorem feed_wants_all {bits : List Bool} {p p' : Point} {s s' : State} {left : List Bool}
    (h : feed bits p s = (.wants p' s', left)) : left = [] := by
  induction bits generalizing p s with
  | nil => simp only [feed, Prod.mk.injEq] at h; exact h.2.symm
  | cons b bits ih =>
    cases e : onBit p b s with
    | wants p1 s1 => rw [feed_wants e] at h; exact ih h
    | stops p1 s1 => rw [feed_stops e] at h; simp at h

theorem feed_append_wants {xs : List Bool} {p p' : Point} {s s' : State} (h : feed xs p s = (.wants p' s', []))
    (ys : List Bool) : feed (xs ++ ys) p s = feed ys p' s' := by
  induction xs generalizing p s with
  | nil =>
    simp only [feed, Prod.mk.injEq, BitStep.wants.injEq, and_true] at h
    obtain ⟨rfl, rfl⟩ := h; rfl
  | cons b xs ih =>
    cases e : onBit p b s with
    | wants p1 s1 => rw [feed_wants e] at h; rw [List.cons_append, feed_wants e]; exact ih h
    | stops p1 s1 => rw [feed_stops e] at h; simp at h

theorem feed_append_stops {xs : List Bool} {p p' : Point} {s s' : State} {left : List Bool}
    (h : feed xs p s = (.stops p' s', left)) (ys : List Bool) : feed (xs ++ ys) p s = (.stops p' s', left ++ ys) := by
  induction xs generalizing p s with
  | nil => simp [feed] at h
  | cons b xs ih =>
    cases e : onBit p b s with
    | wants p1 s1 => rw [feed_wants e] at h; rw [List.cons_append, feed_wants e]; exact ih h
    | stops p1 s1 =>
      rw [feed_stops e] at h
      simp only [Prod.mk.injEq, BitStep.stops.injEq] at h
      obtain ⟨⟨rfl, rfl⟩, rfl⟩ := h
      rw [List.cons_append, feed_stops e]

theorem feed_frame {bits : List Bool} {p : Point} {s : State} : BitFrame s (feed bits p s).1.state := by
  induction bits generalizing p s with
  | nil => exact rfl
  | cons b bits ih =>
    have h := onBit_frame p b s
    cases e : onBit p b s with
    | wants p1 s1 =>
      rw [feed_wants e]
      rw [e] at h
      have h2 := ih (p := p1) (s := s1)
      unfold BitFrame at *
      rw [h2]
      change s1 = _ at h
      rw [h]
    | stops p1 s1 => rw [feed_stops e]; rw [e] at h; exact h

theorem feed_asks {bits : List Bool} {p p' : Point} {s s' : State} {left : List Bool} (hp : p.asks = true)
    (h : feed bits p s = (.wants p' s', left)) : p'.asks = true := by
  induction bits generalizing p s with
  | nil =>
    simp only [feed, Prod.mk.injEq, BitStep.wants.injEq] at h
    rw [← h.1.1]; exact hp
  | cons b bits ih =>
    cases e : onBit p b s with
    | wants p1 s1 => rw [feed_wants e] at h; exact ih (onBit_wants e) h
    | stops p1 s1 => rw [feed_stops e] at h; simp at h

/-- The bits do the same wherever the input stream stands. -/
theorem feed_atInput (q : List Beat) (buf : BitVec 8) (n : Fin 9) (bytes : BitVec 64) (k : Option Point)
    (bits : List Bool) (p : Point) (s : State) :
    feed bits p (s.atInput q buf n bytes k) = ((feed bits p s).1.atInput q buf n bytes k, (feed bits p s).2) := by
  induction bits generalizing p s with
  | nil => rfl
  | cons b bits ih =>
    have h := onBit_atInput q buf n bytes k p b s
    cases e : onBit p b s with
    | wants p1 s1 => rw [e] at h; rw [feed_wants h, feed_wants e]; exact ih p1 s1
    | stops p1 s1 => rw [e] at h; rw [feed_stops h, feed_stops e]; rfl

/-! ## Whole bytes -/

/-- A byte taken at a point that asks for a bit (R113). -/
theorem step_byte {s : State} {p : Point} {b : Byte} {rest : List Beat} (h : s.running .decompress p) (hp : p.asks = true)
    (hq : s.inQ = .byte b :: rest) :
    step s = .next (runBits 8 p (s.atInput rest b 8 (s.upBytes + 1) s.k)) := by
  rw [step_running h, procOf_asks hp]
  unfold bitBeat
  rw [hq]; rfl

/-- The steps that take the bytes of a stream: the procedure given all their bits asks for more, or it stops within the last
byte. -/
theorem run_feed (stream : List Byte) :
    ∀ (s : State) (p : Point) (rest : List Beat), s.running .decompress p → p.asks = true → s.upEos = false →
      s.inQ = byteBeats stream ++ rest →
      (∀ p' s', feed (streamBits stream) p s = (.wants p' s', []) →
        ∃ (buf : BitVec 8) (n : Fin 9), (s.upN = 0 → n = 0) ∧
          core.run stream.length s =
            .next (s'.atInput rest buf n (s.upBytes + BitVec.ofNat 64 stream.length) (some p'))) ∧
      (∀ p' s' left, feed (streamBits stream) p s = (.stops p' s', left) → left.length < 8 →
        ∃ (buf : BitVec 8) (n : Fin 9), msbBits n.val buf.toNat = left ∧
          core.run stream.length s =
            .next (s'.atInput rest buf n (s.upBytes + BitVec.ofNat 64 stream.length) (some p'))) := by
  induction stream with
  | nil =>
    intro s p rest h hp he hq
    refine ⟨?_, ?_⟩
    · intro p' s' hf
      simp only [streamBits_nil, feed, Prod.mk.injEq, BitStep.wants.injEq, and_true] at hf
      obtain ⟨rfl, rfl⟩ := hf
      refine ⟨s.upBuf, s.upN, id, ?_⟩
      have hq' : s.inQ = rest := hq
      have hk : s.k = some p := h.2.2.2
      have e0 : s.upBytes + BitVec.ofNat 64 0 = s.upBytes := by simp
      show Host.Outcome.next s = _
      rw [List.length_nil, e0, ← hq', ← hk]
      rfl
    · intro p' s' left hf
      simp [feed] at hf
  | cons b stream ih =>
    intro s p rest h hp he hq
    have hs := step_byte h hp (rest := byteBeats stream ++ rest) hq
    obtain ⟨m', h1, h2⟩ := runBits_feed 8 (by omega) p s (byteBeats stream ++ rest) b 8 (s.upBytes + 1) s.k rfl
    have eb : s.upBytes + 1 + BitVec.ofNat 64 stream.length = s.upBytes + BitVec.ofNat 64 (stream.length + 1) := by
      rw [Nat.add_comm, BitVec.ofNat_add, ← BitVec.add_assoc]; rfl
    cases e : feed (byteBits b) p s with
    | mk r left =>
      cases r with
      | wants p1 s1 =>
        have hl := feed_wants_all e
        subst hl
        obtain ⟨hm, hr⟩ := h1 he p1 s1 e
        have hfr : BitFrame s s1 := by have := feed_frame (bits := byteBits b) (p := p) (s := s); rw [e] at this; exact this
        unfold BitFrame at hfr
        have hrun : (s1.atInput (byteBeats stream ++ rest) b m' (s.upBytes + 1) (some p1)).running .decompress p1 := by
          refine ⟨?_, ?_, ?_, rfl⟩
          · exact (congrArg State.agenda hfr).trans h.1
          · exact (congrArg State.busy hfr).trans h.2.1
          · exact (congrArg (fun t => decode (State.curCmd t)) hfr).trans h.2.2.1
        obtain ⟨i1, i2⟩ := ih _ p1 rest hrun (feed_asks hp e) ((congrArg State.upEos hfr).trans he) rfl
        have ef : feed (streamBits (b :: stream)) p s = feed (streamBits stream) p1 s1 := feed_append_wants e _
        have em : m' = 0 := Fin.ext hm
        rw [ef]
        refine ⟨?_, ?_⟩
        · intro p' s' hf
          obtain ⟨buf, n, hn, hrr⟩ := i1 p' (s'.atInput _ b m' (s.upBytes + 1) (some p1)) (by rw [feed_atInput, hf]; rfl)
          refine ⟨buf, n, fun _ => hn em, ?_⟩
          rw [List.length_cons, run_succ (hs.trans (by rw [hr]))]
          rw [hrr, ← eb]; rfl
        · intro p' s' left hf hl
          obtain ⟨buf, n, hn, hrr⟩ := i2 p' (s'.atInput _ b m' (s.upBytes + 1) (some p1)) left (by rw [feed_atInput, hf]; rfl) hl
          refine ⟨buf, n, hn, ?_⟩
          rw [List.length_cons, run_succ (hs.trans (by rw [hr]))]
          rw [hrr, ← eb]; rfl
      | stops p1 s1 =>
        obtain ⟨hm, hr⟩ := h2 p1 s1 left e
        have ef : feed (streamBits (b :: stream)) p s = (.stops p1 s1, left ++ streamBits stream) := feed_append_stops e _
        rw [ef]
        refine ⟨fun p' s' hf => by simp at hf, ?_⟩
        intro p' s' left' hf hl
        simp only [Prod.mk.injEq, BitStep.stops.injEq] at hf
        obtain ⟨⟨rfl, rfl⟩, rfl⟩ := hf
        have hnil : stream = [] := by
          cases stream with
          | nil => rfl
          | cons c stream =>
            simp only [List.length_append, streamBits_cons, byteBits_length] at hl
            omega
        subst hnil
        refine ⟨b, m', by rw [hm]; simp, ?_⟩
        show core.run (0 + 1) s = _
        rw [run_succ (hs.trans (by rw [hr]))]
        rfl

end Sys2Proof.Machine
end

