-- ==== Sys2Proof/Laws/Passes.lean ====
section
/-! SUPPORT. The encode pass, and the output stream of bits pushed and flushed (44_header_codec.md rules R110, R111, 45_compressor.md rules R125, R127). -/

namespace Sys2Proof.Machine

/-! ## The packer -/

/-- The packer does not see the input stream nor the place in the procedure. -/
theorem pushBits_atPhase (ph : Phase) (q : List Beat) (k : Option Point) (s : State) (p : List Bool) :
    State.pushBits { s with phase := ph, inQ := q, k := k } p = { s.pushBits p with phase := ph, inQ := q, k := k } := by
  induction p generalizing s with
  | nil => rfl
  | cons b p ih =>
    have h1 : State.pushBit { s with phase := ph, inQ := q, k := k } b = { s.pushBit b with phase := ph, inQ := q, k := k } := by
      unfold State.pushBit
      dsimp only
      split <;> rfl
    show State.pushBits (State.pushBit { s with phase := ph, inQ := q, k := k } b) p =
      { (s.pushBit b).pushBits p with phase := ph, inQ := q, k := k }
    rw [h1]
    exact ih (s.pushBit b)

theorem pushBits_atPoint (q : List Beat) (k : Option Point) (s : State) (p : List Bool) :
    State.pushBits { s with inQ := q, k := k } p = { s.pushBits p with inQ := q, k := k } := by
  have h := pushBits_atPhase s.phase q k s p
  have hph : (s.pushBits p).phase = s.phase := by rw [pushBits_frame s p]
  refine h.trans ?_
  rw [← hph]

theorem streamBits_length (bytes : List Byte) : (streamBits bytes).length = 8 * bytes.length := by
  induction bytes with
  | nil => rfl
  | cons b bytes ih => rw [streamBits_cons, List.length_append, byteBits_length, ih, List.length_cons]; omega

/-- Bits pushed and then flushed: the pending bits, the bits pushed, and zeros to a whole byte, then `End` (R110, R111). -/
theorem flush_pushBits (s : State) (p : List Bool) :
    ∃ out, (s.pushBits p).flushPacker =
        { s with outQ := s.outQ ++ byteBeats out ++ [.endBeat], pkAcc := 0, pkN := 0 } ∧
      streamBits out = s.pending ++ p ++ padBits (s.pending ++ p).length := by
  obtain ⟨b1, acc, n, h1, e1⟩ := pushBits_spec s p
  obtain ⟨b2, h2, e2⟩ := flushPacker_spec (s.pushBits p)
  refine ⟨b1 ++ b2, ?_, ?_⟩
  · rw [h2, h1, byteBeats_append, List.append_assoc, List.append_assoc, List.append_assoc, List.append_assoc]
  · have hp : (s.pushBits p).pending = msbBits n.val acc.toNat := by rw [h1]; rfl
    have hn : (s.pushBits p).pkN = n := by rw [h1]
    have hlen := congrArg List.length e1
    rw [List.length_append (as := streamBits b1), streamBits_length, msbBits_length] at hlen
    rw [streamBits_append, e2, hp, hn, ← List.append_assoc, ← e1, hlen]
    unfold padBits
    rw [Nat.mul_add_mod, Nat.mod_eq_of_lt n.isLt]

/-! ## The encode pass (R125) -/

theorem CodeEntry.path_length (c : CodeEntry) : c.path.length = c.len.toNat := by simp [CodeEntry.path]

/-- The pass takes one byte at each step and writes its code. -/
theorem run_encodePass {i : Instr} (hp : ∀ h nb s, procOf i (.encodeIn h nb) s = .next (encodeBeat h nb s)) (bytes : List Byte) :
    ∀ (s : State) (h nb : Nat) (rest : List Beat), s.running i (.encodeIn h nb) → s.inQ = byteBeats bytes ++ rest →
      (∀ b ∈ bytes, (codeAt s.code b.toNat).valid = true) →
      core.run bytes.length s = .next { s.pushBits (bytes.flatMap (fun b => (codeAt s.code b.toNat).path)) with
        inQ := rest
        k := some (.encodeIn h (nb + (bytes.flatMap (fun b => (codeAt s.code b.toNat).path)).length)) } := by
  induction bytes with
  | nil =>
    intro s h nb rest hr hq _
    obtain ⟨_, _, _, hk⟩ := hr
    have hq' : s.inQ = rest := hq
    show Host.Outcome.next s = .next { s with inQ := rest, k := some (.encodeIn h (nb + 0)) }
    rw [Nat.add_zero, ← hq', ← hk]
  | cons b bytes ih =>
    intro s h nb rest hr hq hv
    have hq' : s.inQ = .byte b :: (byteBeats bytes ++ rest) := hq
    have hs : step s = .next { s.pushBits (codeAt s.code b.toNat).path with
        inQ := byteBeats bytes ++ rest, k := some (.encodeIn h (nb + (codeAt s.code b.toNat).len.toNat)) } := by
      rw [step_running hr, hp]
      unfold encodeBeat
      rw [hq']
      simp only [hv b List.mem_cons_self, if_true]
      have := pushBits_atPoint (byteBeats bytes ++ rest) s.k s (codeAt s.code b.toNat).path
      show Host.Outcome.next (State.suspend _ (State.pushBits { s with inQ := byteBeats bytes ++ rest, k := s.k } _)) = _
      rw [this]; rfl
    have hf := pushBits_frame s (codeAt s.code b.toNat).path
    have hcode : (s.pushBits (codeAt s.code b.toNat).path).code = s.code := by rw [hf]
    show core.run (bytes.length + 1) s = _
    rw [run_succ hs]
    refine (ih { s.pushBits (codeAt s.code b.toNat).path with
        inQ := byteBeats bytes ++ rest, k := some (.encodeIn h (nb + (codeAt s.code b.toNat).len.toNat)) } h _ rest
        ⟨?_, ?_, ?_, rfl⟩ rfl ?_).trans ?_
    · exact (congrArg State.agenda hf).trans hr.1
    · exact (congrArg State.busy hf).trans hr.2.1
    · exact (congrArg (fun t => decode (State.curCmd t)) hf).trans hr.2.2.1
    · intro c hc
      show (codeAt (s.pushBits _).code c.toNat).valid = true
      rw [hcode]; exact hv c (List.mem_cons_of_mem _ hc)
    · show Host.Outcome.next ({ State.pushBits { s.pushBits (codeAt s.code b.toNat).path with
          inQ := byteBeats bytes ++ rest, k := some (.encodeIn h (nb + (codeAt s.code b.toNat).len.toNat)) }
          (bytes.flatMap (fun c => (codeAt (s.pushBits (codeAt s.code b.toNat).path).code c.toNat).path)) with
          inQ := rest
          k := some (.encodeIn h (nb + (codeAt s.code b.toNat).len.toNat +
            (bytes.flatMap (fun c => (codeAt (s.pushBits (codeAt s.code b.toNat).path).code c.toNat).path)).length)) } : State) = _
      rw [pushBits_atPoint, hcode, ← pushBits_append, List.flatMap_cons, List.length_append, CodeEntry.path_length, Nat.add_assoc]
      rfl

/-- The whole pass, up to the flush: the codes of the bytes and the code of `PSEUDO_EOF` (R125). -/
theorem run_encodeBody {i : Instr} (hp : ∀ h nb s, procOf i (.encodeIn h nb) s = .next (encodeBeat h nb s)) (bytes : List Byte)
    (s : State) (h nb : Nat) (rest : List Beat) (hr : s.running i (.encodeIn h nb))
    (hq : s.inQ = byteBeats bytes ++ .endBeat :: rest) (hv : ∀ b ∈ bytes, (codeAt s.code b.toNat).valid = true) :
    core.run (bytes.length + 1) s = .next { s.pushBits (bodyBits s.code bytes) with
      inQ := rest, k := some (.flushPhase h (nb + (bodyBits s.code bytes).length)) } := by
  have h1 := run_encodePass hp bytes s h nb (.endBeat :: rest) hr hq hv
  have hf := pushBits_frame s (bytes.flatMap (fun b => (codeAt s.code b.toNat).path))
  generalize hbits : bytes.flatMap (fun b => (codeAt s.code b.toNat).path) = bits at h1 hf
  have hcode : (s.pushBits bits).code = s.code := by rw [hf]
  refine run_snoc h1 ?_
  have hrun : State.running { s.pushBits bits with inQ := .endBeat :: rest, k := some (.encodeIn h (nb + bits.length)) }
      i (.encodeIn h (nb + bits.length)) :=
    ⟨(congrArg State.agenda hf).trans hr.1, (congrArg State.busy hf).trans hr.2.1,
      (congrArg (fun t => decode (State.curCmd t)) hf).trans hr.2.2.1, rfl⟩
  rw [step_running hrun, hp]
  have hb : bodyBits s.code bytes = bits ++ (codeAt s.code 256).path := by rw [← hbits]; rfl
  rw [hb, pushBits_append, List.length_append, CodeEntry.path_length, ← Nat.add_assoc]
  have := pushBits_atPoint rest (some (.encodeIn h (nb + bits.length))) (s.pushBits bits) (codeAt s.code 256).path
  show Host.Outcome.next (State.suspend (.flushPhase h (nb + bits.length + (codeAt (s.pushBits bits).code 256).len.toNat))
    (State.pushBits { s.pushBits bits with inQ := rest, k := some (.encodeIn h (nb + bits.length)) }
      (codeAt (s.pushBits bits).code 256).path)) = _
  rw [hcode, this]
  rfl

/-- The whole of pass 2 with its flush, which fills the last byte with zeros and sends `End` (R125, R127, R128). -/
theorem run_encodeFlush {i : Instr} (hp : ∀ h nb s, procOf i (.encodeIn h nb) s = .next (encodeBeat h nb s))
    (hf : ∀ h e s, procOf i (.flushPhase h e) s = .next (s.flushBody h e)) (bytes : List Byte)
    (s : State) (h : Nat) (rest : List Beat) (hr : s.running i (.encodeIn h 0))
    (hq : s.inQ = byteBeats bytes ++ .endBeat :: rest) (hv : ∀ b ∈ bytes, (codeAt s.code b.toNat).valid = true) :
    ∃ out, core.run (bytes.length + 2) s = .next { s with
        inQ := rest, outQ := s.outQ ++ byteBeats out ++ [.endBeat], pkAcc := 0, pkN := 0, phase := .flush
        result := BitVec.ofNat 64 (h + (bodyBits s.code bytes).length), k := some .finishing } ∧
      streamBits out = s.pending ++ bodyBits s.code bytes ++ padBits (s.pending ++ bodyBits s.code bytes).length := by
  have h1 := run_encodeBody hp bytes s h 0 rest hr hq hv
  rw [Nat.zero_add] at h1
  have hfr := pushBits_frame s (bodyBits s.code bytes)
  generalize bodyBits s.code bytes = body at h1 hfr ⊢
  have hrun : State.running { s.pushBits body with inQ := rest, k := some (.flushPhase h body.length) } i (.flushPhase h body.length) :=
    ⟨(congrArg State.agenda hfr).trans hr.1, (congrArg State.busy hfr).trans hr.2.1,
      (congrArg (fun t => decode (State.curCmd t)) hfr).trans hr.2.2.1, rfl⟩
  obtain ⟨out, ho, hs⟩ := flush_pushBits { s with phase := .flush, inQ := rest, k := some (.flushPhase h body.length) } body
  rw [pushBits_atPhase] at ho
  refine ⟨out, run_snoc h1 ?_, hs⟩
  rw [step_running hrun, hf]
  show Host.Outcome.next (State.suspend .finishing
    { State.flushPacker { s.pushBits body with phase := .flush, inQ := rest, k := some (.flushPhase h body.length) } with
      result := BitVec.ofNat 64 (h + body.length) }) = _
  rw [ho]
  rfl

end Sys2Proof.Machine
end

