-- ==== Sys2Proof/Laws/PerInstr.lean ====
section
/-! SUPPORT. The encoding of each command, field by field (30_encoding.md rule R71). -/

namespace Sys2Proof.Laws

/-- A word put together as R71 lays it out gives its fields back, and its reserved bits are 0. -/
theorem fields_of_word (op : BitVec 8) (f : BitVec 1) (wsel : BitVec 4) (idx : BitVec 10) :
    let w : Word := op ++ f ++ 0#3 ++ wsel ++ 0#6 ++ idx
    w.extractLsb' 24 8 = op ∧ w.extractLsb' 23 1 = f ∧ w.extractLsb' 20 3 = 0 ∧ w.extractLsb' 16 4 = wsel ∧
      w.extractLsb' 10 6 = 0 ∧ w.extractLsb' 0 10 = idx := by
  refine ⟨?_, ?_, ?_, ?_, ?_, ?_⟩ <;>
    (apply BitVec.eq_of_getLsbD_eq
     intro i hi
     simp only [BitVec.getLsbD_extractLsb', BitVec.getLsbD_append, hi, decide_true, Bool.true_and]
     repeat' split
     all_goals first
       | omega
       | simp
       | (congr 1; omega))

namespace EncodingRow

/-- The word of the command carries its opcode and its operands in the fields of R71, and 0 in every reserved bit. -/
def Statement (i : Instr) : Prop :=
  opField (encode i) = opcodeOf i ∧ (encode i).extractLsb' 23 1 = forceOf i ∧ (encode i).extractLsb' 20 3 = 0 ∧
    wselField (encode i) = wselOf i ∧ (encode i).extractLsb' 10 6 = 0 ∧ idxField (encode i) = idxOf i

theorem nop : Statement .nop := fields_of_word _ _ _ _
theorem clear : Statement .clear := fields_of_word _ _ _ _
theorem count : Statement .count := fields_of_word _ _ _ _
theorem loadFreq (idx : BitVec 10) : Statement (.loadFreq idx) := fields_of_word _ _ _ _
theorem readFreq (idx : BitVec 10) : Statement (.readFreq idx) := fields_of_word _ _ _ _
theorem buildTree : Statement .buildTree := fields_of_word _ _ _ _
theorem readNode (wsel : BitVec 4) (idx : BitVec 10) : Statement (.readNode wsel idx) := fields_of_word _ _ _ _
theorem genCodes : Statement .genCodes := fields_of_word _ _ _ _
theorem readCode (wsel : BitVec 4) (idx : BitVec 10) : Statement (.readCode wsel idx) := fields_of_word _ _ _ _
theorem estimate (force : Bool) : Statement (.estimate force) := fields_of_word _ _ _ _
theorem writeHeader : Statement .writeHeader := fields_of_word _ _ _ _
theorem encode : Statement .encode := fields_of_word _ _ _ _
theorem flush : Statement .flush := fields_of_word _ _ _ _
theorem compress (force : Bool) : Statement (.compress force) := fields_of_word _ _ _ _
theorem decompress : Statement .decompress := fields_of_word _ _ _ _

end EncodingRow

end Sys2Proof.Laws
end

