-- ==== Sys2Proof/Laws/Takes.lean ====
section
/-! SUPPORT. The rules of DECOMPRESS over bits and the bit loop: they agree, and there is always one that applies (44_header_codec.md rules R113, R114, R118, 46_decompressor.md rules R130, R131). -/

namespace Sys2Proof.Machine

/-- Where a bit step stands: it asks for a bit, or it stops. -/
def BitStep.standing (q : Point) (t : State) : BitStep := if q.asks then .wants q t else .stops q t

/-- The end of the header parse (R118, R131). -/
theorem headerDone_eq (made nb : Nat) (s : State) :
    headerDone made nb s = .stops (pointAfterHeader s.node) { s with
      root := 0, nodeCount := BitVec.ofNat 10 made, hdrBits := BitVec.ofNat 32 nb, treeValid := true, treeDecoded := true } := by
  unfold headerDone pointAfterHeader
  dsimp only
  by_cases h : (nodeAt s.node 0).leaf = true
  · rw [if_pos h, if_pos h]
    by_cases h2 : (nodeAt s.node 0).symbol = 256
    · rw [if_pos h2, if_pos (show _ = Config.pseudoEof from h2)]; rfl
    · rw [if_neg h2, if_neg (show ¬ _ = Config.pseudoEof from h2)]; rfl
  · rw [if_neg h, if_neg h]; rfl

theorem pointAfterHeader_asks (v : Vector Node 513) : (pointAfterHeader v).asks = false := by
  unfold pointAfterHeader
  split
  · split <;> rfl
  · rfl

/-- The bit loop gives what the rules say. -/
theorem takesBits_feed {p q : Point} {s t : State} {bits left : List Bool} (h : TakesBits p s bits q t left)
    (hp : p.asks = true) : feed bits p s = (BitStep.standing q t, left) := by
  induction h with
  | done p s => simp only [feed, BitStep.standing, hp, if_true]
  | magicBit got v s b bits q t left more next ih =>
    have e : onBit (.magicIn got v) b s = .wants (.magicIn (got + 1) (2 * v + b.toNat)) s := by
      show magicBit got v b s = _
      unfold magicBit
      rw [if_pos (by omega)]
    rw [feed_wants e]; exact ih rfl
  | magicRight v s b bits q t left value next ih =>
    have e : onBit (.magicIn 31 v) b s = .wants (.tagIn .top 0 32) { s with node := nodesInvalid s.node, stack := [] } := by
      show magicBit 31 v b s = _
      unfold magicBit
      rw [if_neg (by omega), if_pos (show wordOf _ = Config.magic from value)]; rfl
    rw [feed_wants e]; exact ih rfl
  | magicWrong v s b bits value =>
    have e : onBit (.magicIn 31 v) b s = .stops (.raising .magic (BitVec.ofNat 32 (2 * v + b.toNat))) s := by
      show magicBit 31 v b s = _
      unfold magicBit
      rw [if_neg (by omega), if_neg (show ¬ wordOf _ = Config.magic from value)]; rfl
    rw [feed_stops e]; rfl
  | nodeTooMany slot nb s b bits =>
    have e : onBit (.tagIn slot 513 nb) b s = .stops (.raising .hdrInvalid 2) s := rfl
    rw [feed_stops e]; rfl
  | leafTag slot made nb s bits q t left room next ih =>
    have e : onBit (.tagIn slot made nb) true s = .wants (.symIn (BitVec.ofNat 10 made) (made + 1) (nb + 1) 0 0)
        { s with node := linkChild slot (BitVec.ofNat 10 made) s.node } := by
      show tagBit slot made nb true s = _
      unfold tagBit
      rw [if_neg (show ¬ made = Config.nodeCap from room)]; rfl
    rw [feed_wants e]; exact ih rfl
  | innerTag slot made nb s bits q t left room next ih =>
    have e : onBit (.tagIn slot made nb) false s = .wants (.tagIn (.left (BitVec.ofNat 10 made)) (made + 1) (nb + 1))
        { s with
          node := nodeSet (linkChild slot (BitVec.ofNat 10 made) s.node) (BitVec.ofNat 10 made) ⟨true, false, 0, 0, 0, 0⟩
          stack := .slot (.right (BitVec.ofNat 10 made)) :: s.stack } := by
      show tagBit slot made nb false s = _
      unfold tagBit
      rw [if_neg (show ¬ made = Config.nodeCap from room)]; rfl
    rw [feed_wants e]; exact ih rfl
  | symbolBit id made nb got v s b bits q t left more next ih =>
    have e : onBit (.symIn id made nb got v) b s = .wants (.symIn id made nb (got + 1) (2 * v + b.toNat)) s := by
      show symBit id made nb got v b s = _
      unfold symBit
      rw [if_pos (by omega)]
    rw [feed_wants e]; exact ih rfl
  | symbolTooHigh id made nb v s b bits high =>
    have e : onBit (.symIn id made nb 8 v) b s =
        .stops (.raising .hdrInvalid (BitVec.ofNat 32 (1 ||| ((2 * v + b.toNat) <<< 8)))) s := by
      show symBit id made nb 8 v b s = _
      unfold symBit
      rw [if_neg (by omega), if_pos high]; rfl
    rw [feed_stops e]; rfl
  | leafThenSlot id made nb v s b bits slot stack q t left symbol waits next ih =>
    have e : onBit (.symIn id made nb 8 v) b s = .wants (.tagIn slot made (nb + 9))
        { s with
          node := nodeSet s.node id ⟨true, true, BitVec.ofNat 9 (2 * v + b.toNat), 0, 0, 0⟩
          stack := stack } := by
      show symBit id made nb 8 v b s = _
      unfold symBit
      rw [if_neg (by omega), if_neg (by omega)]
      unfold nextSlot
      rw [waits]
    rw [feed_wants e]; exact ih rfl
  | leafLast id made nb v s b bits symbol noSlot =>
    have e : onBit (.symIn id made nb 8 v) b s =
        headerDone made (nb + 9) { s with node := nodeSet s.node id ⟨true, true, BitVec.ofNat 9 (2 * v + b.toNat), 0, 0, 0⟩ } := by
      show symBit id made nb 8 v b s = _
      unfold symBit
      rw [if_neg (by omega), if_neg (by omega)]
      unfold nextSlot
      rw [noSlot]
    rw [feed_stops (e.trans (headerDone_eq _ _ _))]
    unfold BitStep.standing
    rw [pointAfterHeader_asks]; rfl
  | walkInner cur cnt s b bits q t left inner next ih =>
    have e : onBit (.walkIn cur cnt) b s = .wants (.walkIn (walkChild s.node cur b) cnt) s := by
      show walkBit cur cnt b s = _
      unfold walkBit
      exact if_neg (by have h := inner; unfold walkChild at h; rw [h]; decide)
    rw [feed_wants e]; exact ih rfl
  | walkByte cur cnt s b bits q t left leaf symbol next ih =>
    have e : onBit (.walkIn cur cnt) b s = .wants (.walkIn s.root (cnt + 1))
        { s with outQ := s.outQ ++ [.byte ((nodeAt s.node (walkChild s.node cur b)).symbol.setWidth 8)] } := by
      show walkBit cur cnt b s = _
      unfold walkBit
      exact (if_pos leaf).trans (if_neg symbol)
    rw [feed_wants e]; exact ih rfl
  | walkDone cur cnt s b bits leaf symbol =>
    have e : onBit (.walkIn cur cnt) b s = .stops (.drainPhase cnt) s := by
      show walkBit cur cnt b s = _
      unfold walkBit
      exact (if_pos leaf).trans (if_pos symbol)
    rw [feed_stops e]; rfl

/-- Where DECOMPRESS can take a bit, the rules say what it does with any bits. -/
theorem takesBits_exists (bits : List Bool) :
    ∀ (p : Point) (s : State), s.readsBits p → ∃ q t left, TakesBits p s bits q t left := by
  induction bits with
  | nil => intro p s _; exact ⟨p, s, [], .done p s⟩
  | cons b bits ih =>
    intro p s h
    cases p with
    | magicIn got v =>
      obtain ⟨he, hg⟩ := h
      by_cases h31 : got < 31
      · obtain ⟨q, t, left, hn⟩ := ih (.magicIn (got + 1) (2 * v + b.toNat)) s ⟨he, by omega⟩
        exact ⟨q, t, left, .magicBit got v s b bits q t left h31 hn⟩
      · have : got = 31 := by omega
        subst this
        by_cases hv : BitVec.ofNat 32 (2 * v + b.toNat) = 0xFACE8200#32
        · obtain ⟨q, t, left, hn⟩ := ih (.tagIn .top 0 32) { s with node := nodesInvalid s.node, stack := [] }
            ⟨he, by intro e he; cases he⟩
          exact ⟨q, t, left, .magicRight v s b bits q t left hv hn⟩
        · exact ⟨_, _, _, .magicWrong v s b bits hv⟩
    | tagIn slot made nb =>
      obtain ⟨he, hs⟩ := h
      by_cases hm : made = 513
      · subst hm; exact ⟨_, _, _, .nodeTooMany slot nb s b bits⟩
      · cases b
        · obtain ⟨q, t, left, hn⟩ := ih (.tagIn (.left (BitVec.ofNat 10 made)) (made + 1) (nb + 1))
            { s with
              node := nodeSet (linkChild slot (BitVec.ofNat 10 made) s.node) (BitVec.ofNat 10 made) ⟨true, false, 0, 0, 0, 0⟩
              stack := .slot (.right (BitVec.ofNat 10 made)) :: s.stack }
            ⟨he, by
              intro e he
              rcases List.mem_cons.1 he with rfl | he
              · exact ⟨_, rfl⟩
              · exact hs e he⟩
          exact ⟨q, t, left, .innerTag slot made nb s bits q t left hm hn⟩
        · obtain ⟨q, t, left, hn⟩ := ih (.symIn (BitVec.ofNat 10 made) (made + 1) (nb + 1) 0 0)
            { s with node := linkChild slot (BitVec.ofNat 10 made) s.node } ⟨he, by omega, hs⟩
          exact ⟨q, t, left, .leafTag slot made nb s bits q t left hm hn⟩
    | symIn id made nb got v =>
      obtain ⟨he, hg, hs⟩ := h
      by_cases h8 : got < 8
      · obtain ⟨q, t, left, hn⟩ := ih (.symIn id made nb (got + 1) (2 * v + b.toNat)) s ⟨he, by omega, hs⟩
        exact ⟨q, t, left, .symbolBit id made nb got v s b bits q t left h8 hn⟩
      · have : got = 8 := by omega
        subst this
        by_cases hv : 256 < 2 * v + b.toNat
        · exact ⟨_, _, _, .symbolTooHigh id made nb v s b bits hv⟩
        · cases hst : s.stack with
          | nil => exact ⟨_, _, _, .leafLast id made nb v s b bits (by omega) hst⟩
          | cons e stack =>
            obtain ⟨slot, rfl⟩ := hs e (by rw [hst]; exact List.mem_cons_self)
            obtain ⟨q, t, left, hn⟩ := ih (.tagIn slot made (nb + 9))
              { s with
                node := nodeSet s.node id ⟨true, true, BitVec.ofNat 9 (2 * v + b.toNat), 0, 0, 0⟩
                stack := stack }
              ⟨he, fun e he => hs e (by rw [hst]; exact List.mem_cons_of_mem _ he)⟩
            exact ⟨q, t, left, .leafThenSlot id made nb v s b bits slot stack q t left (by omega) hst hn⟩
    | walkIn cur cnt =>
      cases hl : (nodeAt s.node (walkChild s.node cur b)).leaf
      · obtain ⟨q, t, left, hn⟩ := ih (.walkIn (walkChild s.node cur b) cnt) s h
        exact ⟨q, t, left, .walkInner cur cnt s b bits q t left hl hn⟩
      · by_cases hy : (nodeAt s.node (walkChild s.node cur b)).symbol = 256
        · exact ⟨_, _, _, .walkDone cur cnt s b bits hl hy⟩
        · obtain ⟨q, t, left, hn⟩ := ih (.walkIn s.root (cnt + 1))
            { s with outQ := s.outQ ++ [.byte ((nodeAt s.node (walkChild s.node cur b)).symbol.setWidth 8)] } h
          exact ⟨q, t, left, .walkByte cur cnt s b bits q t left hl hy hn⟩
    | _ => cases h

theorem readsBits_asks {s : State} {p : Point} (h : s.readsBits p) : p.asks = true := by cases p <;> first | rfl | cases h

/-- A walk changes nothing but `OUT_Q` (R130). -/
theorem takesBits_walk_frame {cur : NodeIdx} {cnt : Nat} {s t : State} {bits left : List Bool} {q : Point}
    (h : TakesBits (.walkIn cur cnt) s bits q t left) : ∃ out, t = { s with outQ := s.outQ ++ byteBeats out } := by
  generalize hp : Point.walkIn cur cnt = p at h
  induction h generalizing cur cnt with
  | done p s => exact ⟨[], by simp⟩
  | walkInner cur' cnt' s b bits q t left inner next ih => cases hp; exact ih rfl
  | walkByte cur' cnt' s b bits q t left leaf symbol next ih =>
    cases hp
    obtain ⟨out, h⟩ := ih rfl
    exact ⟨(nodeAt s.node (walkChild s.node cur' b)).symbol.setWidth 8 :: out, by rw [h]; simp⟩
  | walkDone cur' cnt' s b bits leaf symbol => exact ⟨[], by simp⟩
  | _ => cases hp

/-- The open slots of a parse so far are slots. -/
theorem ParseChain.slots {v : Vector Node 513} {slot : Slot} {stack : List StackEntry} {m : Nat}
    (h : ParseChain v slot stack m) : ∀ e ∈ stack, ∃ sl, e = .slot sl := by
  induction h with
  | top => intro e he; cases he
  | left slot stack m up link valid inner ih =>
    intro e he
    rcases List.mem_cons.1 he with rfl | he
    · exact ⟨_, rfl⟩
    · exact ih e he
  | right slot stack m l up link valid inner child done ih => exact ih

/-- In a state of the invariant, DECOMPRESS can take a bit wherever it asks for one. -/
theorem State.Inv.readsBits {s : State} (h : s.Inv) {p : Point} (hs : s.standsAt p) (hp : p.asks = true) : s.readsBits p := by
  have hk := h.parse_is_chain hs.1 p hs.2
  cases p with
  | magicIn got v => exact hk
  | tagIn slot made nb => exact ⟨hk.1, hk.2.1.slots⟩
  | symIn id made nb got v =>
    obtain ⟨he, hg, slot, m, hch, -⟩ := hk
    exact ⟨he, hg, hch.slots⟩
  | walkIn cur cnt => exact hk
  | _ => cases hp

/-- The bit loop over the n bits that the unpacker holds, by the rules. -/
theorem runBits_takes {n : Nat} (hn : n ≤ 8) {p q : Point} {s t : State} {left : List Bool} (he : s.upEos = false)
    (hp : p.asks = true) (queue : List Beat) (buf : BitVec 8) (m : Fin 9) (bytes : BitVec 64) (k : Option Point) (hm : m.val = n)
    (h : TakesBits p s (msbBits n buf.toNat) q t left) :
    runBits n p (s.atInput queue buf m bytes k) = t.atInput queue buf (Fin.ofNat 9 left.length) bytes (some q) := by
  obtain ⟨m', h1, h2⟩ := runBits_feed n hn p s queue buf m bytes k hm
  have hf := takesBits_feed h hp
  unfold BitStep.standing at hf
  by_cases hq : q.asks = true
  · rw [if_pos hq] at hf
    have hl := feed_wants_all hf
    subst hl
    obtain ⟨h3, h4⟩ := h1 he q t hf
    rw [h4, show m' = Fin.ofNat 9 0 from Fin.ext h3]; rfl
  · rw [if_neg hq] at hf
    obtain ⟨h3, h4⟩ := h2 q t left hf
    have hlen := congrArg List.length h3
    rw [msbBits_length] at hlen
    rw [h4, show m' = Fin.ofNat 9 left.length from Fin.ext (by rw [Fin.val_ofNat, ← hlen]; exact (Nat.mod_eq_of_lt m'.isLt).symm)]

end Sys2Proof.Machine
end

