-- ==== Sys2Proof/Laws/Place.lean ====
section
/-! SUPPORT. The header parse over the bits of a whole tree, and the walk over the bits of a code (44_header_codec.md rule R118, 46_decompressor.md rule R130). -/

namespace Sys2Proof.Machine

/-! ## Fields -/

/-- The bits of the magic marker before its last (R114). -/
theorem feed_magic_prefix (p rest : List Bool) (got v : Nat) (s : State) (h : got + p.length < 32) :
    feed (p ++ rest) (.magicIn got v) s = feed rest (.magicIn (got + p.length) (v * 2 ^ p.length + bitsValue p)) s := by
  induction p using List.reverseRecOn generalizing rest with
  | nil => simp
  | append_singleton p b ih =>
    simp only [List.length_append, List.length_singleton] at h
    rw [List.append_assoc, ih _ (by omega), List.singleton_append]
    have e : onBit (.magicIn (got + p.length) (v * 2 ^ p.length + bitsValue p)) b s =
        .wants (.magicIn (got + p.length + 1) (2 * (v * 2 ^ p.length + bitsValue p) + b.toNat)) s := by
      show magicBit _ _ _ _ = _
      unfold magicBit
      rw [if_pos (by omega)]
    rw [feed_wants e, bitsValue_snoc, List.length_append, List.length_singleton, Nat.pow_succ]
    congr 2
    ring

/-- The bits of a symbol field before its last (R114). -/
theorem feed_symbol_prefix (p rest : List Bool) (id : NodeIdx) (made nb got v : Nat) (s : State) (h : got + p.length < 9) :
    feed (p ++ rest) (.symIn id made nb got v) s =
      feed rest (.symIn id made nb (got + p.length) (v * 2 ^ p.length + bitsValue p)) s := by
  induction p using List.reverseRecOn generalizing rest with
  | nil => simp
  | append_singleton p b ih =>
    simp only [List.length_append, List.length_singleton] at h
    rw [List.append_assoc, ih _ (by omega), List.singleton_append]
    have e : onBit (.symIn id made nb (got + p.length) (v * 2 ^ p.length + bitsValue p)) b s =
        .wants (.symIn id made nb (got + p.length + 1) (2 * (v * 2 ^ p.length + bitsValue p) + b.toNat)) s := by
      show symBit _ _ _ _ _ _ _ = _
      unfold symBit
      rw [if_pos (by omega)]
    rw [feed_wants e, bitsValue_snoc, List.length_append, List.length_singleton, Nat.pow_succ]
    congr 2
    ring

/-- The rest of the bits after a bit step. -/
def BitStep.feed : BitStep → List Bool → BitStep × List Bool
  | .wants p s, bits => Machine.feed bits p s
  | .stops p s, bits => (.stops p s, bits)

theorem feed_cons (b : Bool) (bits : List Bool) (p : Point) (s : State) :
    feed (b :: bits) p s = (onBit p b s).feed bits := by
  cases e : onBit p b s with
  | wants p' s' => rw [feed_wants e]; rfl
  | stops p' s' => rw [feed_stops e]; rfl

/-- The magic marker opens the one slot of the root (R118). -/
theorem feed_magic (rest : List Bool) (s : State) :
    feed (msbBits 32 0xFACE8200 ++ rest) (.magicIn 0 0) s =
      feed rest (.tagIn .top 0 32) { s with node := nodesInvalid s.node, stack := [] } := by
  have e : msbBits 32 0xFACE8200 = msbBits 31 0x7D674100 ++ [false] := by rw [msbBits_snoc]; rfl
  rw [e, List.append_assoc, feed_magic_prefix _ _ _ _ _ (by rw [msbBits_length]; omega), msbBits_length, bitsValue_msbBits,
    List.singleton_append, feed_cons]
  rfl

/-- The nine bits of a symbol complete its leaf (R118). -/
theorem feed_symbol (sym : Sym) (h : sym.toNat ≤ 256) (rest : List Bool) (id : NodeIdx) (made nb : Nat) (s : State) :
    feed (msbBits 9 sym.toNat ++ rest) (.symIn id made nb 0 0) s =
      (nextSlot made (nb + 9) { s with node := nodeSet s.node id ⟨true, true, sym, 0, 0, 0⟩ }).feed rest := by
  rw [msbBits_snoc, List.append_assoc, feed_symbol_prefix _ _ _ _ _ _ _ _ (by rw [msbBits_length]; omega), msbBits_length,
    bitsValue_msbBits, List.singleton_append, feed_cons]
  have hv : 2 * (0 * 2 ^ 8 + sym.toNat / 2 % 2 ^ 8) + (sym.toNat.testBit 0).toNat = sym.toNat := by
    rw [testBit_zero_toNat]
    have := sym.isLt
    omega
  have e : onBit (.symIn id made nb (0 + 8) (0 * 2 ^ 8 + sym.toNat / 2 % 2 ^ 8)) (sym.toNat.testBit 0) s =
      nextSlot made (nb + 9) { s with node := nodeSet s.node id ⟨true, true, sym, 0, 0, 0⟩ } := by
    unfold onBit symBit
    dsimp only
    rw [hv, if_neg (by omega), if_neg (by omega), BitVec.ofNat_toNat, BitVec.setWidth_eq]
  rw [e]

/-! ## A whole tree -/

/-- `NODE` after the parse of a tree whose root becomes node `made`, in `slot`: the entries are made in preorder (R118). -/
def placeTree : HTree → Slot → Nat → Vector Node 513 → Vector Node 513
  | .leaf sym, slot, made, v =>
    nodeSet (linkChild slot (BitVec.ofNat 10 made) v) (BitVec.ofNat 10 made) ⟨true, true, sym, 0, 0, 0⟩
  | .node l r, slot, made, v =>
    placeTree r (.right (BitVec.ofNat 10 made)) (made + 1 + l.size)
      (placeTree l (.left (BitVec.ofNat 10 made)) (made + 1)
        (nodeSet (linkChild slot (BitVec.ofNat 10 made) v) (BitVec.ofNat 10 made) ⟨true, false, 0, 0, 0, 0⟩))

/-- The bits of a tree, from the tag bit of its root: the tree is made, and the parse goes on to the next open slot. -/
theorem feed_tree (t : HTree) (slot : Slot) (made nb : Nat) (rest : List Bool) (s : State) (hm : made + t.size ≤ 513)
    (hs : ∀ sym ∈ t.leaves, sym.toNat ≤ 256) :
    feed (t.bits ++ rest) (.tagIn slot made nb) s =
      (nextSlot (made + t.size) (nb + t.bits.length) { s with node := placeTree t slot made s.node }).feed rest := by
  induction t generalizing slot made nb rest s with
  | leaf sym =>
    have e : onBit (.tagIn slot made nb) true s = .wants (.symIn (BitVec.ofNat 10 made) (made + 1) (nb + 1) 0 0)
        { s with node := linkChild slot (BitVec.ofNat 10 made) s.node } := by
      show tagBit _ _ _ _ _ = _
      unfold tagBit
      simp only [HTree.size] at hm
      rw [if_neg (show ¬ made = Config.nodeCap from fun e => by have : made = 513 := e; omega), if_pos rfl]
    show feed (true :: (msbBits 9 sym.toNat ++ rest)) _ _ = _
    rw [feed_wants e, feed_symbol sym (hs sym (List.mem_singleton.2 rfl))]
    show _ = (nextSlot (made + 1) (nb + (msbBits 9 sym.toNat).length.succ) _).feed rest
    rw [msbBits_length]
    rfl
  | node l r hl hr =>
    simp only [HTree.size] at hm
    simp only [HTree.leaves, List.mem_append] at hs
    have hlp := l.size_pos
    have e : onBit (.tagIn slot made nb) false s = .wants (.tagIn (.left (BitVec.ofNat 10 made)) (made + 1) (nb + 1))
        { s with
          node := nodeSet (linkChild slot (BitVec.ofNat 10 made) s.node) (BitVec.ofNat 10 made) ⟨true, false, 0, 0, 0, 0⟩
          stack := .slot (.right (BitVec.ofNat 10 made)) :: s.stack } := by
      show tagBit _ _ _ _ _ = _
      unfold tagBit
      rw [if_neg (show ¬ made = Config.nodeCap from fun e => by have : made = 513 := e; omega)]
      rfl
    have eb : (HTree.node l r).bits ++ rest = false :: (l.bits ++ (r.bits ++ rest)) := by
      simp only [HTree.bits, List.cons_append, List.append_assoc]
    rw [eb, feed_wants e, hl _ _ _ _ _ (by omega) (fun sym h => hs sym (.inl h))]
    show feed (r.bits ++ rest) (.tagIn (.right (BitVec.ofNat 10 made)) (made + 1 + l.size) (nb + 1 + l.bits.length)) _ = _
    rw [hr _ _ _ _ _ (by omega) (fun sym h => hs sym (.inr h))]
    have e1 : made + 1 + l.size + r.size = made + (HTree.node l r).size := by simp only [HTree.size]; omega
    have e2 : nb + 1 + l.bits.length + r.bits.length = nb + (HTree.node l r).bits.length := by
      simp only [HTree.bits, List.length_cons, List.length_append]; omega
    rw [e1, e2]
    rfl

/-- The whole header (R118): the marker, then the tree, and no bit past it. -/
theorem feed_header (t : HTree) (rest : List Bool) (s : State) (hm : t.size ≤ 513) (hs : ∀ sym ∈ t.leaves, sym.toNat ≤ 256) :
    feed (msbBits 32 0xFACE8200 ++ (t.bits ++ rest)) (.magicIn 0 0) s =
      (headerDone t.size (32 + t.bits.length)
        { s with node := placeTree t .top 0 (nodesInvalid s.node), stack := [] }).feed rest := by
  rw [feed_magic, feed_tree t .top 0 32 rest _ (by omega) hs, Nat.zero_add]
  rfl

/-! ## What is placed -/

/-- The slot's parent is node j. -/
def Slot.parentIs (j : NodeIdx) : Slot → Prop
  | .top => False
  | .left p | .right p => p = j

theorem nodeAt_linkChild_ne (slot : Slot) (id j : NodeIdx) (v : Vector Node 513) (h : ¬ slot.parentIs j) :
    nodeAt (linkChild slot id v) j = nodeAt v j := by
  cases slot with
  | top => rfl
  | left p => exact nodeAt_nodeSet_ne _ _ _ _ (fun e => h e.symm)
  | right p => exact nodeAt_nodeSet_ne _ _ _ _ (fun e => h e.symm)

/-- The parse of a tree leaves every entry outside it, but for the link from its parent. -/
theorem nodeAt_placeTree_outside (t : HTree) (slot : Slot) (made : Nat) (v : Vector Node 513) (j : Nat)
    (hm : made + t.size ≤ 513) (hj : j < 1024) (ho : j < made ∨ made + t.size ≤ j) :
    nodeAt (placeTree t slot made v) (BitVec.ofNat 10 j) =
      nodeAt (linkChild slot (BitVec.ofNat 10 made) v) (BitVec.ofNat 10 j) := by
  induction t generalizing slot made v with
  | leaf sym =>
    simp only [HTree.size] at hm ho
    exact nodeAt_nodeSet_ne _ _ _ _ (ofNat_ne hj (by omega) (by omega))
  | node l r hl hr =>
    simp only [HTree.size] at hm ho
    have hlp := l.size_pos
    have hrp := r.size_pos
    have hne : (BitVec.ofNat 10 j : NodeIdx) ≠ BitVec.ofNat 10 made := ofNat_ne hj (by omega) (by omega)
    unfold placeTree
    rw [hr _ _ _ (by omega) (by omega), nodeAt_linkChild_ne (.right (BitVec.ofNat 10 made)) _ _ _ (Ne.symm hne),
      hl _ _ _ (by omega) (by omega), nodeAt_linkChild_ne (.left (BitVec.ofNat 10 made)) _ _ _ (Ne.symm hne), nodeAt_nodeSet_ne _ _ _ _ hne]

/-- The entry of the root of a tree just placed that is an internal node. -/
theorem nodeAt_placeTree_root (l r : HTree) (slot : Slot) (made : Nat) (v : Vector Node 513)
    (hm : made + (HTree.node l r).size ≤ 513) :
    nodeAt (placeTree (.node l r) slot made v) (BitVec.ofNat 10 made) =
      ⟨true, false, 0, BitVec.ofNat 10 (made + 1), BitVec.ofNat 10 (made + 1 + l.size), 0⟩ := by
  simp only [HTree.size] at hm
  have hlp := l.size_pos
  have hrp := r.size_pos
  have hlt : (BitVec.ofNat 10 made : NodeIdx).toNat < 513 := by rw [ofNat_toNat_lt (by omega)]; omega
  unfold placeTree
  rw [nodeAt_placeTree_outside r _ _ _ _ (by omega) (by omega) (by omega)]
  unfold linkChild
  rw [nodeAt_nodeSet_self _ _ _ hlt, nodeAt_placeTree_outside l _ _ _ _ (by omega) (by omega) (by omega)]
  unfold linkChild
  rw [nodeAt_nodeSet_self _ _ _ hlt, nodeAt_nodeSet_self _ _ _ hlt]

/-- The tree parsed is in `NODE`, numbered in preorder (R118). -/
theorem placed_placeTree (t : HTree) (slot : Slot) (made : Nat) (v : Vector Node 513) (hm : made + t.size ≤ 513) :
    t.placed (placeTree t slot made v) made := by
  induction t generalizing slot made v with
  | leaf sym =>
    simp only [HTree.size] at hm
    have e := nodeAt_nodeSet_self (linkChild slot (BitVec.ofNat 10 made) v) (BitVec.ofNat 10 made) ⟨true, true, sym, 0, 0, 0⟩
      (by rw [ofNat_toNat_lt (by omega)]; omega)
    unfold HTree.placed placeTree
    rw [e]
    exact ⟨rfl, rfl, rfl⟩
  | node l r hl hr =>
    have e := nodeAt_placeTree_root l r slot made v hm
    simp only [HTree.size] at hm
    have hlp := l.size_pos
    have hrp := r.size_pos
    unfold HTree.placed
    rw [e]
    refine ⟨rfl, rfl, rfl, rfl, ?_, hr _ _ _ (by omega)⟩
    unfold placeTree
    refine HTree.placed_congr (placeTree l (.left (BitVec.ofNat 10 made)) (made + 1) (nodeSet (linkChild slot (BitVec.ofNat 10 made) v)
      (BitVec.ofNat 10 made) ⟨true, false, 0, 0, 0, 0⟩)) _ l (made + 1) ?_ (hl _ _ _ (by omega))
    intro j h1 h2
    rw [nodeAt_placeTree_outside r _ _ _ _ (by omega) (by omega) (by omega)]
    exact nodeAt_linkChild_ne (.right (BitVec.ofNat 10 made)) _ _ _ (ofNat_ne (by omega) (by omega) (by omega))

/-- Every entry of a tree just placed has the zeros that R118 gives it. -/
theorem zeros_placeTree (t : HTree) (slot : Slot) (made : Nat) (v : Vector Node 513) (hm : made + t.size ≤ 513) (j : Nat)
    (h1 : made ≤ j) (h2 : j < made + t.size) : (nodeAt (placeTree t slot made v) (BitVec.ofNat 10 j)).zerosOfHeader := by
  induction t generalizing slot made v with
  | leaf sym =>
    simp only [HTree.size] at hm h2
    have : j = made := by omega
    subst this
    unfold placeTree
    rw [nodeAt_nodeSet_self _ _ _ (by rw [ofNat_toNat_lt (by omega)]; omega)]
    exact ⟨rfl, fun _ => ⟨rfl, rfl⟩, nofun⟩
  | node l r hl hr =>
    by_cases hj : j = made
    · subst hj
      rw [nodeAt_placeTree_root l r slot j v hm]
      exact ⟨rfl, nofun, fun _ => rfl⟩
    · simp only [HTree.size] at hm h2
      have hlp := l.size_pos
      have hrp := r.size_pos
      unfold placeTree
      by_cases hr' : made + 1 + l.size ≤ j
      · exact hr _ _ _ (by omega) hr' (by omega)
      · rw [nodeAt_placeTree_outside r _ _ _ _ (by omega) (by omega) (by omega),
          nodeAt_linkChild_ne (.right (BitVec.ofNat 10 made)) _ _ _ (ofNat_ne (by omega) (by omega) (by omega))]
        exact hl _ _ _ (by omega) (by omega) (by omega)

/-- After the parse of the whole tree, the valid entries are those of the tree, with the zeros of R118. -/
theorem valid_placeTree (t : HTree) (v : Vector Node 513) (hm : t.size ≤ 513) (i : NodeIdx)
    (h : (nodeAt (placeTree t .top 0 (nodesInvalid v)) i).valid = true) :
    i.toNat < t.size ∧ (nodeAt (placeTree t .top 0 (nodesInvalid v)) i).zerosOfHeader := by
  have ei : i = BitVec.ofNat 10 i.toNat := by rw [BitVec.ofNat_toNat, BitVec.setWidth_eq]
  by_cases hi : i.toNat < t.size
  · refine ⟨hi, ?_⟩
    rw [ei]
    exact zeros_placeTree t _ _ _ (by omega) _ (Nat.zero_le _) (by omega)
  · exfalso
    rw [ei, nodeAt_placeTree_outside t _ _ _ _ (by omega) i.isLt (by omega)] at h
    unfold linkChild at h
    rw [nodeAt_nodesInvalid] at h
    cases h

/-- Where the procedure goes on after the header of a tree: a tree to walk, or one that is one leaf (R131). -/
def HTree.afterHeader : HTree → Point
  | .leaf sym => if sym = 256 then .drainPhase 0 else .raising .hdrInvalid 3
  | .node _ _ => .walkPhase

theorem pointAfterHeader_placed (t : HTree) (v : Vector Node 513) (ht : t.placed v 0) : pointAfterHeader v = t.afterHeader := by
  cases t with
  | leaf sym =>
    obtain ⟨-, h2, h3⟩ := ht
    have h2 : (nodeAt v 0).leaf = true := h2
    have h3 : (nodeAt v 0).symbol = sym := h3
    unfold pointAfterHeader HTree.afterHeader
    rw [if_pos h2, h3]
  | node l r =>
    have h2 : (nodeAt v 0).leaf = false := ht.2.1
    unfold pointAfterHeader
    rw [h2]; rfl

/-- The end of the parse of a tree (R118, R131). -/
theorem headerDone_placed (t : HTree) (made nb : Nat) (s : State) (ht : t.placed s.node 0) :
    headerDone made nb s = .stops t.afterHeader
      { s with root := 0, nodeCount := BitVec.ofNat 10 made, hdrBits := wordOf nb, treeValid := true, treeDecoded := true } := by
  rw [headerDone_eq, pointAfterHeader_placed t s.node ht]; rfl

/-! ## The walk -/

/-- The bits of a code, from an internal node of the tree down to the leaf: `PSEUDO_EOF` ends the walk, a byte is emitted and
the walk starts again from the root (R130). -/
theorem feed_code (l r : HTree) (p : List Bool) (e : Sym × List Bool) (cur : NodeIdx) (cnt : Nat) (rest : List Bool) (s : State)
    (h : (HTree.node l r).sits s.node cur = true) (he : (e.1, p ++ e.2) ∈ (HTree.node l r).codesFrom p) :
    feed (e.2 ++ rest) (.walkIn cur cnt) s =
      if e.1 = 256 then (.stops (.drainPhase cnt) s, rest)
      else feed rest (.walkIn s.root (cnt + 1)) (s.outBeat (.byte (e.1.setWidth 8))) := by
  suffices H : ∀ (t : HTree) (p q : List Bool) (sym : Sym) (b : Bool) (cur : NodeIdx),
      (if b then t.sits s.node (nodeAt s.node cur).right else t.sits s.node (nodeAt s.node cur).left) = true →
      (sym, p ++ q) ∈ t.codesFrom p →
      feed (b :: (q ++ rest)) (.walkIn cur cnt) s =
        if sym = 256 then (.stops (.drainPhase cnt) s, rest)
        else feed rest (.walkIn s.root (cnt + 1)) (s.outBeat (.byte (sym.setWidth 8))) by
    simp only [HTree.sits, Bool.and_eq_true, Bool.not_eq_true'] at h
    obtain ⟨⟨⟨-, -⟩, hl⟩, hr⟩ := h
    simp only [HTree.codesFrom, List.mem_append] at he
    obtain ⟨sym, q⟩ := e
    rcases he with he | he
    · obtain ⟨q', hq, -⟩ := codesFrom_prefix l _ _ he
      have hq : q = false :: q' := by simpa using hq
      subst hq
      exact H l (p ++ [false]) q' sym false cur hl (by simpa using he)
    · obtain ⟨q', hq, -⟩ := codesFrom_prefix r _ _ he
      have hq : q = true :: q' := by simpa using hq
      subst hq
      exact H r (p ++ [true]) q' sym true cur hr (by simpa using he)
  intro t
  induction t with
  | leaf sy =>
    intro p q sym b cur hs hm
    simp only [HTree.codesFrom, List.mem_singleton, Prod.mk.injEq] at hm
    have hq : q = [] := by simpa using hm.2
    subst hq
    obtain ⟨rfl, -⟩ := hm
    have hs' : (nodeAt s.node (if b then (nodeAt s.node cur).right else (nodeAt s.node cur).left)).leaf = true ∧
        (nodeAt s.node (if b then (nodeAt s.node cur).right else (nodeAt s.node cur).left)).symbol = sym := by
      cases b <;> simp [HTree.sits] at hs ⊢ <;> exact ⟨hs.1.2, hs.2⟩
    rw [List.nil_append, feed_cons]
    show (walkBit _ _ _ _).feed rest = _
    unfold walkBit
    simp only [hs'.1, hs'.2, if_true]
    by_cases h256 : sym = 256
    · rw [if_pos h256, if_pos (show sym = Config.pseudoEof from h256)]; rfl
    · rw [if_neg h256, if_neg (show ¬ sym = Config.pseudoEof from h256)]; rfl
  | node l r hl hr =>
    intro p q sym b cur hs hm
    have hs' : (nodeAt s.node (if b then (nodeAt s.node cur).right else (nodeAt s.node cur).left)).leaf = false ∧
        l.sits s.node (nodeAt s.node (if b then (nodeAt s.node cur).right else (nodeAt s.node cur).left)).left = true ∧
        r.sits s.node (nodeAt s.node (if b then (nodeAt s.node cur).right else (nodeAt s.node cur).left)).right = true := by
      cases b <;> simp [HTree.sits] at hs ⊢ <;> exact ⟨hs.1.1.2, hs.1.2, hs.2⟩
    rw [feed_cons]
    have ew : onBit (.walkIn cur cnt) b s =
        .wants (.walkIn (if b then (nodeAt s.node cur).right else (nodeAt s.node cur).left) cnt) s := by
      show walkBit _ _ _ _ = _
      unfold walkBit
      simp only [hs'.1, Bool.false_eq_true, if_false]
    rw [ew]
    show feed (q ++ rest) _ s = _
    simp only [HTree.codesFrom, List.mem_append] at hm
    rcases hm with hm | hm
    · obtain ⟨q', hq, -⟩ := codesFrom_prefix l _ _ hm
      have hq : q = false :: q' := by simpa using hq
      subst hq
      exact hl (p ++ [false]) q' sym false _ hs'.2.1 (by simpa using hm)
    · obtain ⟨q', hq, -⟩ := codesFrom_prefix r _ _ hm
      have hq : q = true :: q' := by simpa using hq
      subst hq
      exact hr (p ++ [true]) q' sym true _ hs'.2.2 (by simpa using hm)

/-- The codes of bytes, one after another, and the code of `PSEUDO_EOF`, from the root (R130). -/
theorem feed_codes (l r : HTree) (codes : List (Sym × List Bool)) (eof rest : List Bool) (s : State) (root : NodeIdx)
    (hr : s.root = root) (h : (HTree.node l r).sits s.node root = true)
    (hc : ∀ e ∈ codes, e ∈ (HTree.node l r).codes ∧ e.1.toNat < 256) (he : (256, eof) ∈ (HTree.node l r).codes) (cnt : Nat) :
    feed (codes.flatMap Prod.snd ++ (eof ++ rest)) (.walkIn root cnt) s =
      (.stops (.drainPhase (cnt + codes.length))
        { s with outQ := s.outQ ++ byteBeats (codes.map (fun e => e.1.setWidth 8)) }, rest) := by
  induction codes generalizing s cnt with
  | nil =>
    have := feed_code l r [] (256, eof) root cnt rest s h (by simpa [HTree.codes] using he)
    simpa using this
  | cons e codes ih =>
    have hm := hc e List.mem_cons_self
    rw [List.flatMap_cons, List.append_assoc]
    rw [feed_code l r [] e root cnt _ s h (by simpa [HTree.codes] using hm.1)]
    rw [if_neg (fun h => by rw [h] at hm; exact absurd hm.2 (by decide))]
    refine (congrArg (fun x => feed _ (.walkIn x (cnt + 1)) _) hr).trans ?_
    have := ih (s.outBeat (.byte (e.1.setWidth 8))) hr h (fun x hx => hc x (List.mem_cons_of_mem _ hx)) (cnt + 1)
    refine this.trans ?_
    rw [List.length_cons, show cnt + 1 + codes.length = cnt + (codes.length + 1) by omega]
    simp only [State.outBeat, List.map_cons, byteBeats_cons, List.append_assoc, List.singleton_append]

/-- The steps of the walk, from its start with bits left in the unpacker, over the bytes of a stream whose last holds the end
(R130, R131). -/
theorem run_walk (stream : List Byte) (s s' : State) (p' : Point) (left : List Bool) (rest : List Beat)
    (h : s.running .decompress .walkPhase) (he : s.upEos = false) (hq : s.inQ = byteBeats stream ++ rest)
    (hf : feed (s.undelivered ++ streamBits stream) (.walkIn 0 0) { s with phase := .walk } = (.stops p' s', left))
    (hl : left.length < 8) :
    ∃ (buf : BitVec 8) (n : Fin 9), msbBits n.val buf.toNat = left ∧
      core.run (stream.length + 1) s =
        .next (s'.atInput rest buf n (s.upBytes + BitVec.ofNat 64 stream.length) (some p')) := by
  have hs : step s = .next (runBits s.upN.val (.walkIn 0 0)
      (State.atInput s.inQ s.upBuf s.upN s.upBytes s.k { s with phase := .walk })) := by
    rw [step_running h]; rfl
  obtain ⟨m', h1, h2⟩ := runBits_feed s.upN.val (by have := s.upN.isLt; omega) (.walkIn 0 0) { s with phase := .walk }
    s.inQ s.upBuf s.upN s.upBytes s.k rfl
  rw [run_succ hs]
  cases e : feed s.undelivered (.walkIn 0 0) { s with phase := .walk } with
  | mk r left1 =>
    cases r with
    | wants p1 s1 =>
      have hnil := feed_wants_all e
      subst hnil
      obtain ⟨hm, hr⟩ := h1 he p1 s1 e
      rw [feed_append_wants e] at hf
      have hfr : BitFrame { s with phase := .walk } s1 := by
        have := feed_frame (bits := s.undelivered) (p := .walkIn 0 0) (s := { s with phase := .walk })
        rw [e] at this; exact this
      unfold BitFrame at hfr
      have hrun : (s1.atInput s.inQ s.upBuf m' s.upBytes (some p1)).running .decompress p1 :=
        ⟨(congrArg State.agenda hfr).trans h.1, (congrArg State.busy hfr).trans h.2.1,
          (congrArg (fun t => decode (State.curCmd t)) hfr).trans h.2.2.1, rfl⟩
      obtain ⟨-, i2⟩ := run_feed stream _ p1 rest hrun (feed_asks rfl e) ((congrArg State.upEos hfr).trans he) hq
      obtain ⟨buf, n, hn, hrr⟩ := i2 p' (s'.atInput _ s.upBuf m' s.upBytes (some p1)) left
        (by rw [feed_atInput, hf]; rfl) hl
      exact ⟨buf, n, hn, by rw [hr]; exact hrr⟩
    | stops p1 s1 =>
      obtain ⟨hm, hr⟩ := h2 p1 s1 left1 e
      rw [feed_append_stops e] at hf
      simp only [Prod.mk.injEq, BitStep.stops.injEq] at hf
      obtain ⟨⟨rfl, rfl⟩, rfl⟩ := hf
      have hnil : stream = [] := by
        cases stream with
        | nil => rfl
        | cons c stream =>
          simp only [List.length_append, streamBits_cons, byteBits_length] at hl
          omega
      subst hnil
      have hq' : s.inQ = rest := hq
      refine ⟨s.upBuf, m', by rw [hm]; simp, ?_⟩
      have e0 : s.upBytes + BitVec.ofNat 64 0 = s.upBytes := by simp
      rw [hr, hq', List.length_nil, e0]
      rfl

end Sys2Proof.Machine
end

