-- ==== Sys2Proof/Tests/Slice0.lean ====
section
/-! SUPPORT. Tests of the model, from the test vectors of the spec (95_test_vectors.md) and from its encodings, and for each statement with hypotheses a state that meets them. -/

namespace Sys2Proof.Tests

set_option Elab.async false

open Sys2Proof.Machine

/-! ## Operands out of range are refused (R72) -/

theorem test_loadFreq_256_illFormed : (Instr.loadFreq 256).wellFormed = false := by decide
theorem test_readFreq_256_illFormed : (Instr.readFreq 256).wellFormed = false := by decide
theorem test_readNode_513_illFormed : (Instr.readNode 0 513).wellFormed = false := by decide
theorem test_readNode_word3_illFormed : (Instr.readNode 3 0).wellFormed = false := by decide
theorem test_readCode_257_illFormed : (Instr.readCode 0 257).wellFormed = false := by decide
theorem test_readCode_word8_illFormed : (Instr.readCode 8 0).wellFormed = false := by decide
theorem test_last_operands_wellFormed :
    (Instr.loadFreq 255).wellFormed = true ∧ (Instr.readFreq 255).wellFormed = true ∧
      (Instr.readNode 2 512).wellFormed = true ∧ (Instr.readCode 7 256).wellFormed = true := by decide

/-! ## Words written out field by field: OP, F, reserved, WSEL, reserved, IDX (R71, R73) -/

theorem test_decode_nop : decode 0b00000000000000000000000000000000#32 = .ok .nop := by decide
theorem test_decode_clear : decode 0b00000001000000000000000000000000#32 = .ok .clear := by decide
theorem test_decode_count : decode 0b00000010000000000000000000000000#32 = .ok .count := by decide
/-- `LOAD_FREQ 0x61`, V1.6. -/
theorem test_decode_loadFreq : decode 0b00000011000000000000000001100001#32 = .ok (.loadFreq 0x61) := by decide
/-- `READ_FREQ 0x74`, V1.4. -/
theorem test_decode_readFreq : decode 0b00000100000000000000000001110100#32 = .ok (.readFreq 0x74) := by decide
theorem test_decode_buildTree : decode 0b00000101000000000000000000000000#32 = .ok .buildTree := by decide
/-- `READ_NODE 263, 1`, V2.1. -/
theorem test_decode_readNode : decode 0b00000110000000010000000100000111#32 = .ok (.readNode 1 263) := by decide
theorem test_decode_genCodes : decode 0b00000111000000000000000000000000#32 = .ok .genCodes := by decide
/-- `READ_CODE 256, 1`, V3.3. -/
theorem test_decode_readCode : decode 0b00001000000000010000000100000000#32 = .ok (.readCode 1 256) := by decide
theorem test_decode_estimate : decode 0b00001001000000000000000000000000#32 = .ok (.estimate false) := by decide
theorem test_decode_estimate_force : decode 0b00001001100000000000000000000000#32 = .ok (.estimate true) := by decide
theorem test_decode_writeHeader : decode 0b00001010000000000000000000000000#32 = .ok .writeHeader := by decide
theorem test_decode_encode : decode 0b00001011000000000000000000000000#32 = .ok .encode := by decide
theorem test_decode_flush : decode 0b00001100000000000000000000000000#32 = .ok .flush := by decide
theorem test_decode_compress : decode 0b00001101000000000000000000000000#32 = .ok (.compress false) := by decide
theorem test_decode_compress_force : decode 0b00001101100000000000000000000000#32 = .ok (.compress true) := by decide
theorem test_decode_decompress : decode 0b00001110000000000000000000000000#32 = .ok .decompress := by decide
/-- V7.3 to V7.6, V1.11: illegal words, one for each fixed field, and the first and the last reserved opcode. -/
theorem test_decode_illegal :
    decode 0x00000001#32 = .error .fixedFieldSet ∧ decode 0x02800000#32 = .error .fixedFieldSet ∧
      decode 0x0D400000#32 = .error .fixedFieldSet ∧ decode 0x03800061#32 = .error .fixedFieldSet ∧
      decode 0x04010000#32 = .error .fixedFieldSet ∧ decode 0x06000400#32 = .error .fixedFieldSet ∧
      decode 0x0F000000#32 = .error .reservedOpcode ∧ decode 0xFF000000#32 = .error .reservedOpcode := by decide
/-- No two rows of R73 select the same word: they differ in bits 31:24, which every mask covers. -/
theorem test_rows_disjoint :
    opRows.Pairwise (fun a b => a.mask &&& b.mask &&& 0xFF000000#32 = 0xFF000000#32 ∧
      a.pattern &&& 0xFF000000#32 ≠ b.pattern &&& 0xFF000000#32) := by decide

/-! ## Small states -/

/-- The command i runs and stands at the point p. -/
def running (i : Instr) (p : Point) (s : State) : State :=
  { s with busy := true, curCmd := encode i, phase := firstPhase i, k := some p }

/-- The state that a transition gives. -/
def after (r : Result) : Option State :=
  match r with
  | .next t => some t
  | .fault _ | .refused _ => none

/-- The table `FREQ` with the counts listed. -/
def counts (l : List (Nat × Word)) : Vector Word 256 := l.foldl (fun v e => freqSet v e.1 e.2) freqZero

/-- Idle, with the counts listed, whose sum is n. -/
def counted (n : Nat) (l : List (Nat × Word)) : State := { State.reset with freq := counts l, total := wordOf n }

/-- `NODE` with the entries listed. -/
def nodes (l : List (NodeIdx × Node)) : Vector Node 513 := l.foldl (fun v e => nodeSet v e.1 e.2) State.reset.node

/-- The input "aaaa" counted. -/
def aaaa : List (Nat × Word) := [(0x61, 4)]

/-- The codes of "aaaa" (V3.1): `PSEUDO_EOF` = 0, a = 1. -/
def aaaaCodes : Vector CodeEntry 257 := writeCodes [(256, [false]), (0x61, [true])] codesAbsent

/-- Idle, with the tree of "aaaa" (V2.2c) and its codes. -/
def coded : State :=
  { counted 4 aaaa with
    node := nodes [(0x61, ⟨true, true, 0x61, 0, 0, 4⟩), (256, ⟨true, true, 256, 0, 0, 1⟩), (257, ⟨true, false, 0, 256, 0x61, 5⟩)]
    root := 257, nodeCount := 3, treeValid := true, code := aaaaCodes, codesValid := true }

/-- Idle, with the tree of "aab" (V2.2e). -/
def aab : State :=
  { counted 3 [(0x61, 2), (0x62, 1)] with
    node := nodes [(0x61, ⟨true, true, 0x61, 0, 0, 2⟩), (0x62, ⟨true, true, 0x62, 0, 0, 1⟩), (256, ⟨true, true, 256, 0, 0, 1⟩),
      (257, ⟨true, false, 0, 0x62, 256, 2⟩), (258, ⟨true, false, 0, 0x61, 257, 4⟩)]
    root := 258, nodeCount := 5, treeValid := true }

/-! ## One step of each command -/

/-- V7.2. -/
theorem test_nop : (after (exec .nop (running .nop .start State.reset))).map State.statusWord = some 0x00000002#32 := by
  decide +kernel

/-- R90: pending bits are discarded and `DATA` stays. -/
theorem test_clear :
    (after (exec .clear (running .clear .start { counted 4 aaaa with pkAcc := 1, pkN := 5, data := 7, result := 4 }))).map
      (fun t => (t.total, freqAt t.freq 0x61, t.pkN, t.data, t.result)) = some (0, 0, 0, 7, 0) := by decide +kernel

/-- V1.2: byte 0 counts like any other. -/
theorem test_count_byte :
    (after (exec .count (running .count .countIn { counted 4 aaaa with inQ := [.byte 0, .endBeat] }))).map
      (fun t => (freqAt t.freq 0, freqAt t.freq 0x61, t.total, t.inQ, t.k)) =
        some (1, 4, 5, [.endBeat], some .countIn) := by decide +kernel

/-- R93: a byte that finds `TOTAL` full is taken and not counted. -/
theorem test_count_overflow :
    (after (exec .count (running .count .countIn
      { counted 0 [(0, 0xFFFFFFFF)] with total := 0xFFFFFFFF, inQ := [.byte 0x41] }))).map
      (fun t => (freqAt t.freq 0x41, t.total, t.inQ, t.k)) =
        some (0, 0xFFFFFFFF, [], some (.raising .countOverflow 0x41)) := by decide +kernel

/-- V1.7: the old value is replaced, not added. -/
theorem test_loadFreq :
    (after (exec (.loadFreq 0x61) (running (.loadFreq 0x61) .start { counted 5 [(0x61, 5)] with data := 2 }))).map
      (fun t => (freqAt t.freq 0x61, t.total)) = some (2, 2) := by decide +kernel

/-- V1.9. -/
theorem test_loadFreq_overflow :
    (after (exec (.loadFreq 1) (running (.loadFreq 1) .start
      { counted 0 [(0, 0xFFFFFFFF)] with total := 0xFFFFFFFF, data := 1 }))).map
      (fun t => (freqAt t.freq 1, t.total, t.k)) =
        some (0, 0xFFFFFFFF, some (.raising .countOverflow 1)) := by decide +kernel

/-- V1.4. -/
theorem test_readFreq :
    (after (exec (.readFreq 0x74) (running (.readFreq 0x74) .start (counted 10 [(0x74, 3)])))).map State.data = some 3 := by
  decide +kernel

/-- V2.2e: what BUILD_TREE writes for "aab", and the root. -/
theorem test_buildTree :
    treePlan (counts [(0x61, 2), (0x62, 1)]) =
      ([(0x61, ⟨true, true, 0x61, 0, 0, 2⟩), (0x62, ⟨true, true, 0x62, 0, 0, 1⟩), (256, ⟨true, true, 256, 0, 0, 1⟩),
        (257, ⟨true, false, 0, 0x62, 256, 2⟩), (258, ⟨true, false, 0, 0x61, 257, 4⟩)], 258) := by decide +kernel

/-- V2.2a: the phantom leaf. -/
theorem test_buildTree_phantom :
    treePlan freqZero =
      ([(256, ⟨true, true, 256, 0, 0, 1⟩), (0, ⟨true, true, 0, 0, 0, 0⟩), (257, ⟨true, false, 0, 0, 256, 1⟩)], 257) := by
  decide +kernel

/-- V2.1: node 263 of the "teststring" tree. -/
theorem test_readNode :
    nodeWord ⟨true, false, 0, 261, 262, 11⟩ 0 = 0x90541800#32 ∧ nodeWord ⟨true, false, 0, 261, 262, 11⟩ 1 = 11 ∧
      nodeWord ⟨true, false, 0, 261, 262, 11⟩ 2 = 0 ∧ nodeWord ⟨true, true, 0x74, 0, 0, 3⟩ 0 = 0xC0000074#32 := by decide

/-- V2.1: no such node. -/
theorem test_readNode_absent :
    (after (exec (.readNode 0 300) (running (.readNode 0 300) .start coded))).map State.data = some 0 := by
  decide +kernel

/-- V3.1: "aab". -/
theorem test_genCodes :
    (after (exec .genCodes (running .genCodes .start aab))).map
      (fun t => ((codeAt t.code 0x61).path, (codeAt t.code 0x62).path, (codeAt t.code 256).path, t.codesValid)) =
        some ([false], [true, false], [true, true], true) := by decide +kernel

/-- V3.2 and V3.3: words of codes. -/
theorem test_readCode :
    codeWord (codeOfPath [true, true, true, false]) 0 = 0xE0000000#32 ∧
      codeLength (codeOfPath [true, true, true, false]) = 4 ∧
      codeWord (codeOfPath (List.replicate 34 true)) 1 = 0xC0000000#32 ∧
      codeWord (codeOfPath (List.replicate 34 true)) 2 = 0 := by decide +kernel

/-- V3.2: a symbol with no code. -/
theorem test_readCode_absent :
    (after (exec (.readCode 0 0x62) (running (.readCode 0 0x62) .start { coded with data := 7 }))).map
      (fun t => (t.data, t.codeLen)) = some (0, 0) := by decide +kernel

/-- V5.1: "aaaa". -/
theorem test_estimate :
    (after (exec (.estimate false) (running (.estimate false) .start coded))).map
      (fun t => (t.hdrBits, t.estOrig, t.estComp, t.gated, t.estValid)) = some (53, 32, 58, true, true) := by decide +kernel

/-- V5.2, R124: the force flag opens the gate, and equal sizes are gated. -/
theorem test_gate : gateOf true 32 58 = false ∧ gateOf false 58 58 = true ∧ gateOf false 800 154 = false := by decide

/-- V4.2: "aaaa". -/
theorem test_writeHeader :
    (after (exec .writeHeader (running .writeHeader .start coded))).map
      (fun t => (t.outQ, t.pending, t.hdrBits, t.result)) =
        some ([.byte 0xFA, .byte 0xCE, .byte 0x82, .byte 0x00, .byte 0x60, .byte 0x13],
          [false, false, false, false, true], 53, 53) := by decide +kernel

/-- R125: the bits of a code join the pending ones; V5.1, the last byte of the header of "aaaa". -/
theorem test_encode :
    (after (exec .encode (running .encode (.encodeIn 0 2) { coded with pkAcc := 7, pkN := 7, inQ := [.byte 0x61] }))).map
      (fun t => (t.outQ, t.pkN, t.k)) = some ([.byte 0x0F], 0, some (.encodeIn 0 3)) := by decide +kernel

/-- V5.3c: a byte with no code. -/
theorem test_encode_no_code :
    (after (exec .encode (running .encode (.encodeIn 0 2) { coded with inQ := [.byte 0x78, .endBeat] }))).map
      (fun t => (t.outQ, t.inQ, t.k)) = some ([], [.endBeat], some (.raising .invariant 0x78)) := by decide +kernel

/-- V4.2: seven pending bits, `"1100111"`. -/
theorem test_flush :
    (after (exec .flush (running .flush .start { State.reset with pkAcc := 0b1100111, pkN := 7 }))).map
      (fun t => (t.outQ, t.pkN)) = some ([.byte 0xCE, .endBeat], 0) := by decide +kernel

/-- V4.2: nothing pending. -/
theorem test_flush_empty :
    (after (exec .flush (running .flush .start State.reset))).map (fun t => t.outQ) = some [.endBeat] := by decide +kernel

/-- V5.1: "aaaa", gated. -/
theorem test_compress_gated :
    (after (exec (.compress false) (running (.compress false) .estimatePhase coded))).map
      (fun t => (t.result, t.gated, t.outQ, t.k)) = some (58, true, [], some .finishing) := by decide +kernel

/-- V5.1: "aaaa", forced: the header leaves five bits pending. -/
theorem test_compress_header :
    (after (exec (.compress true) (running (.compress true) .headerPhase coded))).map
      (fun t => (t.pending, t.hdrBits, t.phase, t.k)) =
        some ([false, false, false, false, true], 53, .hdrWrite, some (.encodePhase 53)) := by decide +kernel

/-- V4.3: the last byte of `FA CE 82 00 98 40`, a tree that is the leaf of a byte. -/
theorem test_decompress_lone_leaf :
    (after (exec .decompress (running .decompress (.symIn 0 1 33 7 24) { State.reset with inQ := [.byte 0x40, .endBeat] }))).map
      (fun t => (nodeAt t.node 0, t.inQ, t.k)) =
        some (⟨true, true, 0x61, 0, 0, 0⟩, [.endBeat], some (.raising .hdrInvalid 3)) := by decide +kernel

/-- V6.2: three codes of a after the header of "aaaa", in the byte `0F`. -/
theorem test_decompress_walk :
    (after (exec .decompress (running .decompress .walkPhase { State.reset with
        node := nodes [(0, ⟨true, false, 0, 1, 2, 0⟩), (1, ⟨true, true, 256, 0, 0, 0⟩), (2, ⟨true, true, 0x61, 0, 0, 0⟩)]
        upBuf := 0x0F, upN := 3 }))).map (fun t => (t.outQ, t.k)) =
      some ([.byte 0x61, .byte 0x61, .byte 0x61], some (.walkIn 0 3)) := by decide +kernel

/-! ## The host's actions -/

/-- V1.5. -/
theorem test_dispatch_range :
    (after (regWrite 0x08 0x04000100#32 { State.reset with data := 9 })).map
      (fun t => (t.error, t.errInfo, t.data, t.statusWord)) = some (.range, 0x04000100#32, 9, 4) := by decide +kernel

/-- Section 3 of the vectors: range is checked before sequence, and an illegal word before both. -/
theorem test_dispatch_order :
    (after (regWrite 0x08 0x06000258#32 State.reset)).map State.error = some .range ∧
      (after (regWrite 0x08 0x06800258#32 State.reset)).map State.error = some .illegalCmd ∧
      (after (regWrite 0x08 0x06000000#32 State.reset)).map State.error = some .sequence := by decide +kernel

/-- V7.8. -/
theorem test_cmd_dropped :
    (after (regWrite 0x08 0#32 (running .count .countIn State.reset))).map State.statusWord = some 0x00010101#32 := by
  decide +kernel

/-- V7.10. -/
theorem test_abort :
    (after (regWrite 0x00 2#32 (running .count .countIn (counted 2 [(0x61, 1), (0x62, 1)])))).map
      (fun t => (t.statusWord, t.error, t.errInfo, t.total, freqAt t.freq 0x61)) = some (4, .aborted, 1, 2, 1) := by
  decide +kernel

/-- V7.1. -/
theorem test_reads_after_reset :
    (State.reset.regRead 0x04).rdata = 0 ∧ (State.reset.regRead 0x44).rdata = 0xFACE8200#32 ∧
      (State.reset.regRead 0x08).rdata = 0 ∧ (State.reset.regRead 0x48).rdata = 0 ∧
      (State.reset.regRead 0x02).rdata = 0 := by decide +kernel

/-- V7.13 to V7.15. -/
theorem test_irq :
    ({ State.reset with ie := true, done := true } : State).irq = true ∧
      (State.statusWrite 2#32 { State.reset with ie := true, done := true }).irq = false ∧
      (State.ctrlWrite 0#32 { State.reset with ie := true, done := true }).irq = false := by decide +kernel

/-! ## Witnesses: for each statement with hypotheses, a state and operands that meet them together

The witness of a statement whose hypotheses are that a command stands at a point, or that the core is idle, is the test of
that step above where there is one; the ones below are the others, one clause after another. -/

/-- COUNT waits for a beat, with nothing counted. -/
def waiting : State := running .count .countIn State.reset

theorem waiting_inv : waiting.Inv :=
  .of_running .count .countIn (.of_clear (by decide +kernel) rfl) rfl rfl rfl rfl rfl (by decide) rfl rfl rfl trivial

/-- The phantom tree (V2.2a). -/
def phantomTree : HTree := .node (.leaf 0) (.leaf 256)

/-- The state with the tree that BUILD_TREE makes of its counts, and the codes of the phantom tree. -/
def coder (s : State) : State :=
  { s with
    node := writeNodes (treePlan s.freq).1 (nodesInvalid s.node)
    root := (treePlan s.freq).2, nodeCount := 3, treeValid := true
    code := writeCodes phantomTree.codes codesAbsent, codesValid := true }

theorem coder_built (s : State) : (coder s).holdsBuiltTree := ⟨s.node, rfl, rfl⟩

/-- Idle, with the tree that BUILD_TREE makes of no counts, and its codes. -/
def phantom : State := coder State.reset

theorem phantom_holds : phantom.holdsTree phantomTree = true := by decide +kernel

theorem running_holds (i : Instr) (p : Point) (s : State) (t : HTree) : (running i p s).holdsTree t = s.holdsTree t := rfl

theorem running_tables (i : Instr) (p : Point) {s : State} (h : s.TablesOk) : (running i p s).TablesOk :=
  h.congr ⟨rfl, rfl, rfl, rfl, rfl, rfl, rfl, rfl, rfl, rfl⟩

theorem running_flagsAt (i j : Instr) (p q : Point) (s : State) : (running i p s).flagsAt j q = s.flagsAt j q := rfl

theorem phantom_tables : phantom.TablesOk where
  total_eq_sum := by show (0 : Word).toNat = freqSum freqZero; simp
  codes_of_built_tree := fun _ => ⟨rfl, rfl⟩
  estimate_has_codes := fun h => by cases h
  gated_has_estimate := fun h => by cases h
  tree_is_built := fun _ _ => coder_built State.reset
  decoded_is_tree := fun _ h => by cases h
  codes_are_of_tree := fun _ => ⟨phantomTree, phantom_holds, rfl⟩

theorem phantom_inv : phantom.Inv := .of_idle phantom_tables rfl rfl rfl (fun h => by cases h) (fun _ => rfl)

/-- A command with no operand that writes no table, started over the phantom tree and its codes. -/
theorem phantom_running_inv (i : Instr) (p : Point) (hd : decode (encode i) = .ok i) (hw : i.wellFormed = true)
    (hf : phantom.flagsAt i p = true) (hp : ∀ s : State, s.parseOk p) : (running i p phantom).Inv := by
  exact .of_running i p (running_tables i p phantom_tables) rfl rfl rfl rfl rfl hd hw rfl
    ((running_flagsAt i i p p phantom).trans hf) (hp _)

theorem witness_EncodeDecoded : decode 0x06010107#32 = .ok (.readNode 1 263) := by decide

theorem witness_IllegalWordsAreRejected :
    State.reset.busy = false ∧ (∃ e, decode 0x0F000000#32 = .error e) ∧ (0x03800061#32).getLsbD 23 = true ∧
      (0x02010000#32).extractLsb' 16 4 ≠ 0 ∧ (0x02000001#32).extractLsb' 0 10 ≠ 0 :=
  ⟨rfl, ⟨.reservedOpcode, by decide⟩, by decide, by decide, by decide⟩

theorem witness_OperandRanges :
    State.reset.busy = false ∧ decode 0x03000100#32 = .ok (.loadFreq 256) ∧ decode 0x06000201#32 = .ok (.readNode 0 513) ∧
      decode 0x06030000#32 = .ok (.readNode 3 0) ∧ decode 0x08000101#32 = .ok (.readCode 0 257) ∧
      decode 0x08080000#32 = .ok (.readCode 8 0) := ⟨rfl, by decide, by decide, by decide, by decide, by decide⟩

theorem witness_StepRunsDecodedCommand :
    decode 0x02000000#32 = .ok .count ∧ State.reset.busy = false ∧
      ({ State.reset with agenda := [.regWrite 0x08 0x02000000#32] } : State).agenda = .regWrite 0x08 0x02000000#32 :: [] ∧
      waiting.busy = true ∧ waiting.curCmd = 0x02000000#32 ∧ waiting.agenda = [] ∧
      ({ waiting with agenda := [.core] } : State).agenda = .core :: [] ∧
      decodeTableWord 32 0x02000000 = some .count :=
  ⟨by decide, rfl, rfl, rfl, by decide, rfl, rfl, by decide⟩

theorem witness_IdleOrWaitingCoreIsStill :
    State.reset.agenda = [] ∧ State.reset.busy = false ∧ waiting.agenda = [] ∧ waiting.Inv ∧ waiting.inReady = true ∧
      waiting.inQ = [] := ⟨rfl, rfl, rfl, waiting_inv, rfl, rfl⟩

/-- AcceptKeepsFlags, AcceptClearsFlags and AcceptClearsStaleFlags, at the last operands. -/
theorem witness_Accept :
    phantom.busy = false ∧ phantom.treeValid = true ∧ phantom.treeDecoded = false ∧ phantom.codesValid = true ∧
      (255#10).toNat ≤ 255 ∧ (512#10).toNat ≤ 512 ∧ (2#4).toNat ≤ 2 ∧ (256#10).toNat ≤ 256 ∧ (7#4).toNat ≤ 7 :=
  ⟨rfl, rfl, rfl, rfl, by decide⟩

theorem witness_UnmetPrerequisiteIsRejected :
    State.reset.busy = false ∧ State.reset.treeValid = false ∧ State.reset.codesValid = false ∧
      ({ State.reset with treeDecoded := true } : State).treeDecoded = true := ⟨rfl, rfl, rfl, rfl⟩

theorem witness_BusyDropsCommand :
    waiting.busy = true ∧ ({ waiting with cmdDropped := true, agenda := [.dropIn] } : State).cmdDropped = true ∧
      step { waiting with cmdDropped := true, agenda := [.dropIn] } = .next { waiting with cmdDropped := true } :=
  ⟨rfl, rfl, rfl⟩

theorem witness_FinishEndsCommand :
    (running .flush .finishing phantom).standsAt .finishing ∧ (running .flush .finishing phantom).Inv :=
  ⟨⟨rfl, rfl⟩, phantom_running_inv .flush .finishing (by decide) rfl rfl (fun _ => trivial)⟩

theorem witness_RaiseEndsCommand :
    (running .encode (.raising .invariant 0x78) phantom).standsAt (.raising .invariant 0x78) := ⟨rfl, rfl⟩

/-- AbortEndsCommand, BusyReads and HostWrites. -/
theorem witness_AbortEndsCommand :
    waiting.busy = true ∧ State.reset.busy = false ∧ (2#32).getLsbD 1 = true ∧ (0x10#8) ≠ 0x00 ∧ (0x10#8) ≠ 0x04 ∧
      (0x10#8) ≠ 0x08 ∧ (0x10#8) ≠ 0x0C := ⟨rfl, rfl, by decide⟩

theorem witness_IdleReads : State.reset.busy = false ∧ (0x48#8).toNat % 4 = 0 ∧ 0x48 ≤ (0x48#8).toNat ∧
    (0x02#8).toNat % 4 ≠ 0 := ⟨rfl, by decide⟩

theorem witness_StreamActions :
    ({ State.reset with outQ := [.endBeat] } : State).outQ = .endBeat :: [] ∧ State.reset.outQ = [] := ⟨rfl, rfl⟩

theorem witness_InterruptLine : waiting.Inv := waiting_inv

/-- GenCodesRuns, its clause on the entries. -/
theorem witness_GenCodesRuns :
    phantomTree.leaves.Nodup ∧ (∀ sym ∈ phantomTree.leaves, sym.toNat ≤ 256) ∧ ((256 : Sym), [true]) ∈ phantomTree.codes ∧
      (1 : Sym) ∉ phantomTree.leaves := by decide

/-- The statements whose hypothesis is `standsAt .start`, with the operands at the end of their ranges; GenCodesRuns and
WriteHeaderRuns with all of theirs. -/
theorem witness_standsAt_start :
    (∀ i : Instr, (running i .start phantom).standsAt .start) ∧ (running .genCodes .start phantom).holdsTree phantomTree = true ∧
      (running .writeHeader .start phantom).holdsTree phantomTree = true ∧ (running .writeHeader .start phantom).Inv ∧
      (running .writeHeader .start phantom).treeValid = true ∧ (running .writeHeader .start phantom).treeDecoded = false :=
  ⟨fun _ => ⟨rfl, rfl⟩, (running_holds _ _ _ _).trans phantom_holds, (running_holds _ _ _ _).trans phantom_holds,
    phantom_running_inv .writeHeader .start (by decide) rfl rfl (fun _ => trivial), rfl, rfl⟩

theorem witness_CountSteps :
    (running .count .start State.reset).standsAt .start ∧
      (let s : State := { waiting with inQ := [.byte 0xFF] };
        s.standsAt .countIn ∧ s.inQ = .byte 0xFF :: [] ∧ s.total.toNat ≠ 2 ^ 32 - 1) ∧
      (let s : State := { waiting with inQ := [.byte 0xFF], total := 0xFFFFFFFF#32 };
        s.standsAt .countIn ∧ s.inQ = .byte 0xFF :: [] ∧ s.total.toNat = 2 ^ 32 - 1) ∧
      (let s : State := { waiting with inQ := [.endBeat] };
        s.standsAt .countIn ∧ s.inQ = .endBeat :: []) :=
  ⟨⟨rfl, rfl⟩, ⟨⟨rfl, rfl⟩, rfl, by decide +kernel⟩, ⟨⟨rfl, rfl⟩, rfl, by decide⟩, ⟨rfl, rfl⟩, rfl⟩

theorem witness_CountTallies :
    let s : State := { State.reset with
      agenda := [.regWrite 0x08 0x02000000#32], inQ := byteBeats [0x61, 0x62] ++ .endBeat :: [.byte 1] }
    s.busy = false ∧ [(0x61 : Byte), 0x62].length < 2 ^ 32 ∧ s.agenda = [.regWrite 0x08 0x02000000#32] ∧
      s.inQ = byteBeats [0x61, 0x62] ++ .endBeat :: [.byte 1] := ⟨rfl, by decide, rfl, rfl⟩

theorem witness_LoadFreqRuns :
    (let s : State := running (.loadFreq 255) .start State.reset;
      s.standsAt .start ∧ (255#10).toNat ≤ 255 ∧ (freqAt s.freq (255#10).toNat).toNat ≤ s.total.toNat ∧
        s.total.toNat - (freqAt s.freq (255#10).toNat).toNat + s.data.toNat ≤ 2 ^ 32 - 1) ∧
      (let s : State := running (.loadFreq 255) .start { State.reset with total := 0xFFFFFFFF#32, data := 1 };
        s.standsAt .start ∧ (255#10).toNat ≤ 255 ∧ (freqAt s.freq (255#10).toNat).toNat ≤ s.total.toNat ∧
          2 ^ 32 - 1 < s.total.toNat - (freqAt s.freq (255#10).toNat).toNat + s.data.toNat) :=
  ⟨⟨⟨rfl, rfl⟩, by decide, by decide +kernel, by decide +kernel⟩, ⟨rfl, rfl⟩, by decide, by decide +kernel, by decide +kernel⟩

/-- BuildFollowsMergeRule, BuiltTreeShape, BuiltTreeWeights and BuiltTreeNumbering. -/
theorem witness_BuiltTree :
    (running .buildTree .start State.reset).standsAt .start ∧
      (running .buildTree .start State.reset).total.toNat = freqSum (running .buildTree .start State.reset).freq :=
  ⟨⟨rfl, rfl⟩, by show (0 : Word).toNat = freqSum freqZero; simp⟩

theorem witness_ReadNodeRuns :
    (running (.readNode 2 512) .start coded).standsAt .start ∧ (512#10).toNat ≤ 512 ∧ (2#4).toNat ≤ 2 ∧
      (nodeAt coded.node 512).valid = false ∧ (nodeAt coded.node 257).valid = true ∧ (0#4).toNat = 0 ∧ (1#4).toNat = 1 :=
  ⟨⟨rfl, rfl⟩, by decide, by decide, by decide +kernel, by decide +kernel, by decide⟩

/-- CodeTableLaws and EstimateIsExact. -/
theorem witness_CodeTableLaws : phantom.Inv ∧ phantom.codesValid = true := ⟨phantom_inv, rfl⟩

theorem witness_ReadCodeRuns :
    let s : State := running (.readCode 7 256) .start phantom
    s.standsAt .start ∧ (256#10).toNat ≤ 256 ∧ (7#4).toNat ≤ 7 ∧ (codeAt s.code 256).valid = true ∧
      (codeAt s.code 1).valid = false ∧ s.Inv ∧ s.codesValid = true ∧ (codeAt s.code 256).len.toNat ≤ 32 * (7#4).toNat + 31 :=
  ⟨⟨rfl, rfl⟩, by decide, by decide, by decide +kernel, by decide +kernel,
    phantom_running_inv (.readCode 7 256) .start (by decide) rfl rfl (fun _ => trivial), rfl, by decide +kernel⟩

/-- EncodeSteps and CompressLastSteps. -/
theorem witness_EncodeSteps :
    (let s : State := running .encode (.encodeIn 0 0) { coded with inQ := [.byte 0x61] };
      s.standsAt (.encodeIn 0 0) ∧ s.inQ = .byte 0x61 :: [] ∧ (codeAt s.code (0x61#8).toNat).valid = true) ∧
      (let s : State := running .encode (.encodeIn 0 0) { coded with inQ := [.byte 0x62] };
        s.standsAt (.encodeIn 0 0) ∧ s.inQ = .byte 0x62 :: [] ∧ (codeAt s.code (0x62#8).toNat).valid = false) ∧
      (let s : State := running .encode (.encodeIn 0 0) { coded with inQ := [.endBeat] };
        s.standsAt (.encodeIn 0 0) ∧ s.inQ = .endBeat :: []) ∧
      (running .encode (.flushPhase 0 3) coded).standsAt (.flushPhase 0 3) ∧
      (running (.compress true) .headerPhase phantom).standsAt .headerPhase ∧
      (running (.compress true) .headerPhase phantom).holdsTree phantomTree = true ∧
      (running (.compress true) (.encodePhase 53) coded).standsAt (.encodePhase 53) :=
  ⟨⟨⟨rfl, rfl⟩, rfl, by decide +kernel⟩, ⟨⟨rfl, rfl⟩, rfl, by decide +kernel⟩, ⟨⟨rfl, rfl⟩, rfl⟩, ⟨rfl, rfl⟩, ⟨rfl, rfl⟩,
    (running_holds _ _ _ _).trans phantom_holds, ⟨rfl, rfl⟩⟩

theorem witness_EncodeWritesBody :
    let s : State := { coded with
      agenda := [.regWrite 0x08 0x0B000000#32], inQ := byteBeats [0x61] ++ .endBeat :: [] }
    s.busy = false ∧ s.codesValid = true ∧ s.agenda = [.regWrite 0x08 0x0B000000#32] ∧
      s.inQ = byteBeats [0x61] ++ .endBeat :: [] ∧ ∀ b ∈ [(0x61 : Byte)], (codeAt s.code b.toNat).valid = true :=
  ⟨rfl, rfl, rfl, rfl, by decide +kernel⟩

theorem witness_CompressFirstSteps :
    (running (.compress false) .start State.reset).standsAt .start ∧
      (let s : State := running (.compress false) .countIn { State.reset with inQ := [.byte 0xFF] };
        s.standsAt .countIn ∧ s.inQ = .byte 0xFF :: [] ∧ s.total.toNat ≠ 2 ^ 32 - 1) ∧
      (let s : State := running (.compress false) .countIn { State.reset with inQ := [.byte 0xFF], total := 0xFFFFFFFF#32 };
        s.standsAt .countIn ∧ s.inQ = .byte 0xFF :: [] ∧ s.total.toNat = 2 ^ 32 - 1) ∧
      (let s : State := running (.compress false) .countIn { State.reset with inQ := [.endBeat] };
        s.standsAt .countIn ∧ s.inQ = .endBeat :: []) ∧
      (running (.compress false) .buildPhase State.reset).standsAt .buildPhase ∧
      (running (.compress false) .codesPhase phantom).standsAt .codesPhase ∧
      (running (.compress false) .codesPhase phantom).holdsTree phantomTree = true :=
  ⟨⟨rfl, rfl⟩, ⟨⟨rfl, rfl⟩, rfl, by decide +kernel⟩, ⟨⟨rfl, rfl⟩, rfl, by decide +kernel⟩, ⟨⟨rfl, rfl⟩, rfl⟩, ⟨rfl, rfl⟩, ⟨rfl, rfl⟩,
    (running_holds _ _ _ _).trans phantom_holds⟩

theorem headerSize_le (s : State) : headerSize s.code ≤ compressedSize s := Nat.le_add_right _ _

theorem witness_CompressGate :
    let s : State := running (.compress false) .estimatePhase coded
    s.standsAt .estimatePhase ∧ 8 * s.total.toNat ≤ compressedSize s ∧ 8 * s.total.toNat ≤ 32 ∧ 53 ≤ headerSize s.code := by
  have h1 : 8 * (running (.compress false) .estimatePhase coded).total.toNat ≤ 32 := by decide +kernel
  have h2 : 53 ≤ headerSize (running (.compress false) .estimatePhase coded).code := by decide +kernel
  exact ⟨⟨rfl, rfl⟩, h1.trans ((Nat.le_trans (by decide) h2).trans (headerSize_le _)), h1, h2⟩

/-- The header of "aaaa" (V5.1): 53 bits, then three more of its seventh byte. -/
def aaaaTree : HTree := .node (.leaf 256) (.leaf 0x61)

/-- The walk over the decoded tree of "aaaa": four codes of a, the code of `PSEUDO_EOF`, six bits of padding. -/
def walking : State :=
  running .decompress .walkPhase { State.reset with
    node := nodes [(0, ⟨true, false, 0, 1, 2, 0⟩), (1, ⟨true, true, 256, 0, 0, 0⟩), (2, ⟨true, true, 0x61, 0, 0, 0⟩)]
    upBuf := 0x0F, upN := 3, inQ := byteBeats [0x80] ++ [.endBeat] }

/-- DECOMPRESS stands at a point, with a beat to take. -/
def decoding (p : Point) (x : Beat) : State := running .decompress p { State.reset with inQ := [x] }

theorem decoding_stands (p : Point) (x : Beat) : (decoding p x).standsAt p ∧ (decoding p x).inQ = x :: [] := ⟨⟨rfl, rfl⟩, rfl⟩

theorem noSlots (p : Point) (x : Beat) : (decoding p x).stackOfSlots := fun e he => by cases he

/-- The walk of "aaaa" with the flags of a decoded tree. -/
def walker : State := { walking with treeValid := true, treeDecoded := true }

theorem walker_inv : walker.Inv :=
  .of_running .decompress .walkPhase
    { total_eq_sum := by show (0 : Word).toNat = freqSum freqZero; simp
      codes_of_built_tree := fun h => by cases h
      estimate_has_codes := fun h => by cases h
      gated_has_estimate := fun h => by cases h
      tree_is_built := fun _ h => by cases h
      decoded_is_tree := fun _ _ => ⟨aaaaTree, by decide +kernel⟩
      codes_are_of_tree := fun h => by cases h }
    rfl rfl rfl rfl rfl (by decide) rfl rfl rfl rfl

theorem witness_DecompressSteps :
    (running .decompress .start State.reset).standsAt .start ∧
      (∀ p ∈ [.magicIn 31 0, .tagIn .top 513 32, .symIn 0 1 33 8 0, .walkIn 0 3], ∀ x : Beat,
        (decoding p x).standsAt p ∧ (decoding p x).inQ = x :: [] ∧ (decoding p x).readsBits p) ∧
      ((decoding (.magicIn 0 0) .endBeat).Inv ∧ (decoding (.magicIn 0 0) .endBeat).standsAt (.magicIn 0 0)) ∧
      (walker.Inv ∧ walker.standsAt .walkPhase ∧ walker.upEos = false) ∧
      (running .decompress (.drainPhase 3) State.reset).standsAt (.drainPhase 3) ∧ State.reset.upEos = false ∧
      (let s : State := running .decompress (.drainPhase 3) { State.reset with upEos := true };
        s.standsAt (.drainPhase 3) ∧ s.upEos = true) ∧
      ∀ x : Beat, (decoding (.drainIn 3) x).standsAt (.drainIn 3) ∧ (decoding (.drainIn 3) x).inQ = x :: [] := by
  refine ⟨⟨rfl, rfl⟩, ?_, ⟨?_, ⟨rfl, rfl⟩⟩, ⟨walker_inv, ⟨rfl, rfl⟩, rfl⟩, ⟨rfl, rfl⟩, rfl, ⟨⟨rfl, rfl⟩, rfl⟩, fun x => decoding_stands _ x⟩
  · intro p hp x
    refine ⟨(decoding_stands p x).1, (decoding_stands p x).2, ?_⟩
    simp only [List.mem_cons, List.not_mem_nil, or_false] at hp
    rcases hp with rfl | rfl | rfl | rfl
    · exact ⟨rfl, by decide⟩
    · exact ⟨rfl, noSlots _ x⟩
    · exact ⟨rfl, by decide, noSlots _ x⟩
    · exact (rfl : (decoding _ x).upEos = false)
  · exact .of_running .decompress (.magicIn 0 0) (.of_clear (by show (0 : Word).toNat = freqSum freqZero; simp) rfl)
      rfl rfl rfl rfl rfl (by decide) rfl rfl rfl ⟨rfl, by decide⟩

/-- A magic marker with its last byte wrong; the 514th node, at the second bit of a byte 00 and at its first; and the symbols
511, at the second bit of a byte C0, and 257, at its first (V4.3). -/
theorem witness_HeaderChecks :
    ((decoding (.magicIn 24 0xFACE82) (.byte 1)).standsAt (.magicIn 24 0xFACE82) ∧ 0xFACE82 < 2 ^ 24 ∧
      256 * 0xFACE82 + (1#8).toNat ≠ 0xFACE8200) ∧
    (let s := decoding (.tagIn (.right 511) 512 544) (.byte 0);
      s.standsAt (.tagIn (.right 511) 512 544) ∧ s.readsBits (.tagIn (.right 511) 512 544) ∧
        ∃ t, TakesBits (.tagIn (.right 511) 512 544) s ((byteBits 0).take 1) (.tagIn (.left (BitVec.ofNat 10 512)) 513 545) t []) ∧
    (let s := decoding (.tagIn (.right 512) 513 545) (.byte 0);
      s.readsBits (.tagIn (.right 512) 513 545) ∧
        TakesBits (.tagIn (.right 512) 513 545) s ((byteBits 0).take 0) (.tagIn (.right 512) 513 545) s []) ∧
    (let s := decoding (.symIn 0 1 33 7 127) (.byte 0xC0);
      s.standsAt (.symIn 0 1 33 7 127) ∧ s.readsBits (.symIn 0 1 33 7 127) ∧
        TakesBits (.symIn 0 1 33 7 127) s ((byteBits 0xC0).take 1) (.symIn 0 1 33 8 255) s [] ∧
        256 < 2 * 255 + ((0xC0#8).getLsbD (7 - 1)).toNat ∧ 2 * 255 + ((0xC0#8).getLsbD (7 - 1)).toNat < 512) ∧
    (let s := decoding (.symIn 0 1 33 8 128) (.byte 0xC0);
      s.readsBits (.symIn 0 1 33 8 128) ∧
        TakesBits (.symIn 0 1 33 8 128) s ((byteBits 0xC0).take 0) (.symIn 0 1 33 8 128) s [] ∧
        256 < 2 * 128 + ((0xC0#8).getLsbD (7 - 0)).toNat) := by
  have e0 : (byteBits 0).take 1 = [false] := by decide
  have e1 : (byteBits 0xC0).take 1 = [true] := by decide
  rw [e0, e1]
  exact ⟨⟨⟨rfl, rfl⟩, by decide, by decide⟩,
    ⟨⟨rfl, rfl⟩, ⟨rfl, noSlots _ _⟩, _, .innerTag _ 512 544 _ [] _ _ _ (by decide) (.done _ _)⟩,
    ⟨⟨rfl, noSlots _ _⟩, .done _ _⟩,
    ⟨⟨rfl, rfl⟩, ⟨rfl, by decide, noSlots _ _⟩, .symbolBit 0 1 33 7 127 _ true [] _ _ _ (by decide) (.done _ _), by decide, by decide⟩,
    ⟨rfl, by decide, noSlots _ _⟩, .done _ _, by decide⟩

/-- The state that takes the header of "aaaa". -/
def parsing : State :=
  running .decompress (.magicIn 0 0) { State.reset with
    inQ := byteBeats [0xFA, 0xCE, 0x82, 0x00, 0x60, 0x13, 0x08] ++ [.endBeat] }

theorem witness_HeaderParse :
    parsing.running .decompress (.magicIn 0 0) ∧ parsing.upN = 0 ∧ parsing.upEos = false ∧
      parsing.inQ = byteBeats [0xFA, 0xCE, 0x82, 0x00, 0x60, 0x13, 0x08] ++ [.endBeat] ∧ aaaaTree.size ≤ 513 ∧
      (∀ sym ∈ aaaaTree.leaves, sym.toNat ≤ 256) ∧
      streamBits [0xFA, 0xCE, 0x82, 0x00, 0x60, 0x13, 0x08] =
        msbBits 32 0xFACE8200 ++ aaaaTree.bits ++ [false, false, false] ∧ [false, false, false].length < 8 :=
  ⟨⟨rfl, rfl, by decide, rfl⟩, rfl, rfl, rfl, by decide, by decide, by decide +kernel, by decide⟩

theorem witness_HeaderRoundTrip :
    let s : State := running .writeHeader .start coded
    ∃ t : State, s.standsAt .start ∧ s.holdsTree aaaaTree = true ∧ s.pkN = 0 ∧ exec .writeHeader s = .next t ∧
      t.outQ = s.outQ ++ byteBeats [0xFA, 0xCE, 0x82, 0x00, 0x60, 0x13] ∧
      streamBits [0xFA, 0xCE, 0x82, 0x00, 0x60, 0x13, 0x08] =
        streamBits [0xFA, 0xCE, 0x82, 0x00, 0x60, 0x13] ++ t.pending ++ [false, false, false] ∧
      parsing.running .decompress (.magicIn 0 0) ∧
      parsing.inQ = byteBeats [0xFA, 0xCE, 0x82, 0x00, 0x60, 0x13, 0x08] ++ [.endBeat] := by
  have h := test_writeHeader
  cases e : exec .writeHeader (running .writeHeader .start coded) with
  | next t =>
    rw [e] at h
    simp only [after, Option.map_some, Option.some.injEq, Prod.mk.injEq] at h
    refine ⟨t, ⟨rfl, rfl⟩, by decide +kernel, rfl, e, ?_, ?_, ⟨rfl, rfl, by decide, rfl⟩, rfl⟩
    · exact h.1
    · rw [h.2.1]; decide +kernel
  | fault r => rw [e] at h; cases h
  | refused r => rw [e] at h; cases h

theorem witness_WalkDecodes :
    walking.running .decompress .walkPhase ∧ walking.upEos = false ∧ walking.root = 0 ∧
      aaaaTree.sits walking.node 0 = true ∧
      (∀ e ∈ List.replicate 4 ((0x61 : Sym), [true]), e ∈ aaaaTree.codes ∧ e.1.toNat < 256) ∧
      (256, [false]) ∈ aaaaTree.codes ∧ walking.inQ = byteBeats [0x80] ++ [.endBeat] ∧
      walking.undelivered ++ streamBits [0x80] =
        (List.replicate 4 ((0x61 : Sym), [true])).flatMap Prod.snd ++ [false] ++ List.replicate 6 false ∧
      (List.replicate 6 false).length < 8 :=
  ⟨⟨rfl, rfl, by decide, rfl⟩, rfl, rfl, by decide +kernel, by decide, by decide, rfl, by decide +kernel, by decide⟩

/-- CompressWritesStream and RoundTrip. -/
theorem witness_RoundTrip :
    let s : State := { State.reset with
      agenda := [.regWrite 0x08 0x0D800000#32]
      inQ := byteBeats [0x61] ++ .endBeat :: (byteBeats [0x61] ++ .endBeat :: []) }
    s.busy = false ∧ [(0x61 : Byte)].length < 2 ^ 32 ∧ s.outQ = [] ∧ s.agenda = [.regWrite 0x08 0x0D800000#32] ∧
      s.agenda = [.regWrite 0x08 (encode (.compress true))] ∧
      s.inQ = byteBeats [0x61] ++ .endBeat :: (byteBeats [0x61] ++ [.endBeat]) :=
  ⟨rfl, by decide, rfl, rfl, by decide +kernel, rfl⟩

/-- StepKeepsInvariant. -/
theorem witness_StepKeepsInvariant : waiting.Inv ∧ phantom.Inv := ⟨waiting_inv, phantom_inv⟩

theorem witness_PhaseNamesTheStep : waiting.phaseOk ∧ step waiting = .next waiting := by
  refine And.intro (And.intro (fun h => by cases h) (fun i p _ hi _ => ?_)) rfl
  have hi' : decode 0x02000000#32 = .ok i := hi
  rw [test_decode_count] at hi'
  cases hi'
  exact List.mem_singleton.2 rfl

theorem witness_CommandStepBound :
    let s : State := running .flush .start phantom
    s.Inv ∧ s.agenda = [] ∧ s.standsAt .start ∧ (∀ m < 1, ∀ u, core.run m s = .next u → u.coreEnabled = true) ∧
      ∃ t, core.run 1 s = .next t := by
  refine ⟨phantom_running_inv .flush .start (by decide) rfl rfl (fun _ => trivial), rfl, ⟨rfl, rfl⟩, ?_, ?_⟩
  · intro m hm u hu
    have hm0 : m = 0 := by omega
    subst hm0
    injection hu with hu
    rw [← hu]; rfl
  · exact ⟨_, rfl⟩

/-- COUNT with the one `End` it takes, and FLUSH with none. -/
theorem witness_CommandEnds :
    (let s : State := { waiting with inQ := [.endBeat] };
      s.Inv ∧ s.running .count .countIn ∧ endsNeeded .count .countIn ≤ s.inQ.count .endBeat) ∧
    (let s : State := running .flush .start phantom;
      s.Inv ∧ s.running .flush .start ∧ endsNeeded .flush .start ≤ s.inQ.count .endBeat) :=
  ⟨⟨.of_running .count .countIn (.of_clear (by decide +kernel) rfl) rfl rfl rfl rfl rfl (by decide) rfl rfl rfl trivial,
      ⟨rfl, rfl, by decide, rfl⟩, by decide⟩,
    phantom_running_inv .flush .start (by decide) rfl rfl (fun _ => trivial), ⟨rfl, rfl, by decide, rfl⟩, Nat.zero_le _⟩

theorem witness_CoreTurnFrame : coreTurn State.reset = .next State.reset := rfl

/-- DataIsLeftAlone and OnlyTheseWrite. -/
theorem witness_OnlyTheseWrite : exec .nop State.reset = .next (dispatchLegal .nop State.reset) := rfl

end Sys2Proof.Tests
end

section
/-! PROOFS. The encoding: which words are illegal (30_encoding.md rules R71, R73, R74), and the words that READ_FREQ,
READ_NODE and READ_CODE give (R79 to R81). -/

namespace Sys2Proof

/-! ## The rows of the opcode map, field by field (R71, R73) -/

/-- A word is its fields (R71). -/
theorem word_eq_iff_fields (v w : Word) :
    v = w ↔ opField v = opField w ∧ v.getLsbD 23 = w.getLsbD 23 ∧ v.extractLsb' 20 3 = w.extractLsb' 20 3 ∧
      wselField v = wselField w ∧ v.extractLsb' 10 6 = w.extractLsb' 10 6 ∧ idxField v = idxField w := by
  refine ⟨fun h => by subst h; simp, fun ⟨hop, hf, h20, hwsel, h10, hidx⟩ => BitVec.eq_of_getLsbD_eq fun i hi => ?_⟩
  have bit : ∀ {lo n : Nat}, v.extractLsb' lo n = w.extractLsb' lo n → lo ≤ i → i < lo + n →
      v.getLsbD i = w.getLsbD i := by
    intro lo n h hlo hhi
    have h := congrArg (fun x => x.getLsbD (i - lo)) h
    simpa [show i - lo < n by omega, show lo + (i - lo) = i by omega] using h
  by_cases h23 : i = 23
  · exact h23 ▸ hf
  obtain h | h | h | h | h : i < 10 ∨ 10 ≤ i ∧ i < 16 ∨ 16 ≤ i ∧ i < 20 ∨ 20 ≤ i ∧ i < 23 ∨ 24 ≤ i := by omega
  · exact bit hidx (Nat.zero_le _) (by omega)
  · exact bit h10 h.1 h.2
  · exact bit hwsel h.1 h.2
  · exact bit h20 h.1 h.2
  · exact bit hop h hi

/-- `w & mask = match` (R73), one field at a time. -/
theorem and_eq_iff_fields (w m p : Word) :
    w &&& m = p ↔ opField w &&& opField m = opField p ∧ (w.getLsbD 23 && m.getLsbD 23) = p.getLsbD 23 ∧
      w.extractLsb' 20 3 &&& m.extractLsb' 20 3 = p.extractLsb' 20 3 ∧ wselField w &&& wselField m = wselField p ∧
      w.extractLsb' 10 6 &&& m.extractLsb' 10 6 = p.extractLsb' 10 6 ∧ idxField w &&& idxField m = idxField p := by
  rw [word_eq_iff_fields]
  simp only [opField, wselField, idxField, BitVec.extractLsb'_and, BitVec.getLsbD_and]

/-- The masks and patterns of R73 are made of whole fields: a field is compared in full or not at all, and a row's pattern
is its opcode with zeros below. -/
theorem opRows_wholeFields : ∀ r ∈ opRows,
    opField r.mask = BitVec.allOnes 8 ∧
      (r.mask.extractLsb' 20 3 = BitVec.allOnes 3 ∧ r.mask.extractLsb' 10 6 = BitVec.allOnes 6) ∧
      (wselField r.mask = 0 ∨ wselField r.mask = BitVec.allOnes 4) ∧
      (idxField r.mask = 0 ∨ idxField r.mask = BitVec.allOnes 10) ∧
      r.pattern.getLsbD 23 = false ∧ r.pattern.extractLsb' 20 3 = 0 ∧ wselField r.pattern = 0 ∧
      r.pattern.extractLsb' 10 6 = 0 ∧ idxField r.pattern = 0 := by
  decide

/-- Which opcodes have a row, and whose rows leave the fields `F`, `WSEL` and `IDX` free (R73). -/
theorem opRows_freeFields : ∀ r ∈ opRows,
    (opField r.pattern).toNat < 0x0F ∧
      (r.mask.getLsbD 23 = false ↔ (opField r.pattern).toNat = 0x09 ∨ (opField r.pattern).toNat = 0x0D) ∧
      (wselField r.mask = 0 ↔ (opField r.pattern).toNat = 0x06 ∨ (opField r.pattern).toNat = 0x08) ∧
      (idxField r.mask = 0 ↔ (opField r.pattern).toNat = 0x03 ∨ (opField r.pattern).toNat = 0x04 ∨
        (opField r.pattern).toNat = 0x06 ∨ (opField r.pattern).toNat = 0x08) := by
  decide

theorem exists_row_of_opcode (op : BitVec 8) (h : op.toNat < 0x0F) : ∃ r ∈ opRows, opField r.pattern = op := by
  have rows : ∀ n < 0x0F, ∃ r ∈ opRows, opField r.pattern = BitVec.ofNat 8 n := by decide
  simpa using rows op.toNat h

/-- A field compared in full is 0; a field not compared may hold anything. -/
theorem and_eq_zero_iff_of_wholeField {n : Nat} {m : BitVec n} (h : m = 0 ∨ m = BitVec.allOnes n) (x : BitVec n) :
    x &&& m = 0 ↔ (x ≠ 0 → m = 0) := by
  obtain rfl | rfl := h
  · simp
  · rw [BitVec.and_allOnes]
    refine ⟨fun hx hne => absurd hx hne, fun hx => by_contra fun hne => hne ?_⟩
    rw [← BitVec.and_allOnes (x := x), hx hne]; exact BitVec.and_zero

/-- A row selects the words of its opcode that hold 0 in the reserved fields and in the fields that the row fixes (R73). -/
theorem OpRow.selects_iff {r : OpRow} (hr : r ∈ opRows) (w : Word) :
    r.selects w = true ↔ opField w = opField r.pattern ∧ w.extractLsb' 20 3 = 0 ∧ w.extractLsb' 10 6 = 0 ∧
      (w.getLsbD 23 = true → r.mask.getLsbD 23 = false) ∧ (wselField w ≠ 0 → wselField r.mask = 0) ∧
      (idxField w ≠ 0 → idxField r.mask = 0) := by
  obtain ⟨hop, ⟨h20, h10⟩, hwsel, hidx, pf, p20, pwsel, p10, pidx⟩ := opRows_wholeFields r hr
  rw [OpRow.selects, beq_iff_eq, and_eq_iff_fields, hop, h20, h10, pf, p20, pwsel, p10, pidx,
    and_eq_zero_iff_of_wholeField hwsel, and_eq_zero_iff_of_wholeField hidx]
  simp only [BitVec.and_allOnes, Bool.and_eq_false_imp]
  tauto

/-- R74, field by field: the opcode has no row, a reserved field holds a 1, or a field that the row fixes does. -/
def illegalFields (w : Word) : Prop :=
  let op := (w.extractLsb' 24 8).toNat
  0x0F ≤ op ∨ w.extractLsb' 20 3 ≠ 0 ∨ w.extractLsb' 10 6 ≠ 0 ∨ (w.getLsbD 23 = true ∧ op ≠ 0x09 ∧ op ≠ 0x0D) ∨
    (w.extractLsb' 16 4 ≠ 0 ∧ op ≠ 0x06 ∧ op ≠ 0x08) ∨
    (w.extractLsb' 0 10 ≠ 0 ∧ op ≠ 0x03 ∧ op ≠ 0x04 ∧ op ≠ 0x06 ∧ op ≠ 0x08)

/-- The row of the word's opcode, where there is one, selects exactly the words that R74 does not call illegal. -/
theorem exists_selects_iff (w : Word) : (∃ r ∈ opRows, r.selects w = true) ↔ ¬ illegalFields w := by
  have key : ∀ r ∈ opRows, opField w = opField r.pattern → (r.selects w = true ↔ ¬ illegalFields w) := by
    intro r hr hop
    obtain ⟨hlt, hf, hwsel, hidx⟩ := opRows_freeFields r hr
    rw [OpRow.selects_iff hr, hf, hwsel, hidx, ← hop]
    rw [← hop] at hlt
    simp only [illegalFields, opField, wselField, idxField] at hlt ⊢
    grind
  constructor
  · rintro ⟨r, hr, hsel⟩
    exact (key r hr ((OpRow.selects_iff hr w).1 hsel).1).1 hsel
  · intro hlegal
    obtain ⟨r, hr, hop⟩ := exists_row_of_opcode (opField w) (not_le.1 fun h => hlegal (.inl h))
    exact ⟨r, hr, (key r hr hop.symm).2 hlegal⟩

/-! ## Illegal words (R74) -/

/-- A word decodes to no command exactly when no row selects it; the opcode alone says why (R74). -/
theorem decode_eq_error_iff (w : Word) (e : DecodeError) :
    decode w = .error e ↔
      illegalFields w ∧ e = if (opField w).toNat ≤ 0x0E then .fixedFieldSet else .reservedOpcode := by
  have legal := exists_selects_iff w
  unfold decode
  cases hfind : opRows.find? (fun r => r.selects w) with
  | none =>
    rw [List.find?_eq_none] at hfind
    have hill : illegalFields w := by
      by_contra hlegal
      obtain ⟨r, hr, hsel⟩ := legal.2 hlegal
      exact hfind r hr hsel
    simp [hill, eq_comm]
  | some r =>
    have hlegal := legal.1 ⟨r, List.mem_of_find?_eq_some hfind, by simpa using List.find?_some hfind⟩
    simp [hlegal]

theorem exists_decode_error_iff (w : Word) : (∃ e, decode w = .error e) ↔ illegalFields w := by
  simp [decode_eq_error_iff]

theorem decode_eq_reservedOpcode_iff (w : Word) :
    decode w = .error .reservedOpcode ↔ 0x0F ≤ (opField w).toNat := by
  rw [decode_eq_error_iff]
  constructor
  · rintro ⟨-, he⟩
    by_contra hlt
    rw [if_pos (by omega)] at he
    cases he
  · exact fun h => ⟨.inl h, by rw [if_neg (by omega)]⟩

namespace Machine

theorem cmdWrite_of_decode_error {s : State} {w : Word} {e : DecodeError} (hidle : s.busy = false)
    (hw : decode w = .error e) : cmdWrite w s = .next (dispatchIllegal w s) := by
  simp [cmdWrite, hidle, hw]

/-- Dispatch of an illegal word refuses it (R83, R135). -/
theorem dispatchIllegal_eq_refusedWith (w : Word) (s : State) :
    dispatchIllegal w s = s.refusedWith .illegalCmd w := rfl

theorem regWrite_cmd (w : Word) (s : State) : regWrite 0x08 w s = cmdWrite w s := rfl

/-- Settles O3: a row of R73 selects exactly the words whose fields are as R74 wants them, and an idle core's dispatch
rejects a word that no row selects. -/
theorem illegalWordsAreRejected : Obligations.IllegalWordsAreRejected := by
  intro w
  refine ⟨(exists_decode_error_iff w).symm, (decode_eq_reservedOpcode_iff w).symm, fun s hidle hill => ?_⟩
  obtain ⟨e, he⟩ := (exists_decode_error_iff w).2 hill
  rw [regWrite_cmd, cmdWrite_of_decode_error hidle he, dispatchIllegal_eq_refusedWith]

/-! ## The commands that read a memory -/

/-- Settles O28: the step of READ_FREQ from its start. -/
theorem readFreqRuns : Obligations.ReadFreqRuns := fun s idx hstart _ =>
  exec_running (.readFreq idx) s .start hstart

/-! ### READ_NODE (R79) -/

theorem nodeWord_of_absent {n : Node} (h : n.valid = false) (wsel : BitVec 4) : nodeWord n wsel = 0 := by
  simp [nodeWord, h]

theorem nodeWord_zero {n : Node} {wsel : BitVec 4} (h : n.valid = true) (hw : wsel.toNat = 0) :
    nodeWord n wsel = BitVec.ofBool true ++ BitVec.ofBool n.leaf ++ n.left ++ n.right ++ 0#1 ++ n.symbol := by
  simp [nodeWord, h, hw]

theorem nodeWord_one {n : Node} {wsel : BitVec 4} (h : n.valid = true) (hw : wsel.toNat = 1) :
    nodeWord n wsel = n.weight.setWidth 32 := by
  simp [nodeWord, h, hw]

theorem nodeWord_two {n : Node} {wsel : BitVec 4} (h : n.valid = true) (hw : wsel.toNat = 2) :
    nodeWord n wsel = if n.weight.getLsbD 32 then 1 else 0 := by
  have hbit : n.weight.extractLsb' 32 1 = BitVec.ofBool (n.weight.getLsbD 32) := by
    refine BitVec.eq_of_getLsbD_eq fun i hi => ?_
    obtain rfl : i = 0 := by omega
    simp
  simp only [nodeWord, h, hw, hbit]
  cases n.weight.getLsbD 32 <;> rfl

/-- The fields of a node's word 0 stand where R79 puts them. -/
theorem fields_of_nodeWord_zero (valid leaf : Bool) (left right : NodeIdx) (sym : Sym) :
    let d : Word := BitVec.ofBool valid ++ BitVec.ofBool leaf ++ left ++ right ++ 0#1 ++ sym
    d.getLsbD 31 = valid ∧ d.getLsbD 30 = leaf ∧ d.extractLsb' 20 10 = left ∧ d.extractLsb' 10 10 = right ∧
      d.getLsbD 9 = false ∧ d.extractLsb' 0 9 = sym := by
  refine ⟨?valid, ?leaf, ?left, ?right, ?gap, ?symbol⟩
  case valid | leaf | gap => simp only [BitVec.getLsbD_append]; simp
  case left | right | symbol =>
    refine BitVec.eq_of_getLsbD_eq fun i hi => ?_
    simp only [BitVec.getLsbD_extractLsb', BitVec.getLsbD_append, hi, decide_true, Bool.true_and]
    grind

/-- Settles O33: the step of READ_NODE from its start, and the bits of each word of R79. -/
theorem readNodeRuns : Obligations.ReadNodeRuns := by
  intro s wsel idx hstart _ _
  refine ⟨nodeWord (nodeAt s.node idx) wsel, exec_running (.readNode wsel idx) s .start hstart,
    fun habsent => nodeWord_of_absent habsent wsel, fun hvalid h0 => ?_, nodeWord_one, nodeWord_two⟩
  rw [nodeWord_zero hvalid h0]
  exact fields_of_nodeWord_zero true _ _ _ _

/-! ### READ_CODE (R80) -/

theorem codeWord_of_absent {c : CodeEntry} (h : c.valid = false) (wsel : BitVec 4) : codeWord c wsel = 0 := by
  simp [codeWord, h]

/-- The word k of a code holds its bits from 32k on, the first at bit 31 (R80). -/
theorem codeWord_getLsbD {c : CodeEntry} (h : c.valid = true) {wsel : BitVec 4} (hw : wsel.toNat ≤ 7) {j : Nat}
    (hj : j < 32) : (codeWord c wsel).getLsbD (31 - j) = c.bits.getLsbD (255 - (32 * wsel.toNat + j)) := by
  have hpos : 224 - 32 * wsel.toNat + (31 - j) = 255 - (32 * wsel.toNat + j) := by omega
  rw [codeWord, if_pos h, BitVec.getLsbD_extractLsb', hpos, decide_eq_true (by omega), Bool.true_and]

theorem codeAt_codeSet_cases (v : Vector CodeEntry 257) (i j : Nat) (c : CodeEntry) :
    codeAt (codeSet v i c) j = c ∨ codeAt (codeSet v i c) j = codeAt v j := by
  by_cases hi : i < 257
  · rw [codeAt_codeSet v i j c hi]
    split
    · exact .inl rfl
    · exact .inr rfl
  · have hdrop : codeSet v i c = v := Vector.toArray_inj.1 (by
      simp [codeSet, Array.setIfInBounds, hi])
    exact .inr (by rw [hdrop])

/-- An entry after codes are written is the code of one of their paths, or the entry that was there. -/
theorem codeAt_writeCodes_cases (found : List (Sym × List Bool)) (v : Vector CodeEntry 257) (j : Nat) :
    (∃ e ∈ found, codeAt (writeCodes found v) j = codeOfPath e.2) ∨ codeAt (writeCodes found v) j = codeAt v j := by
  induction found generalizing v with
  | nil => exact .inr rfl
  | cons e found ih =>
    rw [writeCodes_cons]
    obtain ⟨e', he', h⟩ | h := ih (codeSet v e.1.toNat (codeOfPath e.2))
    · exact .inl ⟨e', List.mem_cons_of_mem _ he', h⟩
    · obtain h' | h' := codeAt_codeSet_cases v e.1.toNat j (codeOfPath e.2)
      · exact .inl ⟨e, List.mem_cons_self, h.trans h'⟩
      · exact .inr (h.trans h')

/-- No code of a tree within `NODE_CAP` is longer than an entry's 256 bits (R38, R107). -/
theorem codes_length_le_of_holdsTree {s : State} {t : HTree} (h : s.holdsTree t = true) {e : Sym × List Bool}
    (he : e ∈ t.codes) : e.2.length ≤ 256 := by
  have hsize := ((holdsTree_iff s t).1 h).2
  have hleaves := t.size_eq
  have hdepth := t.depth_lt_leaves
  have hlen := codes_length_le t e he
  omega

/-- Every entry of the table that `CODES_VALID` vouches for is absent or the code of a path that fits it (R106). -/
theorem State.Inv.codeAt_cases {s : State} (h : s.Inv) (hv : s.codesValid = true) (j : Nat) :
    (∃ p : List Bool, p.length ≤ 256 ∧ codeAt s.code j = codeOfPath p) ∨ codeAt s.code j = CodeEntry.absent := by
  obtain ⟨t, ht, hcode⟩ := h.codes_are_of_tree hv
  rw [hcode]
  obtain ⟨e, he, hj⟩ | hj := codeAt_writeCodes_cases t.codes codesAbsent j
  · exact .inl ⟨e.2, codes_length_le_of_holdsTree ht he, hj⟩
  · exact .inr (hj.trans (codeAt_codesAbsent j))

/-- The bits past the length of a code that `CODES_VALID` vouches for are 0 (R38). -/
theorem State.Inv.codeAt_bits_past_len {s : State} (h : s.Inv) (hv : s.codesValid = true) (sym : Nat) {j : Nat}
    (hj : j < 256) (hlen : (codeAt s.code sym).len.toNat ≤ j) :
    (codeAt s.code sym).bits.getLsbD (255 - j) = false := by
  obtain ⟨p, hp, hc⟩ | hc := h.codeAt_cases hv sym
  · rw [hc, codeOfPath_len p hp] at hlen
    rw [hc, codeOfPath_bits p hp j hj, List.getElem?_eq_none hlen, Option.getD_none]
  · rw [hc]
    exact BitVec.getLsbD_zero

/-- Settles O36: the step of READ_CODE from its start, the bits of the word it selects, and the zeros past a code of the
table of a tree. -/
theorem readCodeRuns : Obligations.ReadCodeRuns := by
  intro s wsel idx hstart _ hw
  refine ⟨codeWord (codeAt s.code idx.toNat) wsel, codeLength (codeAt s.code idx.toNat),
    exec_running (.readCode wsel idx) s .start hstart, fun habsent => ⟨codeWord_of_absent habsent wsel, ?_⟩,
    fun hvalid => ⟨?_, fun j hj => codeWord_getLsbD hvalid hw hj⟩, fun hinv hcodes j hj hpast => ?_⟩
  · simp [codeLength, habsent]
  · simp [codeLength, hvalid]
  · cases hvalid : (codeAt s.code idx.toNat).valid with
    | false => rw [codeWord_of_absent hvalid]; exact BitVec.getLsbD_zero
    | true =>
      rw [codeWord_getLsbD hvalid hw hj]
      exact hinv.codeAt_bits_past_len hcodes _ (by omega) hpast

end Machine
end Sys2Proof
end

section
/-! PROOFS. Control: a `CMD` write while a command runs (40_control.md rule R85), and the abort (rule R86). -/

namespace Sys2Proof.Machine

/-! ## What no command touches

`CTRL.IE`, `STATUS.CMD_DROPPED` and the model's own fields belong to the host: dispatch and every step of every procedure
leave them alone (R53, R67, R85). -/

/-- The fields of the state that only host actions write. -/
def State.hostSide (s : State) : Bool × Bool × List Event × Nat × Word × Option Beat :=
  (s.ie, s.cmdDropped, s.agenda, s.draws, s.rdata, s.popped)

theorem cmdDropped_of_hostSide {s t : State} (h : t.hostSide = s.hostSide) : t.cmdDropped = s.cmdDropped :=
  congrArg (·.2.1) h

@[simp] theorem hostSide_pushBits (s : State) (p : List Bool) : (s.pushBits p).hostSide = s.hostSide := by
  rw [pushBits_frame]; rfl

@[simp] theorem hostSide_flushPacker (s : State) : s.flushPacker.hostSide = s.hostSide := by
  obtain ⟨bytes, h, -⟩ := flushPacker_spec s
  rw [h]; rfl

theorem hostSide_of_makeTable {s t : State} (h : s.makeTable = some t) : t.hostSide = s.hostSide := by
  obtain ⟨found, -, rfl⟩ := Option.map_eq_some_iff.1 h
  rfl

theorem hostSide_of_writeHeader {s t : State} {nb : Nat} (h : s.writeHeader = some (t, nb)) :
    t.hostSide = s.hostSide := by
  obtain ⟨bits, -, he⟩ := Option.map_eq_some_iff.1 h
  cases he
  exact hostSide_pushBits s bits

theorem BitFrame.hostSide {s t : State} (h : BitFrame s t) : t.hostSide = s.hostSide := by
  unfold BitFrame at h
  rw [h]; rfl

/-! ### The beats -/

theorem hostSide_countBeat {after : State → State} (hafter : ∀ s, (after s).hostSide = s.hostSide) (s : State) :
    (countBeat after s).hostSide = s.hostSide := by
  unfold countBeat
  split
  · rfl
  · exact hafter _
  · split <;> rfl

theorem hostSide_encodeBeat (h nb : Nat) (s : State) : (encodeBeat h nb s).hostSide = s.hostSide := by
  unfold encodeBeat
  split
  · rfl
  · exact hostSide_pushBits { s with inQ := _ } _
  · dsimp only
    split
    · exact hostSide_pushBits { s with inQ := _ } _
    · rfl

theorem hostSide_runBits (n : Nat) (p : Point) (s : State) : (runBits n p s).hostSide = s.hostSide := by
  refine runBits_induct (P := fun _ t => t.hostSide = s.hostSide) (R := fun t => t.hostSide = s.hostSide)
    ?wants ?stops (fun _ _ h _ => h) (fun _ _ h _ => h) n p s rfl
  case wants | stops =>
    intro p b t m p' t' h e
    have hframe := (onBit_frame p b { t with upN := m }).hostSide
    rw [e] at hframe
    exact hframe.trans h

theorem hostSide_bitBeat (p : Point) (s : State) : (bitBeat p s).hostSide = s.hostSide := by
  unfold bitBeat
  split
  · rfl
  · rfl
  · exact hostSide_runBits ..

theorem hostSide_startDrain (cnt : Nat) (s : State) : (s.startDrain cnt).hostSide = s.hostSide := by
  unfold State.startDrain
  dsimp only
  split <;> rfl

theorem hostSide_drainBeat (cnt : Nat) (s : State) : (drainBeat cnt s).hostSide = s.hostSide := by
  unfold drainBeat
  split <;> rfl

/-! ### The procedures -/

theorem hostSide_of_compressProc {force : Bool} {p : Point} {s t : State} (h : compressProc force p s = .next t) :
    t.hostSide = s.hostSide := by
  cases p with
  | start | buildPhase | encodePhase | finishing | raising => cases h; rfl
  | countIn => cases h; exact hostSide_countBeat (after := State.passDone) (fun _ => rfl) s
  | codesPhase =>
    simp only [compressProc, State.compressCodes] at h
    split at h
    · rename_i s1 htable
      cases h
      exact (hostSide_of_makeTable htable :)
    · cases h
  | estimatePhase =>
    cases h
    unfold State.compressEstimate
    dsimp only
    split <;> rfl
  | headerPhase =>
    simp only [compressProc, State.compressHeader] at h
    split at h
    · rename_i s1 hd hheader
      cases h
      exact (hostSide_of_writeHeader hheader :)
    · cases h
  | encodeIn hd nb => cases h; exact hostSide_encodeBeat hd nb s
  | flushPhase hd e => cases h; exact hostSide_flushPacker { s with phase := .flush }
  | _ => cases h

theorem hostSide_of_decompressProc {p : Point} {s t : State} (h : decompressProc p s = .next t) :
    t.hostSide = s.hostSide := by
  cases p with
  | start | finishing | raising => cases h; rfl
  | magicIn | tagIn | symIn | walkIn => cases h; exact hostSide_bitBeat ..
  | walkPhase => cases h; exact hostSide_runBits _ _ { s with phase := .walk }
  | drainPhase cnt => cases h; exact hostSide_startDrain cnt s
  | drainIn cnt => cases h; exact hostSide_drainBeat cnt s
  | _ => cases h

/-- A step of a running command leaves the host's side alone, whichever the command and wherever it stands. -/
theorem hostSide_of_procOf {i : Instr} {p : Point} {s t : State} (h : procOf i p s = .next t) :
    t.hostSide = s.hostSide := by
  cases i with
  | nop | clear | readFreq | buildTree | readNode | readCode | estimate =>
    cases p with
    | start | finishing | raising => cases h; rfl
    | _ => cases h
  | count =>
    cases p with
    | start | finishing | raising => cases h; rfl
    | countIn => cases h; exact hostSide_countBeat (after := State.countDone) (fun _ => rfl) s
    | _ => cases h
  | loadFreq idx =>
    cases p with
    | start => cases h; split <;> rfl
    | finishing | raising => cases h; rfl
    | _ => cases h
  | genCodes =>
    cases p with
    | start =>
      simp only [procOf, genCodesProc] at h
      split at h
      · rename_i s1 htable
        cases h
        exact (hostSide_of_makeTable htable :)
      · cases h
    | finishing | raising => cases h; rfl
    | _ => cases h
  | writeHeader =>
    cases p with
    | start =>
      simp only [procOf, writeHeaderProc] at h
      split at h
      · rename_i s1 nb hheader
        cases h
        exact (hostSide_of_writeHeader hheader :)
      · cases h
    | finishing | raising => cases h; rfl
    | _ => cases h
  | encode =>
    cases p with
    | start | finishing | raising => cases h; rfl
    | encodeIn hd nb => cases h; exact hostSide_encodeBeat hd nb s
    | flushPhase hd e => cases h; exact hostSide_flushPacker { s with phase := .flush }
    | _ => cases h
  | flush =>
    cases p with
    | start => cases h; exact hostSide_flushPacker s
    | finishing | raising => cases h; rfl
    | _ => cases h
  | compress force => exact hostSide_of_compressProc h
  | decompress => exact hostSide_of_decompressProc h

/-! ### Dispatch and the core's turn -/

@[simp] theorem hostSide_dispatchLegal (i : Instr) (s : State) : (dispatchLegal i s).hostSide = s.hostSide := by
  obtain ⟨-, h⟩ | ⟨-, -, h⟩ | ⟨-, -, h⟩ := dispatchLegal_cases i s
  · rw [h]; rfl
  · rw [h]; rfl
  · rw [h, accept, atStart_frame]; rfl

/-- A transition of a command leaves the host's side alone. -/
theorem hostSide_of_exec {i : Instr} {s t : State} (h : exec i s = .next t) : t.hostSide = s.hostSide := by
  cases hb : s.busy with
  | false =>
    rw [exec_idle i s hb] at h
    cases h
    exact hostSide_dispatchLegal i s
  | true =>
    cases hk : s.k with
    | some p => exact hostSide_of_procOf (exec_running i s p ⟨hb, hk⟩ ▸ h)
    | none =>
      rw [exec_eq] at h
      simp [command, hb, hk] at h

/-- A turn of the core leaves the host's side alone. -/
theorem hostSide_of_coreTurn {s t : State} (h : coreTurn s = .next t) : t.hostSide = s.hostSide := by
  unfold coreTurn at h
  split at h
  · split at h
    · exact hostSide_of_exec h
    · cases h
  · cases h; rfl

/-! ## `CMD_DROPPED` (R85) -/

theorem cmdWrite_of_busy {s : State} (hbusy : s.busy = true) (w : Word) :
    cmdWrite w s = .next { s with cmdDropped := true } := by
  simp [cmdWrite, hbusy]

/-- What a `CMD` write can do to `CMD_DROPPED`: a running command sets it, an idle core leaves it. -/
theorem cmdDropped_of_cmdWrite {w : Word} {s t : State} (h : cmdWrite w s = .next t) :
    t.cmdDropped = (s.busy || s.cmdDropped) := by
  cases hb : s.busy with
  | true => rw [cmdWrite_of_busy hb] at h; cases h; rfl
  | false =>
    cases hw : decode w with
    | ok i =>
      simp only [cmdWrite, hb, hw] at h
      exact cmdDropped_of_hostSide (hostSide_of_exec h)
    | error e => rw [cmdWrite_of_decode_error hb hw] at h; cases h; rfl

@[simp] theorem cmdDropped_ctrlWrite (v : Word) (s : State) : (s.ctrlWrite v).cmdDropped = s.cmdDropped := by
  unfold State.ctrlWrite
  dsimp only
  split <;> rfl

/-- A register write leaves `CMD_DROPPED` at 1, unless it writes a 1 to `STATUS` bit 8. -/
theorem cmdDropped_of_regWrite {a : BitVec 8} {v : Word} {s t : State} (hs : s.cmdDropped = true)
    (h : regWrite a v s = .next t) : t.cmdDropped = true ∨ a = 0x04 ∧ v.getLsbD 8 = true := by
  unfold regWrite at h
  split at h
  · cases h; exact .inl ((cmdDropped_ctrlWrite v s).trans hs)
  · rename_i ha
    cases h
    cases hv : v.getLsbD 8 with
    | true => exact .inr ⟨BitVec.eq_of_toNat_eq ha, rfl⟩
    | false => exact .inl (by rw [statusWrite_cmdDropped, hs, hv]; rfl)
  · exact .inl (by simp [cmdDropped_of_cmdWrite h, hs])
  · cases h; exact .inl hs
  · cases h; exact .inl hs

@[simp] theorem cmdDropped_regRead (a : BitVec 8) (s : State) : (s.regRead a).cmdDropped = s.cmdDropped := by
  unfold State.regRead
  split <;> rfl

@[simp] theorem cmdDropped_popOut (s : State) : s.popOut.cmdDropped = s.cmdDropped := by
  unfold State.popOut
  split <;> rfl

/-- An event leaves `CMD_DROPPED` at 1, unless it writes a 1 to `STATUS` bit 8 or is a reset. -/
theorem cmdDropped_of_happen {e : Event} {s t : State} (hs : s.cmdDropped = true) (h : happen e s = .next t) :
    t.cmdDropped = true ∨ (∃ v, e = .regWrite 0x04 v ∧ v.getLsbD 8 = true) ∨ e = .reset := by
  cases e with
  | core => exact .inl ((cmdDropped_of_hostSide (hostSide_of_coreTurn h)).trans hs)
  | regWrite a v =>
    obtain ht | ⟨rfl, hv⟩ := cmdDropped_of_regWrite hs h
    · exact .inl ht
    · exact .inr (.inl ⟨v, rfl, hv⟩)
  | regRead a => cases h; exact .inl ((cmdDropped_regRead a s).trans hs)
  | popOut => cases h; exact .inl ((cmdDropped_popOut s).trans hs)
  | pushIn x | dropIn => cases h; exact .inl hs
  | reset => exact .inr (.inr rfl)

/-- Settles O12: the write is dropped by dispatch's first test, and after that the bit is followed through each event. -/
theorem busyDropsCommand : Obligations.BusyDropsCommand := by
  refine ⟨fun s w hbusy => (regWrite_cmd w s).trans (cmdWrite_of_busy hbusy w), fun s t hs h => ?_⟩
  unfold step at h
  split at h
  · exact .inl ((cmdDropped_of_hostSide (hostSide_of_coreTurn h)).trans hs)
  · rename_i e rest ha
    obtain ht | ⟨v, rfl, hv⟩ | rfl := cmdDropped_of_happen (s := { s with agenda := rest }) hs h
    · exact .inl ht
    · exact .inr (.inl ⟨v, rest, ha, hv⟩)
    · exact .inr (.inr ⟨rest, ha⟩)

/-! ## The abort (R86) -/

theorem regWrite_ctrl (v : Word) (s : State) : regWrite 0x00 v s = .next (s.ctrlWrite v) := rfl

/-- A write of `CTRL` to an idle core only sets `IE` (R87). -/
theorem ctrlWrite_of_idle {s : State} (hidle : s.busy = false) (v : Word) :
    s.ctrlWrite v = { s with ie := v.getLsbD 0 } := by
  simp [State.ctrlWrite, hidle]

/-- A write of 1 to `CTRL.ABORT` while a command runs sets `IE` and aborts the command (R86). -/
theorem ctrlWrite_of_abort {s : State} {v : Word} (hbusy : s.busy = true) (hv : v.getLsbD 1 = true) :
    s.ctrlWrite v = ({ s with ie := v.getLsbD 0 } : State).abort := by
  simp [State.ctrlWrite, hbusy, hv]

/-- Settles O15: the two cases of a write of `CTRL` with bit 1 set; the values that R86 leaves open are those of
`State.abort`. -/
theorem abortEndsCommand : Obligations.AbortEndsCommand := by
  intro s v hv
  refine ⟨fun hidle => ?idle, fun hbusy => ?busy⟩
  case idle => rw [regWrite_ctrl, ctrlWrite_of_idle hidle]
  case busy =>
    rw [regWrite_ctrl, ctrlWrite_of_abort hbusy hv]
    exact ⟨_, _, _, _, _, _, _, _, _, _, _, _, _, rfl⟩

end Sys2Proof.Machine
end

section
/-! PROOFS. The tree builder: BUILD_TREE follows the merge rule, and the shape and the weights of the tree it leaves
(42_tree_builder.md rules R98 to R104). -/

namespace Sys2Proof.Machine

/-! ## The merge rule (R98, R101) -/

theorem before_iff (a b : HeapEntry) : a.before b = true ↔
    a.weight.toNat < b.weight.toNat ∨ a.weight = b.weight ∧ a.id.toNat < b.id.toNat := by
  simp [HeapEntry.before]

/-- Pairs that are all different go into a sorted heap and leave it sorted. -/
theorem foldl_heapInsert_sorted (es h : List HeapEntry) (hs : h.Pairwise (fun a b => a.before b = true))
    (hn : (es ++ h).Nodup) : (es.foldl (fun h e => heapInsert e h) h).Pairwise (fun a b => a.before b = true) := by
  induction es generalizing h with
  | nil => exact hs
  | cons e es ih =>
    have hperm : (es ++ heapInsert e h).Perm (e :: es ++ h) :=
      ((heapInsert_perm e h).append_left es).trans List.perm_middle
    have hnew : e ∉ h := fun he => (List.nodup_cons.1 hn).1 (List.mem_append_right es he)
    exact ih _ (heapInsert_sorted e h hs hnew) (hperm.nodup_iff.2 hn)

theorem leafEntries_nodup (freq : Vector Word 256) : (leafEntries freq).Nodup :=
  .of_map _ (leafEntries_ids_nodup freq)

theorem leafHeap_sorted (freq : Vector Word 256) : (leafHeap freq).Pairwise (fun a b => a.before b = true) :=
  foldl_heapInsert_sorted _ [] .nil (by rw [List.append_nil]; exact leafEntries_nodup freq)

theorem leafHeap_length (freq : Vector Word 256) : (leafHeap freq).length = (leafEntries freq).length - 1 + 1 := by
  have := leafEntries_length freq
  rw [(leafHeap_perm freq).length_eq]
  omega

theorem mergeLoop_succ (fuel : Nat) (a b : HeapEntry) (rest : List HeapEntry) (next : NodeIdx) :
    mergeLoop (fuel + 1) (a :: b :: rest) next =
      ((next, mergeNode a b) :: (mergeLoop fuel (heapInsert ⟨a.weight + b.weight, next⟩ rest) (next + 1)).1,
        (mergeLoop fuel (heapInsert ⟨a.weight + b.weight, next⟩ rest) (next + 1)).2) := rfl

/-- One merge takes one pair out of the heap. -/
theorem heapInsert_length_of_merge {fuel : Nat} {a b e : HeapEntry} {rest : List HeapEntry}
    (hlen : (a :: b :: rest).length = fuel + 2) : (heapInsert e rest).length = fuel + 1 := by
  simpa [(heapInsert_perm e rest).length_eq] using hlen

/-- The loop writes one internal node for each merge. -/
theorem mergeLoop_writes_length (fuel : Nat) (heap : List HeapEntry) (next : NodeIdx) (hlen : heap.length = fuel + 1) :
    (mergeLoop fuel heap next).1.length = fuel := by
  induction fuel generalizing heap next with
  | zero =>
    obtain ⟨a, rfl⟩ := List.length_eq_one_iff.1 hlen
    rfl
  | succ fuel ih =>
    match heap, hlen with
    | a :: b :: rest, hlen =>
      rw [mergeLoop_succ, List.length_cons, ih _ _ (heapInsert_length_of_merge hlen)]

/-- Over a sorted heap of indices below `next` the loop takes the least pair, then the least of the others, each time. -/
theorem mergeLoop_follows_mergeSpec (fuel : Nat) (heap pairs : List HeapEntry) (next : NodeIdx)
    (hlen : heap.length = fuel + 1) (hnext : next.toNat + fuel < 1024)
    (hsorted : heap.Pairwise (fun a b => a.before b = true)) (hids : ∀ e ∈ heap, e.id.toNat < next.toNat)
    (hperm : pairs.Perm heap) : MergeSpec pairs next (mergeLoop fuel heap next).1 (mergeLoop fuel heap next).2 := by
  induction fuel generalizing heap pairs next with
  | zero =>
    obtain ⟨a, rfl⟩ := List.length_eq_one_iff.1 hlen
    rw [List.perm_singleton.1 hperm]
    exact .root a next
  | succ fuel ih =>
    match heap, hlen with
    | a :: b :: rest, hlen =>
      obtain ⟨hfirst, hsecond, hrest⟩ :
          (∀ x ∈ b :: rest, a.before x = true) ∧ (∀ x ∈ rest, b.before x = true) ∧
            rest.Pairwise (fun a b => a.before b = true) := by
        simpa only [List.pairwise_cons] using hsorted
      have hsucc : (next + 1).toNat = next.toNat + 1 := by
        rw [BitVec.toNat_add, show (1 : NodeIdx).toNat = 1 from rfl]; omega
      have hmerged := heapInsert_perm ⟨a.weight + b.weight, next⟩ rest
      have hbelow : ∀ e ∈ rest, e.id.toNat < next.toNat := fun e he => hids e (by simp [he])
      have hnew : (⟨a.weight + b.weight, next⟩ : HeapEntry) ∉ rest := fun he => Nat.lt_irrefl _ (hbelow _ he)
      rw [mergeLoop_succ]
      refine .merge pairs a b rest next _ _ hperm (fun x hx => (before_iff a x).1 (hfirst x hx))
        (fun x hx => (before_iff b x).1 (hsecond x hx))
        (ih _ _ (next + 1) (heapInsert_length_of_merge hlen) (by omega) (heapInsert_sorted _ _ hrest hnew) ?_ hmerged.symm)
      intro e he
      obtain rfl | he := List.mem_cons.1 (hmerged.mem_iff.1 he)
      · exact hsucc ▸ Nat.lt_succ_self _
      · exact hsucc ▸ Nat.lt_succ_of_lt (hbelow e he)

/-! ## The leaves (R99, R100) -/

/-- No byte has a leaf of its own exactly when every count is 0. -/
theorem byteLeaves_eq_nil_iff (freq : Vector Word 256) :
    byteLeaves freq = [] ↔ ∀ b : Nat, b < 256 → freqAt freq b = 0 := by
  simp [byteLeaves]

theorem mem_byteLeaves_iff (freq : Vector Word 256) (e : HeapEntry) : e ∈ byteLeaves freq ↔
    e.id.toNat < 256 ∧ freqAt freq e.id.toNat ≠ 0 ∧ e.weight = (freqAt freq e.id.toNat).setWidth 33 := by
  rw [byteLeaves_mem]
  constructor
  · rintro ⟨b, hb, hne, rfl⟩
    have hid : (BitVec.ofNat 10 b).toNat = b := Nat.mod_eq_of_lt (by omega)
    exact ⟨hid.symm ▸ hb, hid.symm ▸ hne, by rw [hid]⟩
  · rintro ⟨hid, hne, hw⟩
    exact ⟨e.id.toNat, hid, hne, by rw [← hw, BitVec.ofNat_toNat, BitVec.setWidth_eq]⟩

/-- The leaves: the bytes', `PSEUDO_EOF`'s, and the phantom when `PSEUDO_EOF` would be alone. -/
theorem mem_leafEntries_iff (freq : Vector Word 256) (e : HeapEntry) :
    e ∈ leafEntries freq ↔ e ∈ byteLeaves freq ∨ e = eofLeaf ∨ byteLeaves freq = [] ∧ e = phantomLeaf := by
  obtain ⟨hne, h⟩ | ⟨hnil, h⟩ := leafEntries_cases freq
  · simp [h, hne]
  · simp [h, hnil]

/-! ## BUILD_TREE (R104) -/

theorem exec_buildTree {s : State} (h : s.standsAt .start) :
    exec .buildTree s = .next (State.suspend .finishing { s.buildTree with treeValid := true }) :=
  exec_running .buildTree s .start h

theorem treePlan_writes (freq : Vector Word 256) : (treePlan freq).1 =
    (leafEntries freq).map (fun e => (e.id, leafNode e)) ++
      (mergeLoop ((leafEntries freq).length - 1) (leafHeap freq) 257).1 := rfl

/-- Settles O29: the leaves are those of `leafEntries`, and the merge loop runs over their sorted heap. -/
theorem buildFollowsMergeRule : Obligations.BuildFollowsMergeRule := by
  intro s hstart
  have hlen := leafEntries_length s.freq
  have h257 : (257 : NodeIdx).toNat = 257 := rfl
  refine ⟨leafEntries s.freq, _, (treePlan s.freq).2, exec_buildTree hstart, leafEntries_nodup s.freq, fun e => ?_,
    mergeLoop_follows_mergeSpec _ _ _ 257 (leafHeap_length s.freq) (by omega) (leafHeap_sorted s.freq) (fun e he => ?_)
      (leafHeap_perm s.freq).symm⟩
  · rw [mem_leafEntries_iff, mem_byteLeaves_iff, byteLeaves_eq_nil_iff]
    rfl
  · have := leafEntries_id_le s.freq e ((leafHeap_perm s.freq).mem_iff.1 he)
    omega

/-! ## The places of a tree in `NODE` (R103) -/

theorem HTree.sits_valid {v : Vector Node 513} {t : HTree} {i : NodeIdx} (h : t.sits v i = true) :
    (nodeAt v i).valid = true := by
  cases t <;> simp_all [HTree.sits]

theorem HTree.sits_node {v : Vector Node 513} {l r : HTree} {i : NodeIdx} (h : (HTree.node l r).sits v i = true) :
    l.sits v (nodeAt v i).left = true ∧ r.sits v (nodeAt v i).right = true := by
  simp only [HTree.sits, Bool.and_eq_true] at h
  exact ⟨h.1.2, h.2⟩

theorem HTree.indices_length (v : Vector Node 513) (t : HTree) (i : NodeIdx) : (t.indices v i).length = t.size := by
  induction t generalizing i with
  | leaf sym => rfl
  | node l r hl hr =>
    simp only [HTree.indices, HTree.size, List.length_cons, List.length_append, hl, hr]
    omega

/-- At each place of a tree stands a subtree, no bigger than the tree, whose leaves are leaves of the tree. -/
theorem HTree.subtree_of_mem_indices {v : Vector Node 513} {t : HTree} {i j : NodeIdx} (h : t.sits v i = true)
    (hj : j ∈ t.indices v i) : ∃ u : HTree, u.sits v j = true ∧ u.size ≤ t.size ∧ u.leaves ⊆ t.leaves := by
  induction t generalizing i with
  | leaf sym =>
    obtain rfl := List.mem_singleton.1 hj
    exact ⟨_, h, Nat.le_refl _, List.Subset.refl _⟩
  | node l r hl hr =>
    obtain ⟨hsl, hsr⟩ := HTree.sits_node h
    obtain rfl | hj := List.mem_cons.1 hj
    · exact ⟨_, h, Nat.le_refl _, List.Subset.refl _⟩
    obtain hj | hj := List.mem_append.1 hj
    · obtain ⟨u, hu, hsize, hleaves⟩ := hl hsl hj
      exact ⟨u, hu, by simp only [HTree.size]; omega, List.subset_append_of_subset_left _ hleaves⟩
    · obtain ⟨u, hu, hsize, hleaves⟩ := hr hsr hj
      exact ⟨u, hu, by simp only [HTree.size]; omega, List.subset_append_of_subset_right _ hleaves⟩

theorem HTree.valid_of_mem_indices {v : Vector Node 513} {t : HTree} {i j : NodeIdx} (h : t.sits v i = true)
    (hj : j ∈ t.indices v i) : (nodeAt v j).valid = true :=
  have ⟨_, hu, _⟩ := HTree.subtree_of_mem_indices h hj
  HTree.sits_valid hu

/-- A place met twice would repeat the leaves below it, and a place below itself would hold a tree within itself. -/
theorem HTree.indices_nodup {v : Vector Node 513} {t : HTree} {i : NodeIdx} (h : t.sits v i = true)
    (hn : t.leaves.Nodup) : (t.indices v i).Nodup := by
  induction t generalizing i with
  | leaf sym => exact List.nodup_singleton i
  | node l r hl hr =>
    obtain ⟨hsl, hsr⟩ := HTree.sits_node h
    obtain ⟨hnl, hnr, hdisj⟩ := List.nodup_append'.1 hn
    have hroot : ∀ u : HTree, u.sits v i = true → u.size = 1 + l.size + r.size := fun u hu => by
      rw [HTree.sits_unique v u _ i hu h, HTree.size]
    refine List.nodup_cons.2 ⟨fun hi => ?_, List.nodup_append'.2 ⟨hl hsl hnl, hr hsr hnr, fun j hjl hjr => ?_⟩⟩
    · obtain hi | hi := List.mem_append.1 hi
      · obtain ⟨u, hu, hsize, -⟩ := HTree.subtree_of_mem_indices hsl hi
        have := hroot u hu
        omega
      · obtain ⟨u, hu, hsize, -⟩ := HTree.subtree_of_mem_indices hsr hi
        have := hroot u hu
        omega
    · obtain ⟨u, hu, -, hul⟩ := HTree.subtree_of_mem_indices hsl hjl
      obtain ⟨w, hw, -, hwr⟩ := HTree.subtree_of_mem_indices hsr hjr
      obtain rfl := HTree.sits_unique v u w j hu hw
      obtain ⟨sym, hsym⟩ := List.exists_mem_of_length_pos u.leaves_pos
      exact hdisj (hul hsym) (hwr hsym)

/-- A tree of two leaves or more is no single leaf. -/
theorem HTree.eq_node_of_two_leaves {t : HTree} (h : 2 ≤ t.leaves.length) : ∃ l r : HTree, t = .node l r := by
  cases t with
  | leaf sym => exact absurd h (by simp [HTree.leaves])
  | node l r => exact ⟨l, r, rfl⟩

/-! ## The shape of the built tree (R103) -/

/-- L leaves and L − 1 merges. -/
theorem treePlan_writes_length (freq : Vector Word 256) :
    (treePlan freq).1.length = 2 * (leafEntries freq).length - 1 := by
  have := leafEntries_length freq
  rw [treePlan_writes, List.length_append, List.length_map, mergeLoop_writes_length _ _ _ (leafHeap_length freq)]
  omega

/-- An entry written into an invalidated `NODE` is the only kind that can be valid. -/
theorem mem_writes_of_valid {ws : List (NodeIdx × Node)} {v : Vector Node 513} {i : NodeIdx}
    (h : (nodeAt (writeNodes ws (nodesInvalid v)) i).valid = true) : i ∈ ws.map Prod.fst := by
  by_contra hi
  rw [nodeAt_writeNodes_of_notMem ws _ i fun e he heq => hi (List.mem_map.2 ⟨e, he, heq⟩), nodeAt_nodesInvalid] at h
  cases h

theorem builtTree_size {freq : Vector Word 256} {t : HTree} (hp : t.leaves.Perm (leafSymbols freq)) :
    t.size = 2 * (leafEntries freq).length - 1 := by
  have := t.size_eq
  have := treePlan_leaves_length freq t hp
  omega

theorem builtTree_leaves_nodup {freq : Vector Word 256} {t : HTree} (hp : t.leaves.Perm (leafSymbols freq)) :
    t.leaves.Nodup :=
  hp.nodup_iff.2 (leafSymbols_nodup freq)

/-- The tree has as many places as `BuildTree()` wrote entries, so it reaches every entry that is valid. -/
theorem builtTree_valid_iff_mem_indices {freq : Vector Word 256} {v : Vector Node 513} {t : HTree} {root : NodeIdx}
    (h : t.sits (writeNodes (treePlan freq).1 (nodesInvalid v)) root = true) (hp : t.leaves.Perm (leafSymbols freq))
    (i : NodeIdx) : (nodeAt (writeNodes (treePlan freq).1 (nodesInvalid v)) i).valid = true ↔
      i ∈ t.indices (writeNodes (treePlan freq).1 (nodesInvalid v)) root := by
  refine ⟨fun hi => ?_, HTree.valid_of_mem_indices h⟩
  have hsub : t.indices (writeNodes (treePlan freq).1 (nodesInvalid v)) root ⊆ (treePlan freq).1.map Prod.fst :=
    fun j hj => mem_writes_of_valid (HTree.valid_of_mem_indices h hj)
  have hperm := ((HTree.indices_nodup h (builtTree_leaves_nodup hp)).subperm hsub).perm_of_length_le <| by
    rw [HTree.indices_length, builtTree_size hp, List.length_map, treePlan_writes_length]
  exact hperm.mem_iff.2 (mem_writes_of_valid hi)

/-- Settles O30: the tree of `treePlan_tree`, whose leaves are all different, so that its places are too. -/
theorem builtTreeShape : Obligations.BuiltTreeShape := by
  intro s hstart
  obtain ⟨tree, hfits, hperm⟩ := treePlan_tree s.freq (nodesInvalid s.node)
  have hsits := HTree.fits_sits tree _ hfits
  have hlen := leafEntries_length s.freq
  have hleaves := treePlan_leaves_length s.freq tree hperm
  have hsize := builtTree_size hperm
  refine ⟨_, tree, exec_buildTree hstart, hsits, by omega, by omega, by omega, ?_, ?_, fun e he => ⟨?_, ?_⟩,
    builtTree_leaves_nodup hperm, HTree.indices_nodup hsits (builtTree_leaves_nodup hperm),
    builtTree_valid_iff_mem_indices hsits hperm, fun sym => ?_⟩
  · show (BitVec.ofNat 10 _).toNat = _
    rw [BitVec.toNat_ofNat]; omega
  · show (treePlan s.freq).2.toNat = _
    rw [treePlan_root, BitVec.toNat_ofNat]; omega
  · obtain ⟨l, r, rfl⟩ := HTree.eq_node_of_two_leaves (t := tree) (by omega)
    exact codes_length_pos l r e he
  · have := codes_length_le tree e he
    have := tree.depth_lt_leaves
    omega
  · rw [hperm.mem_iff, leafSymbols_mem, or_left_comm]
    rfl

/-! ## The weights of the built tree (R102) -/

theorem HTree.weight_eq_sum (freq : Vector Word 256) (t : HTree) :
    t.weight freq = (t.leaves.map (leafWeight freq)).sum := by
  induction t with
  | leaf sym => simp [HTree.weight, HTree.leaves]
  | node l r hl hr => simp [HTree.weight, HTree.leaves, hl, hr]

theorem freqSum_eq_sum_range (freq : Vector Word 256) :
    freqSum freq = ((List.range 256).map (fun b => (freqAt freq b).toNat)).sum := by
  unfold freqSum
  congr 1
  refine List.ext_getElem (by simp) fun b hb _ => ?_
  have hb : b < 256 := by simpa using hb
  simp [freqAt, hb]

/-- The bytes' leaves carry all of `FREQ`: a byte without a leaf has the count 0. -/
theorem byteLeaves_weight_sum (freq : Vector Word 256) :
    ((byteLeaves freq).map (fun e => e.weight.toNat)).sum = freqSum freq := by
  have hw : ∀ b : Nat, ((freqAt freq b).setWidth 33).toNat = (freqAt freq b).toNat := fun b =>
    BitVec.toNat_setWidth_of_le (by decide)
  rw [freqSum_eq_sum_range, byteLeaves, List.map_map]
  simp only [Function.comp_def, hw]
  rw [← sum_map_filter]
  congr 1
  refine List.map_congr_left fun b _ => ?_
  split
  · rfl
  · rename_i h
    have hzero : freqAt freq b = 0 := by simpa using h
    rw [hzero]; rfl

theorem leafEntries_weight_sum (freq : Vector Word 256) :
    ((leafEntries freq).map (fun e => e.weight.toNat)).sum = freqSum freq + 1 := by
  rw [← byteLeaves_weight_sum]
  obtain ⟨-, h⟩ | ⟨hnil, h⟩ := leafEntries_cases freq
  · simp [h, eofLeaf]
  · simp [h, hnil, eofLeaf, phantomLeaf]

theorem leafWeight_lt (freq : Vector Word 256) (sym : Sym) : leafWeight freq sym < 2 ^ 32 := by
  unfold leafWeight
  split
  · decide
  · exact BitVec.isLt _

theorem leafSymbols_weight_sum (freq : Vector Word 256) :
    ((leafSymbols freq).map (leafWeight freq)).sum = freqSum freq + 1 := by
  rw [leafSymbols, List.map_map, ← leafEntries_weight_sum]
  congr 1
  refine List.map_congr_left fun e he => ?_
  have := leafWeight_lt freq (e.id.setWidth 9)
  rw [leafEntries_weight freq e he, BitVec.toNat_ofNat, Nat.mod_eq_of_lt (by omega), Function.comp_apply]

/-- The root's weight is the sum of `FREQ`, and 1 for `PSEUDO_EOF`. -/
theorem builtTree_weight {freq : Vector Word 256} {t : HTree} (hp : t.leaves.Perm (leafSymbols freq)) :
    t.weight freq = freqSum freq + 1 := by
  rw [HTree.weight_eq_sum, (hp.map _).sum_eq, leafSymbols_weight_sum]

/-- Where the root's weight fits a weight's 33 bits, every sum below it is exact. -/
theorem HTree.weighs_of_fits {freq : Vector Word 256} {v : Vector Node 513} {n : Nat} {t : HTree} {i : NodeIdx}
    (h : t.fits freq v n i) (hlt : t.weight freq < 2 ^ 33) : t.weighs freq v i = true := by
  induction t generalizing i with
  | leaf sym =>
    have hw := HTree.fits_weight h
    rw [HTree.weight] at hlt hw
    rw [HTree.weighs, beq_iff_eq, hw, BitVec.toNat_ofNat, Nat.mod_eq_of_lt hlt]
  | node l r hl hr =>
    obtain ⟨-, -, -, hw, hfl, hfr⟩ := h
    rw [HTree.weight] at hlt
    rw [HTree.weighs, hl hfl (by omega), hr hfr (by omega), hw, BitVec.toNat_ofNat, Nat.mod_eq_of_lt hlt]
    simp

theorem HTree.weight_of_weighs {freq : Vector Word 256} {v : Vector Node 513} {t : HTree} {i : NodeIdx}
    (h : t.weighs freq v i = true) : (nodeAt v i).weight.toNat = t.weight freq := by
  cases t <;> simp_all [HTree.weighs, HTree.weight]

/-- No node of a tree weighs more than the root. -/
theorem HTree.weight_le_of_mem_indices {freq : Vector Word 256} {v : Vector Node 513} {t : HTree} {i j : NodeIdx}
    (h : t.weighs freq v i = true) (hj : j ∈ t.indices v i) : (nodeAt v j).weight.toNat ≤ t.weight freq := by
  induction t generalizing i with
  | leaf sym =>
    obtain rfl := List.mem_singleton.1 hj
    exact (HTree.weight_of_weighs h).le
  | node l r hl hr =>
    obtain rfl | hj := List.mem_cons.1 hj
    · exact (HTree.weight_of_weighs h).le
    simp only [HTree.weighs, Bool.and_eq_true] at h
    obtain ⟨⟨-, hwl⟩, hwr⟩ := h
    rw [HTree.weight]
    obtain hj | hj := List.mem_append.1 hj
    · exact (hl hwl hj).trans (Nat.le_add_right _ _)
    · exact (hr hwr hj).trans (Nat.le_add_left _ _)

/-- Settles O31: the weights of `treePlan_tree` are exact modulo 2^33, and none passes the root's `TOTAL + 1`. -/
theorem builtTreeWeights : Obligations.BuiltTreeWeights := by
  intro s hstart htotal
  obtain ⟨tree, hfits, hperm⟩ := treePlan_tree s.freq (nodesInvalid s.node)
  have hsits := HTree.fits_sits tree _ hfits
  have hroot := builtTree_weight hperm
  have htotal_lt := s.total.isLt
  have hweighs := HTree.weighs_of_fits hfits (by omega)
  refine ⟨_, tree, exec_buildTree hstart, hsits, hweighs, ?_, fun i hi => ?_⟩
  · rw [htotal, ← hroot]
    exact HTree.weight_of_weighs hweighs
  · have hle := HTree.weight_le_of_mem_indices hweighs ((builtTree_valid_iff_mem_indices hsits hperm i).1 hi)
    exact hle.trans (by omega)

end Sys2Proof.Machine
end

section
/-! PROOFS. The code table: what GEN_CODES writes, and the laws of the table that `CODES_VALID` vouches for
(43_code_table.md rules R106 to R108). -/

namespace Sys2Proof.Machine

/-! ## GEN_CODES (R108) -/

theorem exec_genCodes {s : State} {t : HTree} (hstart : s.standsAt .start) (ht : s.holdsTree t = true) :
    exec .genCodes s = .next { s with
      code := writeCodes t.codes codesAbsent, stack := [], codesValid := true, k := some .finishing } := by
  rw [exec_running .genCodes s .start hstart]
  simp only [procOf, genCodesProc, makeTable_tree s t ht]
  rfl

/-! ## The order of the walk (R107) -/

theorem codeSet_comm (v : Vector CodeEntry 257) {i j : Nat} (c d : CodeEntry) (h : i ≠ j) :
    codeSet (codeSet v i c) j d = codeSet (codeSet v j d) i c :=
  Vector.toArray_inj.1 (Array.setIfInBounds_comm c d h)

/-- Codes of different symbols may be written in any order. -/
theorem writeCodes_perm {found found' : List (Sym × List Bool)} (hp : found.Perm found')
    (hn : (found.map Prod.fst).Nodup) (v : Vector CodeEntry 257) : writeCodes found v = writeCodes found' v := by
  refine hp.foldl_eq' (fun x hx y hy v => ?_) v
  by_cases hsym : x.1 = y.1
  · rw [List.inj_on_of_nodup_map hn hx hy hsym]
  · exact codeSet_comm v _ _ fun h => hsym (BitVec.eq_of_toNat_eq h)

/-! ## The codes and the leaves of a tree (R106) -/

theorem mem_leaves_of_mem_codes {t : HTree} {e : Sym × List Bool} (h : e ∈ t.codes) : e.1 ∈ t.leaves :=
  codes_symbols t ▸ List.mem_map_of_mem h

theorem exists_code_of_mem_leaves {t : HTree} {sym : Sym} (h : sym ∈ t.leaves) : ∃ p, (sym, p) ∈ t.codes := by
  rw [← codes_symbols] at h
  obtain ⟨⟨_, p⟩, he, rfl⟩ := List.mem_map.1 h
  exact ⟨p, he⟩

theorem toNat_ofNat_sym {j : Nat} (hj : j ≤ 256) : (BitVec.ofNat 9 j : Sym).toNat = j :=
  Nat.mod_eq_of_lt (by omega)

/-! ## The table of a tree whose symbols do not repeat (R106, R107) -/

section Table

variable {t : HTree} (hn : t.leaves.Nodup) (hb : ∀ sym ∈ t.leaves, sym.toNat ≤ 256)
include hn hb

theorem codeAt_table_of_mem_codes {sym : Sym} {p : List Bool} (h : (sym, p) ∈ t.codes) :
    codeAt (writeCodes t.codes codesAbsent) sym.toNat = codeOfPath p :=
  codeAt_writeCodes_of_mem t.codes codesAbsent sym p
    (fun _ he => Nat.lt_succ_of_le (hb _ (mem_leaves_of_mem_codes he))) (codes_symbols t ▸ hn) h

omit hn in
theorem codeAt_table_of_notMem_leaves {sym : Sym} (h : sym ∉ t.leaves) :
    codeAt (writeCodes t.codes codesAbsent) sym.toNat = CodeEntry.absent := by
  rw [codeAt_writeCodes_of_notMem t.codes codesAbsent sym.toNat
    (fun _ he => Nat.lt_succ_of_le (hb _ (mem_leaves_of_mem_codes he))), codeAt_codesAbsent]
  intro e he heq
  exact h (BitVec.eq_of_toNat_eq heq ▸ mem_leaves_of_mem_codes he)

/-- A symbol with a valid entry has a leaf, and the entry is the code of its path. -/
theorem exists_code_of_table_valid {j : Nat} (hj : j ≤ 256)
    (hv : (codeAt (writeCodes t.codes codesAbsent) j).valid = true) :
    ∃ p, (BitVec.ofNat 9 j, p) ∈ t.codes ∧ codeAt (writeCodes t.codes codesAbsent) j = codeOfPath p := by
  have hsym := toNat_ofNat_sym hj
  by_cases h : BitVec.ofNat 9 j ∈ t.leaves
  · obtain ⟨p, hp⟩ := exists_code_of_mem_leaves h
    exact ⟨p, hp, hsym ▸ codeAt_table_of_mem_codes hn hb hp⟩
  · rw [← hsym, codeAt_table_of_notMem_leaves hb h] at hv
    cases hv

theorem table_valid_iff {j : Nat} (hj : j ≤ 256) :
    (codeAt (writeCodes t.codes codesAbsent) j).valid = true ↔ BitVec.ofNat 9 j ∈ t.leaves := by
  constructor
  · intro hv
    obtain ⟨p, hp, -⟩ := exists_code_of_table_valid hn hb hj hv
    exact mem_leaves_of_mem_codes hp
  · intro h
    obtain ⟨p, hp⟩ := exists_code_of_mem_leaves h
    rw [← toNat_ofNat_sym hj, codeAt_table_of_mem_codes hn hb hp]
    rfl

/-- No code of the table is a prefix of another symbol's (R107). -/
theorem table_prefix_free (hdepth : t.depth ≤ 256) {i j : Nat} (hi : i ≤ 256) (hj : j ≤ 256)
    (hvi : (codeAt (writeCodes t.codes codesAbsent) i).valid = true)
    (hvj : (codeAt (writeCodes t.codes codesAbsent) j).valid = true)
    (h : (codeAt (writeCodes t.codes codesAbsent) i).path <+: (codeAt (writeCodes t.codes codesAbsent) j).path) :
    i = j := by
  obtain ⟨p, hp, hcp⟩ := exists_code_of_table_valid hn hb hi hvi
  obtain ⟨q, hq, hcq⟩ := exists_code_of_table_valid hn hb hj hvj
  rw [hcp, hcq, codeOfPath_path p ((codes_length_le t _ hp).trans hdepth),
    codeOfPath_path q ((codes_length_le t _ hq).trans hdepth)] at h
  have hsym := congrArg (fun e => e.1.toNat) (codes_prefix t _ _ hp hq h)
  exact toNat_ofNat_sym hi ▸ toNat_ofNat_sym hj ▸ hsym

/-- Kraft's equality over the table, times 2^256 (R107). -/
theorem table_kraft (hdepth : t.depth ≤ 256) :
    ((List.range 257).map (fun j =>
      if (codeAt (writeCodes t.codes codesAbsent) j).valid then
        2 ^ (256 - (codeAt (writeCodes t.codes codesAbsent) j).len.toNat) else 0)).sum = 2 ^ 256 := by
  rw [sum_valid_symbols t hn (fun sym hs => Nat.lt_succ_of_le (hb sym hs)) fun c => 2 ^ (256 - c.len.toNat),
    ← codes_kraft t 256 hdepth]
  congr 1
  exact List.map_congr_left fun e he => by rw [codeOfPath_len e.2 ((codes_length_le t e he).trans hdepth)]

end Table

/-- Settles O34: the table of the tree in `NODE`, read at a symbol that has a leaf and at one that has none. -/
theorem genCodesRuns : Obligations.GenCodesRuns := by
  intro s tree hstart htree
  refine ⟨exec_genCodes hstart htree, fun hn hb => ⟨fun sym p hp => ?leaf, fun sym => codeAt_table_of_notMem_leaves hb⟩⟩
  case leaf =>
    have hlen := codes_length_le_of_holdsTree htree hp
    have hcode : codeAt (writeCodes tree.codes (Vector.replicate 257 ⟨false, 0, 0⟩)) sym.toNat = codeOfPath p :=
      codeAt_table_of_mem_codes hn hb hp
    rw [hcode]
    exact ⟨codeOfPath_valid p, codeOfPath_len p hlen, codeOfPath_bits p hlen, codeOfPath_path p hlen⟩

/-! ## The table that `CODES_VALID` vouches for (R45, R107) -/

/-- While `CODES_VALID = 1`, `CODE` is the table of the tree that BUILD_TREE gives for `FREQ`. -/
theorem State.Inv.table_of_built_tree {s : State} (h : s.Inv) (hv : s.codesValid = true) :
    ∃ t : HTree, s.holdsTree t = true ∧ t.leaves.Perm (leafSymbols s.freq) ∧ s.code = writeCodes t.codes codesAbsent := by
  obtain ⟨htv, htd⟩ := h.codes_of_built_tree hv
  obtain ⟨t, ht, hcode⟩ := h.codes_are_of_tree hv
  obtain ⟨u, hu, hperm⟩ := holdsBuiltTree_tree s (h.tree_is_built htv htd)
  obtain rfl := HTree.sits_unique s.node t u s.root ((holdsTree_iff s t).1 ht).1 ((holdsTree_iff s u).1 hu).1
  exact ⟨t, ht, hperm, hcode⟩

theorem builtTree_leaves_le {freq : Vector Word 256} {t : HTree} (hp : t.leaves.Perm (leafSymbols freq)) :
    ∀ sym ∈ t.leaves, sym.toNat ≤ 256 := by
  intro sym hs
  obtain ⟨hlt, -⟩ | rfl | ⟨rfl, -⟩ := (leafSymbols_mem freq sym).1 (hp.mem_iff.1 hs)
  · exact hlt.le
  · exact Nat.le_refl _
  · exact Nat.zero_le _

/-- A built tree has two leaves or more, so no code is empty. -/
theorem builtTree_codes_length_pos {freq : Vector Word 256} {t : HTree} (hp : t.leaves.Perm (leafSymbols freq))
    {e : Sym × List Bool} (he : e ∈ t.codes) : 1 ≤ e.2.length := by
  have htwo : 2 ≤ t.leaves.length := treePlan_leaves_length freq t hp ▸ (leafEntries_length freq).1
  obtain ⟨l, r, rfl⟩ := HTree.eq_node_of_two_leaves htwo
  exact codes_length_pos l r e he

theorem depth_le_of_holdsTree {s : State} {t : HTree} (h : s.holdsTree t = true) : t.depth ≤ 256 := by
  have hsize := ((holdsTree_iff s t).1 h).2
  have hleaves := t.size_eq
  have hdepth := t.depth_lt_leaves
  omega

/-- The symbols with a code, as numbers (R107 item 1). -/
theorem ofNat_mem_leafSymbols {freq : Vector Word 256} {j : Nat} (hj : j ≤ 256) :
    BitVec.ofNat 9 j ∈ leafSymbols freq ↔
      j = 256 ∨ (j < 256 ∧ freqAt freq j ≠ 0) ∨ (j = 0 ∧ ∀ b : Nat, b < 256 → freqAt freq b = 0) := by
  have heq : ∀ sym : Sym, BitVec.ofNat 9 j = sym ↔ j = sym.toNat := fun sym => by
    rw [← BitVec.toNat_inj, toNat_ofNat_sym hj]
  rw [leafSymbols_mem, toNat_ofNat_sym hj, heq, heq, or_left_comm]
  rfl

/-- Settles O35: the laws of the table of the built tree that the invariant gives. -/
theorem codeTableLaws : Obligations.CodeTableLaws := by
  intro s h hv
  obtain ⟨t, ht, hperm, hcode⟩ := h.table_of_built_tree hv
  have hn := builtTree_leaves_nodup hperm
  have hb := builtTree_leaves_le hperm
  have hdepth := depth_le_of_holdsTree ht
  refine ⟨fun sym hsym => ?symbols, fun sym hsym hvalid => ?lengths, fun i j hi hj hne hvi hvj hpre => ?prefixes, ?kraft,
    fun sym j _ hj => ?pastLen, fun sym _ habsent => ?absent, t, ht, fun order hp => ?order⟩
  case symbols => rw [hcode, table_valid_iff hn hb hsym, hperm.mem_iff, ofNat_mem_leafSymbols hsym]
  case lengths =>
    rw [hcode] at hvalid ⊢
    obtain ⟨p, hp, hentry⟩ := exists_code_of_table_valid hn hb hsym hvalid
    have hlen := codes_length_le_of_holdsTree ht hp
    rw [hentry, codeOfPath_len p hlen]
    exact ⟨builtTree_codes_length_pos hperm hp, hlen⟩
  case prefixes =>
    rw [hcode] at hvi hvj hpre
    exact hne (table_prefix_free hn hb hdepth hi hj hvi hvj hpre)
  case kraft => rw [hcode]; exact table_kraft hn hb hdepth
  case pastLen =>
    by_cases hj256 : j < 256
    · rw [BitVec.getMsbD, h.codeAt_bits_past_len hv sym hj256 hj, Bool.and_false]
    · exact BitVec.getMsbD_of_ge _ _ (Nat.le_of_not_lt hj256)
  case absent =>
    obtain ⟨p, -, hentry⟩ | hentry := h.codeAt_cases hv sym
    · rw [hentry] at habsent
      cases habsent
    · exact hentry
  case order =>
    rw [hcode]
    exact writeCodes_perm hp.symm (codes_symbols t ▸ hn) _

end Sys2Proof.Machine
end

section
/-! PROOFS. The header codec's writing side and the bit packer's command: WRITE_HEADER and FLUSH
(44_header_codec.md rules R116, R117, R120 and R121). -/

namespace Sys2Proof.Machine

/-! ## WRITE_HEADER (R120) -/

/-- The header of L leaves and L − 1 internal nodes has 32 + 10 L + (L − 1) bits (R117). -/
theorem headerLength_of_leaves (t : HTree) : 32 + t.size + 9 * t.leaves.length = 31 + 11 * t.leaves.length := by
  have := t.size_eq
  omega

theorem headerBits_length (t : HTree) :
    (msbBits 32 Config.magic.toNat ++ t.bits).length = 32 + t.size + 9 * t.leaves.length := by
  rw [List.length_append, msbBits_length, t.bits_length, Nat.add_assoc]

theorem exec_writeHeader {s : State} {t : HTree} (hstart : s.standsAt .start) (ht : s.holdsTree t = true) :
    exec .writeHeader s = .next { s.pushBits (msbBits 32 Config.magic.toNat ++ t.bits) with
      stack := [], hdrBits := wordOf (32 + t.size + 9 * t.leaves.length)
      result := BitVec.ofNat 64 (32 + t.size + 9 * t.leaves.length), k := some .finishing } := by
  rw [exec_running .writeHeader s .start hstart]
  simp only [procOf, writeHeaderProc, writeHeader_tree s t ht]
  rfl

/-- Settles O37: the step of WRITE_HEADER from its start, and the stream that pushing the header's bits gives. -/
theorem writeHeaderRuns : Obligations.WriteHeaderRuns := by
  intro s tree hstart htree
  obtain ⟨bytes, acc, n, hpush, hstream⟩ := pushBits_spec s (msbBits 32 Config.magic.toNat ++ tree.bits)
  refine ⟨bytes, acc, n, _, exec_writeHeader hstart htree, ?state, ?stream, headerBits_length tree,
    fun _ _ _ => headerLength_of_leaves tree⟩
  case state => rw [hpush]; rfl
  case stream =>
    rw [hpush, List.append_assoc]
    exact hstream.symm

/-! ## FLUSH (R121) -/

theorem padBits_of_lt {n : Nat} (h : n < 8) : padBits n = List.replicate ((8 - n) % 8) false := by
  rw [padBits, Nat.mod_eq_of_lt h]

theorem exec_flush {s : State} (hstart : s.standsAt .start) :
    exec .flush s = .next { s.flushPacker with k := some .finishing } :=
  exec_running .flush s .start hstart

/-- Settles O38: the step of FLUSH from its start, and the bytes that `Flush()` sends. -/
theorem flushRuns : Obligations.FlushRuns := by
  intro s hstart
  obtain ⟨bytes, hflush, hstream⟩ := flushPacker_spec s
  refine ⟨bytes, ?step, ?stream⟩
  case step => rw [exec_flush hstart, hflush]
  case stream => rw [padBits_of_lt s.pkN.isLt, hstream]

end Sys2Proof.Machine
end

section
/-! PROOFS. Reset from any state (70_reset_and_hazards.md rules R150 and R151). -/

namespace Sys2Proof.Machine

theorem happen_reset (s : State) : happen .reset s = .next s.resetBlock := rfl

/-- Settles O22: the values that the spec leaves open are the ones the block draws, the length of the prefix of `OUT_Q`
that stays (R151) among them. -/
theorem resetAction : Obligations.ResetAction := by
  intro s
  exact ⟨Config.freeNat s.draws 0, freeNodes s.draws, freeCodes s.draws, freeHeap s.draws, freeStack s.draws, s.draws + 1,
    happen_reset s⟩

end Sys2Proof.Machine
end

section
/-! PROOFS. The encoding, there and back: the command of a word and the word of a command (30_encoding.md rules R71 to
R73). -/

namespace Sys2Proof

/-! ## The word of a command (R71) -/

theorem encode_fields (i : Instr) : Laws.EncodingRow.Statement i := Laws.fields_of_word _ _ _ _

theorem forceField_eq (w : Word) : forceField w = (w.extractLsb' 23 1).getLsbD 0 := by
  simp [forceField]

/-! ## The row of a word (R73) -/

theorem exists_selects_of_decode {w : Word} {i : Instr} (h : decode w = .ok i) :
    ∃ r ∈ opRows, r.selects w = true ∧ r.operands w = i := by
  unfold decode at h
  split at h
  · rename_i r hfind
    cases h
    exact ⟨r, List.mem_of_find?_eq_some hfind, by simpa using List.find?_some hfind, rfl⟩
  · cases h

/-- The command of a row takes from the word the fields that the row leaves free, and nothing else (R73). -/
theorem operands_fields : ∀ r ∈ opRows, ∀ w : Word, opcodeOf (r.operands w) = opField r.pattern ∧
    (forceOf (r.operands w) = if r.mask.getLsbD 23 then 0 else BitVec.ofBool (forceField w)) ∧
    (wselOf (r.operands w) = if wselField r.mask = 0 then wselField w else 0) ∧
    (idxOf (r.operands w) = if idxField r.mask = 0 then idxField w else 0) := by
  intro r hr w
  simp only [opRows, opRowsLow, opRowsHigh, List.cons_append, List.nil_append, List.mem_cons, List.not_mem_nil,
    or_false] at hr
  obtain rfl | rfl | rfl | rfl | rfl | rfl | rfl | rfl | rfl | rfl | rfl | rfl | rfl | rfl | rfl := hr <;>
    exact ⟨rfl, rfl, rfl, rfl⟩

/-- A row holds 0 wherever it does not take a field from the words it selects, so no field is dropped. -/
theorem fields_of_selects {r : OpRow} (hr : r ∈ opRows) {w : Word} (h : r.selects w = true) :
    opcodeOf (r.operands w) = opField w ∧ forceOf (r.operands w) = BitVec.ofBool (forceField w) ∧
      wselOf (r.operands w) = wselField w ∧ idxOf (r.operands w) = idxField w := by
  obtain ⟨hop, -, -, hforce, hwsel, hidx⟩ := (OpRow.selects_iff hr w).1 h
  obtain ⟨oop, oforce, owsel, oidx⟩ := operands_fields r hr w
  refine ⟨oop.trans hop.symm, ?force, ?wsel, ?idx⟩
  case force =>
    rw [oforce]
    cases hw : forceField w with
    | false => split <;> rfl
    | true => rw [hforce hw]; rfl
  case wsel =>
    rw [owsel, ite_eq_left_iff]
    exact fun hmask => (not_not.1 fun hne => hmask (hwsel hne)).symm
  case idx =>
    rw [oidx, ite_eq_left_iff]
    exact fun hmask => (not_not.1 fun hne => hmask (hidx hne)).symm

/-- Settles O2: the word is put together again from the fields that its row took apart. -/
theorem encodeDecoded : Obligations.EncodeDecoded := by
  intro w i h
  obtain ⟨r, hr, hsel, rfl⟩ := exists_selects_of_decode h
  obtain ⟨hop, hforce, hwsel, hidx⟩ := fields_of_selects hr hsel
  obtain ⟨-, h20, h10, -⟩ := (OpRow.selects_iff hr w).1 hsel
  obtain ⟨fop, fforce, f20, fwsel, f10, fidx⟩ := encode_fields (r.operands w)
  refine (word_eq_iff_fields _ _).2 ⟨fop.trans hop, ?_, f20.trans h20.symm, fwsel.trans hwsel, f10.trans h10.symm,
    fidx.trans hidx⟩
  show forceField _ = forceField w
  rw [forceField_eq, fforce, hforce, BitVec.getLsbD_ofBool]
  simp

/-! ## The command of a word (R73) -/

/-- The command with the given fields: one row of R73 for each opcode. -/
def instrOfFields (op : BitVec 8) (f : BitVec 1) (wsel : BitVec 4) (idx : BitVec 10) : Instr :=
  match op.toNat with
  | 0x00 => .nop
  | 0x01 => .clear
  | 0x02 => .count
  | 0x03 => .loadFreq idx
  | 0x04 => .readFreq idx
  | 0x05 => .buildTree
  | 0x06 => .readNode wsel idx
  | 0x07 => .genCodes
  | 0x08 => .readCode wsel idx
  | 0x09 => .estimate (f.getLsbD 0)
  | 0x0A => .writeHeader
  | 0x0B => .encode
  | 0x0C => .flush
  | 0x0D => .compress (f.getLsbD 0)
  | _ => .decompress

theorem instrOfFields_fields (i : Instr) : instrOfFields (opcodeOf i) (forceOf i) (wselOf i) (idxOf i) = i := by
  cases i with
  | estimate force | compress force => cases force <;> rfl
  | _ => rfl

/-- Two commands never share a word. -/
theorem encode_injective {i j : Instr} (h : encode i = encode j) : i = j := by
  obtain ⟨iop, iforce, -, iwsel, -, iidx⟩ := encode_fields i
  obtain ⟨jop, jforce, -, jwsel, -, jidx⟩ := encode_fields j
  rw [← instrOfFields_fields i, ← instrOfFields_fields j, ← iop, ← iforce, ← iwsel, ← iidx, h, jop, jforce, jwsel, jidx]

/-- A command's word has 0 in the reserved fields and in those that its row fixes (R71, R74). -/
theorem encode_not_illegal (i : Instr) : ¬ illegalFields (encode i) := by
  obtain ⟨fop, fforce, f20, fwsel, f10, fidx⟩ := encode_fields i
  have f23 : (encode i).getLsbD 23 = (forceOf i).getLsbD 0 := by
    rw [← fforce]; exact forceField_eq _
  simp only [opField, wselField, idxField] at fop fwsel fidx
  rw [illegalFields, fop, f20, fwsel, f10, fidx, f23]
  cases i <;> simp [opcodeOf, forceOf, wselOf, idxOf]

/-- Settles O1: the command's word is legal, the decoder drops no bit of it (`encodeDecoded`), and no other command has
that word. -/
theorem decodeEncode : Obligations.DecodeEncode := by
  intro i
  cases h : decode (encode i) with
  | ok j => rw [encode_injective (encodeDecoded _ j h)]
  | error e => exact absurd ((exists_decode_error_iff _).1 ⟨e, h⟩) (encode_not_illegal i)

namespace Machine

/-! ## Operands (R72) -/

/-- A write of a command's word to an idle core dispatches the command (R83). -/
theorem cmdWrite_of_idle {s : State} {w : Word} {i : Instr} (hidle : s.busy = false) (hw : decode w = .ok i) :
    cmdWrite w s = exec i s := by
  simp [cmdWrite, hidle, hw]

/-- An operand out of range is refused before any prerequisite is looked at (R83, R139). -/
theorem exec_of_out_of_range {i : Instr} {s : State} (hidle : s.busy = false) (h : inRange i = false) :
    exec i s = .next (s.refusedWith .range (encode i)) := by
  rw [exec_idle i s hidle, dispatchLegal, h]; rfl

/-- Settles O4: the fields of a word are those of its command, by `encodeDecoded`, and dispatch refuses a command that is
not in range. -/
theorem operandRanges : Obligations.OperandRanges := by
  intro w i hw
  have hword := encodeDecoded w i hw
  refine ⟨?fields, fun s hidle hout => ?refused⟩
  case fields =>
    obtain ⟨-, fforce, -, fwsel, -, fidx⟩ := encode_fields i
    rw [hword] at fforce fwsel fidx
    exact ⟨fidx.symm, fwsel.symm, fforce.symm⟩
  case refused =>
    have hrange : inRange i = false := by
      cases i <;> simp_all [inRange] <;> omega
    rw [regWrite_cmd, cmdWrite_of_idle hidle hw, exec_of_out_of_range hidle hrange, hword]

/-- Settles O5: the words are literals, and the decoder evaluates on them. -/
theorem sampleWords : Obligations.SampleWords := by
  refine ⟨?_, ?_, ?_, ?_, ?_, ?_, ?_, ?_, ?_, ?_, ?_, ?_⟩ <;> decide

end Machine
end Sys2Proof
end

section
/-! PROOFS. The invariant of rule R45: the state after reset meets it, and every step keeps it (10_state.md section 6). -/

namespace Sys2Proof.Machine

/-! ## The core's turn and dispatch -/

/-- Settles O53: no flag is set, no command runs, and `TOTAL` and `FREQ` are 0. -/
theorem resetMeetsInvariant : Obligations.ResetMeetsInvariant :=
  .of_idle (.of_clear (by show (0 : Word).toNat = freqSum freqZero; rw [freqSum_freqZero]; rfl) rfl) rfl rfl rfl
    (fun h => by cases h) (fun _ => rfl)

theorem coreTurn_of_idle {s : State} (hidle : s.busy = false) : coreTurn s = .next s := by
  simp [coreTurn, hidle]

/-- The core's turn is the next step of the procedure of the command it runs (R61). -/
theorem coreTurn_of_running {s : State} {i : Instr} {p : Point} (h : s.standsAt p) (hi : decode s.curCmd = .ok i) :
    coreTurn s = procOf i p s := by
  rw [← exec_running i s p h]
  simp [coreTurn, h.1, hi]

theorem State.Inv.coreTurn {s : State} (h : s.Inv) : ∃ t, coreTurn s = .next t ∧ t.Inv := by
  cases hb : s.busy with
  | false => exact ⟨s, coreTurn_of_idle hb, h⟩
  | true =>
    obtain ⟨⟨i, p, hi, hw, hk, hf, hp⟩, -⟩ := h.running hb
    rw [coreTurn_of_running ⟨hb, hk⟩ hi]
    exact procOf_keeps i p s h hb hi hw hk hf hp

/-! ## The host's actions -/

/-- The invariant does not speak of what the host writes, reads, pushes and pops. -/
theorem State.Inv.withHostFields {s : State} (h : s.Inv) (ie cmdDropped : Bool) (data : Word) (inQ outQ : List Beat)
    (agenda : List Event) (draws : Nat) (rdata : Word) (popped : Option Beat) :
    State.Inv { s with
      ie := ie, cmdDropped := cmdDropped, data := data, inQ := inQ, outQ := outQ, agenda := agenda, draws := draws
      rdata := rdata, popped := popped } :=
  h.same ⟨rfl, rfl, rfl, rfl, rfl, rfl, rfl, rfl, rfl, rfl⟩ ⟨rfl, rfl, rfl, rfl, rfl, rfl⟩ rfl rfl rfl rfl

theorem State.Inv.cmdWrite {s : State} (h : s.Inv) (w : Word) : ∃ t, cmdWrite w s = .next t ∧ t.Inv := by
  cases hb : s.busy with
  | true => exact ⟨_, cmdWrite_of_busy hb w, h.withHostFields ..⟩
  | false =>
    cases hw : decode w with
    | ok i =>
      exact ⟨_, (cmdWrite_of_idle hb hw).trans (exec_idle i s hb), dispatchLegal_keeps i s h hb (decodeEncode i)⟩
    | error e => exact ⟨_, cmdWrite_of_decode_error hb hw, illegal_keeps w s h hb⟩

/-- An abort leaves an idle core with no flag set (R86). -/
theorem State.Inv.abort {s : State} (h : s.Inv) (hb : s.busy = true) : s.abort.Inv := by
  obtain ⟨-, hdone, -⟩ := h.running hb
  exact .of_idle (.of_clear h.total_eq_sum rfl) rfl rfl rfl (fun hd => absurd (hdone.symm.trans hd) (by decide))
    (fun he => by cases he)

theorem State.Inv.ctrlWrite {s : State} (h : s.Inv) (v : Word) : (s.ctrlWrite v).Inv := by
  unfold State.ctrlWrite
  dsimp only
  split
  · rename_i hab
    exact State.Inv.abort (s := { s with ie := _ }) (h.withHostFields ..) (and_right hab)
  · exact h.withHostFields ..

/-- Clearing `DONE` and `ERR` leaves them apart (R140). -/
theorem State.Inv.statusWrite {s : State} (h : s.Inv) (v : Word) : (s.statusWrite v).Inv := by
  cases hb : s.busy with
  | true =>
    obtain ⟨⟨i, p, hi, hw, hk, hf, hp⟩, hd, he, herr, hinfo⟩ := h.running hb
    exact .of_running i p (h.tables.congr ⟨rfl, rfl, rfl, rfl, rfl, rfl, rfl, rfl, rfl, rfl⟩) hb (by simp [hd])
      (by simp [he]) herr hinfo hi hw hk hf hp
  | false =>
    obtain ⟨hp, hk⟩ := h.idle_is_empty hb
    refine .of_idle (h.tables.congr ⟨rfl, rfl, rfl, rfl, rfl, rfl, rfl, rfl, rfl, rfl⟩) hb hp hk (fun hd => ?_)
      h.no_error_no_info
    have hd : s.done = true := by
      rw [statusWrite_done, Bool.and_eq_true] at hd; exact hd.1
    rw [statusWrite_err, (h.ends_exclude hd).1, Bool.false_and]

theorem State.Inv.regWrite {s : State} (h : s.Inv) (a : BitVec 8) (v : Word) : ∃ t, regWrite a v s = .next t ∧ t.Inv := by
  unfold Machine.regWrite
  split
  · exact ⟨_, rfl, h.ctrlWrite v⟩
  · exact ⟨_, rfl, h.statusWrite v⟩
  · exact h.cmdWrite v
  · exact ⟨_, rfl, h.withHostFields ..⟩
  · exact ⟨_, rfl, h⟩

theorem State.Inv.regRead {s : State} (h : s.Inv) (a : BitVec 8) : (s.regRead a).Inv := by
  unfold State.regRead
  split <;> exact h.withHostFields ..

theorem State.Inv.popOut {s : State} (h : s.Inv) : s.popOut.Inv := by
  unfold State.popOut
  split
  · exact h
  · exact h.withHostFields ..

theorem State.resetBlock_inv (s : State) : s.resetBlock.Inv :=
  .of_idle (.of_clear (resetMeetsInvariant.total_eq_sum) rfl) rfl rfl rfl (fun h => by cases h) (fun _ => rfl)

theorem State.Inv.happen {s : State} (h : s.Inv) (e : Event) : ∃ t, happen e s = .next t ∧ t.Inv := by
  cases e with
  | core => exact h.coreTurn
  | regWrite a v => exact h.regWrite a v
  | regRead a => exact ⟨_, rfl, h.regRead a⟩
  | pushIn x | dropIn => exact ⟨_, rfl, h.withHostFields ..⟩
  | popOut => exact ⟨_, rfl, h.popOut⟩
  | reset => exact ⟨_, rfl, s.resetBlock_inv⟩

/-- Settles O54: the core's turn by `procOf_keeps`, command by command and point by point, and each host action by its own
lemma. -/
theorem stepKeepsInvariant : Obligations.StepKeepsInvariant := by
  intro s h
  unfold step
  split
  · exact h.coreTurn
  · exact State.Inv.happen (s := { s with agenda := _ }) (h.withHostFields ..) _

/-- Every state of a run from a state of the invariant meets it. -/
theorem State.Inv.run {s : State} (h : s.Inv) (n : Nat) : ∃ t, core.run n s = .next t ∧ t.Inv := by
  induction n generalizing s with
  | zero => exact ⟨s, rfl, h⟩
  | succ n ih =>
    obtain ⟨t, hst, ht⟩ := stepKeepsInvariant s h
    rw [run_succ hst]
    exact ih ht

/-! ## What the invariant excludes -/

/-- Settles O23: the line by its definition, the exclusion by the invariant. -/
theorem interruptLine : Obligations.InterruptLine := by
  refine fun s => ⟨by simp [State.irq], fun h ⟨hd, he⟩ => ?_⟩
  rw [(h.ends_exclude hd).1] at he
  cases he

end Sys2Proof.Machine
end

section
/-! PROOFS. A step of the model, and dispatch: what an idle core makes of a command's word (40_control.md rules R83 and
R135, 10_state.md rule R44). -/

namespace Sys2Proof.Machine

/-! ## A step of the model (R61) -/

theorem step_of_no_event {s : State} (h : s.agenda = []) : step s = coreTurn s := by
  simp [step, h]

theorem step_of_event {s : State} {e : Event} {rest : List Event} (h : s.agenda = e :: rest) :
    step s = happen e { s with agenda := rest } := by
  simp [step, h]

theorem coreTurn_of_busy {s : State} {i : Instr} (hbusy : s.busy = true) (hi : decode s.curCmd = .ok i) :
    coreTurn s = exec i s := by
  simp [coreTurn, hbusy, hi]

/-- The decoder of table words is `decode` on a word within 32 bits. -/
theorem decode_of_decodeTableWord {nbits n : Nat} {i : Instr} (h : decodeTableWord nbits n = some i) :
    decode (BitVec.ofNat 32 (n % 2 ^ nbits)) = .ok i := by
  unfold decodeTableWord at h
  split at h
  · cases hd : decode (BitVec.ofNat 32 (n % 2 ^ nbits)) <;> rw [hd] at h <;> cases h
    rfl
  · cases h

/-- Settles O6: the event at the head of the agenda is the write, or the turn, of which the statement speaks. -/
theorem stepRunsDecodedCommand : Obligations.StepRunsDecodedCommand := by
  intro s w i rest hw
  refine ⟨fun hidle ha => ?write, fun hbusy hcur ha => ?turn, fun hbusy hcur ha => ?noEvent, fun nbits n hn => ?placed⟩
  case write => rw [step_of_event ha]; exact cmdWrite_of_idle hidle hw
  case turn => rw [step_of_event ha]; exact coreTurn_of_busy hbusy (hcur ▸ hw)
  case noEvent => rw [step_of_no_event ha]; exact coreTurn_of_busy hbusy (hcur ▸ hw)
  case placed =>
    have ha : (s.withFetchWord nbits n).agenda = .regWrite 0x08 (BitVec.ofNat 32 (n % 2 ^ nbits)) :: s.agenda := rfl
    rw [step_of_event ha]
    exact cmdWrite_of_idle (s := { s with busy := false, phase := .idle, k := none }) rfl (decode_of_decodeTableWord hn)

/-- A procedure that stands at an `InBeat()` with no beat there waits (R52). -/
theorem procOf_of_no_beat {i : Instr} {p : Point} {s : State} (hf : s.flagsAt i p = true) (hp : p.atInBeat = true)
    (hq : s.inQ = []) : procOf i p s = .next s := by
  cases p with
  | countIn =>
    cases i with
    | count | compress => simp [procOf, countProc, compressProc, countBeat, hq]
    | _ => cases hf
  | encodeIn =>
    cases i with
    | encode | compress => simp [procOf, encodeProc, compressProc, encodeBeat, hq]
    | _ => cases hf
  | magicIn | tagIn | symIn | walkIn =>
    cases i with
    | decompress => simp [procOf, decompressProc, bitBeat, hq]
    | _ => cases hf
  | drainIn =>
    cases i with
    | decompress => simp [procOf, decompressProc, drainBeat, hq]
    | _ => cases hf
  | _ => cases hp

/-- The core waits: it runs a command that stands at an `InBeat()` (R52). -/
theorem inReady_iff (s : State) : s.inReady = true ↔ ∃ p, s.standsAt p ∧ p.atInBeat = true := by
  unfold State.inReady State.standsAt
  cases s.k <;> simp

/-- Settles O7: an idle core has no step, and the invariant puts a waiting one at an `InBeat()` of its own command. -/
theorem idleOrWaitingCoreIsStill : Obligations.IdleOrWaitingCoreIsStill := by
  refine fun s ha => ⟨fun hidle => ?_, fun h hready hq => ?_⟩
  · rw [step_of_no_event ha, coreTurn_of_idle hidle]
  · obtain ⟨p, hs, hp⟩ := (inReady_iff s).1 hready
    obtain ⟨⟨i, p', hi, -, hk, hf, -⟩, -⟩ := h.running hs.1
    obtain rfl : p = p' := Option.some.inj (hs.2.symm.trans hk)
    rw [step_of_no_event ha, coreTurn_of_running hs hi, procOf_of_no_beat hf hp hq]

/-! ## The words of R73 -/

theorem word_of_operands (op : BitVec 8) (wsel : BitVec 4) (idx : BitVec 10) :
    op ++ 0#1 ++ 0#3 ++ wsel ++ 0#6 ++ idx =
      op.setWidth 32 <<< 24 ||| wsel.setWidth 32 <<< 16 ||| idx.setWidth 32 := by
  refine BitVec.eq_of_getLsbD_eq fun i hi => ?_
  simp only [BitVec.getLsbD_append, BitVec.getLsbD_or, BitVec.getLsbD_shiftLeft, BitVec.getLsbD_setWidth,
    BitVec.getLsbD_zero]
  grind

theorem encode_loadFreq (idx : BitVec 10) : encode (.loadFreq idx) = 0x03000000#32 ||| idx.setWidth 32 :=
  (word_of_operands _ _ _).trans (by simp [opcodeOf, wselOf, idxOf])

theorem encode_readFreq (idx : BitVec 10) : encode (.readFreq idx) = 0x04000000#32 ||| idx.setWidth 32 :=
  (word_of_operands _ _ _).trans (by simp [opcodeOf, wselOf, idxOf])

theorem encode_readNode (wsel : BitVec 4) (idx : BitVec 10) :
    encode (.readNode wsel idx) = 0x06000000#32 ||| (wsel.setWidth 32 <<< 16) ||| idx.setWidth 32 :=
  (word_of_operands _ _ _).trans (by simp [opcodeOf, wselOf, idxOf])

theorem encode_readCode (wsel : BitVec 4) (idx : BitVec 10) :
    encode (.readCode wsel idx) = 0x08000000#32 ||| (wsel.setWidth 32 <<< 16) ||| idx.setWidth 32 :=
  (word_of_operands _ _ _).trans (by simp [opcodeOf, wselOf, idxOf])

theorem encode_estimate (force : Bool) :
    encode (.estimate force) = if force then 0x09800000#32 else 0x09000000#32 := by
  cases force <;> decide

theorem encode_compress (force : Bool) :
    encode (.compress force) = if force then 0x0D800000#32 else 0x0D000000#32 := by
  cases force <;> decide

/-! ## Acceptance (R83) -/

/-- A command in range with its prerequisite met is taken: the flags change as R44 says at its start, and its word and
first phase are set. -/
theorem exec_of_accepted {i : Instr} {s : State} (hidle : s.busy = false) (hr : inRange i = true)
    (hp : prerequisite i s = true) : exec i s = .next ((atStart i s).started (encode i) (firstPhase i)) := by
  rw [exec_idle i s hidle, dispatchLegal, hr, hp]
  cases i <;> rfl

/-- A command in range with its prerequisite false is refused (R135). -/
theorem exec_of_unmet {i : Instr} {s : State} (hidle : s.busy = false) (hr : inRange i = true)
    (hp : prerequisite i s = false) : exec i s = .next (s.refusedWith .sequence (encode i)) := by
  rw [exec_idle i s hidle, dispatchLegal, hr, hp]
  rfl

theorem inRange_readFreq {idx : BitVec 10} (h : idx.toNat ≤ 255) : inRange (.readFreq idx) = true := by
  simpa [inRange] using h

theorem inRange_readNode {wsel : BitVec 4} {idx : BitVec 10} (hidx : idx.toNat ≤ 512) (hwsel : wsel.toNat ≤ 2) :
    inRange (.readNode wsel idx) = true := by simp [inRange, hidx, hwsel]

theorem inRange_readCode {wsel : BitVec 4} {idx : BitVec 10} (hidx : idx.toNat ≤ 256) (hwsel : wsel.toNat ≤ 7) :
    inRange (.readCode wsel idx) = true := by simp [inRange, hidx, hwsel]

/-- Settles O8: `exec_of_accepted` at the commands whose start leaves every flag, with their words. -/
theorem acceptKeepsFlags : Obligations.AcceptKeepsFlags := by
  intro s idx wsel hidle
  refine ⟨exec_of_accepted hidle rfl rfl, fun hidx => ?_, fun hidx hwsel htree => ?_, fun hidx hwsel hcodes => ?_,
    fun htree => exec_of_accepted hidle rfl htree, fun hcodes => exec_of_accepted hidle rfl hcodes,
    exec_of_accepted hidle rfl rfl⟩
  · rw [← encode_readFreq]
    exact exec_of_accepted hidle (inRange_readFreq hidx) rfl
  · rw [← encode_readNode]
    exact exec_of_accepted hidle (inRange_readNode hidx hwsel) htree
  · rw [← encode_readCode]
    exact exec_of_accepted hidle (inRange_readCode hidx hwsel) hcodes

/-- Settles O9: `exec_of_accepted` at the commands whose start clears every flag, with their words. -/
theorem acceptClearsFlags : Obligations.AcceptClearsFlags := by
  intro s idx force hidle
  refine ⟨exec_of_accepted hidle rfl rfl, exec_of_accepted hidle rfl rfl, fun hidx => ?_, exec_of_accepted hidle rfl rfl, ?_,
    exec_of_accepted hidle rfl rfl⟩
  · rw [← encode_loadFreq]
    exact exec_of_accepted hidle (by simpa [inRange] using hidx) rfl
  · rw [← encode_compress]
    exact exec_of_accepted hidle rfl rfl

/-- Settles O10: `exec_of_accepted` at the two commands that clear some flags. -/
theorem acceptClearsStaleFlags : Obligations.AcceptClearsStaleFlags := by
  refine fun s force hidle => ⟨fun htree hdecoded => ?_, fun hcodes => ?_⟩
  · exact exec_of_accepted hidle rfl (by simp [prerequisite, htree, hdecoded])
  · rw [← encode_estimate]
    exact exec_of_accepted hidle rfl hcodes

/-- Settles O11: `exec_of_unmet` at each command that has a prerequisite. -/
theorem unmetPrerequisiteIsRejected : Obligations.UnmetPrerequisiteIsRejected := by
  intro s idx wsel force hidle
  refine ⟨fun htree hidx hwsel => exec_of_unmet hidle (inRange_readNode hidx hwsel) htree, fun h => ?_,
    fun hcodes hidx hwsel => exec_of_unmet hidle (inRange_readCode hidx hwsel) hcodes, fun hcodes => ?_,
    fun htree => exec_of_unmet hidle rfl htree, fun hcodes => exec_of_unmet hidle rfl hcodes⟩
  · refine exec_of_unmet (i := .genCodes) hidle rfl ?_
    obtain h | h := h <;> simp [prerequisite, h]
  · rw [← encode_estimate]
    exact exec_of_unmet hidle rfl hcodes

end Sys2Proof.Machine
end

section
/-! PROOFS. The host's side: what register writes and reads do, the layout of `STATUS`, and the stream actions
(10_state.md section 2, 20_memory.md sections 3 and 7, 40_control.md section 1). -/

namespace Sys2Proof.Machine

/-! ## Register writes (R87) -/

/-- A write of `CTRL` that aborts nothing only sets `IE`. -/
theorem ctrlWrite_of_no_abort {s : State} {v : Word} (h : v.getLsbD 1 = false ∨ s.busy = false) :
    s.ctrlWrite v = { s with ie := v.getLsbD 0 } := by
  unfold State.ctrlWrite
  dsimp only
  obtain h | h := h
  · rw [h]; rfl
  · rw [h, Bool.and_false]; rfl

/-- A write of `STATUS` clears the bits it writes 1 to (R21). -/
theorem statusWrite_eq (v : Word) (s : State) : s.statusWrite v = { s with
    done := if v.getLsbD 1 then false else s.done
    err := if v.getLsbD 2 then false else s.err
    cmdDropped := if v.getLsbD 8 then false else s.cmdDropped } := by
  have clear : ∀ a b : Bool, (a && !b) = if b then false else a := by decide
  simp only [State.statusWrite, clear]

/-- An offset without a writable register takes no write (R35, R49). -/
theorem regWrite_of_other {a : BitVec 8} (hctrl : a ≠ 0x00) (hstatus : a ≠ 0x04) (hcmd : a ≠ 0x08) (hdata : a ≠ 0x0C)
    (v : Word) (s : State) : regWrite a v s = .next s := by
  unfold regWrite
  split
  · exact absurd (BitVec.eq_of_toNat_eq ‹_›) hctrl
  · exact absurd (BitVec.eq_of_toNat_eq ‹_›) hstatus
  · exact absurd (BitVec.eq_of_toNat_eq ‹_›) hcmd
  · exact absurd (BitVec.eq_of_toNat_eq ‹_›) hdata
  · rfl

/-- Settles O16: the writes of `CTRL`, `STATUS` and `DATA`, and those of the offsets that take none. -/
theorem hostWrites : Obligations.HostWrites := by
  refine fun s a v => ⟨fun h => ?ctrl, ?status, rfl, fun h1 h2 h3 h4 => regWrite_of_other h1 h2 h3 h4 v s⟩
  case ctrl => rw [regWrite_ctrl, ctrlWrite_of_no_abort h]
  case status => exact congrArg Host.Outcome.next (statusWrite_eq v s)

/-! ## Register reads (R19, R66) -/

/-- A read with a value: while the core is idle at every offset, and while a command runs at those R66 does not list. -/
theorem regRead_eq {a : BitVec 8} {s : State} (h : s.busy = false ∨ freeReadWidth a = none) {w : Word}
    (hw : regValue a s = w) : s.regRead a = { s with rdata := w } := by
  subst hw
  unfold State.regRead
  split
  · obtain h | h := h <;> simp_all
  · rfl

/-- While a command runs, a register that R66 lists gives a free value of its width. -/
theorem regRead_of_free {a : BitVec 8} {s : State} {w : Nat} (hbusy : s.busy = true) (h : freeReadWidth a = some w) :
    s.regRead a = { s with rdata := (Config.freeBits s.draws 0 w).setWidth 32, draws := s.draws + 1 } := by
  simp [State.regRead, hbusy, h]

theorem ctrlWord_eq (s : State) : s.ctrlWord = if s.ie then 1 else 0 := by
  unfold State.ctrlWord
  cases s.ie <;> rfl

/-- The offsets at which nothing is mapped: no register has a value or a free width there (R35). -/
theorem unmapped_offset {a : BitVec 8} (h : a.toNat % 4 ≠ 0 ∨ 0x48 ≤ a.toNat) (s : State) :
    freeReadWidth a = none ∧ regValue a s = 0 := by
  unfold freeReadWidth regValue
  constructor <;> split <;> simp_all

theorem regRead_of_unmapped {a : BitVec 8} (h : a.toNat % 4 ≠ 0 ∨ 0x48 ≤ a.toNat) (s : State) :
    s.regRead a = { s with rdata := 0 } := by
  obtain ⟨hfree, hvalue⟩ := unmapped_offset h s
  exact regRead_eq (.inr hfree) hvalue

theorem errorWord_eq (e : ErrCode) : (e.number.setWidth 32 : Word) =
    match e with
    | .none => 0x00 | .illegalCmd => 0x01 | .range => 0x02 | .sequence => 0x03 | .magic => 0x04 | .hdrTrunc => 0x05
    | .hdrInvalid => 0x06 | .bodyTrunc => 0x07 | .invariant => 0x08 | .countOverflow => 0x09 | .aborted => 0x0A := by
  cases e <;> rfl

theorem lowWord_eq (v : Size) : (v.extractLsb' 0 32 : Word) = v.setWidth 32 := by
  refine BitVec.eq_of_getLsbD_eq fun i hi => ?_
  simp

theorem highWord_eq (v : Size) : (v.extractLsb' 32 32 : Word) = (v >>> 32).setWidth 32 := by
  refine BitVec.eq_of_getLsbD_eq fun i hi => ?_
  simp

/-- Settles O17: the value at each offset, with the words that `regValue` gives in other terms than the statement. -/
theorem idleReads : Obligations.IdleReads := by
  intro s hidle
  have read {a : BitVec 8} {w : Word} (hw : regValue a s = w) : s.regRead a = { s with rdata := w } :=
    regRead_eq (.inl hidle) hw
  exact ⟨read (ctrlWord_eq s), read rfl, read rfl, read rfl, read (errorWord_eq s.error), read rfl, read rfl, read rfl,
    read (lowWord_eq s.estOrig), read (highWord_eq s.estOrig), read (lowWord_eq s.estComp), read (highWord_eq s.estComp),
    read (lowWord_eq s.result), read (highWord_eq s.result), read rfl, read rfl, read rfl, read rfl,
    fun a h => regRead_of_unmapped h s⟩

/-- A read changes only what the host has received, and the count of the draws. -/
theorem regRead_frame (a : BitVec 8) (s : State) : ∃ r d, s.regRead a = { s with rdata := r, draws := d } := by
  unfold State.regRead
  split
  · exact ⟨_, _, rfl⟩
  · exact ⟨_, s.draws, rfl⟩

theorem regRead_lt_of_free {a : BitVec 8} {s : State} {w : Nat} (hbusy : s.busy = true) (h : freeReadWidth a = some w) :
    (s.regRead a).rdata.toNat < 2 ^ w := by
  rw [regRead_of_free hbusy h]
  rw [BitVec.toNat_setWidth]
  exact (Nat.mod_le _ _).trans_lt (BitVec.isLt _)

/-- Settles O18: the offsets that R66 does not list read as they do while the core is idle, and the others give a value of
their width. -/
theorem busyReads : Obligations.BusyReads := by
  intro s hbusy
  exact ⟨regRead_eq (.inr rfl) (ctrlWord_eq s), regRead_eq (.inr rfl) rfl, regRead_eq (.inr rfl) rfl,
    regRead_eq (.inr rfl) rfl, fun a h => regRead_of_unmapped h s, fun a => regRead_frame a s,
    regRead_lt_of_free hbusy rfl, regRead_lt_of_free hbusy rfl, regRead_lt_of_free hbusy rfl,
    regRead_lt_of_free hbusy rfl⟩

/-! ## `STATUS` (R21, R22) -/

theorem statusWord_phase (s : State) : s.statusWord.extractLsb' 16 4 = s.phase.number := by
  refine BitVec.eq_of_getLsbD_eq fun i hi => ?_
  simp only [State.statusWord, BitVec.getLsbD_extractLsb', BitVec.getLsbD_append, hi, decide_true, Bool.true_and]
  grind

theorem statusWord_reserved (s : State) :
    s.statusWord.extractLsb' 9 7 = 0 ∧ s.statusWord.extractLsb' 20 12 = 0 := by
  constructor <;>
    (refine BitVec.eq_of_getLsbD_eq fun i hi => ?_
     simp only [State.statusWord, BitVec.getLsbD_extractLsb', BitVec.getLsbD_append, BitVec.getLsbD_zero, hi, decide_true,
       Bool.true_and]
     grind)

theorem phase_number_toNat (p : Phase) : p.number.toNat =
    match p with
    | .idle => 0 | .count => 1 | .build => 2 | .codes => 3 | .estimate => 4 | .hdrWrite => 5 | .encode => 6
    | .flush => 7 | .hdrRead => 8 | .walk => 9 | .drain => 10 | .short => 11 := by
  cases p <;> rfl

/-- Settles O19: each bit of the word lies in one of the fields that the word is put together from. -/
theorem statusLayout : Obligations.StatusLayout := by
  intro s
  obtain ⟨h9, h20⟩ := statusWord_reserved s
  refine ⟨?_, ?_, ?_, ?_, ?_, ?_, ?_, ?_, ?_, h9, h20, (congrArg BitVec.toNat (statusWord_phase s)).trans
    (phase_number_toNat s.phase)⟩
  all_goals
    simp only [State.statusWord, BitVec.getLsbD_append]
    simp

/-! ## The streams (R52, R54, R55) -/

theorem popOut_of_beat {s : State} {x : Beat} {rest : List Beat} (h : s.outQ = x :: rest) :
    s.popOut = { s with outQ := rest, popped := some x } := by
  simp [State.popOut, h]

theorem popOut_of_empty {s : State} (h : s.outQ = []) : s.popOut = s := by
  simp [State.popOut, h]

/-- Settles O20: each action by its definition, and `PopOut` by whether a beat is there. -/
theorem streamActions : Obligations.StreamActions := fun _ _ =>
  ⟨rfl, rfl, fun _ h => congrArg Host.Outcome.next (popOut_of_beat h),
    fun h => congrArg Host.Outcome.next (popOut_of_empty h)⟩

/-! ## Reset (R46, R152) -/

/-- Settles O21: the fields of `State.reset`, and the words put together from them. -/
theorem stateAfterReset : Obligations.StateAfterReset := by
  refine ⟨by decide, by decide, rfl, rfl, rfl, rfl, rfl, rfl, rfl, rfl, rfl, rfl, rfl, rfl, fun b _ => freqAt_freqZero b, rfl,
    rfl, rfl, rfl, rfl, rfl, rfl, rfl, rfl, rfl⟩

end Sys2Proof.Machine
end

section
/-! PROOFS. How a command ends, NOP and CLEAR, the symbol counter, and a whole COUNT (40_control.md sections 1 to 3,
41_counter.md, 60_exceptions.md rule R136). -/

namespace Sys2Proof.Machine

/-! ## How a command ends (R84, R136) -/

/-- Settles O13: every procedure ends with `finish()`, and the invariant lets no error be reported before. -/
theorem finishEndsCommand : Obligations.FinishEndsCommand := fun i s h =>
  ⟨(exec_running i s _ h).trans (procOf_finishing i s), fun hinv => (hinv.busy_no_error h.1).2⟩

/-- Settles O14: every procedure raises through `State.raiseError`. -/
theorem raiseEndsCommand : Obligations.RaiseEndsCommand := fun i s code info h =>
  (exec_running i s _ h).trans (procOf_raising i code info s)

/-! ## NOP and CLEAR (R89, R90) -/

/-- Settles O24: the first step of each of the two procedures. -/
theorem controlCommandsRun : Obligations.ControlCommandsRun := fun s h =>
  ⟨exec_running .nop s .start h, exec_running .clear s .start h⟩

/-! ## The counting pass (R91, R93) -/

theorem countBeat_of_byte {after : State → State} {s : State} {b : Byte} {rest : List Beat} (hq : s.inQ = .byte b :: rest)
    (hroom : s.total.toNat ≠ 2 ^ 32 - 1) : countBeat after s = { s with
      inQ := rest, freq := freqSet s.freq b.toNat (freqAt s.freq b.toNat + 1), total := s.total + 1
      k := some .countIn } := by
  unfold countBeat
  rw [hq]
  exact if_neg hroom

theorem countBeat_of_full {after : State → State} {s : State} {b : Byte} {rest : List Beat} (hq : s.inQ = .byte b :: rest)
    (hfull : s.total.toNat = 2 ^ 32 - 1) :
    countBeat after s = { s with inQ := rest, k := some (.raising .countOverflow (b.setWidth 32)) } := by
  unfold countBeat
  rw [hq]
  exact if_pos hfull

theorem countBeat_of_end {after : State → State} {s : State} {rest : List Beat} (hq : s.inQ = .endBeat :: rest) :
    countBeat after s = after { s with inQ := rest } := by
  unfold countBeat
  rw [hq]

theorem exec_count_beat {s : State} (h : s.standsAt .countIn) : exec .count s = .next (countBeat State.countDone s) :=
  exec_running .count s .countIn h

/-- Settles O25: the start of the procedure, and the three outcomes of its beat. -/
theorem countSteps : Obligations.CountSteps := by
  refine fun s b rest => ⟨fun h => exec_running .count s .start h, fun h hq hroom => ?_, fun h hq hfull => ?_,
    fun h hq => ?_⟩
  · rw [exec_count_beat h, countBeat_of_byte hq hroom]
  · rw [exec_count_beat h, countBeat_of_full hq hfull]
  · rw [exec_count_beat h, countBeat_of_end hq]; rfl

/-! ## LOAD_FREQ (R95) -/

theorem exec_loadFreq {s : State} (idx : BitVec 10) (h : s.standsAt .start) : exec (.loadFreq idx) s = .next
    (if 2 ^ 32 - 1 < loadedTotal idx s then { s with k := some (.raising .countOverflow (idx.setWidth 32)) }
     else { s with
      freq := freqSet s.freq idx.toNat s.data, total := BitVec.ofNat 32 (loadedTotal idx s), k := some .finishing }) :=
  exec_running (.loadFreq idx) s .start h

/-- Settles O27: the two outcomes of LOAD_FREQ's one step. -/
theorem loadFreqRuns : Obligations.LoadFreqRuns := by
  refine fun s idx h _ _ => ⟨fun hfits => ?_, fun hover => ?_⟩
  · exact (exec_loadFreq idx h).trans (congrArg _ (if_neg (Nat.not_lt.2 hfits)))
  · exact (exec_loadFreq idx h).trans (congrArg _ (if_pos hover))

/-! ## A whole COUNT (R94) -/

/-- The step that takes a command's word into an idle core: the event is the write, and the command is accepted (R83). -/
theorem step_accept {s : State} {w : Word} {i : Instr} {rest : List Event} (hidle : s.busy = false)
    (ha : s.agenda = .regWrite 0x08 w :: rest) (hw : decode w = .ok i) (hr : inRange i = true)
    (hp : prerequisite i s = true) :
    step s = .next ((atStart i { s with agenda := rest }).started w (firstPhase i)) := by
  rw [step_of_event ha]
  refine (cmdWrite_of_idle (s := { s with agenda := rest }) hidle hw).trans ?_
  rw [exec_of_accepted (s := { s with agenda := rest }) hidle hr (by cases i <;> exact hp), encodeDecoded w i hw]

theorem run_two {s t u : State} (h : step s = .next t) (h' : step t = .next u) (n : Nat) :
    core.run (n + 2) s = core.run n u := by
  rw [run_succ h, run_succ h']

/-- The whole pass: the bytes, and `End` (R91). -/
theorem run_countPass_end {i : Instr} {after : State → State} (hp : ∀ s, procOf i .countIn s = .next (countBeat after s))
    (bytes : List Byte) {s : State} {rest : List Beat} (h : s.running i .countIn)
    (hq : s.inQ = byteBeats bytes ++ .endBeat :: rest) (hlen : s.total.toNat + bytes.length < 2 ^ 32) :
    core.run (bytes.length + 1) s = .next (after { s with
      inQ := rest, freq := tally bytes s.freq, total := s.total + BitVec.ofNat 32 bytes.length }) := by
  refine run_snoc (run_countPass hp bytes s (.endBeat :: rest) h hq hlen) ?_
  have hstep := step_running (s := { s with
    inQ := .endBeat :: rest, freq := tally bytes s.freq, total := s.total + BitVec.ofNat 32 bytes.length }) h
  rw [hstep, hp, countBeat_of_end rfl]

/-- The last step of a command that ends well (R84). -/
theorem step_finish {s : State} {i : Instr} (h : s.running i .finishing) : step s = .next s.finish :=
  (step_running h).trans (procOf_finishing i s)

/-- Settles O26: dispatch and the start, the pass over the bytes and `End`, and `finish()`. -/
theorem countTallies : Obligations.CountTallies := by
  intro s bytes rest hidle hlen ha hq
  have hw : decode 0x02000000#32 = .ok .count := by decide
  have hdispatch := step_accept hidle ha hw rfl rfl
  have hstart := step_running (s := State.started 0x02000000#32 .count (atStart .count { s with agenda := [] }))
    (i := .count) (p := .start) ⟨rfl, rfl, hw, rfl⟩
  have hpass := run_countPass_end (i := .count) (after := State.countDone) (fun _ => rfl) bytes
    (s := (State.started 0x02000000#32 .count (atStart .count { s with agenda := [] })).clearCounts.suspend .countIn)
    ⟨rfl, rfl, hw, rfl⟩ hq (by simpa using hlen)
  have htotal : (0 : Word) + BitVec.ofNat 32 bytes.length = BitVec.ofNat 32 bytes.length := BitVec.zero_add _
  have hresult : (BitVec.ofNat 32 bytes.length).setWidth 64 = BitVec.ofNat 64 bytes.length :=
    BitVec.eq_of_toNat_eq (by simp; omega)
  refine ⟨tally bytes freqZero, ?run, fun b => freqAt_tally_zero bytes b hlen⟩
  rw [← hresult, ← htotal, show bytes.length + 4 = bytes.length + 1 + 1 + 2 from rfl, run_two hdispatch hstart,
    run_add _ 1 hpass]
  refine (run_one (step_finish (i := .count) ⟨rfl, rfl, hw, rfl⟩)).trans ?_
  cases s
  cases hidle
  rfl

end Sys2Proof.Machine
end

section
/-! PROOFS. The node indices of a built tree (42_tree_builder.md rules R97 and R101). -/

namespace Sys2Proof.Machine

/-- An entry after nodes are written is one of those written there, or the entry that was there. -/
theorem nodeAt_writeNodes_cases (ws : List (NodeIdx × Node)) (v : Vector Node 513) (i : NodeIdx) :
    (i, nodeAt (writeNodes ws v) i) ∈ ws ∨ nodeAt (writeNodes ws v) i = nodeAt v i := by
  induction ws generalizing v with
  | nil => exact .inr rfl
  | cons e ws ih =>
    have hcons : writeNodes (e :: ws) v = writeNodes ws (nodeSet v e.1 e.2) := rfl
    rw [hcons]
    obtain h | h := ih (nodeSet v e.1 e.2)
    · exact .inl (List.mem_cons_of_mem _ h)
    rw [h]
    by_cases hi : i = e.1
    · by_cases hlt : i.toNat < 513
      · refine .inl (List.mem_cons.2 (.inl ?_))
        rw [hi, nodeAt_nodeSet_self _ _ _ (hi ▸ hlt)]
      · refine .inr ?_
        unfold nodeAt
        rw [Vector.getElem?_eq_none (Nat.not_lt.1 hlt), Vector.getElem?_eq_none (Nat.not_lt.1 hlt)]
    · exact .inr (nodeAt_nodeSet_ne _ _ _ _ hi)

/-- The merge loop numbers its nodes upward from `next`, each after its children (R101). -/
theorem mergeLoop_writes_numbered (fuel : Nat) (heap : List HeapEntry) (next : NodeIdx)
    (hnext : next.toNat + fuel < 1024) (hids : ∀ e ∈ heap, e.id.toNat < next.toNat) :
    ∀ w ∈ (mergeLoop fuel heap next).1, next.toNat ≤ w.1.toNat ∧ w.1.toNat < next.toNat + fuel ∧ w.2.leaf = false ∧
      w.2.left.toNat < w.1.toNat ∧ w.2.right.toNat < w.1.toNat := by
  induction fuel generalizing heap next with
  | zero => cases heap <;> exact fun w hw => nomatch hw
  | succ fuel ih =>
    match heap with
    | [] | [_] => exact fun w hw => nomatch hw
    | a :: b :: rest =>
      have hsucc : (next + 1).toNat = next.toNat + 1 := by
        rw [BitVec.toNat_add, show (1 : NodeIdx).toNat = 1 from rfl]; omega
      have hbelow : ∀ e ∈ heapInsert ⟨a.weight + b.weight, next⟩ rest, e.id.toNat < (next + 1).toNat := by
        intro e he
        rw [hsucc]
        obtain rfl | he := List.mem_cons.1 ((heapInsert_perm _ rest).mem_iff.1 he)
        · exact Nat.lt_succ_self _
        · exact Nat.lt_succ_of_lt (hids e (by simp [he]))
      rw [mergeLoop_succ]
      intro w hw
      obtain rfl | hw := List.mem_cons.1 hw
      · exact ⟨Nat.le_refl _, Nat.lt_add_of_pos_right (Nat.succ_pos fuel), rfl, hids a (by simp), hids b (by simp)⟩
      · obtain ⟨hlo, hhi, hnode⟩ := ih _ _ (by omega) hbelow w hw
        rw [hsucc] at hlo hhi
        exact ⟨by omega, by omega, hnode⟩

/-- A valid entry of a built tree is one that `BuildTree()` wrote: a leaf at its own symbol, or a merge numbered by the
loop. -/
theorem built_node_numbered (freq : Vector Word 256) (v : Vector Node 513) (i : NodeIdx)
    (hvalid : (nodeAt (writeNodes (treePlan freq).1 (nodesInvalid v)) i).valid = true) :
    ((nodeAt (writeNodes (treePlan freq).1 (nodesInvalid v)) i).leaf = true →
      i.toNat ≤ 256 ∧ (nodeAt (writeNodes (treePlan freq).1 (nodesInvalid v)) i).symbol.toNat = i.toNat) ∧
    ((nodeAt (writeNodes (treePlan freq).1 (nodesInvalid v)) i).leaf = false →
      257 ≤ i.toNat ∧ i.toNat ≤ (treePlan freq).2.toNat ∧
      (nodeAt (writeNodes (treePlan freq).1 (nodesInvalid v)) i).left.toNat < i.toNat ∧
      (nodeAt (writeNodes (treePlan freq).1 (nodesInvalid v)) i).right.toNat < i.toNat) := by
  have hlen := leafEntries_length freq
  have h257 : (257 : NodeIdx).toNat = 257 := rfl
  have hroot : (treePlan freq).2.toNat = 255 + (leafEntries freq).length := by
    rw [treePlan_root, BitVec.toNat_ofNat]; omega
  obtain hw | hkept := nodeAt_writeNodes_cases (treePlan freq).1 (nodesInvalid v) i
  · generalize nodeAt (writeNodes (treePlan freq).1 (nodesInvalid v)) i = n at hw
    rw [treePlan_writes, List.mem_append] at hw
    obtain hw | hw := hw
    · obtain ⟨e, he, heq⟩ := List.mem_map.1 hw
      obtain ⟨rfl, rfl⟩ := Prod.mk.inj heq
      have hle := leafEntries_id_le freq e he
      refine ⟨fun _ => ⟨hle, ?_⟩, nofun⟩
      show (e.id.setWidth 9).toNat = _
      rw [BitVec.toNat_setWidth]; omega
    · have hbelow : ∀ e ∈ leafHeap freq, e.id.toNat < (257 : NodeIdx).toNat := fun e he => by
        have := leafEntries_id_le freq e ((leafHeap_perm freq).mem_iff.1 he)
        omega
      obtain ⟨hlo, hhi, hleaf, hleft, hright⟩ := mergeLoop_writes_numbered _ _ 257 (by omega) hbelow _ hw
      refine ⟨fun h => absurd (h.symm.trans hleaf) (by decide), fun _ => ⟨hlo, ?_, hleft, hright⟩⟩
      simp only at hhi
      omega
  · rw [hkept, nodeAt_nodesInvalid] at hvalid
    cases hvalid

/-- Settles O32: the valid entries are those of `built_node_numbered`, at any place. -/
theorem builtTreeNumbering : Obligations.BuiltTreeNumbering := by
  intro s hstart
  exact ⟨_, exec_buildTree hstart, fun i hvalid => built_node_numbered s.freq s.node i hvalid⟩

end Sys2Proof.Machine
end

section
/-! PROOFS. The compressor step by step: ESTIMATE and its bounds, ENCODE, and COMPRESS (45_compressor.md). -/

namespace Sys2Proof.Machine

/-! ## ESTIMATE (R122 to R124) -/

theorem exec_estimate {s : State} (force : Bool) (h : s.standsAt .start) :
    exec (.estimate force) s = .next ((s.estimate force).suspend .finishing) :=
  exec_running (.estimate force) s .start h

/-- Settles O39: the sizes are those of `Estimate(F)`, with `L` counted symbol by symbol. -/
theorem estimateRuns : Obligations.EstimateRuns := by
  intro s force hstart L hs comp
  have hcount : codeCount s.code = L := codeCount_eq s.code
  have hheader : headerSize s.code = hs := congrArg (fun n => 31 + 11 * n) hcount
  have hcomp : compressedSize s = comp :=
    (congrArg (· + bodySize s.code s.freq) hheader).trans (Nat.add_assoc _ _ _).symm
  rw [exec_estimate force hstart, ← hheader, ← hcomp, Bool.and_comm]
  rfl

/-- A body is at most 511 bits for each byte and for `PSEUDO_EOF`, as `len` has nine bits. -/
theorem bodySize_le (code : Vector CodeEntry 257) (freq : Vector Word 256) :
    bodySize code freq ≤ 511 * freqSum freq + 511 := by
  have hlen : ∀ b, (codeAt code b).len.toNat ≤ 511 := fun b => Nat.le_of_lt_succ (codeAt code b).len.isLt
  have hsum : ((List.range 256).map (fun b => (codeAt code b).len.toNat * (freqAt freq b).toNat)).sum ≤
      511 * freqSum freq := by
    rw [freqSum_eq_sum_range, ← List.sum_map_mul_left]
    exact List.sum_le_sum fun b _ => Nat.mul_le_mul_right _ (hlen b)
  exact Nat.add_le_add hsum (hlen 256)

/-- `headerSize()` is the length of the header of the built tree whose codes are in `CODE` (R117, R122). -/
theorem headerSize_of_table {freq : Vector Word 256} {t : HTree} (hp : t.leaves.Perm (leafSymbols freq)) :
    headerSize (writeCodes t.codes codesAbsent) = 32 + t.size + 9 * t.leaves.length := by
  rw [headerLength_of_leaves]
  exact congrArg (fun n => 31 + 11 * n) (codeCount_writeCodes t (builtTree_leaves_nodup hp)
    fun sym h => Nat.lt_succ_of_le (builtTree_leaves_le hp sym h))

/-- Settles O40: `CODE` is the table of the built tree, which has at most 257 leaves, and the counts add up to `TOTAL`. -/
theorem estimateIsExact : Obligations.EstimateIsExact := by
  intro s hinv hv
  obtain ⟨t, htree, hperm, hcode⟩ := hinv.table_of_built_tree hv
  have hleaves := treePlan_leaves_length s.freq t hperm
  have hcount := leafEntries_length s.freq
  have htotal := s.total.isLt
  have hbody := bodySize_le s.code s.freq
  have hheader : headerSize s.code = 32 + t.size + 9 * t.leaves.length := by
    rw [hcode]; exact headerSize_of_table hperm
  rw [← hinv.total_eq_sum] at hbody
  refine ⟨by omega, ?header, ?sum, t, htree, hheader.trans (headerBits_length t).symm⟩
  case header => rw [hheader, headerLength_of_leaves]; omega
  case sum =>
    rw [headerLength_of_leaves] at hheader
    show headerSize s.code + bodySize s.code s.freq < 2 ^ 41
    omega

/-! ## The encode pass, for both commands that have it (R125, R127) -/

/-- The bits pushed by a step of the encode pass, as the obligations word it. -/
theorem pushBits_step (s : State) (rest : List Beat) (p : Point) (path : List Bool) :
    ∃ (bytes : List Byte) (acc : BitVec 8) (n : Fin 8) (t : State),
      (State.pushBits { s with inQ := rest } path).suspend p = t ∧
      t = { s with inQ := rest, outQ := s.outQ ++ byteBeats bytes, pkAcc := acc, pkN := n, k := some p } ∧
      streamBits bytes ++ t.pending = s.pending ++ path := by
  obtain ⟨bytes, acc, n, hpush, hstream⟩ := pushBits_spec { s with inQ := rest } path
  exact ⟨bytes, acc, n, _, rfl, by rw [hpush]; rfl, by rw [hpush]; exact hstream.symm⟩

theorem encodeBeat_of_byte {h nb : Nat} {s : State} {b : Byte} {rest : List Beat} (hq : s.inQ = .byte b :: rest)
    (hv : (codeAt s.code b.toNat).valid = true) :
    encodeBeat h nb s = (State.pushBits { s with inQ := rest } (codeAt s.code b.toNat).path).suspend
      (.encodeIn h (nb + (codeAt s.code b.toNat).len.toNat)) := by
  simp only [encodeBeat, hq, hv, if_true]

theorem encodeBeat_of_no_code {h nb : Nat} {s : State} {b : Byte} {rest : List Beat} (hq : s.inQ = .byte b :: rest)
    (hv : (codeAt s.code b.toNat).valid = false) :
    encodeBeat h nb s = { s with inQ := rest, k := some (.raising .invariant (b.setWidth 32)) } := by
  simp only [encodeBeat, hq, hv, Bool.false_eq_true, if_false]
  rfl

theorem encodeBeat_of_end {h nb : Nat} {s : State} {rest : List Beat} (hq : s.inQ = .endBeat :: rest) :
    encodeBeat h nb s = (State.pushBits { s with inQ := rest } (codeAt s.code 256).path).suspend
      (.flushPhase h (nb + (codeAt s.code 256).len.toNat)) := by
  simp only [encodeBeat, hq]
  rfl

theorem flushBody_spec (h e : Nat) (s : State) :
    ∃ bytes : List Byte, s.flushBody h e = { s with
        phase := .flush, outQ := s.outQ ++ byteBeats bytes ++ [.endBeat], pkAcc := 0, pkN := 0
        result := BitVec.ofNat 64 (h + e), k := some .finishing } ∧
      streamBits bytes = s.pending ++ padBits s.pkN.val := by
  obtain ⟨bytes, hflush, hstream⟩ := flushPacker_spec { s with phase := .flush }
  refine ⟨bytes, ?_, (padBits_of_lt s.pkN.isLt).symm ▸ hstream⟩
  rw [State.flushBody, hflush]
  rfl

section EncodePass
variable {i : Instr} {s : State} {h nb : Nat} {b : Byte} {rest : List Beat}
  (hin : ∀ h nb s, procOf i (.encodeIn h nb) s = .next (encodeBeat h nb s)) (hs : s.standsAt (.encodeIn h nb))
include hin hs

/-- A byte with a code. -/
theorem exec_encode_byte (hq : s.inQ = .byte b :: rest) (hv : (codeAt s.code b.toNat).valid = true) :
    ∃ (bytes : List Byte) (acc : BitVec 8) (n : Fin 8) (t : State), exec i s = .next t ∧
      t = { s with
        inQ := rest, outQ := s.outQ ++ byteBeats bytes, pkAcc := acc, pkN := n
        k := some (.encodeIn h (nb + (codeAt s.code b.toNat).len.toNat)) } ∧
      streamBits bytes ++ t.pending = s.pending ++ (codeAt s.code b.toNat).path := by
  rw [exec_running i s _ hs, hin, encodeBeat_of_byte hq hv]
  obtain ⟨bytes, acc, n, t, ht, hspec⟩ := pushBits_step s rest _ (codeAt s.code b.toNat).path
  exact ⟨bytes, acc, n, t, congrArg _ ht, hspec⟩

/-- A byte with no code. -/
theorem exec_encode_no_code (hq : s.inQ = .byte b :: rest) (hv : (codeAt s.code b.toNat).valid = false) :
    exec i s = .next { s with inQ := rest, k := some (.raising .invariant (b.setWidth 32)) } := by
  rw [exec_running i s _ hs, hin, encodeBeat_of_no_code hq hv]

/-- `End`. -/
theorem exec_encode_end (hq : s.inQ = .endBeat :: rest) :
    ∃ (bytes : List Byte) (acc : BitVec 8) (n : Fin 8) (t : State), exec i s = .next t ∧
      t = { s with
        inQ := rest, outQ := s.outQ ++ byteBeats bytes, pkAcc := acc, pkN := n
        k := some (.flushPhase h (nb + (codeAt s.code 256).len.toNat)) } ∧
      streamBits bytes ++ t.pending = s.pending ++ (codeAt s.code 256).path := by
  rw [exec_running i s _ hs, hin, encodeBeat_of_end hq]
  obtain ⟨bytes, acc, n, t, ht, hspec⟩ := pushBits_step s rest _ (codeAt s.code 256).path
  exact ⟨bytes, acc, n, t, congrArg _ ht, hspec⟩

end EncodePass

/-- The flush of the body. -/
theorem exec_flushBody {i : Instr} (hflush : ∀ h e s, procOf i (.flushPhase h e) s = .next (s.flushBody h e)) {s : State}
    {h e : Nat} (hs : s.standsAt (.flushPhase h e)) :
    ∃ bytes : List Byte, exec i s = .next { s with
        phase := .flush, outQ := s.outQ ++ byteBeats bytes ++ [.endBeat], pkAcc := 0, pkN := 0
        result := BitVec.ofNat 64 (h + e), k := some .finishing } ∧
      streamBits bytes = s.pending ++ padBits s.pkN.val := by
  obtain ⟨bytes, hbody, hstream⟩ := flushBody_spec h e s
  exact ⟨bytes, by rw [exec_running i s _ hs, hflush, hbody], hstream⟩

/-- Settles O41: the steps of the encode pass and its flush, from the start of ENCODE. -/
theorem encodeSteps : Obligations.EncodeSteps := fun s _ _ _ _ _ =>
  ⟨fun hs => exec_running .encode s .start hs, exec_encode_byte fun _ _ _ => rfl, exec_encode_no_code fun _ _ _ => rfl,
    exec_encode_end fun _ _ _ => rfl, exec_flushBody fun _ _ _ => rfl⟩

/-! ## COMPRESS (R128) -/

theorem exec_compress_count {force : Bool} {s : State} (hs : s.standsAt .countIn) :
    exec (.compress force) s = .next (countBeat State.passDone s) :=
  exec_running (.compress force) s .countIn hs

/-- `MakeTable()` in COMPRESS, on a tree in `NODE`. -/
theorem compressCodes_tree {s : State} {t : HTree} (ht : s.holdsTree t = true) :
    s.compressCodes = .next { s with
      phase := .codes, code := writeCodes t.codes codesAbsent, stack := [], codesValid := true
      k := some .estimatePhase } := by
  simp only [State.compressCodes, makeTable_tree { s with phase := .codes } t ht]
  rfl

/-- Settles O43: pass 1 is that of COUNT, the build is that of BUILD_TREE, and the codes are those of GEN_CODES. -/
theorem compressFirstSteps : Obligations.CompressFirstSteps := by
  intro s force b rest tree
  refine ⟨exec_running (.compress force) s .start, fun hs hq hroom => ?byte, fun hs hq hfull => ?full, fun hs hq => ?pass,
    fun hs => ?build, fun hs ht => ?codes⟩
  case byte => rw [exec_compress_count hs, countBeat_of_byte hq hroom]
  case full => rw [exec_compress_count hs, countBeat_of_full hq hfull]
  case pass =>
    rw [exec_compress_count hs, countBeat_of_end hq]
    rfl
  case build =>
    obtain ⟨pairs, merges, root, hbuild, hpairs⟩ :=
      buildFollowsMergeRule { s with phase := .build, busy := true, k := some .start } ⟨rfl, rfl⟩
    have hbuilt := Host.Outcome.next.inj ((exec_buildTree ⟨rfl, rfl⟩).symm.trans hbuild)
    exact ⟨pairs, merges, root, (exec_running (.compress force) s .buildPhase hs).trans
      (congrArg (fun t : State => (.next { t with busy := s.busy, k := some .codesPhase } : Result)) hbuilt), hpairs⟩
  case codes => rw [exec_running (.compress force) s .codesPhase hs]; exact compressCodes_tree ht

/-- The size gate, by its value. -/
theorem compressEstimate_gate {s : State} {force gate : Bool}
    (hgate : gateOf force (8 * s.total.toNat) (compressedSize s) = gate) :
    s.compressEstimate force =
      let estimated : State := { s with
        phase := .estimate, hdrBits := wordOf (headerSize s.code), estOrig := BitVec.ofNat 64 (8 * s.total.toNat)
        estComp := BitVec.ofNat 64 (compressedSize s), estValid := true, gated := gate }
      if gate then { estimated with result := BitVec.ofNat 64 (compressedSize s), k := some .finishing }
      else { estimated with k := some .headerPhase } := by
  subst hgate
  rfl

/-- Settles O44: the two values of the gate. -/
theorem compressGate : Obligations.CompressGate := by
  intro s force hs
  refine ⟨fun hforce hsize => ?gated, fun hopen => ?ungated⟩
  case gated =>
    have hgate : gateOf force (8 * s.total.toNat) (compressedSize s) = true := by simp [gateOf, hforce, hsize]
    exact (exec_running _ s _ hs).trans (congrArg _ (compressEstimate_gate hgate))
  case ungated =>
    have hgate : gateOf force (8 * s.total.toNat) (compressedSize s) = false := by
      obtain hforce | hsize := hopen
      · simp [gateOf, hforce]
      · simp [gateOf, Nat.not_le.2 hsize]
    exact (exec_running _ s _ hs).trans (congrArg _ (compressEstimate_gate hgate))

/-- The header in COMPRESS, on a tree in `NODE`. -/
theorem compressHeader_tree {s : State} {t : HTree} (ht : s.holdsTree t = true) :
    s.compressHeader = .next { State.pushBits { s with phase := .hdrWrite } (msbBits 32 Config.magic.toNat ++ t.bits) with
      stack := [], hdrBits := BitVec.ofNat 32 (32 + t.size + 9 * t.leaves.length)
      k := some (.encodePhase (32 + t.size + 9 * t.leaves.length)) } := by
  simp only [State.compressHeader, writeHeader_tree { s with phase := .hdrWrite } t ht]
  rfl

/-- Settles O45: the header is that of WRITE_HEADER, and pass 2 and the flush are those of ENCODE. -/
theorem compressLastSteps : Obligations.CompressLastSteps := by
  intro s force b rest tree h nb e
  refine ⟨fun hs ht => ?header, exec_running (.compress force) s (.encodePhase h), exec_encode_byte fun _ _ _ => rfl,
    exec_encode_no_code fun _ _ _ => rfl, exec_encode_end fun _ _ _ => rfl, exec_flushBody fun _ _ _ => rfl⟩
  obtain ⟨bytes, acc, n, hpush, hstream⟩ :=
    pushBits_spec { s with phase := .hdrWrite } (msbBits 32 Config.magic.toNat ++ tree.bits)
  refine ⟨bytes, acc, n, _, (exec_running (.compress force) s .headerPhase hs).trans (compressHeader_tree ht), ?state, ?stream⟩
  case state => rw [hpush]
  case stream =>
    rw [hpush, List.append_assoc]
    exact hstream.symm

end Sys2Proof.Machine
end

section
/-! PROOFS. Whole runs of ENCODE and COMPRESS, from the write of the command's word (30_encoding.md rule R76, 45_compressor.md
rules R125, R127 and R128). -/

namespace Sys2Proof.Machine

/-! ## A whole ENCODE (R127) -/

/-- Settles O42: dispatch, the start, the encode pass with its flush, and `finish()`. -/
theorem encodeWritesBody : Obligations.EncodeWritesBody := by
  intro s bytes rest hidle hcodes ha hq hv
  have hw : decode 0x0B000000#32 = .ok .encode := by decide
  have hdispatch := step_accept hidle ha hw rfl hcodes
  have hstart := step_running (s := State.started 0x0B000000#32 .encode (atStart .encode { s with agenda := [] }))
    (i := .encode) (p := .start) ⟨rfl, rfl, hw, rfl⟩
  obtain ⟨out, hrun, hstream⟩ := run_encodeFlush (i := .encode) (fun _ _ _ => rfl) (fun _ _ _ => rfl) bytes
    ((State.started 0x0B000000#32 .encode (atStart .encode { s with agenda := [] })).suspend (.encodeIn 0 0)) 0 rest
    ⟨rfl, rfl, hw, rfl⟩ hq hv
  refine ⟨out, ?run, hstream⟩
  rw [Nat.zero_add] at hrun
  rw [show bytes.length + 5 = bytes.length + 2 + 1 + 2 from rfl, run_two hdispatch hstart, run_add _ 1 hrun]
  refine (run_one (step_finish (i := .encode) ⟨rfl, rfl, hw, rfl⟩)).trans ?_
  cases s
  cases hidle
  rfl

/-! ## COMPRESS up to its codes (R128) -/

/-- COMPRESS just before `PHASE <- BUILD`: the bytes of pass 1 are counted. -/
def State.counted (force : Bool) (bytes : List Byte) (rest : List Beat) (s : State) : State :=
  { s with
    agenda := [], inQ := rest, freq := tally bytes freqZero, total := BitVec.ofNat 32 bytes.length, result := 0
    curCmd := encode (.compress force), phase := .count, k := some .buildPhase, busy := true
    treeValid := false, treeDecoded := false, codesValid := false, estValid := false, gated := false
    done := false, err := false, error := .none, errInfo := 0, pkAcc := 0, pkN := 0 }

/-- Whether a tree is held depends on `NODE` and `ROOT` alone. -/
theorem holdsTree_congr {s t : State} (hnode : s.node = t.node) (hroot : s.root = t.root) (tree : HTree) :
    s.holdsTree tree = t.holdsTree tree := by
  unfold State.holdsTree
  rw [hnode, hroot]

theorem compressBuild_holdsBuiltTree (s : State) : s.compressBuild.holdsBuiltTree := ⟨s.node, rfl, rfl⟩

/-- COMPRESS just before `PHASE <- ESTIMATE`: the tree is built, and `CODE` is its table. -/
def State.coded (tree : HTree) (s : State) : State :=
  { s.compressBuild with
    phase := .codes, code := writeCodes tree.codes codesAbsent, stack := [], codesValid := true
    k := some .estimatePhase }

/-- The build and the codes. -/
theorem run_buildCodes {s : State} {force : Bool} (h : s.running (.compress force) .buildPhase) {tree : HTree}
    (htree : s.compressBuild.holdsTree tree = true) : core.run 2 s = .next (s.coded tree) := by
  have hbuilt : s.compressBuild.running (.compress force) .codesPhase := by
    obtain ⟨ha, hb, hi, -⟩ := h
    exact ⟨ha, hb, hi, rfl⟩
  exact run_two (step_running h) ((step_running hbuilt).trans (compressCodes_tree htree)) 0

/-- Dispatch, the start and pass 1. -/
theorem run_counted {s : State} {bytes : List Byte} {force : Bool} {rest : List Beat} (hidle : s.busy = false)
    (hlen : bytes.length < 2 ^ 32) (ha : s.agenda = [.regWrite 0x08 (encode (.compress force))])
    (hq : s.inQ = byteBeats bytes ++ .endBeat :: rest) :
    core.run (bytes.length + 3) s = .next (s.counted force bytes rest) := by
  have hw : decode (encode (.compress force)) = .ok (.compress force) := decodeEncode _
  have hdispatch := step_accept hidle ha hw rfl rfl
  let started := State.started (encode (.compress force)) .count (atStart (.compress force) { s with agenda := [] })
  have hstart := step_running (s := started) (i := .compress force) (p := .start) ⟨rfl, rfl, hw, rfl⟩
  have hpass := run_countPass_end (i := .compress force) (after := State.passDone) (fun _ => rfl) bytes
    (s := started.clearPacker.clearCounts.suspend .countIn) ⟨rfl, rfl, hw, rfl⟩ hq (by simpa using hlen)
  have htotal : (0 : Word) + BitVec.ofNat 32 bytes.length = BitVec.ofNat 32 bytes.length := BitVec.zero_add _
  unfold State.counted
  rw [← htotal, show bytes.length + 3 = bytes.length + 1 + 2 from rfl, run_two hdispatch hstart]
  exact hpass

/-! ## The sizes of a stream (R123) -/

theorem bodyBits_length_le (code : Vector CodeEntry 257) (bytes : List Byte) :
    (bodyBits code bytes).length ≤ 511 * (bytes.length + 1) := by
  have hlen : ∀ c : CodeEntry, c.path.length ≤ 511 := fun c => by
    rw [CodeEntry.path_length]; exact Nat.le_of_lt_succ c.len.isLt
  induction bytes with
  | nil => exact hlen _
  | cons b bytes ih =>
    have := hlen (codeAt code b.toNat)
    have hcons : bodyBits code (b :: bytes) = (codeAt code b.toNat).path ++ bodyBits code bytes := by
      simp only [bodyBits, List.flatMap_cons, List.append_assoc]
    rw [hcons, List.length_append, List.length_cons]
    omega

theorem packedBits_length (tree : HTree) (code : Vector CodeEntry 257) (bytes : List Byte) :
    (packedBits tree code bytes).length = 32 + tree.size + 9 * tree.leaves.length + (bodyBits code bytes).length := by
  rw [packedBits, List.length_append, headerBits_length]

/-- The estimate is the length of the stream, when `FREQ` counts its bytes (R123). -/
theorem compressedSize_eq_length {s : State} {tree : HTree} {bytes : List Byte} (hperm : tree.leaves.Perm (leafSymbols s.freq))
    (hcode : s.code = writeCodes tree.codes codesAbsent) (hcount : ∀ b : Byte, (freqAt s.freq b.toNat).toNat = bytes.count b) :
    compressedSize s = (packedBits tree s.code bytes).length := by
  rw [packedBits_length, ← headerSize_of_table hperm, ← bodySize_eq s.code s.freq bytes hcount, ← hcode]
  rfl

theorem packedBits_length_lt {freq : Vector Word 256} {tree : HTree} (hperm : tree.leaves.Perm (leafSymbols freq))
    (code : Vector CodeEntry 257) {bytes : List Byte} (hlen : bytes.length < 2 ^ 32) :
    (packedBits tree code bytes).length < 2 ^ 64 := by
  have hleaves := treePlan_leaves_length freq tree hperm
  have hcount := leafEntries_length freq
  have hbody := bodyBits_length_le code bytes
  rw [packedBits_length, headerLength_of_leaves]
  omega

/-- The bits that complete a byte depend on the bits of the last byte alone (R76). -/
theorem padBits_streamBits_append (bytes : List Byte) (bits : List Bool) :
    padBits (streamBits bytes ++ bits).length = padBits bits.length := by
  rw [List.length_append, streamBits_length, padBits, padBits, Nat.mul_add_mod]

/-! ## COMPRESS from its codes to its end (R124, R128) -/

/-- Gated, the command ends with the estimate. -/
theorem run_gated {s : State} {force : Bool} (h : s.running (.compress force) .estimatePhase)
    (hgate : gateOf force (8 * s.total.toNat) (compressedSize s) = true) : core.run 2 s = .next { s with
      hdrBits := wordOf (headerSize s.code), estOrig := BitVec.ofNat 64 (8 * s.total.toNat)
      estComp := BitVec.ofNat 64 (compressedSize s), estValid := true, gated := true
      result := BitVec.ofNat 64 (compressedSize s), busy := false, phase := .idle, k := none, done := true } := by
  have hestimate := (step_running h).trans (congrArg Host.Outcome.next (compressEstimate_gate hgate))
  obtain ⟨ha, hb, hi, -⟩ := h
  exact run_two hestimate (step_finish (i := .compress force) ⟨ha, hb, hi, rfl⟩) 0

section Stream
variable {s : State} {force : Bool} {tree : HTree} {bytes : List Byte} {rest : List Beat} (htree : s.holdsTree tree = true)
  (hpk : s.pkN = 0) (hq : s.inQ = byteBeats bytes ++ .endBeat :: rest)
  (hv : ∀ b ∈ bytes, (codeAt s.code b.toNat).valid = true)
include htree hpk hq hv

/-- The header, the encode pass, the flush and `finish()` write the stream of R76. -/
theorem run_stream (h : s.running (.compress force) .headerPhase) :
    ∃ out, core.run (bytes.length + 5) s = .next { s with
        inQ := rest, outQ := s.outQ ++ byteBeats out ++ [.endBeat], pkAcc := 0, pkN := 0, stack := []
        hdrBits := BitVec.ofNat 32 (32 + tree.size + 9 * tree.leaves.length)
        result := BitVec.ofNat 64 (packedBits tree s.code bytes).length
        busy := false, phase := .idle, k := none, done := true } ∧
      streamBits out = packedBits tree s.code bytes ++ padBits (packedBits tree s.code bytes).length := by
  obtain ⟨ha, hb, hi, hk⟩ := h
  obtain ⟨header, acc, n, t, hheader, rfl, hstream⟩ := (compressLastSteps s force 0 [] tree 0 0 0).1 ⟨hb, hk⟩ htree
  have hwrite := (step_running ⟨ha, hb, hi, hk⟩).trans ((exec_running _ s _ ⟨hb, hk⟩).symm.trans hheader)
  have hphase := step_running (i := .compress force) (s := { s with
    phase := .hdrWrite, outQ := s.outQ ++ byteBeats header, pkAcc := acc, pkN := n, stack := []
    hdrBits := BitVec.ofNat 32 (32 + tree.size + 9 * tree.leaves.length)
    k := some (.encodePhase (32 + tree.size + 9 * tree.leaves.length)) }) ⟨ha, hb, hi, rfl⟩
  obtain ⟨body, hrun, hbody⟩ := run_encodeFlush (i := .compress force) (fun _ _ _ => rfl) (fun _ _ _ => rfl) bytes
    { s with
      phase := .encode, outQ := s.outQ ++ byteBeats header, pkAcc := acc, pkN := n, stack := []
      hdrBits := BitVec.ofNat 32 (32 + tree.size + 9 * tree.leaves.length)
      k := some (.encodeIn (32 + tree.size + 9 * tree.leaves.length) 0) }
    (32 + tree.size + 9 * tree.leaves.length) rest ⟨ha, hb, hi, rfl⟩ hq hv
  have hpending : s.pending = [] := by rw [State.pending, hpk]; rfl
  refine ⟨header ++ body, ?run, ?bits⟩
  case run =>
    rw [packedBits_length, byteBeats_append, ← List.append_assoc]
    exact (run_two hwrite hphase _).trans ((run_add _ 1 hrun).trans
      (run_one (step_finish (i := .compress force) ⟨ha, hb, hi, rfl⟩)))
  case bits =>
    have hpacked : streamBits header ++ (msbBits n.val acc.toNat ++ bodyBits s.code bytes) =
        packedBits tree s.code bytes := by
      rw [hpending] at hstream
      rw [← List.append_assoc]
      exact congrArg (· ++ bodyBits s.code bytes) hstream
    rw [streamBits_append, hbody, ← hpacked, padBits_streamBits_append, List.append_assoc (streamBits header)]
    rfl

/-- Not gated, COMPRESS goes on to the header and writes the stream. -/
theorem run_ungated (h : s.running (.compress force) .estimatePhase)
    (hgate : gateOf force (8 * s.total.toNat) (compressedSize s) = false) :
    ∃ out, core.run (bytes.length + 6) s = .next { s with
        inQ := rest, outQ := s.outQ ++ byteBeats out ++ [.endBeat], pkAcc := 0, pkN := 0, stack := []
        hdrBits := BitVec.ofNat 32 (32 + tree.size + 9 * tree.leaves.length)
        estOrig := BitVec.ofNat 64 (8 * s.total.toNat), estComp := BitVec.ofNat 64 (compressedSize s), estValid := true
        gated := false, result := BitVec.ofNat 64 (packedBits tree s.code bytes).length
        busy := false, phase := .idle, k := none, done := true } ∧
      streamBits out = packedBits tree s.code bytes ++ padBits (packedBits tree s.code bytes).length := by
  have hestimate := (step_running h).trans (congrArg Host.Outcome.next (compressEstimate_gate hgate))
  obtain ⟨ha, hb, hi, -⟩ := h
  obtain ⟨out, hrun, hstream⟩ := run_stream (force := force) (s := { s with
      phase := .estimate, hdrBits := wordOf (headerSize s.code), estOrig := BitVec.ofNat 64 (8 * s.total.toNat)
      estComp := BitVec.ofNat 64 (compressedSize s), estValid := true, gated := false, k := some .headerPhase })
    htree hpk hq hv ⟨ha, hb, hi, rfl⟩
  exact ⟨out, (run_succ hestimate _).trans hrun, hstream⟩

end Stream

/-! ## A whole COMPRESS (R128) -/

theorem gateOf_iff (force : Bool) (orig comp : Nat) : gateOf force orig comp = true ↔ force = false ∧ orig ≤ comp := by
  rw [gateOf, Bool.and_eq_true, decide_eq_true_iff, Bool.not_eq_true', and_comm]

/-- A byte that is counted has a code in the table of the built tree. -/
theorem valid_of_counted {freq : Vector Word 256} {tree : HTree} {bytes : List Byte} (hperm : tree.leaves.Perm (leafSymbols freq))
    (hcount : ∀ b : Byte, (freqAt freq b.toNat).toNat = bytes.count b) {b : Byte} (hb : b ∈ bytes) :
    (codeAt (writeCodes tree.codes codesAbsent) b.toNat).valid = true := by
  have hlt : b.toNat < 256 := b.isLt
  have hne : freqAt freq b.toNat ≠ 0 := fun h => by
    have hpos := List.count_pos_iff.2 hb
    rw [← hcount b, h] at hpos
    exact absurd hpos (by decide)
  exact (table_valid_iff (builtTree_leaves_nodup hperm) (builtTree_leaves_le hperm) hlt.le).2
    (hperm.mem_iff.2 ((ofNat_mem_leafSymbols hlt.le).2 (.inr (.inl ⟨hlt, hne⟩))))

/-- COMPRESS as far as its size gate: where it stands, and the tree that it has built. -/
theorem run_coded {s : State} {bytes : List Byte} {force : Bool} {rest : List Beat} (hidle : s.busy = false)
    (hlen : bytes.length < 2 ^ 32) (ha : s.agenda = [.regWrite 0x08 (encode (.compress force))])
    (hq : s.inQ = byteBeats bytes ++ .endBeat :: rest) :
    ∃ tree : HTree, core.run (bytes.length + 5) s = .next ((s.counted force bytes rest).coded tree) ∧
      ((s.counted force bytes rest).coded tree).holdsTree tree = true ∧
      tree.leaves.Perm (leafSymbols (tally bytes freqZero)) := by
  obtain ⟨tree, htree, hperm⟩ := holdsBuiltTree_tree _ (compressBuild_holdsBuiltTree (s.counted force bytes rest))
  refine ⟨tree, ?_, (holdsTree_congr rfl rfl tree).trans htree, hperm⟩
  rw [show bytes.length + 5 = bytes.length + 3 + 2 from rfl, run_add _ 2 (run_counted hidle hlen ha hq)]
  exact run_buildCodes (force := force) ⟨rfl, rfl, decodeEncode _, rfl⟩ htree

/-- Settles O51: COMPRESS up to its gate, and then either way on. -/
theorem compressWritesStream : Obligations.CompressWritesStream := by
  intro s bytes force rest hidle hlen ha hq
  obtain ⟨tree, hrun, htree, hperm⟩ := run_coded hidle hlen ha hq
  let u := (s.counted force bytes (byteBeats bytes ++ .endBeat :: rest)).coded tree
  have hcount : ∀ b : Byte, (freqAt u.freq b.toNat).toNat = bytes.count b := fun b => freqAt_tally_zero bytes b hlen
  have hsize : compressedSize u = (packedBits tree u.code bytes).length := compressedSize_eq_length hperm rfl hcount
  have htotal : u.total.toNat = bytes.length := by
    show (BitVec.ofNat 32 bytes.length).toNat = _
    rw [BitVec.toNat_ofNat, Nat.mod_eq_of_lt hlen]
  have hlt := packedBits_length_lt hperm u.code hlen
  have horig : (BitVec.ofNat 64 (8 * u.total.toNat)).toNat = 8 * bytes.length := by
    rw [htotal, BitVec.toNat_ofNat]; omega
  have hresult : (BitVec.ofNat 64 (packedBits tree u.code bytes).length).toNat = (packedBits tree u.code bytes).length := by
    rw [BitVec.toNat_ofNat, Nat.mod_eq_of_lt hlt]
  have hstands : u.running (.compress force) .estimatePhase := ⟨rfl, rfl, decodeEncode _, rfl⟩
  by_cases hopen : force = false ∧ 8 * bytes.length ≤ (packedBits tree u.code bytes).length
  case pos =>
    have hgate : gateOf force (8 * u.total.toNat) (compressedSize u) = true := by
      rw [htotal, hsize]; exact (gateOf_iff force _ _).2 hopen
    have hend := run_gated hstands hgate
    rw [hsize] at hend
    exact ⟨_, tree, State.reaches_run hrun ⟨2, hend⟩, rfl, rfl, rfl, rfl, rfl, htotal, hcount, htree, rfl, rfl, rfl, rfl, rfl,
      hresult, rfl, horig, fun _ => ⟨rfl, rfl, rfl⟩, fun hno => absurd hopen hno⟩
  case neg =>
    have hgate : gateOf force (8 * u.total.toNat) (compressedSize u) = false := by
      rw [htotal, hsize]; exact Bool.eq_false_iff.2 (mt (gateOf_iff force _ _).1 hopen)
    obtain ⟨out, hend, hstream⟩ := run_ungated htree rfl rfl (fun b hb => valid_of_counted hperm hcount hb) hstands hgate
    rw [hsize] at hend
    exact ⟨_, tree, State.reaches_run hrun ⟨_, hend⟩, rfl, rfl, rfl, rfl, rfl, htotal, hcount, htree, rfl, rfl, rfl, rfl, rfl,
      hresult, rfl, horig, fun hyes => absurd hyes hopen, fun _ => ⟨rfl, rfl, out, rfl, hstream⟩⟩

end Sys2Proof.Machine
end

section
/-! PROOFS. DECOMPRESS step by step: what it does at each of its points, and the checks of the header parse
(44_header_codec.md rules R113 to R118, 46_decompressor.md rules R130 and R131). -/

namespace Sys2Proof.Machine

/-! ## A beat at a point that asks for a bit (R113) -/

theorem readsBits_upEos {s : State} {p : Point} (h : s.readsBits p) : s.upEos = false := by
  cases p with
  | magicIn | tagIn | symIn => exact h.1
  | walkIn => exact h
  | _ => cases h

theorem exec_asks {s : State} {p : Point} (hs : s.standsAt p) (hp : p.asks = true) :
    exec .decompress s = .next (bitBeat p s) := (exec_running .decompress s p hs).trans (procOf_asks hp s)

theorem bitBeat_of_end {p : Point} {s : State} {rest : List Beat} (hq : s.inQ = .endBeat :: rest) :
    bitBeat p s = { s with inQ := rest, upEos := true, k := some (onEos p { s with inQ := rest, upEos := true }) } := by
  simp only [bitBeat, hq]
  rfl

theorem bitBeat_of_byte {p : Point} {s : State} {b : Byte} {rest : List Beat} (hq : s.inQ = .byte b :: rest) :
    bitBeat p s = runBits 8 p (s.atInput rest b 8 (s.upBytes + 1) s.k) := by
  simp only [bitBeat, hq]
  rfl

/-- `End` at a point that asks for a bit. -/
theorem exec_asks_end {s : State} {p : Point} {rest : List Beat} (hs : s.standsAt p) (hp : p.asks = true)
    (hq : s.inQ = .endBeat :: rest) : exec .decompress s = .next { s with
      inQ := rest, upEos := true, k := some (onEos p { s with inQ := rest, upEos := true }) } :=
  (exec_asks hs hp).trans (congrArg _ (bitBeat_of_end hq))

/-- A byte at a point that asks for a bit, by the rules of `TakesBits`. -/
theorem exec_asks_byte {s t : State} {p q : Point} {b : Byte} {rest : List Beat} {left : List Bool} (hs : s.standsAt p)
    (hr : s.readsBits p) (hq : s.inQ = .byte b :: rest) (h : TakesBits p s (byteBits b) q t left) :
    exec .decompress s = .next { t with
      inQ := rest, upBuf := b, upN := Fin.ofNat 9 left.length, upBytes := s.upBytes + 1, k := some q } := by
  rw [exec_asks hs (readsBits_asks hr), bitBeat_of_byte hq,
    runBits_takes (le_refl 8) (readsBits_upEos hr) (readsBits_asks hr) rest b 8 (s.upBytes + 1) s.k rfl h]
  rfl

/-- The walk's start, by the rules of `TakesBits` over the bits still in the unpacker. -/
theorem exec_startWalk {s t : State} {q : Point} {left : List Bool} (hs : s.standsAt .walkPhase) (he : s.upEos = false)
    (h : TakesBits (.walkIn 0 0) { s with phase := .walk } s.undelivered q t left) :
    exec .decompress s = .next { t with upN := Fin.ofNat 9 left.length, k := some q } := by
  obtain ⟨out, rfl⟩ := takesBits_walk_frame h
  exact (exec_running .decompress s _ hs).trans (congrArg _ (runBits_takes (Nat.le_of_lt_succ s.upN.isLt) (p := .walkIn 0 0)
    (s := { s with phase := .walk }) he rfl s.inQ s.upBuf s.upN s.upBytes s.k rfl h))

/-! ## The draining loop (R131) -/

theorem startDrain_of_more {s : State} {cnt : Nat} (h : s.upEos = false) :
    s.startDrain cnt = { s with phase := .drain, k := some (.drainIn cnt) } := by
  simp only [State.startDrain, h, Bool.false_eq_true, if_false]
  rfl

theorem startDrain_of_end {s : State} {cnt : Nat} (h : s.upEos = true) : s.startDrain cnt = { s with
    phase := .drain, outQ := s.outQ ++ [.endBeat], result := BitVec.ofNat 64 cnt, k := some .finishing } := by
  simp only [State.startDrain, h, if_true]
  rfl

theorem drainBeat_of_byte {s : State} {cnt : Nat} {b : Byte} {rest : List Beat} (hk : s.k = some (.drainIn cnt))
    (hq : s.inQ = .byte b :: rest) : drainBeat cnt s = { s with inQ := rest } := by
  simp only [drainBeat, hq, State.suspend, ← hk]

theorem drainBeat_of_end {s : State} {cnt : Nat} {rest : List Beat} (hq : s.inQ = .endBeat :: rest) :
    drainBeat cnt s = { s with
      inQ := rest, upEos := true, outQ := s.outQ ++ [.endBeat], result := BitVec.ofNat 64 cnt, k := some .finishing } := by
  simp only [drainBeat, hq]
  rfl

/-- Settles O46: each clause is what its point does. -/
theorem decompressSteps : Obligations.DecompressSteps := by
  intro s b rest p cur cnt asksInHeader
  have hheader : asksInHeader → p.asks = true ∧ ∀ t : State, onEos p t = .raising .hdrTrunc t.bitsHeld := fun h => by
    cases p with
    | magicIn | tagIn | symIn => exact ⟨rfl, fun _ => rfl⟩
    | _ => cases h
  refine ⟨exec_running .decompress s .start, fun hask hs hq => ?headerEnd, fun hs hq => exec_asks_end hs rfl hq,
    fun hs hr hq => ?byte, fun hinv hask hs => ?canTake, fun hs he => ?walk, fun hinv hs => hinv.parse_is_chain hs.1 _ hs.2,
    fun hs he => ?drain, fun hs he => ?drained, fun hs hq => ?drainByte, fun hs hq => ?drainEnd⟩
  case headerEnd =>
    obtain ⟨hp, heos⟩ := hheader hask
    rw [exec_asks_end hs hp hq, heos]
    rfl
  case byte =>
    obtain ⟨q, t, left, htakes⟩ := takesBits_exists (byteBits b) p s hr
    exact ⟨q, t, left, htakes, exec_asks_byte hs hr hq htakes, fun hwalk => takesBits_walk_frame (hwalk ▸ htakes)⟩
  case canTake =>
    refine hinv.readsBits hs ?_
    obtain hask | rfl := hask
    · exact (hheader hask).1
    · rfl
  case walk =>
    obtain ⟨q, t, left, htakes⟩ := takesBits_exists s.undelivered (.walkIn 0 0) { s with phase := .walk } he
    exact ⟨q, t, left, htakes, exec_startWalk hs he htakes, takesBits_walk_frame htakes⟩
  case drain => exact (exec_running _ s _ hs).trans (congrArg _ (startDrain_of_more he))
  case drained => exact (exec_running _ s _ hs).trans (congrArg _ (startDrain_of_end he))
  case drainByte => exact (exec_running _ s _ hs).trans (congrArg _ (drainBeat_of_byte hs.2 hq))
  case drainEnd => exact (exec_running _ s _ hs).trans (congrArg _ (drainBeat_of_end hq))

/-! ## The checks of the header parse (R118) -/

/-- A byte within which the bit loop stops. -/
theorem exec_byte_stops {s s' : State} {p p' : Point} {b : Byte} {rest : List Beat} {left : List Bool} (hs : s.standsAt p)
    (hp : p.asks = true) (hq : s.inQ = .byte b :: rest) (h : feed (byteBits b) p s = (.stops p' s', left)) :
    exec .decompress s = .next { s' with
      inQ := rest, upBuf := b, upN := Fin.ofNat 9 left.length, upBytes := s.upBytes + 1, k := some p' } := by
  obtain ⟨m, -, hstops⟩ := runBits_feed 8 (le_refl 8) p s rest b 8 (s.upBytes + 1) s.k rfl
  obtain ⟨hleft, hrun⟩ := hstops p' s' left h
  have hm : Fin.ofNat 9 left.length = m := by
    rw [← hleft, msbBits_length]
    exact Fin.ext (Nat.mod_eq_of_lt m.isLt)
  rw [exec_asks hs hp, bitBeat_of_byte hq, hrun, hm]
  rfl

theorem byteBits_split (b : Byte) {j : Nat} (hj : j < 8) :
    byteBits b = (byteBits b).take j ++ b.getLsbD (7 - j) :: (byteBits b).drop (j + 1) := by
  have hlen : j < (byteBits b).length := by rw [byteBits_length]; exact hj
  have hbit : (byteBits b)[j] = b.getLsbD (7 - j) := by
    simp only [byteBits, msbBits, List.getElem_map, List.getElem_range]
    rfl
  rw [← hbit, ← List.drop_eq_getElem_cons hlen, List.take_append_drop]

/-- The bits before bit j of a byte are taken, and bit j stops the parse. -/
theorem exec_bit_stops {s t : State} {p q p' : Point} {b : Byte} {rest : List Beat} {j : Nat} (hs : s.standsAt p)
    (hr : s.readsBits p) (hq : s.inQ = .byte b :: rest) (hj : j < 8) (h : TakesBits p s ((byteBits b).take j) q t [])
    (hask : q.asks = true) (hstop : onBit q (b.getLsbD (7 - j)) t = .stops p' t) :
    exec .decompress s = .next { t with
      inQ := rest, upBuf := b, upN := Fin.ofNat 9 (7 - j), upBytes := s.upBytes + 1, k := some p' } := by
  have htaken := takesBits_feed h (readsBits_asks hr)
  rw [BitStep.standing, if_pos hask] at htaken
  have hfeed : feed (byteBits b) p s = (.stops p' t, (byteBits b).drop (j + 1)) := by
    rw [byteBits_split b hj, feed_append_wants htaken, feed_stops hstop, ← byteBits_split b hj]
  rw [exec_byte_stops hs (readsBits_asks hr) hq hfeed, List.length_drop, byteBits_length,
    show 8 - (j + 1) = 7 - j from Nat.succ_sub_succ 7 j]

/-- The fourth byte of a marker that is not `MAGIC`. -/
theorem feed_magic_wrong {v : Nat} {b : Byte} (h : wordOf (256 * v + b.toNat) ≠ Config.magic) (s : State) :
    feed (byteBits b) (.magicIn 24 v) s = (.stops (.raising .magic (wordOf (256 * v + b.toNat))) s, []) := by
  have hlt := b.isLt
  have hvalue : 2 * (v * 2 ^ 7 + b.toNat / 2) + (b.toNat.testBit 0).toNat = 256 * v + b.toNat := by
    rw [testBit_zero_toNat]; omega
  rw [byteBits, msbBits_snoc 7, feed_magic_prefix _ _ _ _ _ (by rw [msbBits_length]; decide), bitsValue_msbBits,
    Nat.mod_eq_of_lt (by omega), msbBits_length]
  refine feed_stops (s' := s) ?_ []
  show magicBit 31 (v * 2 ^ 7 + b.toNat / 2) _ s = _
  rw [magicBit, hvalue]
  simp only [Nat.lt_irrefl, if_false, h]

/-- The context word of a symbol above 256 (R134). -/
theorem symbolWord_eq (symbol : Nat) :
    wordOf (1 ||| (symbol <<< 8)) = 1#32 ||| (BitVec.ofNat 32 symbol <<< 8) := by
  have hshift : BitVec.ofNat 32 symbol <<< 8 = BitVec.ofNat 32 (symbol <<< 8) := by
    refine BitVec.eq_of_toNat_eq ?_
    rw [BitVec.toNat_shiftLeft, BitVec.toNat_ofNat, BitVec.toNat_ofNat, Nat.shiftLeft_eq, Nat.shiftLeft_eq]
    exact Nat.mod_mul_mod _ _ _
  rw [wordOf, BitVec.ofNat_or, hshift]

/-- Settles O47: the three checks stop the bit loop at the bit that decides them. -/
theorem headerChecks : Obligations.HeaderChecks := by
  intro s t b rest p slot id made nb v j hq
  refine ⟨fun hs hv hwrong => ?magic, fun hs hr hj htakes => ?capacity, fun hs hr hj htakes => ?symbol⟩
  case magic =>
    have hword : wordOf (256 * v + b.toNat) ≠ Config.magic := fun h => by
      have := congrArg BitVec.toNat h
      have hb := b.isLt
      rw [wordOf, BitVec.toNat_ofNat, Nat.mod_eq_of_lt (by omega)] at this
      exact hwrong this
    exact exec_byte_stops hs rfl hq (feed_magic_wrong hword s)
  case capacity => exact exec_bit_stops hs hr hq hj htakes rfl rfl
  case symbol =>
    intro symbol hlow _
    rw [← symbolWord_eq]
    refine exec_bit_stops hs hr hq hj htakes rfl ?_
    show symBit id made nb 8 v _ t = _
    rw [symBit, if_neg (by decide)]
    exact if_pos hlow

end Sys2Proof.Machine
end

section
/-! PROOFS. The header parse, the header round trip, the walk, and the round trip of COMPRESS.F and DECOMPRESS
(44_header_codec.md rules R118 and R119, 46_decompressor.md rules R130 to R132). -/

namespace Sys2Proof.Machine

/-! ## The header parse (R118) -/

theorem HTree.afterHeader_eq (t : HTree) : t.afterHeader =
    match t with
    | .leaf sym => if sym = 256 then .drainPhase 0 else .raising .hdrInvalid 3
    | .node _ _ => .walkPhase := by
  cases t <;> rfl

/-- Settles O48: the bits of the header make the tree, and the bit loop stops there. -/
theorem headerParse : Obligations.HeaderParse := by
  intro s tree stream extra rest hs hn he hq hsize hsyms hstream hextra
  have hplaced := placed_placeTree tree .top 0 (nodesInvalid s.node) (by rwa [Nat.zero_add])
  have hfeed : feed (streamBits stream) (.magicIn 0 0) s = (.stops tree.afterHeader { s with
      node := placeTree tree .top 0 (nodesInvalid s.node), stack := [], root := 0
      nodeCount := BitVec.ofNat 10 tree.size, hdrBits := wordOf (32 + tree.bits.length)
      treeValid := true, treeDecoded := true }, extra) := by
    rw [hstream, List.append_assoc, feed_header tree extra s hsize hsyms, headerDone_placed tree _ _ _ hplaced]
    rfl
  obtain ⟨buf, n, hleft, hrun⟩ := (run_feed stream s (.magicIn 0 0) rest hs rfl he hq).2 _ _ _ hfeed hextra
  refine ⟨placeTree tree .top 0 (nodesInvalid s.node), buf, n, _, hrun, ?state, hleft, hplaced,
    valid_placeTree tree s.node hsize⟩
  case state =>
    rw [tree.bits_length, ← Nat.add_assoc, tree.afterHeader_eq]
    rfl

/-! ## The header round trip (R119) -/

theorem byteBeats_injective {xs ys : List Byte} (h : byteBeats xs = byteBeats ys) : xs = ys :=
  List.map_injective_iff.2 (fun _ _ h => Beat.byte.inj h) h

/-- Settles O49: what WRITE_HEADER writes is what the header parse reads. -/
theorem headerRoundTrip : Obligations.HeaderRoundTrip := by
  intro s t u tree bytes stream extra rest hs htree hsyms hpk hwrite hout hu hn he hq hstream hextra
  obtain ⟨written, acc, n, w, hexec, hw, hbits, -⟩ := writeHeaderRuns s tree hs htree
  obtain rfl : w = t := Host.Outcome.next.inj (hexec.symm.trans hwrite)
  have hbytes : written = bytes := by
    refine byteBeats_injective (List.append_cancel_left (as := s.outQ) ?_)
    rw [← hout, hw]
  have hpending : s.pending = [] := by rw [State.pending, hpk]; rfl
  rw [hbytes, hpending, List.nil_append] at hbits
  rw [hbits] at hstream
  have hsize := ((holdsTree_iff s tree).1 htree).2
  obtain ⟨node, buf, m, v, hrun, hv, -, hplaced, hvalid⟩ :=
    headerParse u tree stream extra rest hu hn he hq hsize hsyms hstream hextra
  subst hv
  exact ⟨_, hrun, (holdsTree_iff _ tree).2 ⟨HTree.placed_sits node tree 0 hplaced, hsize⟩, rfl, rfl, rfl,
    by rw [hw], hplaced, hvalid⟩

/-! ## The walk (R130) -/

/-- Settles O50: the codes walk to their leaves, one after another. -/
theorem walkDecodes : Obligations.WalkDecodes := by
  intro s left right codes eof stream extra rest hs he hroot hsits hcodes heof hq hstream hextra
  have hfeed := feed_codes left right codes eof extra { s with phase := .walk } 0 hroot hsits hcodes heof 0
  rw [← List.append_assoc, ← hstream, Nat.zero_add] at hfeed
  obtain ⟨buf, n, hleft, hrun⟩ := run_walk stream s _ _ _ rest hs he hq hfeed hextra
  exact ⟨buf, n, _, hrun, rfl, hleft⟩

/-! ## A whole DECOMPRESS (R131) -/

/-- A stream that begins with some bits, cut after the byte in which they end. -/
theorem exists_bytes_of_prefix {stream : List Byte} {bits rest : List Bool} (h : streamBits stream = bits ++ rest) :
    ∃ xs ys extra, stream = xs ++ ys ∧ streamBits xs = bits ++ extra ∧ extra.length < 8 ∧ rest = extra ++ streamBits ys := by
  let m := (bits.length + 7) / 8
  have hlen := congrArg List.length h
  rw [streamBits_length, List.length_append] at hlen
  have hxs : (streamBits (stream.take m)).length = 8 * m := by
    rw [streamBits_length, List.length_take, Nat.min_eq_left (show m ≤ stream.length by omega)]
  have hsplit : streamBits (stream.take m) ++ streamBits (stream.drop m) = bits ++ rest := by
    rw [← streamBits_append, List.take_append_drop, h]
  obtain ⟨extra, hextra⟩ := List.prefix_of_prefix_length_le ⟨rest, rfl⟩ ⟨_, hsplit⟩ (show bits.length ≤ _ by omega)
  refine ⟨stream.take m, stream.drop m, extra, (List.take_append_drop m stream).symm, hextra.symm, ?short, ?rest⟩
  case short =>
    have := congrArg List.length hextra
    rw [List.length_append, hxs] at this
    omega
  case rest =>
    rw [← hextra, List.append_assoc] at hsplit
    exact (List.append_cancel_left hsplit).symm

/-- After the walk, `End` ends the draining loop and the command. -/
theorem run_drain {s : State} {cnt : Nat} (h : s.running .decompress (.drainPhase cnt)) (he : s.upEos = false)
    (hq : s.inQ = [.endBeat]) : core.run 3 s = .next { s with
      inQ := [], upEos := true, outQ := s.outQ ++ [.endBeat], result := BitVec.ofNat 64 cnt
      busy := false, phase := .idle, k := none, done := true } := by
  have hdrain := (step_running h).trans (congrArg Host.Outcome.next (startDrain_of_more he))
  obtain ⟨ha, hb, hi, -⟩ := h
  have hend := (step_running (i := .decompress) (p := .drainIn cnt) (s := { s with phase := .drain, k := some (.drainIn cnt) })
    ⟨ha, hb, hi, rfl⟩).trans (congrArg Host.Outcome.next (drainBeat_of_end hq))
  exact (run_two hdrain hend 1).trans (run_one (step_finish (i := .decompress) ⟨ha, hb, hi, rfl⟩))

/-- The symbols of the bytes with their codes. -/
def byteCodes (code : Vector CodeEntry 257) (bytes : List Byte) : List (Sym × List Bool) :=
  bytes.map (fun b => (BitVec.ofNat 9 b.toNat, (codeAt code b.toNat).path))

theorem byteCodes_bytes (code : Vector CodeEntry 257) (bytes : List Byte) :
    (byteCodes code bytes).map (fun e => e.1.setWidth 8) = bytes := by
  have hbyte : ∀ b : Byte, (BitVec.ofNat 9 b.toNat).setWidth 8 = b := fun b => BitVec.eq_of_toNat_eq (by
    have := b.isLt
    rw [BitVec.toNat_setWidth, BitVec.toNat_ofNat]
    omega)
  rw [byteCodes, List.map_map]
  exact (List.map_congr_left fun b _ => hbyte b).trans (List.map_id bytes)

theorem byteCodes_bits (code : Vector CodeEntry 257) (bytes : List Byte) :
    (byteCodes code bytes).flatMap Prod.snd ++ (codeAt code 256).path = bodyBits code bytes := by
  rw [byteCodes, List.flatMap_map]
  rfl

/-- DECOMPRESS over the stream of R76 gives the bytes back. -/
theorem reaches_decompressed {s : State} {l r : HTree} {code : Vector CodeEntry 257} {bytes out : List Byte} {pad : List Bool}
    (hidle : s.busy = false) (ha : s.agenda = [.regWrite 0x08 0x0E000000#32])
    (hq : s.inQ = byteBeats out ++ [.endBeat]) (hsize : (HTree.node l r).size ≤ 513)
    (hsyms : ∀ sym ∈ (HTree.node l r).leaves, sym.toNat ≤ 256)
    (hcodes : ∀ b ∈ bytes, (BitVec.ofNat 9 b.toNat, (codeAt code b.toNat).path) ∈ (HTree.node l r).codes)
    (heof : (256, (codeAt code 256).path) ∈ (HTree.node l r).codes)
    (hstream : streamBits out = packedBits (.node l r) code bytes ++ pad) (hpad : pad.length < 8) :
    ∃ u : State, s.reaches u ∧ u.busy = false ∧ u.done = true ∧ u.err = false ∧ u.inQ = [] ∧
      u.outQ = s.outQ ++ byteBeats bytes ++ [.endBeat] ∧ u.result = BitVec.ofNat 64 bytes.length := by
  have hw : decode 0x0E000000#32 = .ok .decompress := by decide
  have hdispatch := step_accept hidle ha hw rfl rfl
  let started := State.started 0x0E000000#32 .hdrRead (atStart .decompress { s with agenda := [] })
  have hstart := step_running (i := .decompress) (p := .start) (s := started) ⟨rfl, rfl, hw, rfl⟩
  rw [packedBits, List.append_assoc] at hstream
  obtain ⟨header, body, extra, rfl, hheader, hextra, hbody⟩ := exists_bytes_of_prefix hstream
  rw [byteBeats_append, List.append_assoc] at hq
  obtain ⟨node, buf, n, v, hparse, rfl, hundelivered, hplaced, -⟩ :=
    headerParse (started.resetUnpacker.suspend (.magicIn 0 0)) (.node l r) header extra (byteBeats body ++ [Beat.endBeat])
      ⟨rfl, rfl, hw, rfl⟩ rfl rfl hq hsize hsyms hheader hextra
  have hmem : ∀ e ∈ byteCodes code bytes, e ∈ (HTree.node l r).codes ∧ e.1.toNat < 256 := fun e he => by
    obtain ⟨b, hb, rfl⟩ := List.mem_map.1 he
    have := b.isLt
    exact ⟨hcodes b hb, (toNat_ofNat_sym (by omega)).trans_lt b.isLt⟩
  rw [← byteCodes_bits, ← hundelivered] at hbody
  obtain ⟨buf', n', w, hwalk, rfl, -⟩ := walkDecodes _ l r (byteCodes code bytes) _ body pad [.endBeat]
    ⟨rfl, rfl, hw, rfl⟩ rfl rfl (HTree.placed_sits node _ 0 hplaced) hmem heof rfl hbody.symm hpad
  refine ⟨_, State.reaches_step hdispatch (State.reaches_step hstart (State.reaches_run hparse (State.reaches_run hwalk
    ⟨3, run_drain ⟨rfl, rfl, hw, rfl⟩ rfl rfl⟩))), rfl, rfl, rfl, rfl, ?out, ?result⟩
  case out => exact congrArg (fun bs => s.outQ ++ byteBeats bs ++ [.endBeat]) (byteCodes_bytes code bytes)
  case result => exact congrArg (BitVec.ofNat 64) (List.length_map _)

/-! ## The round trip (R132) -/

/-- A symbol with a code in the table of the built tree labels a leaf, at that path. -/
theorem path_mem_codes {freq : Vector Word 256} {tree : HTree} {s : State} (hperm : tree.leaves.Perm (leafSymbols freq))
    (htree : s.holdsTree tree = true) {j : Nat} (hj : j ≤ 256)
    (hv : (codeAt (writeCodes tree.codes codesAbsent) j).valid = true) :
    (BitVec.ofNat 9 j, (codeAt (writeCodes tree.codes codesAbsent) j).path) ∈ tree.codes := by
  obtain ⟨p, hp, hcode⟩ := exists_code_of_table_valid (builtTree_leaves_nodup hperm) (builtTree_leaves_le hperm) hj hv
  rw [hcode, codeOfPath_path p (codes_length_le_of_holdsTree htree hp)]
  exact hp

theorem padBits_length_lt (n : Nat) : (padBits n).length < 8 := by
  rw [padBits, List.length_replicate]
  exact Nat.mod_lt _ (by decide)

/-- Settles O52: the stream that COMPRESS.F writes is one that DECOMPRESS reads. -/
theorem roundTrip : Obligations.RoundTrip := by
  intro s bytes hidle hlen hempty ha hq
  obtain ⟨tree, hcoded, htree, hperm⟩ := run_coded (force := true) hidle hlen ha hq
  let u := (s.counted true bytes (byteBeats bytes ++ [.endBeat])).coded tree
  have hcount : ∀ b : Byte, (freqAt u.freq b.toNat).toNat = bytes.count b := fun b => freqAt_tally_zero bytes b hlen
  have hvalid : ∀ b ∈ bytes, (codeAt u.code b.toNat).valid = true := fun b hb => valid_of_counted hperm hcount hb
  obtain ⟨out, hend, hstream⟩ := run_ungated (s := u) htree rfl rfl hvalid ⟨rfl, rfl, decodeEncode _, rfl⟩
    (Bool.and_false _)
  obtain ⟨t, ht, hbusy, hdone, hout⟩ : ∃ t, s.reaches t ∧ t.busy = false ∧ t.done = true ∧
      t.outQ = byteBeats out ++ [Beat.endBeat] :=
    ⟨_, State.reaches_run hcoded ⟨_, hend⟩, rfl, rfl, congrArg (· ++ byteBeats out ++ [Beat.endBeat]) hempty⟩
  have hleaves : 2 ≤ tree.leaves.length := by
    rw [treePlan_leaves_length _ tree hperm]; exact (leafEntries_length _).1
  obtain ⟨l, r, rfl⟩ := HTree.eq_node_of_two_leaves hleaves
  have heof : (codeAt u.code 256).valid = true :=
    (table_valid_iff (builtTree_leaves_nodup hperm) (builtTree_leaves_le hperm) (le_refl 256)).2
      (hperm.mem_iff.2 ((ofNat_mem_leafSymbols (le_refl 256)).2 (.inl rfl)))
  obtain ⟨v, hv, hdecompressed⟩ := reaches_decompressed (s := { t with
      agenda := [.regWrite 0x08 0x0E000000#32], inQ := byteBeats out ++ [.endBeat], outQ := [] }) (code := u.code)
    (bytes := bytes) (l := l) (r := r) hbusy rfl rfl ((holdsTree_iff _ _).1 htree).2 (builtTree_leaves_le hperm)
    (fun b hb => path_mem_codes hperm htree b.isLt.le (hvalid b hb)) (path_mem_codes hperm htree (le_refl 256) heof)
    hstream (padBits_length_lt _)
  exact ⟨t, v, out, ht, hbusy, hdone, hout, hv, hdecompressed⟩

end Sys2Proof.Machine
end

section
/-! PROOFS. The machine as a whole: what each step of a running command does to its point, its phase and the two queues,
and what follows for the phase, for the bound on steps and for termination (10_state.md rule R22, 20_memory.md rules R53,
R55 and R61, 70_reset_and_hazards.md rules R157 and R166). -/

namespace Sys2Proof.Machine

/-! ## Points in order -/

/-- A bound on the steps that a command can still take without a beat, from a point. -/
def Point.rank : Point → Nat
  | .finishing | .raising _ _ | .drainIn _ => 1
  | .encodeIn _ _ | .flushPhase _ _ | .walkIn _ _ | .drainPhase _ => 2
  | .encodePhase _ | .walkPhase | .magicIn _ _ | .tagIn _ _ _ | .symIn _ _ _ _ _ => 3
  | .headerPhase => 4
  | .estimatePhase => 5
  | .codesPhase => 6
  | .buildPhase | .countIn => 7
  | .start => 8

/-- DECOMPRESS may come from the point p to the point q over bits: with no change of phase, and no farther from its end. -/
def Point.leadsTo (p q : Point) : Prop := decompressPhases p ⊆ decompressPhases q ∧ q.rank ≤ p.rank

theorem Point.leadsTo.refl (p : Point) : p.leadsTo p := ⟨List.Subset.refl _, Nat.le_refl _⟩

theorem Point.leadsTo.trans {p q r : Point} (h : p.leadsTo q) (h' : q.leadsTo r) : p.leadsTo r :=
  ⟨List.Subset.trans h.1 h'.1, h'.2.trans h.2⟩

theorem Point.rank_pos (p : Point) : 1 ≤ p.rank := by
  unfold Point.rank
  split <;> decide

theorem Point.leadsTo_raising {p : Point} {code : ErrCode} {info : Word}
    (h : decompressPhases p = decompressPhases (.raising code info)) : p.leadsTo (.raising code info) :=
  ⟨h ▸ List.Subset.refl _, p.rank_pos⟩

theorem pointAfterHeader_cases (v : Vector Node 513) : pointAfterHeader v = .drainPhase 0 ∨
    pointAfterHeader v = .raising .hdrInvalid 3 ∨ pointAfterHeader v = .walkPhase := by
  unfold pointAfterHeader
  split
  · split
    · exact .inl rfl
    · exact .inr (.inl rfl)
  · exact .inr (.inr rfl)

/-- The head of the parse loop, from a point of the header. -/
theorem nextSlot_leadsTo {p : Point} (hp : decompressPhases p = [.hdrRead]) (hr : p.rank = 3) (made nb : Nat) (s : State) :
    p.leadsTo (nextSlot made nb s).point := by
  unfold Point.leadsTo
  rw [hp, hr]
  unfold nextSlot
  split
  · exact ⟨List.Subset.refl [Phase.hdrRead], Nat.le_refl 3⟩
  · rw [headerDone_eq]
    show [Phase.hdrRead] ⊆ decompressPhases (pointAfterHeader s.node) ∧ (pointAfterHeader s.node).rank ≤ 3
    obtain h | h | h := pointAfterHeader_cases s.node <;> rw [h] <;> exact ⟨by decide, by decide⟩

theorem onBit_leadsTo (p : Point) (b : Bool) (s : State) : p.leadsTo (onBit p b s).point := by
  cases p with
  | magicIn got v =>
    show Point.leadsTo _ (magicBit got v b s).point
    unfold magicBit
    dsimp only
    split
    · exact ⟨List.Subset.refl [Phase.hdrRead], Nat.le_refl 3⟩
    · split
      · exact nextSlot_leadsTo rfl rfl _ _ _
      · exact Point.leadsTo_raising rfl
  | tagIn slot made nb =>
    show Point.leadsTo _ (tagBit slot made nb b s).point
    unfold tagBit
    dsimp only
    split
    · exact Point.leadsTo_raising rfl
    · split
      · exact ⟨List.Subset.refl [Phase.hdrRead], Nat.le_refl 3⟩
      · exact nextSlot_leadsTo rfl rfl _ _ _
  | symIn id made nb got v =>
    show Point.leadsTo _ (symBit id made nb got v b s).point
    unfold symBit
    dsimp only
    split
    · exact ⟨List.Subset.refl [Phase.hdrRead], Nat.le_refl 3⟩
    · split
      · exact Point.leadsTo_raising rfl
      · exact nextSlot_leadsTo rfl rfl _ _ _
  | walkIn cur cnt =>
    show Point.leadsTo _ (walkBit cur cnt b s).point
    unfold walkBit
    dsimp only
    generalize (if b = true then (nodeAt s.node cur).right else (nodeAt s.node cur).left) = next
    split
    · split
      · exact ⟨List.subset_cons_self Phase.hdrRead [Phase.walk], Nat.le_refl 2⟩
      · exact ⟨List.Subset.refl [Phase.walk], Nat.le_refl 2⟩
    · exact ⟨List.Subset.refl [Phase.walk], Nat.le_refl 2⟩
  | _ => exact Point.leadsTo.refl _

theorem onEos_leadsTo (p : Point) (s : State) : p.leadsTo (onEos p s) := by
  cases p with
  | magicIn | tagIn | symIn => exact Point.leadsTo_raising rfl
  | walkIn => exact Point.leadsTo_raising rfl
  | _ => exact Point.leadsTo.refl _

theorem runBits_leadsTo (n : Nat) (p : Point) (s : State) : ∃ q, (runBits n p s).k = some q ∧ p.leadsTo q := by
  refine runBits_induct (P := fun q _ => p.leadsTo q) (R := fun t => ∃ q, t.k = some q ∧ p.leadsTo q)
    (fun q b t m q' t' h e => ?wants) (fun q b t m q' t' h e => ?stops) (fun q _ h _ => ⟨q, rfl, h⟩)
    (fun q t h _ => ⟨_, rfl, h.trans (onEos_leadsTo q t)⟩) n p s (.refl p)
  case wants =>
    have hstep := onBit_leadsTo q b { t with upN := m }
    rw [e] at hstep
    exact h.trans hstep
  case stops =>
    have hstep := onBit_leadsTo q b { t with upN := m }
    rw [e] at hstep
    exact ⟨q', rfl, h.trans hstep⟩

/-! ## What the bit loop changes -/

/-- From s to t nothing has changed but what the bits of DECOMPRESS change, the unpacker's fill and `K`. -/
def LoopFrame (s t : State) : Prop :=
  t = { s with
    node := t.node, stack := t.stack, root := t.root, nodeCount := t.nodeCount, hdrBits := t.hdrBits
    treeValid := t.treeValid, treeDecoded := t.treeDecoded, outQ := t.outQ, upN := t.upN, k := t.k }

theorem LoopFrame.step {s t t' : State} {m : Fin 9} (h : LoopFrame s t) (h' : BitFrame { t with upN := m } t') :
    LoopFrame s t' := by
  unfold LoopFrame BitFrame at *
  rw [h', h]

theorem LoopFrame.suspend {s t : State} (h : LoopFrame s t) (p : Point) : LoopFrame s (t.suspend p) := by
  unfold LoopFrame at *
  rw [h]
  rfl

theorem runBits_frame (n : Nat) (p : Point) (s : State) : LoopFrame s (runBits n p s) := by
  refine runBits_induct (P := fun _ t => LoopFrame s t) (R := LoopFrame s)
    (fun q b t m q' t' h e => ?wants) (fun q b t m q' t' h e => ?stops) (fun _ _ h _ => h.suspend _)
    (fun _ _ h _ => h.suspend _) n p s rfl
  case wants =>
    have hstep := onBit_frame q b { t with upN := m }
    rw [e] at hstep
    exact h.step hstep
  case stops =>
    have hstep := onBit_frame q b { t with upN := m }
    rw [e] at hstep
    exact (h.step hstep).suspend q'

theorem nextSlot_outQ (made nb : Nat) (s : State) : (nextSlot made nb s).state.outQ = s.outQ := by
  unfold nextSlot
  split
  · rfl
  · rw [headerDone_eq]
    rfl

/-- A bit only appends to `OUT_Q`. -/
theorem onBit_outQ (p : Point) (b : Bool) (s : State) : s.outQ <+: (onBit p b s).state.outQ := by
  cases p with
  | magicIn got v =>
    show _ <+: (magicBit got v b s).state.outQ
    unfold magicBit
    dsimp only
    split
    · exact List.prefix_rfl
    · split
      · rw [nextSlot_outQ]
      · exact List.prefix_rfl
  | tagIn slot made nb =>
    show _ <+: (tagBit slot made nb b s).state.outQ
    unfold tagBit
    dsimp only
    split
    · exact List.prefix_rfl
    · split
      · exact List.prefix_rfl
      · rw [makeInternal, nextSlot_outQ]
  | symIn id made nb got v =>
    show _ <+: (symBit id made nb got v b s).state.outQ
    unfold symBit
    dsimp only
    split
    · exact List.prefix_rfl
    · split
      · exact List.prefix_rfl
      · rw [nextSlot_outQ]
  | walkIn cur cnt =>
    show _ <+: (walkBit cur cnt b s).state.outQ
    unfold walkBit
    dsimp only
    generalize (if b = true then (nodeAt s.node cur).right else (nodeAt s.node cur).left) = next
    split
    · split
      · exact List.prefix_rfl
      · exact List.prefix_append _ _
    · exact List.prefix_rfl
  | _ => exact List.prefix_rfl

theorem runBits_outQ (n : Nat) (p : Point) (s : State) : s.outQ <+: (runBits n p s).outQ := by
  refine runBits_induct (P := fun _ t => s.outQ <+: t.outQ) (R := fun t => s.outQ <+: t.outQ)
    (fun q b t m q' t' h e => ?wants) (fun q b t m q' t' h e => ?stops) (fun _ _ h _ => h) (fun _ _ h _ => h) n p s
    List.prefix_rfl
  case wants | stops =>
    have hstep := onBit_outQ q b { t with upN := m }
    rw [e] at hstep
    exact h.trans hstep

end Sys2Proof.Machine
end

section
/-! PROOFS. One step of a running command, said once for every command: where it goes, what it takes, and what follows for
the whole machine (10_state.md rule R22, 20_memory.md rules R53, R55 and R61, 70_reset_and_hazards.md rules R157 and R166). -/

namespace Sys2Proof.Machine

/-! ## The shape of a step (R61) -/

/-- `BUSY`, `CUR_CMD`, `PHASE` and `IN_Q`. -/
def State.control (s : State) : Bool × Word × Phase × List Beat := (s.busy, s.curCmd, s.phase, s.inQ)

/-- 1 for the beat `End`, 0 for a byte. -/
def Beat.ends : Beat → Nat
  | .byte _ => 0
  | .endBeat => 1

/-- A step of the command i from the point p: it ends the command, waits for a beat, moves on without one, or takes one.
Moving on, the point comes nearer to the end; taking a beat, it comes no farther from it and keeps the phase. -/
inductive Advances (i : Instr) (p : Point) (s t : State) : Prop where
  | ends (idle : t.busy = false) (phase : t.phase = .idle) (told : t.done = true ∨ t.err = true) (queue : t.inQ = s.inQ)
  | waits (beat : p.atInBeat = true) (empty : s.inQ = []) (still : t = s)
  | moves (q : Point) (ph : Phase) (stands : t.k = some q) (control : t.control = (s.busy, s.curCmd, ph, s.inQ))
      (phase : s.phase ∈ phasesAt i p → ph ∈ phasesAt i q) (nearer : q.rank < p.rank) (needs : endsNeeded i q ≤ endsNeeded i p)
  | takes (q : Point) (x : Beat) (rest : List Beat) (stands : t.k = some q)
      (control : t.control = (s.busy, s.curCmd, s.phase, rest)) (phase : phasesAt i p ⊆ phasesAt i q)
      (beat : p.atInBeat = true) (queue : s.inQ = x :: rest) (nearer : q.rank ≤ p.rank)
      (needs : endsNeeded i q + x.ends ≤ endsNeeded i p)

/-- A step of the command i from the point p, which also only appends to `OUT_Q` (R55). -/
def Steps (i : Instr) (p : Point) (s t : State) : Prop := Advances i p s t ∧ s.outQ <+: t.outQ

theorem endsNeeded_finishing (i : Instr) : endsNeeded i .finishing = 0 := by cases i <;> rfl

theorem endsNeeded_raising (i : Instr) (code : ErrCode) (info : Word) : endsNeeded i (.raising code info) = 0 := by
  cases i <;> rfl

theorem endsNeeded_decompress_le (p : Point) : endsNeeded .decompress p ≤ 1 := by
  cases p with
  | finishing | raising => exact Nat.zero_le 1
  | _ => exact Nat.le_refl 1

/-! ## The packer -/

theorem control_pushBits (s : State) (p : List Bool) : (s.pushBits p).control = s.control := by
  rw [pushBits_frame]
  rfl

theorem outQ_pushBits (s : State) (p : List Bool) : s.outQ <+: (s.pushBits p).outQ := by
  obtain ⟨bytes, acc, n, h, -⟩ := pushBits_spec s p
  rw [h]
  exact List.prefix_append _ _

theorem control_flushPacker (s : State) : s.flushPacker.control = s.control := by
  obtain ⟨bytes, h, -⟩ := flushPacker_spec s
  rw [h]
  rfl

theorem outQ_flushPacker (s : State) : s.outQ <+: s.flushPacker.outQ := by
  obtain ⟨bytes, h, -⟩ := flushPacker_spec s
  rw [h, List.append_assoc]
  exact List.prefix_append _ _

/-! ## Steps by their kind -/

theorem steps_finishing (i : Instr) (s : State) : Steps i .finishing s s.finish :=
  ⟨.ends rfl rfl (.inl rfl) rfl, List.prefix_rfl⟩

theorem steps_raising (i : Instr) (code : ErrCode) (info : Word) (s : State) :
    Steps i (.raising code info) s (s.raiseError code info) :=
  ⟨.ends rfl rfl (.inr rfl) rfl, List.prefix_rfl⟩

/-- A command that does its work in one step. -/
theorem steps_short {i : Instr} {s t : State} (hphase : phasesAt i .start = phasesAt i .finishing)
    (hk : t.k = some .finishing) (hc : t.control = s.control) (ho : s.outQ <+: t.outQ) : Steps i .start s t :=
  ⟨.moves .finishing s.phase hk hc (fun h => hphase ▸ h) (by decide : 1 < 8)
    ((endsNeeded_finishing i).trans_le (Nat.zero_le _)), ho⟩

/-- A byte that the procedure answers with a `raise`. -/
theorem advances_raise {i : Instr} {p : Point} {s t : State} {b : Byte} {rest : List Beat} {code : ErrCode} {info : Word}
    (hphase : phasesAt i p ⊆ phasesAt i (.raising code info)) (hbeat : p.atInBeat = true) (hq : s.inQ = .byte b :: rest)
    (hk : t.k = some (.raising code info)) (hc : t.control = (s.busy, s.curCmd, s.phase, rest)) : Advances i p s t :=
  .takes _ (.byte b) rest hk hc hphase hbeat hq p.rank_pos ((endsNeeded_raising i code info).trans_le (Nat.zero_le _))

/-- The core at the `InBeat()` of the counting pass. -/
theorem steps_countBeat {i : Instr} {after : State → State} {q : Point}
    (hafter : ∀ u : State, (after u).k = some q ∧ (after u).control = u.control ∧ (after u).outQ = u.outQ)
    (hphase : phasesAt i .countIn ⊆ phasesAt i q)
    (hraise : ∀ info, phasesAt i .countIn ⊆ phasesAt i (.raising .countOverflow info)) (hrank : q.rank ≤ 7)
    (hneeds : endsNeeded i q + 1 ≤ endsNeeded i .countIn) (s : State) : Steps i .countIn s (countBeat after s) := by
  unfold countBeat
  split
  next hq => exact ⟨.waits rfl hq rfl, List.prefix_rfl⟩
  next rest hq =>
    obtain ⟨hk, hc, ho⟩ := hafter { s with inQ := rest }
    exact ⟨.takes q .endBeat rest hk hc hphase rfl hq hrank hneeds, by rw [ho]⟩
  next b rest hq =>
    split
    · exact ⟨advances_raise (hraise _) rfl hq rfl rfl, List.prefix_rfl⟩
    · exact ⟨.takes _ (.byte b) rest rfl rfl (List.Subset.refl _) rfl hq (Nat.le_refl 7) (Nat.le_refl _), List.prefix_rfl⟩

/-- The core at the `InBeat()` of the encode pass. -/
theorem steps_encodeBeat {i : Instr} {h : Nat} (hnext : ∀ n, phasesAt i (.encodeIn h n) = [.encode])
    (hend : ∀ n, phasesAt i (.flushPhase h n) = [.encode])
    (hraise : ∀ info, phasesAt i (.raising .invariant info) = [.encode])
    (hneeds : ∀ n, endsNeeded i (.encodeIn h n) = 1) (hdone : ∀ n, endsNeeded i (.flushPhase h n) = 0) (nb : Nat) (s : State) :
    Steps i (.encodeIn h nb) s (encodeBeat h nb s) := by
  unfold encodeBeat
  split
  next hq => exact ⟨.waits rfl hq rfl, List.prefix_rfl⟩
  next rest hq =>
    refine ⟨.takes _ .endBeat rest rfl (control_pushBits { s with inQ := rest } _) ?phase rfl hq (Nat.le_refl 2) ?needs,
      outQ_pushBits { s with inQ := rest } _⟩
    case phase => rw [hnext, hend]; exact List.Subset.refl _
    case needs => rw [hneeds, hdone]; exact Nat.le_refl 1
  next b rest hq =>
    dsimp only
    split
    · refine ⟨.takes _ (.byte b) rest rfl (control_pushBits { s with inQ := rest } _) ?_ rfl hq (Nat.le_refl 2) ?_,
        outQ_pushBits { s with inQ := rest } _⟩
      · rw [hnext, hnext]; exact List.Subset.refl _
      · rw [hneeds, hneeds]; exact Nat.le_refl 1
    · exact ⟨advances_raise (by rw [hnext, hraise]; exact List.Subset.refl _) rfl hq rfl rfl, List.prefix_rfl⟩

theorem control_flushBody (h e : Nat) (s : State) :
    (s.flushBody h e).control = (s.busy, s.curCmd, .flush, s.inQ) := control_flushPacker { s with phase := .flush }

/-- The flush of the encode pass. -/
theorem steps_flushBody {i : Instr} (hphase : .flush ∈ phasesAt i .finishing) (h e : Nat) (s : State) :
    Steps i (.flushPhase h e) s (s.flushBody h e) :=
  ⟨.moves .finishing .flush rfl (control_flushBody h e s) (fun _ => hphase) (by decide : 1 < 2)
    ((endsNeeded_finishing i).trans_le (Nat.zero_le _)), outQ_flushPacker { s with phase := .flush }⟩

/-! ## DECOMPRESS -/

theorem LoopFrame.control {s t : State} (h : LoopFrame s t) : t.control = s.control := by
  unfold LoopFrame at h
  rw [h]
  rfl

theorem onEos_needs {p : Point} (h : p.asks = true) (s : State) :
    endsNeeded .decompress (onEos p s) + 1 ≤ endsNeeded .decompress p := by
  cases p with
  | magicIn | tagIn | symIn | walkIn => exact Nat.le_refl 1
  | _ => cases h

theorem asks_needs {p : Point} (h : p.asks = true) : p.atInBeat = true ∧ endsNeeded .decompress p = 1 := by
  cases p with
  | magicIn | tagIn | symIn | walkIn => exact ⟨rfl, rfl⟩
  | _ => cases h

/-- The core at the `InBeat()` of `ReadBit()`. -/
theorem steps_bitBeat {p : Point} (h : p.asks = true) (s : State) : Steps .decompress p s (bitBeat p s) := by
  obtain ⟨hbeat, hneeds⟩ := asks_needs h
  unfold bitBeat
  split
  next hq => exact ⟨.waits hbeat hq rfl, List.prefix_rfl⟩
  next rest hq =>
    obtain ⟨hphase, hrank⟩ := onEos_leadsTo p { s with inQ := rest, upEos := true }
    exact ⟨.takes _ .endBeat rest rfl rfl hphase hbeat hq hrank (onEos_needs h _), List.prefix_rfl⟩
  next b rest hq =>
    obtain ⟨q, hk, hphase, hrank⟩ := runBits_leadsTo 8 p (State.loadByte b { s with inQ := rest })
    exact ⟨.takes q (.byte b) rest hk (runBits_frame ..).control hphase hbeat hq hrank
      (hneeds ▸ endsNeeded_decompress_le q), runBits_outQ 8 p (State.loadByte b { s with inQ := rest })⟩

theorem steps_startWalk (s : State) : Steps .decompress .walkPhase s s.startWalk := by
  obtain ⟨q, hk, hphase, hrank⟩ := runBits_leadsTo s.upN.val (.walkIn 0 0) { s with phase := .walk }
  exact ⟨.moves q .walk hk (runBits_frame ..).control (fun _ => hphase (List.mem_singleton.2 rfl)) (Nat.lt_succ_of_le hrank)
    (endsNeeded_decompress_le q), runBits_outQ s.upN.val (.walkIn 0 0) { s with phase := .walk }⟩

theorem steps_startDrain (cnt : Nat) (s : State) : Steps .decompress (.drainPhase cnt) s (s.startDrain cnt) := by
  unfold State.startDrain
  dsimp only
  split
  · exact ⟨.moves .finishing .drain rfl rfl (fun _ => List.mem_singleton.2 rfl) (by decide : 1 < 2) (Nat.zero_le _),
      List.prefix_append _ _⟩
  · exact ⟨.moves (.drainIn cnt) .drain rfl rfl (fun _ => List.mem_singleton.2 rfl) (by decide : 1 < 2) (Nat.le_refl 1),
      List.prefix_rfl⟩

theorem steps_drainBeat (cnt : Nat) (s : State) : Steps .decompress (.drainIn cnt) s (drainBeat cnt s) := by
  unfold drainBeat
  split
  next hq => exact ⟨.waits rfl hq rfl, List.prefix_rfl⟩
  next rest hq => exact ⟨.takes .finishing .endBeat rest rfl rfl (List.Subset.refl [Phase.drain]) rfl hq (Nat.le_refl 1)
    (Nat.le_refl 1), List.prefix_append _ _⟩
  next b rest hq => exact ⟨.takes (.drainIn cnt) (.byte b) rest rfl rfl (List.Subset.refl [Phase.drain]) rfl hq (Nat.le_refl 1)
    (Nat.le_refl 1), List.prefix_rfl⟩

theorem steps_decompress {p : Point} {s t : State} (h : procOf .decompress p s = .next t) : Steps .decompress p s t := by
  cases p with
  | start =>
    cases h
    exact ⟨.moves (.magicIn 0 0) s.phase rfl rfl id (by decide : 3 < 8) (Nat.le_refl 1), List.prefix_rfl⟩
  | magicIn | tagIn | symIn | walkIn => cases h; exact steps_bitBeat rfl s
  | walkPhase => cases h; exact steps_startWalk s
  | drainPhase cnt => cases h; exact steps_startDrain cnt s
  | drainIn cnt => cases h; exact steps_drainBeat cnt s
  | finishing => cases h; exact steps_finishing _ s
  | raising code info => cases h; exact steps_raising _ code info s
  | _ => cases h

/-! ## COMPRESS -/

theorem steps_compressCodes {force : Bool} {s t : State} (h : s.compressCodes = .next t) :
    Steps (.compress force) .codesPhase s t := by
  unfold State.compressCodes at h
  split at h
  · rename_i s1 htable
    obtain ⟨found, -, rfl⟩ := Option.map_eq_some_iff.1 htable
    cases h
    exact ⟨.moves .estimatePhase .codes rfl rfl (fun _ => List.mem_singleton.2 rfl) (by decide : 5 < 6) (Nat.le_refl 1),
      List.prefix_rfl⟩
  · cases h

theorem steps_compressEstimate (force : Bool) (s : State) :
    Steps (.compress force) .estimatePhase s (s.compressEstimate force) := by
  unfold State.compressEstimate
  dsimp only
  split
  · exact ⟨.moves .finishing .estimate rfl rfl (fun _ => List.mem_cons_self) (by decide : 1 < 5) (Nat.zero_le _),
      List.prefix_rfl⟩
  · exact ⟨.moves .headerPhase .estimate rfl rfl (fun _ => List.mem_singleton.2 rfl) (by decide : 4 < 5) (Nat.le_refl 1),
      List.prefix_rfl⟩

theorem steps_compressHeader {force : Bool} {s t : State} (h : s.compressHeader = .next t) :
    Steps (.compress force) .headerPhase s t := by
  unfold State.compressHeader at h
  split at h
  · rename_i s1 hd hheader
    obtain ⟨bits, -, he⟩ := Option.map_eq_some_iff.1 hheader
    cases he
    cases h
    exact ⟨.moves (.encodePhase bits.length) .hdrWrite rfl (control_pushBits { s with phase := .hdrWrite } bits)
      (fun _ => List.mem_singleton.2 rfl) (by decide : 3 < 4) (Nat.le_refl 1), outQ_pushBits { s with phase := .hdrWrite } bits⟩
  · cases h

theorem steps_compress {force : Bool} {p : Point} {s t : State} (h : procOf (.compress force) p s = .next t) :
    Steps (.compress force) p s t := by
  cases p with
  | start => cases h; exact ⟨.moves .countIn s.phase rfl rfl id (by decide : 7 < 8) (Nat.le_refl 2), List.prefix_rfl⟩
  | countIn =>
    cases h
    exact steps_countBeat (i := .compress force) (after := State.passDone) (fun _ => ⟨rfl, rfl, rfl⟩) (List.Subset.refl _)
      (fun _ => List.Subset.refl _) (Nat.le_refl 7) (Nat.le_refl 2) s
  | buildPhase =>
    cases h
    exact ⟨.moves .codesPhase .build rfl rfl (fun _ => List.mem_singleton.2 rfl) (by decide : 6 < 7) (Nat.le_refl 1),
      List.prefix_rfl⟩
  | codesPhase => exact steps_compressCodes h
  | estimatePhase => cases h; exact steps_compressEstimate force s
  | headerPhase => exact steps_compressHeader h
  | encodePhase hd =>
    cases h
    exact ⟨.moves (.encodeIn hd 0) .encode rfl rfl (fun _ => List.mem_singleton.2 rfl) (by decide : 2 < 3) (Nat.le_refl 1),
      List.prefix_rfl⟩
  | encodeIn hd nb =>
    cases h
    exact steps_encodeBeat (fun _ => rfl) (fun _ => rfl) (fun _ => rfl) (fun _ => rfl) (fun _ => rfl) nb s
  | flushPhase hd e => cases h; exact steps_flushBody (List.mem_cons_of_mem _ (List.mem_singleton.2 rfl)) hd e s
  | finishing => cases h; exact steps_finishing _ s
  | raising code info => cases h; exact steps_raising _ code info s
  | _ => cases h

/-! ## Every command -/

theorem steps_genCodes {s t : State} (h : procOf .genCodes .start s = .next t) : Steps .genCodes .start s t := by
  simp only [procOf, genCodesProc] at h
  split at h
  · rename_i s1 htable
    obtain ⟨found, -, rfl⟩ := Option.map_eq_some_iff.1 htable
    cases h
    exact steps_short rfl rfl rfl List.prefix_rfl
  · cases h

theorem steps_writeHeader {s t : State} (h : procOf .writeHeader .start s = .next t) : Steps .writeHeader .start s t := by
  simp only [procOf, writeHeaderProc] at h
  split at h
  · rename_i s1 nb hheader
    obtain ⟨bits, -, he⟩ := Option.map_eq_some_iff.1 hheader
    cases he
    cases h
    exact steps_short rfl rfl (control_pushBits s bits) (outQ_pushBits s bits)
  · cases h

/-- Every step of every procedure has the shape of `Advances`, and only appends to `OUT_Q`. -/
theorem procOf_steps {i : Instr} {p : Point} {s t : State} (h : procOf i p s = .next t) : Steps i p s t := by
  cases p with
  | finishing => rw [procOf_finishing] at h; cases h; exact steps_finishing i s
  | raising code info => rw [procOf_raising] at h; cases h; exact steps_raising i code info s
  | start =>
    cases i with
    | nop => cases h; exact ⟨.ends rfl rfl (.inl rfl) rfl, List.prefix_rfl⟩
    | clear | readFreq | buildTree | readNode | readCode | estimate => cases h; exact steps_short rfl rfl rfl List.prefix_rfl
    | loadFreq idx =>
      cases h
      split
      · exact ⟨.moves (.raising _ _) s.phase rfl rfl id (by decide : 1 < 8) (Nat.le_refl 0), List.prefix_rfl⟩
      · exact steps_short rfl rfl rfl List.prefix_rfl
    | genCodes => exact steps_genCodes h
    | writeHeader => exact steps_writeHeader h
    | flush => cases h; exact steps_short rfl rfl (control_flushPacker s) (outQ_flushPacker s)
    | count => cases h; exact ⟨.moves .countIn s.phase rfl rfl id (by decide : 7 < 8) (Nat.le_refl 1), List.prefix_rfl⟩
    | encode =>
      cases h
      exact ⟨.moves (.encodeIn 0 0) s.phase rfl rfl id (by decide : 2 < 8) (Nat.le_refl 1), List.prefix_rfl⟩
    | compress => exact steps_compress h
    | decompress => exact steps_decompress h
  | countIn =>
    cases i with
    | count =>
      cases h
      exact steps_countBeat (i := .count) (after := State.countDone) (fun _ => ⟨rfl, rfl, rfl⟩) (List.Subset.refl _)
        (fun _ => List.Subset.refl _) (by decide : 1 ≤ 7) (Nat.le_refl 1) s
    | compress => exact steps_compress h
    | decompress => exact steps_decompress h
    | _ => cases h
  | encodeIn hd nb =>
    cases i with
    | encode =>
      cases h
      exact steps_encodeBeat (fun _ => rfl) (fun _ => rfl) (fun _ => rfl) (fun _ => rfl) (fun _ => rfl) nb s
    | compress => exact steps_compress h
    | decompress => exact steps_decompress h
    | _ => cases h
  | flushPhase hd e =>
    cases i with
    | encode => cases h; exact steps_flushBody (List.mem_singleton.2 rfl) hd e s
    | compress => exact steps_compress h
    | decompress => exact steps_decompress h
    | _ => cases h
  | _ =>
    cases i with
    | compress => exact steps_compress h
    | decompress => exact steps_decompress h
    | _ => cases h

end Sys2Proof.Machine
end

section
/-! PROOFS. What the shape of a step gives for the whole machine: the frame of the core's turn, the phase, the bound on
steps, and termination (10_state.md rule R22, 20_memory.md rules R53, R55, R61 and R67, 70_reset_and_hazards.md rules R157
and R166). -/

namespace Sys2Proof.Machine

/-! ## The core's turn (R61) -/

/-- The core's turn is no step, or a step of the running command's procedure. -/
theorem coreTurn_cases {s t : State} (h : coreTurn s = .next t) : (s.busy = false ∧ t = s) ∨
    ∃ i p, decode s.curCmd = .ok i ∧ s.standsAt p ∧ procOf i p s = .next t := by
  cases hb : s.busy with
  | false =>
    rw [coreTurn_of_idle hb] at h
    cases h
    exact .inl ⟨rfl, rfl⟩
  | true =>
    unfold coreTurn at h
    rw [if_pos hb] at h
    split at h
    · rename_i i hi
      rw [exec_eq, command, if_pos hb] at h
      split at h
      · rename_i p hk
        exact .inr ⟨i, p, hi, ⟨hb, hk⟩, h⟩
      · cases h
    · cases h

theorem inQ_of_steps {i : Instr} {p : Point} {s t : State} (hs : s.standsAt p) (h : Steps i p s t) :
    t.inQ = s.inQ ∨ s.inReady = true ∧ ∃ x, s.inQ = x :: t.inQ := by
  cases h.1 with
  | ends _ _ _ queue => exact .inl queue
  | waits _ _ still => exact .inl (still ▸ rfl)
  | moves q ph _ control => exact .inl (congrArg (·.2.2.2) control)
  | takes q x rest _ control _ beat queue =>
    obtain rfl : t.inQ = rest := congrArg (·.2.2.2) control
    exact .inr ⟨(inReady_iff s).2 ⟨p, hs, beat⟩, x, queue⟩

/-- Settles O58: the queues by the shape of a step, the rest as no step touches what belongs to the host. -/
theorem coreTurnFrame : Obligations.CoreTurnFrame := by
  intro s t h
  have hhost := hostSide_of_coreTurn h
  have hqueues : s.outQ <+: t.outQ ∧ (t.inQ = s.inQ ∨ s.inReady = true ∧ ∃ x, s.inQ = x :: t.inQ) := by
    obtain ⟨-, rfl⟩ | ⟨i, p, -, hs, hp⟩ := coreTurn_cases h
    · exact ⟨List.prefix_rfl, .inl rfl⟩
    · exact ⟨(procOf_steps hp).2, inQ_of_steps hs (procOf_steps hp)⟩
  obtain ⟨⟨out, hout⟩, hin⟩ := hqueues
  exact ⟨⟨out, hout.symm⟩, hin, congrArg (·.1) hhost, congrArg (·.2.1) hhost, congrArg (·.2.2.1) hhost,
    congrArg (·.2.2.2.1) hhost, congrArg (·.2.2.2.2.1) hhost, congrArg (·.2.2.2.2.2) hhost⟩

/-! ## The phase (R22) -/

theorem phaseOk_of_idle {s : State} (hb : s.busy = false) (hp : s.phase = .idle) : s.phaseOk :=
  ⟨fun _ => hp, fun _ _ h => absurd (hb.symm.trans h) (by decide)⟩

theorem firstPhase_mem (i : Instr) : firstPhase i ∈ phasesAt i .start := by cases i <;> exact List.mem_singleton.2 rfl

theorem State.phaseOk.coreTurn {s t : State} (h : s.phaseOk) (ht : coreTurn s = .next t) : t.phaseOk := by
  obtain ⟨-, rfl⟩ | ⟨i, p, hi, hs, hp⟩ := coreTurn_cases ht
  · exact h
  have hphase := h.2 i p hs.1 hi hs.2
  have go : ∀ {q : Point} {ph : Phase} {rest : List Beat}, t.k = some q → t.control = (s.busy, s.curCmd, ph, rest) →
      ph ∈ phasesAt i q → t.phaseOk := fun {q ph rest} hk hc hmem => by
    obtain ⟨hbusy, hcmd, hph, -⟩ : t.busy = s.busy ∧ t.curCmd = s.curCmd ∧ t.phase = ph ∧ t.inQ = rest := by
      simpa [State.control] using hc
    refine ⟨fun hb => absurd (hs.1.symm.trans (hbusy.symm.trans hb)) (by decide), fun j r _ hj hr => ?_⟩
    obtain rfl : j = i := Except.ok.inj (hj.symm.trans (hcmd ▸ hi))
    obtain rfl : r = q := Option.some.inj (hr.symm.trans hk)
    exact hph ▸ hmem
  cases (procOf_steps hp).1 with
  | ends idle phase => exact phaseOk_of_idle idle phase
  | waits _ _ still => exact still ▸ h
  | moves q ph stands control phase => exact go stands control (phase hphase)
  | takes q x rest stands control phase => exact go stands control (phase hphase)

theorem State.phaseOk.cmdWrite {s t : State} {w : Word} (h : s.phaseOk) (ht : cmdWrite w s = .next t) : t.phaseOk := by
  unfold Machine.cmdWrite at ht
  split at ht
  · cases ht
    exact h
  · rename_i hidle
    have hidle : s.busy = false := Bool.eq_false_iff.2 hidle
    split at ht
    · rename_i i hi
      rw [exec_idle i s hidle] at ht
      cases ht
      obtain ⟨-, e⟩ | ⟨-, -, e⟩ | ⟨-, -, e⟩ := dispatchLegal_cases i s <;> rw [e]
      · exact h
      · exact h
      · refine ⟨nofun, fun j p _ hj hp => ?_⟩
        obtain rfl : j = i := Except.ok.inj (hj.symm.trans (decodeEncode i))
        obtain rfl : p = .start := Option.some.inj hp.symm
        exact firstPhase_mem j
    · cases ht
      exact h

theorem State.phaseOk.regWrite {s t : State} {a : BitVec 8} {v : Word} (h : s.phaseOk) (ht : regWrite a v s = .next t) :
    t.phaseOk := by
  unfold Machine.regWrite at ht
  split at ht
  · cases ht
    unfold State.ctrlWrite
    dsimp only
    split
    · exact phaseOk_of_idle rfl rfl
    · exact h
  · cases ht; exact h
  · exact h.cmdWrite ht
  · cases ht; exact h
  · cases ht; exact h

theorem State.phaseOk.happen {s t : State} {e : Event} (h : s.phaseOk) (ht : happen e s = .next t) : t.phaseOk := by
  cases e with
  | core => exact h.coreTurn ht
  | regWrite a v => exact h.regWrite ht
  | regRead a =>
    cases ht
    obtain ⟨r, d, e⟩ := regRead_frame a s
    rw [e]
    exact h
  | pushIn | dropIn => cases ht; exact h
  | popOut =>
    cases ht
    unfold State.popOut
    split <;> exact h
  | reset => cases ht; exact phaseOk_of_idle rfl rfl

/-- Settles O55: the phase of each point is kept by the core's turn, and set by dispatch. -/
theorem phaseNamesTheStep : Obligations.PhaseNamesTheStep := by
  refine ⟨phaseOk_of_idle rfl rfl, fun s t h ht => ?_⟩
  cases ha : s.agenda with
  | nil =>
    rw [step_of_no_event ha] at ht
    exact h.coreTurn ht
  | cons e rest =>
    rw [step_of_event ha] at ht
    exact State.phaseOk.happen (s := { s with agenda := rest }) h ht

/-! ## The bound on steps (R166) -/

/-- A bound on the steps that the running command can still take without a beat; 0 while no command runs. -/
def State.stepsLeft (s : State) : Nat := if s.busy then (s.k.map Point.rank).getD 0 else 0

theorem stepsLeft_of_standsAt {s : State} {p : Point} (h : s.standsAt p) : s.stepsLeft = p.rank := by
  rw [State.stepsLeft, if_pos h.1, h.2]
  rfl

/-- Each step of an enabled core uses up a beat or comes nearer to the end. -/
theorem stepsLeft_of_step {s t : State} (ha : s.agenda = []) (he : s.coreEnabled = true) (h : step s = .next t) :
    t.inQ.length + t.stepsLeft + 1 ≤ s.inQ.length + s.stepsLeft := by
  rw [step_of_no_event ha] at h
  rw [State.coreEnabled, Bool.and_eq_true] at he
  obtain ⟨hidle, -⟩ | ⟨i, p, -, hs, hp⟩ := coreTurn_cases h
  · exact absurd (hidle.symm.trans he.1) (by decide)
  have hrank := p.rank_pos
  have go : ∀ {q : Point} {ph : Phase} {rest : List Beat}, t.k = some q → t.control = (s.busy, s.curCmd, ph, rest) →
      t.stepsLeft = q.rank ∧ t.inQ = rest := fun hk hc =>
    ⟨stepsLeft_of_standsAt ⟨(congrArg (·.1) hc).trans hs.1, hk⟩, congrArg (·.2.2.2) hc⟩
  rw [stepsLeft_of_standsAt hs]
  cases (procOf_steps hp).1 with
  | ends idle _ _ queue =>
    rw [State.stepsLeft, idle, queue]
    exact Nat.add_le_add_left hrank _
  | waits beat empty =>
    have hready := (inReady_iff s).2 ⟨p, hs, beat⟩
    rw [hready, empty] at he
    exact absurd he.2 (by decide)
  | moves q ph stands control _ nearer =>
    obtain ⟨hleft, hq⟩ := go stands control
    rw [hleft, hq]
    omega
  | takes q x rest stands control _ _ queue nearer =>
    obtain ⟨hleft, hq⟩ := go stands control
    rw [hleft, hq, queue, List.length_cons]
    omega

theorem agenda_of_step {s t : State} (ha : s.agenda = []) (h : step s = .next t) : t.agenda = [] := by
  rw [step_of_no_event ha] at h
  exact (congrArg (·.2.2.1) (hostSide_of_coreTurn h)).trans ha

/-- A run of turns that are all steps of the core. -/
theorem stepsLeft_of_run (n : Nat) {s t : State} (ha : s.agenda = [])
    (he : ∀ m < n, ∀ u, core.run m s = .next u → u.coreEnabled = true) (h : core.run n s = .next t) :
    n + t.inQ.length + t.stepsLeft ≤ s.inQ.length + s.stepsLeft := by
  induction n generalizing s with
  | zero =>
    cases h
    exact (Nat.zero_add _ ▸ Nat.le_refl _)
  | succ n ih =>
    cases hstep : step s with
    | next u =>
      rw [run_succ hstep] at h
      have hfirst := stepsLeft_of_step ha (he 0 (Nat.succ_pos n) s rfl) hstep
      have hrest := ih (agenda_of_step ha hstep)
        (fun m hm v hv => he (m + 1) (Nat.succ_lt_succ hm) v ((run_succ hstep m).trans hv)) h
      omega
    | fault r => rw [run_fault core hstep] at h; cases h
    | refused r => rw [run_refused core hstep] at h; cases h

/-- Settles O56: at most 8 steps without a beat are left at the start. -/
theorem commandStepBound : Obligations.CommandStepBound := by
  intro n s t _ ha hs he h
  have hrun := stepsLeft_of_run n ha he h
  rw [stepsLeft_of_standsAt hs] at hrun
  have hstart : Point.start.rank = 8 := rfl
  omega

/-! ## Termination (R157) -/

theorem endsNeeded_pos {i : Instr} {p : Point} {s : State} (hf : s.flagsAt i p = true) (hp : p.atInBeat = true) :
    1 ≤ endsNeeded i p := by
  cases p with
  | countIn =>
    cases i with
    | count => exact Nat.le_refl 1
    | compress => exact Nat.le_succ 1
    | _ => cases hf
  | encodeIn =>
    cases i with
    | encode | compress => exact Nat.le_refl 1
    | _ => cases hf
  | magicIn | tagIn | symIn | walkIn | drainIn =>
    cases i with
    | decompress => exact Nat.le_refl 1
    | _ => cases hf
  | _ => cases hp

theorem count_end_cons (x : Beat) (rest : List Beat) : (x :: rest).count .endBeat = rest.count .endBeat + x.ends := by
  cases x with
  | byte b => exact List.count_cons_of_ne (a := Beat.endBeat) (b := Beat.byte b) nofun
  | endBeat => exact List.count_cons_self

/-- A running command ends within the beats it holds and the steps it has left. -/
theorem reaches_end (n : Nat) {s : State} {i : Instr} {p : Point} (hn : s.inQ.length + p.rank ≤ n) (hinv : s.Inv)
    (hr : s.running i p) (hends : endsNeeded i p ≤ s.inQ.count .endBeat) :
    ∃ t : State, s.reaches t ∧ t.busy = false ∧ (t.done = true ∨ t.err = true) := by
  induction n generalizing s p with
  | zero => exact absurd hn (Nat.not_le.2 (Nat.add_pos_right _ p.rank_pos))
  | succ n ih =>
    obtain ⟨t, hstep, ht⟩ := stepKeepsInvariant s hinv
    have hp := (step_running hr).symm.trans hstep
    have hagenda := agenda_of_step hr.1 hstep
    obtain ⟨ha, hb, hi, hk⟩ := hr
    have go : ∀ {q : Point} {ph : Phase} {rest : List Beat}, t.k = some q → t.control = (s.busy, s.curCmd, ph, rest) →
        rest.length + q.rank ≤ n → endsNeeded i q ≤ rest.count .endBeat →
        ∃ u : State, s.reaches u ∧ u.busy = false ∧ (u.done = true ∨ u.err = true) := fun {q ph rest} hq hc hless hneeds => by
      obtain ⟨hbusy, hcmd, -, rfl⟩ : t.busy = s.busy ∧ t.curCmd = s.curCmd ∧ t.phase = ph ∧ t.inQ = rest := by
        simpa [State.control] using hc
      obtain ⟨u, hu, hend⟩ := ih hless ht ⟨hagenda, hbusy.trans hb, hcmd ▸ hi, hq⟩ hneeds
      exact ⟨u, State.reaches_step hstep hu, hend⟩
    cases (procOf_steps hp).1 with
    | ends idle _ told => exact ⟨t, State.reaches_step hstep (State.reaches_refl t), idle, told⟩
    | waits beat empty =>
      obtain ⟨⟨j, q, hj, -, hq, hf, -⟩, -⟩ := hinv.running hb
      obtain rfl : j = i := Except.ok.inj (hj.symm.trans hi)
      obtain rfl : q = p := Option.some.inj (hq.symm.trans hk)
      have hpos := endsNeeded_pos hf beat
      rw [empty] at hends
      exact absurd (hpos.trans hends) (by decide)
    | moves q ph stands control _ nearer needs => exact go stands control (by omega) (needs.trans hends)
    | takes q x rest stands control _ _ queue nearer needs =>
      rw [queue, List.length_cons] at hn
      rw [queue, count_end_cons] at hends
      exact go stands control (by omega) (by omega)

/-- Settles O57: the bound is what the state itself holds. -/
theorem commandEnds : Obligations.CommandEnds := fun _ _ _ hinv hr hends => reaches_end _ (Nat.le_refl _) hinv hr hends

end Sys2Proof.Machine
end

section
/-! PROOFS. Which commands write which state (10_state.md sections 2 and 6, 40_control.md rule R90, 44_header_codec.md rule
R112). -/

namespace Sys2Proof.Machine

/-! ## The parts of the state -/

/-- A part of the state that some commands write and the others leave alone. -/
inductive Part where
  | counts | place | nodes | codes | sizes | header | result | codeLen | packer | treeFlags | codeFlag | estimateFlags

/-- What a part holds. -/
def Part.type : Part → Type
  | .counts => Vector Word 256 × Word
  | .place => BitVec 10 × NodeIdx
  | .nodes => Vector Node 513
  | .codes => Vector CodeEntry 257
  | .sizes => Size × Size
  | .header => Word
  | .result => Size
  | .codeLen => BitVec 9
  | .packer => BitVec 8 × Fin 8
  | .treeFlags | .estimateFlags => Bool × Bool
  | .codeFlag => Bool

/-- The value of a part. -/
def State.part (s : State) : (f : Part) → f.type
  | .counts => (s.freq, s.total)
  | .place => (s.nodeCount, s.root)
  | .nodes => s.node
  | .codes => s.code
  | .sizes => (s.estOrig, s.estComp)
  | .header => s.hdrBits
  | .result => s.result
  | .codeLen => s.codeLen
  | .packer => (s.pkAcc, s.pkN)
  | .treeFlags => (s.treeValid, s.treeDecoded)
  | .codeFlag => s.codesValid
  | .estimateFlags => (s.estValid, s.gated)

/-- The command i is not one of those that write the part, at dispatch or in its procedure. -/
def Part.spared : Part → Instr → Prop
  | .counts, i => i ∉ [.clear, .count, .compress true, .compress false] ∧ ∀ b, i ≠ .loadFreq b
  | .place, i => i ∉ [.clear, .buildTree, .compress true, .compress false, .decompress]
  | .nodes, i => i ∉ [.buildTree, .compress true, .compress false, .decompress]
  | .codes, i => i ∉ [.genCodes, .compress true, .compress false]
  | .sizes, i => i ∉ [.clear, .estimate true, .estimate false, .compress true, .compress false]
  | .header, i =>
    i ∉ [.clear, .estimate true, .estimate false, .writeHeader, .compress true, .compress false, .decompress]
  | .result, i => i ∉ [.clear, .count, .writeHeader, .encode, .compress true, .compress false, .decompress]
  | .codeLen, i => i ≠ .clear ∧ ∀ wsel idx, i ≠ .readCode wsel idx
  | .packer, i => i ∉ [.clear, .writeHeader, .encode, .flush, .compress true, .compress false]
  | .treeFlags, i =>
    i ∉ [.clear, .count, .buildTree, .compress true, .compress false, .decompress] ∧ ∀ b, i ≠ .loadFreq b
  | .codeFlag, i =>
    i ∉ [.clear, .count, .buildTree, .genCodes, .compress true, .compress false, .decompress] ∧ ∀ b, i ≠ .loadFreq b
  | .estimateFlags, i =>
    i ∉ [.clear, .count, .buildTree, .genCodes, .estimate true, .estimate false, .compress true, .compress false,
      .decompress] ∧ ∀ b, i ≠ .loadFreq b

/-! ### What each command spares -/

theorem eq_codeLen_of_compress {f : Part} {force : Bool} (h : f.spared (.compress force)) : f = .codeLen := by
  cases f with
  | codeLen => rfl
  | _ => cases force <;> simp [Part.spared] at h

theorem ne_packer_of_spared {f : Part} {i : Instr} (h : f.spared i) (hi : i = .encode ∨ i = .writeHeader ∨ i = .flush) :
    f ≠ .packer := by
  rintro rfl
  obtain rfl | rfl | rfl := hi <;> simp [Part.spared] at h

/-! ## The shared operations -/

theorem part_pushBits {f : Part} (hf : f ≠ .packer) (s : State) (p : List Bool) : (s.pushBits p).part f = s.part f := by
  rw [pushBits_frame]
  cases f with
  | packer => exact absurd rfl hf
  | _ => rfl

theorem part_flushPacker {f : Part} (hf : f ≠ .packer) (s : State) : s.flushPacker.part f = s.part f := by
  obtain ⟨bytes, h, -⟩ := flushPacker_spec s
  rw [h]
  cases f with
  | packer => exact absurd rfl hf
  | _ => rfl

theorem part_countBeat {f : Part} (hf : f ≠ .counts) {after : State → State} (hafter : ∀ u, (after u).part f = u.part f)
    (s : State) : (countBeat after s).part f = s.part f := by
  unfold countBeat
  split
  · rfl
  · exact (hafter _).trans (by cases f <;> rfl)
  · split
    · cases f <;> rfl
    · cases f with
      | counts => exact absurd rfl hf
      | _ => rfl

theorem part_suspend (f : Part) (p : Point) (s : State) : (s.suspend p).part f = s.part f := by cases f <;> rfl

theorem part_withInput (f : Part) (q : List Beat) (s : State) : ({ s with inQ := q } : State).part f = s.part f := by
  cases f <;> rfl

theorem part_withPhase (f : Part) (ph : Phase) (s : State) : ({ s with phase := ph } : State).part f = s.part f := by
  cases f <;> rfl

theorem part_encodeBeat {f : Part} (hf : f ≠ .packer) (h nb : Nat) (s : State) :
    (encodeBeat h nb s).part f = s.part f := by
  unfold encodeBeat
  split
  · rfl
  · rw [part_suspend, part_pushBits hf, part_withInput]
  · dsimp only
    split
    · rw [part_suspend, part_pushBits hf, part_withInput]
    · rw [part_suspend, part_withInput]

theorem part_flushBody {f : Part} (hf : f ≠ .packer) (hf' : f ≠ .result) (h e : Nat) (s : State) :
    (s.flushBody h e).part f = s.part f := by
  refine Eq.trans ?_ ((part_flushPacker hf { s with phase := .flush }).trans (part_withPhase f .flush s))
  cases f with
  | result => exact absurd rfl hf'
  | _ => rfl

theorem part_finish (f : Part) (s : State) : s.finish.part f = s.part f := by cases f <;> rfl

/-! ## The procedures -/

theorem codeLen_of_compress {force : Bool} {p : Point} {s t : State} (h : procOf (.compress force) p s = .next t) :
    t.part .codeLen = s.part .codeLen := by
  cases p with
  | start | buildPhase | encodePhase | finishing | raising => cases h; rfl
  | countIn => cases h; exact part_countBeat (f := .codeLen) nofun (after := State.passDone) (fun _ => rfl) s
  | codesPhase =>
    simp only [procOf, compressProc, State.compressCodes] at h
    split at h
    · rename_i s1 htable
      obtain ⟨found, -, rfl⟩ := Option.map_eq_some_iff.1 htable
      cases h
      rfl
    · cases h
  | estimatePhase =>
    cases h
    unfold State.compressEstimate
    dsimp only
    split <;> rfl
  | headerPhase =>
    simp only [procOf, compressProc, State.compressHeader] at h
    split at h
    · rename_i s1 hd hheader
      obtain ⟨bits, -, he⟩ := Option.map_eq_some_iff.1 hheader
      cases he
      cases h
      exact part_pushBits (f := .codeLen) nofun { s with phase := .hdrWrite } bits
    · cases h
  | encodeIn hd nb => cases h; exact part_encodeBeat (f := .codeLen) nofun hd nb s
  | flushPhase hd e => cases h; exact part_flushBody (f := .codeLen) nofun nofun hd e s
  | _ => cases h

/-- What DECOMPRESS spares. -/
def State.sparedByDecompress (s : State) :
    Vector Word 256 × Word × Vector CodeEntry 257 × Size × Size × BitVec 9 × BitVec 8 × Fin 8 :=
  (s.freq, s.total, s.code, s.estOrig, s.estComp, s.codeLen, s.pkAcc, s.pkN)

theorem LoopFrame.spared {s t : State} (h : LoopFrame s t) : t.sparedByDecompress = s.sparedByDecompress := by
  unfold LoopFrame at h
  rw [h]
  rfl

theorem spared_bitBeat (p : Point) (s : State) : (bitBeat p s).sparedByDecompress = s.sparedByDecompress := by
  unfold bitBeat
  split
  · rfl
  · rfl
  · exact (runBits_frame ..).spared

theorem spared_of_decompress {p : Point} {s t : State} (h : procOf .decompress p s = .next t)
    (hp : ∀ code info, p ≠ .raising code info) : t.sparedByDecompress = s.sparedByDecompress := by
  cases p with
  | start | finishing => cases h; rfl
  | raising code info => exact absurd rfl (hp code info)
  | magicIn | tagIn | symIn | walkIn => cases h; exact spared_bitBeat ..
  | walkPhase => cases h; exact (runBits_frame s.upN.val (.walkIn 0 0) { s with phase := .walk }).spared
  | drainPhase cnt =>
    cases h
    unfold State.startDrain
    dsimp only
    split <;> rfl
  | drainIn cnt =>
    cases h
    unfold drainBeat
    split <;> rfl
  | _ => cases h

theorem part_of_decompress {p : Point} {s t : State} {f : Part} (h : procOf .decompress p s = .next t)
    (hp : ∀ code info, p ≠ .raising code info) (hf : f.spared .decompress) : t.part f = s.part f := by
  have hspared := spared_of_decompress h hp
  simp only [State.sparedByDecompress, Prod.mk.injEq] at hspared
  obtain ⟨hfreq, htotal, hcode, horig, hcomp, hlen, hacc, hn⟩ := hspared
  cases f with
  | counts => exact Prod.ext hfreq htotal
  | codes => exact hcode
  | sizes => exact Prod.ext horig hcomp
  | codeLen => exact hlen
  | packer => exact Prod.ext hacc hn
  | _ => simp [Part.spared] at hf

theorem part_of_encode {p : Point} {s t : State} {f : Part} (h : procOf .encode p s = .next t)
    (hp : ∀ code info, p ≠ .raising code info) (hf : f.spared .encode) : t.part f = s.part f := by
  have hpacker := ne_packer_of_spared hf (.inl rfl)
  cases p with
  | start => cases h; exact part_suspend f _ s
  | finishing => cases h; exact part_finish f s
  | raising code info => exact absurd rfl (hp code info)
  | encodeIn hd nb => cases h; exact part_encodeBeat hpacker hd nb s
  | flushPhase hd e =>
    cases h
    refine part_flushBody hpacker ?_ hd e s
    rintro rfl
    simp [Part.spared] at hf
  | _ => cases h

/-- The first step of each command that does its work in one step. -/
theorem part_of_start {i : Instr} {s t : State} {f : Part} (h : procOf i .start s = .next t) (hf : f.spared i) :
    t.part f = s.part f := by
  cases i with
  | nop => cases h; exact part_finish f s
  | readFreq | readNode => cases h; cases f <;> rfl
  | clear =>
    cases h
    cases f with
    | nodes | codes => rfl
    | _ => simp [Part.spared] at hf
  | count =>
    cases h
    cases f with
    | counts => simp [Part.spared] at hf
    | _ => rfl
  | loadFreq idx =>
    cases h
    cases f with
    | counts => simp [Part.spared] at hf
    | _ => split <;> rfl
  | buildTree =>
    cases h
    cases f with
    | place | nodes | treeFlags => simp [Part.spared] at hf
    | _ => rfl
  | genCodes =>
    simp only [procOf, genCodesProc] at h
    split at h
    · rename_i s1 htable
      obtain ⟨found, -, rfl⟩ := Option.map_eq_some_iff.1 htable
      cases h
      cases f with
      | codes | codeFlag => simp [Part.spared] at hf
      | _ => rfl
    · cases h
  | readCode =>
    cases h
    cases f with
    | codeLen => simp [Part.spared] at hf
    | _ => rfl
  | estimate force =>
    cases h
    cases f with
    | sizes | header | estimateFlags => cases force <;> simp [Part.spared] at hf
    | _ => rfl
  | writeHeader =>
    simp only [procOf, writeHeaderProc] at h
    split at h
    · rename_i s1 nb hheader
      obtain ⟨bits, -, he⟩ := Option.map_eq_some_iff.1 hheader
      cases he
      cases h
      refine Eq.trans ?_ (part_pushBits (ne_packer_of_spared hf (.inr (.inl rfl))) s bits)
      cases f with
      | header | result => simp [Part.spared] at hf
      | _ => rfl
    · cases h
  | flush =>
    cases h
    rw [part_suspend]
    exact part_flushPacker (ne_packer_of_spared hf (.inr (.inr rfl))) s
  | encode => cases h; exact part_suspend f _ s
  | compress force => obtain rfl := eq_codeLen_of_compress hf; exact codeLen_of_compress h
  | decompress => exact part_of_decompress h nofun hf

/-- A step of a procedure leaves alone every part that its command does not write, but a `raise` the packer. -/
theorem part_of_procOf {i : Instr} {p : Point} {s t : State} {f : Part} (h : procOf i p s = .next t)
    (hp : f = .packer → ∀ code info, p ≠ .raising code info) (hf : f.spared i) : t.part f = s.part f := by
  cases p with
  | finishing => rw [procOf_finishing] at h; cases h; exact part_finish f s
  | raising code info =>
    rw [procOf_raising] at h
    cases h
    cases f with
    | packer => exact absurd rfl (hp rfl code info)
    | _ => rfl
  | start => exact part_of_start h hf
  | countIn =>
    cases i with
    | count =>
      cases h
      refine part_countBeat ?counts (fun u => ?result) s
      case counts => rintro rfl; simp [Part.spared] at hf
      case result =>
        cases f with
        | result => simp [Part.spared] at hf
        | _ => rfl
    | compress force => obtain rfl := eq_codeLen_of_compress hf; exact codeLen_of_compress h
    | decompress => exact part_of_decompress h nofun hf
    | _ => cases h
  | _ =>
    cases i with
    | encode => exact part_of_encode h nofun hf
    | compress force => obtain rfl := eq_codeLen_of_compress hf; exact codeLen_of_compress h
    | decompress => exact part_of_decompress h nofun hf
    | _ => cases h

/-! ## Dispatch -/

theorem part_atStart {i : Instr} {f : Part} (hf : f.spared i) (s : State) : (atStart i s).part f = s.part f := by
  cases i with
  | nop | readFreq | readNode | readCode | writeHeader | encode | flush => rfl
  | clear | count | loadFreq | buildTree | decompress =>
    cases f with
    | treeFlags | codeFlag | estimateFlags => simp [Part.spared] at hf
    | _ => rfl
  | compress force => obtain rfl := eq_codeLen_of_compress hf; rfl
  | genCodes =>
    cases f with
    | codeFlag | estimateFlags => simp [Part.spared] at hf
    | _ => rfl
  | estimate force =>
    cases f with
    | estimateFlags => cases force <;> simp [Part.spared] at hf
    | _ => rfl

theorem part_dispatchLegal {i : Instr} {f : Part} (hf : f.spared i) (s : State) :
    (dispatchLegal i s).part f = s.part f := by
  obtain ⟨-, h⟩ | ⟨-, -, h⟩ | ⟨-, -, h⟩ := dispatchLegal_cases i s
  · rw [h]; cases f <;> rfl
  · rw [h]; cases f <;> rfl
  · rw [h]
    calc (accept i s.beginDispatch).part f = (atStart i s.beginDispatch).part f := by cases f <;> rfl
      _ = s.beginDispatch.part f := part_atStart hf _
      _ = s.part f := by cases f <;> rfl

/-- A transition of a command leaves alone every part that the command does not write, but a `raise` the packer. -/
theorem part_of_exec {i : Instr} {s t : State} {f : Part} (h : exec i s = .next t)
    (hk : f = .packer → ∀ code info, s.k ≠ some (.raising code info)) (hf : f.spared i) : t.part f = s.part f := by
  cases hb : s.busy with
  | false =>
    rw [exec_idle i s hb] at h
    cases h
    exact part_dispatchLegal hf s
  | true =>
    rw [exec_eq, command, if_pos hb] at h
    split at h
    · rename_i p hp
      exact part_of_procOf h (fun e code info hr => hk e code info (hr ▸ hp)) hf
    · cases h

/-- Settles O60: each clause speaks of one part. -/
theorem onlyTheseWrite : Obligations.OnlyTheseWrite := fun i s t h =>
  have spares : ∀ f : Part, f ≠ .packer → f.spared i → t.part f = s.part f := fun _ hne =>
    part_of_exec h fun he => absurd he hne
  ⟨fun hi hl => Prod.mk.inj (spares .counts nofun ⟨hi, hl⟩), fun hi => Prod.mk.inj (spares .place nofun hi),
    spares .nodes nofun, spares .codes nofun, fun hi => Prod.mk.inj (spares .sizes nofun hi), spares .header nofun,
    spares .result nofun, fun hi hr => spares .codeLen nofun ⟨hi, hr⟩,
    fun hi hk => Prod.mk.inj (part_of_exec (f := .packer) h (fun _ => hk) hi),
    fun hi hl => Prod.mk.inj (spares .treeFlags nofun ⟨hi, hl⟩), fun hi hl => spares .codeFlag nofun ⟨hi, hl⟩,
    fun hi hl => Prod.mk.inj (spares .estimateFlags nofun ⟨hi, hl⟩)⟩

end Sys2Proof.Machine
end

section
/-! PROOFS. Only LOAD_FREQ, READ_FREQ, READ_NODE and READ_CODE touch `DATA` (10_state.md section 2, rule R24).  Every
operation of the other commands commutes with the replacement of `DATA`. -/

namespace Sys2Proof.Machine

/-! ## The replacement of `DATA` -/

/-- The state with the word d in `DATA`. -/
def State.withData (d : Word) (s : State) : State := { s with data := d }

@[simp] theorem data_withData (d : Word) (s : State) : (s.withData d).data = d := rfl

@[simp] theorem inQ_withData (d : Word) (s : State) : (s.withData d).inQ = s.inQ := rfl

@[simp] theorem pkN_withData (d : Word) (s : State) : (s.withData d).pkN = s.pkN := rfl

@[simp] theorem upEos_withData (d : Word) (s : State) : (s.withData d).upEos = s.upEos := rfl

@[simp] theorem gated_withData (d : Word) (s : State) : (s.withData d).gated = s.gated := rfl

@[simp] theorem stack_withData (d : Word) (s : State) : (s.withData d).stack = s.stack := rfl

/-- A bit step with the word d in `DATA`. -/
def BitStep.withData (d : Word) : BitStep → BitStep
  | .wants p s => .wants p (s.withData d)
  | .stops p s => .stops p (s.withData d)

/-- The outcome with the word d in `DATA` of its next state. -/
def withDataNext (d : Word) : Result → Result
  | .next s => .next (s.withData d)
  | r => r

/-! ## The operations of the encoder's side -/

theorem pushBit_withData (d : Word) (s : State) (b : Bool) : (s.withData d).pushBit b = (s.pushBit b).withData d := by
  unfold State.pushBit
  rw [pkN_withData]
  dsimp only
  split <;> rfl

theorem pushBits_withData (d : Word) (s : State) (p : List Bool) :
    (s.withData d).pushBits p = (s.pushBits p).withData d := by
  induction p generalizing s with
  | nil => rfl
  | cons b p ih =>
    calc ((s.withData d).pushBit b).pushBits p = ((s.pushBit b).withData d).pushBits p := by rw [pushBit_withData]
      _ = ((s.pushBit b).pushBits p).withData d := ih _

theorem flushPacker_withData (d : Word) (s : State) : (s.withData d).flushPacker = s.flushPacker.withData d := by
  unfold State.flushPacker
  rw [pkN_withData]
  dsimp only
  split <;> rfl

theorem flushBody_withData (d : Word) (h e : Nat) (s : State) :
    (s.withData d).flushBody h e = (s.flushBody h e).withData d := by
  have hflush := flushPacker_withData d { s with phase := .flush }
  unfold State.flushBody
  exact congrArg (fun u : State => State.suspend .finishing { u with result := BitVec.ofNat 64 (h + e) }) hflush

theorem makeTable_withData (d : Word) (s : State) : (s.withData d).makeTable = s.makeTable.map (State.withData d) := by
  unfold State.makeTable
  rw [Option.map_map]
  rfl

theorem writeHeader_withData (d : Word) (s : State) :
    (s.withData d).writeHeader = s.writeHeader.map (fun r => (r.1.withData d, r.2)) := by
  unfold State.writeHeader
  rw [Option.map_map]
  refine congrArg (fun f => (headerBits s).map f) (funext fun bits => ?_)
  rw [pushBits_withData]
  rfl

theorem countBeat_withData (d : Word) {after : State → State} (hafter : ∀ s, after (s.withData d) = (after s).withData d)
    (s : State) : countBeat after (s.withData d) = (countBeat after s).withData d := by
  unfold countBeat
  rw [inQ_withData]
  split
  · rfl
  · exact hafter { s with inQ := _ }
  · have htotal : (s.withData d).total = s.total := rfl
    rw [htotal]
    split <;> rfl

theorem encodeBeat_withData (d : Word) (h nb : Nat) (s : State) :
    encodeBeat h nb (s.withData d) = (encodeBeat h nb s).withData d := by
  have hpush (rest : List Beat) (path : List Bool) := pushBits_withData d { s with inQ := rest } path
  unfold encodeBeat
  dsimp only [State.withData] at hpush ⊢
  split
  · rfl
  · rw [hpush]; rfl
  · split
    · rw [hpush]; rfl
    · rfl

theorem compressCodes_withData (d : Word) (s : State) :
    (s.withData d).compressCodes = withDataNext d s.compressCodes := by
  have htable := makeTable_withData d { s with phase := .codes }
  unfold State.compressCodes
  dsimp only [State.withData] at htable ⊢
  rw [htable]
  cases State.makeTable { s with phase := .codes } <;> rfl

theorem compressEstimate_withData (d : Word) (force : Bool) (s : State) :
    (s.withData d).compressEstimate force = (s.compressEstimate force).withData d := by
  have hestimate : State.estimate force { s.withData d with phase := .estimate } =
      (State.estimate force { s with phase := .estimate }).withData d := rfl
  unfold State.compressEstimate
  rw [hestimate]
  dsimp only
  rw [gated_withData]
  split <;> rfl

theorem compressHeader_withData (d : Word) (s : State) :
    (s.withData d).compressHeader = withDataNext d s.compressHeader := by
  have hheader := writeHeader_withData d { s with phase := .hdrWrite }
  unfold State.compressHeader
  dsimp only [State.withData] at hheader ⊢
  rw [hheader]
  cases State.writeHeader { s with phase := .hdrWrite } <;> rfl

/-! ## The operations of the decompressor -/

theorem headerDone_withData (d : Word) (made nb : Nat) (s : State) :
    headerDone made nb (s.withData d) = (headerDone made nb s).withData d := by
  unfold headerDone
  dsimp only [State.withData]
  split
  · split <;> rfl
  · rfl

theorem nextSlot_withData (d : Word) (made nb : Nat) (s : State) :
    nextSlot made nb (s.withData d) = (nextSlot made nb s).withData d := by
  unfold nextSlot
  rw [stack_withData]
  split
  · rfl
  · exact headerDone_withData d made nb s

theorem magicBit_withData (d : Word) (got v : Nat) (b : Bool) (s : State) :
    magicBit got v b (s.withData d) = (magicBit got v b s).withData d := by
  unfold magicBit
  dsimp only
  split
  · rfl
  · split
    · exact nextSlot_withData d 0 32 { s with node := nodesInvalid s.node, stack := [.slot .top] }
    · rfl

theorem makeInternal_withData (d : Word) (id : NodeIdx) (made nb : Nat) (s : State) :
    makeInternal id made nb (s.withData d) = (makeInternal id made nb s).withData d :=
  nextSlot_withData d made nb
    { s with
      node := nodeSet s.node id ⟨true, false, 0, 0, 0, 0⟩
      stack := .slot (.left id) :: .slot (.right id) :: s.stack }

theorem tagBit_withData (d : Word) (slot : Slot) (made nb : Nat) (b : Bool) (s : State) :
    tagBit slot made nb b (s.withData d) = (tagBit slot made nb b s).withData d := by
  unfold tagBit
  dsimp only
  split
  · rfl
  · split
    · rfl
    · exact makeInternal_withData d _ _ _ { s with node := linkChild slot (BitVec.ofNat 10 made) s.node }

theorem symBit_withData (d : Word) (id : NodeIdx) (made nb got v : Nat) (b : Bool) (s : State) :
    symBit id made nb got v b (s.withData d) = (symBit id made nb got v b s).withData d := by
  unfold symBit
  dsimp only
  split
  · rfl
  · split
    · rfl
    · exact nextSlot_withData d made (nb + 9)
        { s with node := nodeSet s.node id ⟨true, true, BitVec.ofNat 9 (2 * v + b.toNat), 0, 0, 0⟩ }

theorem walkBit_withData (d : Word) (cur : NodeIdx) (cnt : Nat) (b : Bool) (s : State) :
    walkBit cur cnt b (s.withData d) = (walkBit cur cnt b s).withData d := by
  unfold walkBit
  dsimp only [State.withData]
  generalize (if b then (nodeAt s.node cur).right else (nodeAt s.node cur).left) = next
  split
  · split <;> rfl
  · rfl

theorem onBit_withData (d : Word) (p : Point) (b : Bool) (s : State) :
    onBit p b (s.withData d) = (onBit p b s).withData d := by
  cases p with
  | magicIn => exact magicBit_withData ..
  | tagIn => exact tagBit_withData ..
  | symIn => exact symBit_withData ..
  | walkIn => exact walkBit_withData ..
  | _ => rfl

theorem onEos_withData (d : Word) (p : Point) (s : State) : onEos p (s.withData d) = onEos p s := rfl

theorem runBits_withData (d : Word) (n : Nat) (p : Point) (s : State) :
    runBits n p (s.withData d) = (runBits n p s).withData d := by
  induction n generalizing p s with
  | zero =>
    unfold runBits
    rw [onEos_withData]
    rw [upEos_withData]
    split <;> rfl
  | succ n ih =>
    have hbit := onBit_withData d p (s.upBuf.getLsbD n) { s with upN := Fin.ofNat 9 n }
    unfold runBits
    dsimp only [State.withData] at hbit ⊢
    rw [hbit]
    cases onBit p (s.upBuf.getLsbD n) { s with upN := Fin.ofNat 9 n } with
    | wants p' s' => exact ih p' s'
    | stops p' s' => rfl

theorem bitBeat_withData (d : Word) (p : Point) (s : State) : bitBeat p (s.withData d) = (bitBeat p s).withData d := by
  unfold bitBeat
  rw [inQ_withData]
  split
  · rfl
  · rfl
  · exact runBits_withData d 8 p (State.loadByte _ { s with inQ := _ })

theorem startDrain_withData (d : Word) (cnt : Nat) (s : State) :
    (s.withData d).startDrain cnt = (s.startDrain cnt).withData d := by
  unfold State.startDrain
  dsimp only [State.withData]
  split <;> rfl

theorem drainBeat_withData (d : Word) (cnt : Nat) (s : State) :
    drainBeat cnt (s.withData d) = (drainBeat cnt s).withData d := by
  unfold drainBeat
  rw [inQ_withData]
  split <;> rfl

/-! ## The procedures -/

theorem genCodes_withData (d : Word) (p : Point) (s : State) :
    procOf .genCodes p (s.withData d) = withDataNext d (procOf .genCodes p s) := by
  cases p with
  | start =>
    simp only [procOf, genCodesProc, makeTable_withData]
    cases s.makeTable <;> rfl
  | _ => rfl

theorem writeHeaderProc_withData (d : Word) (p : Point) (s : State) :
    procOf .writeHeader p (s.withData d) = withDataNext d (procOf .writeHeader p s) := by
  cases p with
  | start =>
    simp only [procOf, writeHeaderProc, writeHeader_withData]
    cases s.writeHeader <;> rfl
  | _ => rfl

theorem encode_withData (d : Word) (p : Point) (s : State) :
    procOf .encode p (s.withData d) = withDataNext d (procOf .encode p s) := by
  cases p with
  | start => rfl
  | encodeIn h nb => exact congrArg Host.Outcome.next (encodeBeat_withData d h nb s)
  | flushPhase h e => exact congrArg Host.Outcome.next (flushBody_withData d h e s)
  | _ => rfl

theorem compress_withData (d : Word) (force : Bool) (p : Point) (s : State) :
    procOf (.compress force) p (s.withData d) = withDataNext d (procOf (.compress force) p s) := by
  cases p with
  | start | buildPhase | encodePhase => rfl
  | countIn => exact congrArg Host.Outcome.next (countBeat_withData d (after := State.passDone) (fun _ => rfl) s)
  | codesPhase => exact compressCodes_withData d s
  | estimatePhase => exact congrArg Host.Outcome.next (compressEstimate_withData d force s)
  | headerPhase => exact compressHeader_withData d s
  | encodeIn h nb => exact congrArg Host.Outcome.next (encodeBeat_withData d h nb s)
  | flushPhase h e => exact congrArg Host.Outcome.next (flushBody_withData d h e s)
  | _ => rfl

theorem decompress_withData (d : Word) (p : Point) (s : State) :
    procOf .decompress p (s.withData d) = withDataNext d (procOf .decompress p s) := by
  cases p with
  | start => rfl
  | magicIn got v => exact congrArg Host.Outcome.next (bitBeat_withData d (.magicIn got v) s)
  | tagIn slot made nb => exact congrArg Host.Outcome.next (bitBeat_withData d (.tagIn slot made nb) s)
  | symIn id made nb got v => exact congrArg Host.Outcome.next (bitBeat_withData d (.symIn id made nb got v) s)
  | walkIn cur cnt => exact congrArg Host.Outcome.next (bitBeat_withData d (.walkIn cur cnt) s)
  | walkPhase => exact congrArg Host.Outcome.next (runBits_withData d s.upN.val (.walkIn 0 0) { s with phase := .walk })
  | drainPhase cnt => exact congrArg Host.Outcome.next (startDrain_withData d cnt s)
  | drainIn cnt => exact congrArg Host.Outcome.next (drainBeat_withData d cnt s)
  | _ => rfl

/-- The command is not one of the four that touch `DATA` (R24). -/
def leavesData : Instr → Prop
  | .loadFreq _ | .readFreq _ | .readNode _ _ | .readCode _ _ => False
  | _ => True

theorem procOf_withData (d : Word) {i : Instr} (hi : leavesData i) (p : Point) (s : State) :
    procOf i p (s.withData d) = withDataNext d (procOf i p s) := by
  cases i with
  | nop | clear | buildTree | estimate => cases p <;> rfl
  | flush =>
    cases p with
    | start =>
      exact congrArg (fun u : State => Host.Outcome.next (u.suspend .finishing)) (flushPacker_withData d s)
    | _ => rfl
  | count =>
    cases p with
    | start => rfl
    | countIn => exact congrArg Host.Outcome.next (countBeat_withData d (after := State.countDone) (fun _ => rfl) s)
    | _ => rfl
  | genCodes => exact genCodes_withData d p s
  | writeHeader => exact writeHeaderProc_withData d p s
  | encode => exact encode_withData d p s
  | compress force => exact compress_withData d force p s
  | decompress => exact decompress_withData d p s
  | loadFreq | readFreq | readNode | readCode => exact hi.elim

/-! ## The transition of a command -/

/-- Dispatch, of any command, neither reads nor writes `DATA`. -/
theorem dispatchLegal_withData (d : Word) (i : Instr) (s : State) :
    dispatchLegal i (s.withData d) = (dispatchLegal i s).withData d := by
  have hprereq : prerequisite i (s.withData d) = prerequisite i s := by cases i <;> rfl
  have haccept : accept i (s.withData d).beginDispatch = (accept i s.beginDispatch).withData d := by cases i <;> rfl
  unfold dispatchLegal
  rw [hprereq, haccept]
  split
  · rfl
  · split <;> rfl

theorem exec_withData (d : Word) {i : Instr} (hi : leavesData i) (s : State) :
    exec i (s.withData d) = withDataNext d (exec i s) := by
  have hbusy : (s.withData d).busy = s.busy := rfl
  have hk : (s.withData d).k = s.k := rfl
  rw [exec_eq, exec_eq, command, command, hbusy, hk, dispatchLegal_withData]
  split
  · split
    · exact procOf_withData d hi _ s
    · rfl
  · rfl

/-- Settles O59: a transition of a command that is none of the four commutes with the replacement of `DATA`; the
replacement by the word already there shows that the transition leaves `DATA`. -/
theorem dataIsLeftAlone : Obligations.DataIsLeftAlone := by
  intro i s t d h hleaves
  have hi : leavesData i := hleaves
  have hexec (d : Word) : exec i (s.withData d) = .next (t.withData d) := by rw [exec_withData d hi, h]; rfl
  have hsame : t = t.withData s.data := Host.Outcome.next.inj (h.symm.trans (hexec s.data))
  exact ⟨(congrArg State.data hsame).trans (data_withData s.data t), hexec d⟩

end Sys2Proof.Machine
end
